-- ==== Sys2Proof/Word.lean ====
section
/-! DEFINITION. The word types of the device and the shape of a table. -/

namespace Sys2Proof

/-- A byte of memory (R3). -/
abbrev Byte := BitVec 8
/-- A 32-bit word: one lane of a vector register, a mask, a sequencer register (R3). -/
abbrev Word := BitVec 32
/-- A doubleword: a scalar register, an address (R3). -/
abbrev DWord := BitVec 64

/-- A table of rows with keys; a key that no row has stands at a default the reader gives. The
operations are in Machine/Maps.lean. -/
abbrev Tab (κ α : Type) := List (κ × α)
/-- A table with numbered rows. -/
abbrev SMap (α : Type) := Tab Nat α

/-- A vector register: its 32 lanes, lane 0 first (R142). -/
abbrev VReg := List Word

end Sys2Proof
end

