-- ==== Sys2Proof/Syntax.lean ====
section
/-! DEFINITION. The instructions and steps of the device: one constructor of `Instr` per row of the
opcode table. -/

namespace Sys2Proof

/-! ## Names of the device's objects -/

/-- A context: its virtual function and its id in it (R320). -/
structure CKey where
  vf : Nat
  id : Nat
deriving DecidableEq, Repr

/-- A region: its context and its id, 1 to 65,535 (R82). -/
structure RKey where
  c : CKey
  id : Nat
deriving DecidableEq, Repr

/-- A block of a region; in a persistent region the logical core (R80, R89). -/
structure BKey where
  r : RKey
  n : Nat
deriving DecidableEq, Repr

/-- A group of a block, or with `sh > 0` a fork shadow of it (R78, R133). -/
structure GKey where
  b : BKey
  gid : Nat
  sh : Nat
deriving DecidableEq, Repr

/-- A flow: source device, source context, destination device, window id (R359). -/
structure FlowId where
  srcDev : Nat
  srcCtx : CKey
  dstDev : Nat
  win : Nat
deriving DecidableEq, Repr

/-- A packet of a flow, with its sequence number, offset in the window and payload (R358, R359). -/
structure Packet where
  flow : FlowId
  seq : BitVec 32
  off : Nat
  data : List Byte
deriving DecidableEq, Repr

/-- A Keep's part of a key exchange: its device's identity key, its share, and its signature of it (R363). -/
structure KeyOffer where
  key : BitVec 4096
  share : List Byte
  sig : BitVec 4096
deriving DecidableEq, Repr

/-- Where a page's bytes go when the page is a peer window (R360). -/
structure PeerWin where
  dev : Nat
  win : Nat
  off : Nat
deriving DecidableEq, Repr

/-- One mapping of a context's address space. The format of the tables is the Keep's (R192); a
page has a size code (R100), a frame in units of 4 KiB, permissions, residency, the request mark of
pgreq (R198), the accessed and dirty bits (R192), the die-local attribute (R191), and, while it is not resident, its contents with the
numbers of their poisoned sectors (R199). -/
structure Page where
  va : Nat
  psize : Nat
  frame : Nat
  r : Bool
  w : Bool
  res : Bool
  req : Bool
  acc : Bool
  dirty : Bool
  dieLocal : Bool := false
  away : List (Nat × Byte)
  bad : List Nat := []
  peer : Option PeerWin
deriving DecidableEq, Repr

/-- The three instruction streams (R27). -/
inductive Stream where
  | scalar | lane | matrix
deriving DecidableEq, Repr

/-! ## Fields of lane and matrix words -/

/-- The element types of R41; `r15` is the reserved code. -/
inductive Ty where
  | i32 | n32 | i16 | n16 | i8 | n8 | i64 | n64 | f32 | f16 | bf16 | e4 | e5 | tr | tk | r15
deriving DecidableEq, Repr

/-- The rounding modes of R41. -/
inductive Rm where
  | rne | rtz | rup | rdn
deriving DecidableEq, Repr

/-- The kinds of b operand of R38. -/
inductive BKind where
  | vreg | window | const | imm
deriving DecidableEq, Repr

/-- The operand fields of a lane word (R37): all but the major and the sub. -/
structure LArgs where
  h : Bool
  m : BitVec 4
  ty : Ty
  rm : Rm
  sat : Bool
  vd : BitVec 11
  va : BitVec 11
  bk : BKind
  b : BitVec 20
  vc : BitVec 11
  ext : BitVec 16
deriving DecidableEq, Repr

/-- The operand fields of a matrix word (R45): all but the op and the sub. -/
structure MArgs where
  ty : Ty
  a : BitVec 4
  grp : BitVec 6
  v : BitVec 11
  qb : BitVec 3
  imm : BitVec 24
deriving DecidableEq, Repr

/-! ## Operands of the steps that are no instructions -/

/-- What names the agents a debug command acts on (R369). -/
structure Selector where
  thread : Bool
  proc : BitVec 32
  thr : BitVec 32
  name : BitVec 64
  mask : BitVec 64
deriving DecidableEq, Repr

/-- The header of a debug command as it arrives: the session, the message counter of its nonce, its
tag, its bytes, and its sequence number (R367, R369). -/
structure Cmd where
  sess : Nat
  ctr : Nat
  tag : BitVec 128
  bytes : List Byte
  seq : Nat
deriving DecidableEq, Repr

/-- One field that a debug write of records replaces (R375). -/
inductive RecField where
  | s (e n : Nat) (v : DWord)
  | v (n l : Nat) (v : Word)
  | m (n : Nat) (v : Word)
  /-- A translation register, laid out as R100 says; a window; a special register. -/
  | b (n : Nat) (v : BitVec 128)
  | w (n : Nat) (base len : DWord)
  | special (n : Nat) (v : DWord)
  | pc (e : Nat) (v : DWord)
  | mask (e : Nat) (v : Word)
  | level (e : Nat) (v : BitVec 8)
  | join (e : Nat) (target : Option (DWord × BitVec 8))
  /-- The divergence stack of a split: PC, mask, join target and level of each entry. -/
  | stack (e : Nat) (ents : List (DWord × Word × DWord × BitVec 8))
  /-- Issue point and mask of a block of a lane queue. -/
  | queue (e i : Nat) (pc : DWord) (mask : Word)
  | delay (i : Nat) (v : Byte)
  | latch (i : Nat) (v : Byte)
  | maxMode (on : Bool)
  /-- The bytes of a store of the quantum buffer. -/
  | buffer (i : Nat) (bytes : List Byte)
  /-- Of block-level records: a history image, a ring's full stages, scratch bytes of a bank, entries of a FIFO bank, the
  sequencer's PC, a q register, an element of an accumulator. -/
  | history (img : List Byte)
  | ring (n : Nat) (full : BitVec 8)
  | scratch (bank off : Nat) (bytes : List Byte)
  | fifo (bank : Nat) (ents : List (List Word))
  | seqPc (v : DWord)
  | q (n : Nat) (v : Word)
  | acc (a i : Nat) (v : Word)
  /-- Of a group's records: a fault record's 32 bytes and the header of the record area (R323, R324); the next batch number and whether a batch
  is open; the state of an entry, as R131 numbers it; registers of a lane block's snapshot; operand and comparand of a lane of an
  atomic request; a watchpoint's address and control (R377); the mark; the count of Finial; the forks committed and squashed. -/
  | area (i : Nat) (bytes : List Byte)
  | header (v : DWord)
  | batch (next : Nat) (isOpen : Bool)
  | state (e st : Nat)
  | snapS (e i n : Nat) (v : DWord)
  | snapB (e i n : Nat) (v : BitVec 128)
  | atom (i l : Nat) (v cmp : DWord)
  | watchpoint (n : Nat) (addr ctl : DWord)
  | mark (v : BitVec 16)
  | finial (n : Nat)
  | forks (committed squashed : Nat)
  /-- Of block-level records: the relaunch count of the task record (R92), a ring's depth and indexes (R229), the instances that a barrier has
  completed, a bank's mode (R169). -/
  | task (relaunches : Nat)
  | ringAt (n depth gi ti : Nat)
  | barrier (tag : Option Nat) (inst : Nat)
  | bankMode (bank mode : Nat)
  | unknown (ty : Nat)
deriving DecidableEq, Repr

/-- A firmware image with its signature and the key that signed it (R386), and whether its component starts on it within 10 s (R388). -/
structure FwImage where
  bytes : List Byte
  sig : BitVec 4096
  key : BitVec 4096
  starts : Bool := true
deriving DecidableEq, Repr

/-- The components that hold firmware (R388). -/
inductive Component where
  | belfry | keep | die (d : Nat)
deriving DecidableEq, Repr

/-- What the monitors of a cluster read: its temperature in °C, its supply voltage and its process monitor (R389). -/
structure Reading where
  temp : Nat
  supply : Nat := 0
  process : Nat := 0
deriving DecidableEq, Repr

/-- What a maintenance step fences: a cluster (numbered die × 6 + cluster) or a die (R390). -/
inductive Part where
  | cluster (n : Nat) | die (d : Nat)
deriving DecidableEq, Repr

/-- Where a live value of a safe point stands: its class (0 s, 1 v, 2 m, 3 b, 4 w) and HVI register, and
its native register or, spilled, its offset from s15 (R351). -/
structure LiveVal where
  cls : Nat
  vreg : Nat
  spill : Bool
  loc : Int
deriving DecidableEq, Repr

/-- A safe point of an image, such as a return site: its native address, its id, its kind (0 back-edge, 1 call, 2 return site, 3 ring,
barrier or wait) and its live values (R351). -/
structure RetSite where
  addr : Nat
  id : Nat
  kind : Nat := 2
  live : List LiveVal
deriving DecidableEq, Repr

/-- What fsd-xl makes of a portable image: the lengths of its sections, and its maps section (R347, R348, R351). -/
structure XlImg where
  scallen : Nat := 0
  lanelen : Nat := 0
  matlen : Nat := 0
  maps : List Byte := []
deriving DecidableEq, Repr

/-- Writes of registers and tables that have no row of their own: those of the ports (R361) and the
Keep's own tables. -/
inductive RegWrite where
  /-- Entry `i` of the translation table of port `p` (R361). -/
  | port (p i : Nat) (v : BitVec 128)
  /-- The Keep creates a context, with or without system privilege (R320, R322). -/
  | ctxCreate (c : CKey) (sys : Bool) (proc thr : BitVec 32)
  /-- The Keep destroys a context (R320). -/
  | ctxDestroy (c : CKey)
  /-- The Keep sets a mapping; it replaces those that overlap it (R192, R315). -/
  | map (c : CKey) (p : Page)
  /-- The Keep removes the mapping that holds an address. -/
  | unmap (c : CKey) (va : Nat)
  /-- The Keep takes the frame of a page and keeps its contents (R196). -/
  | reclaim (c : CKey) (va : Nat)
  /-- The Keep writes bytes into a context's memory (loading a program, a message). -/
  | store (c : CKey) (va : Nat) (bytes : List Byte)
  /-- The Keep ends a bind call, sysc 1: it publishes the entry address, or 2, in the slot and returns it in s2; what s3 becomes is its
  own (R331, R356). -/
  | bind (g : GKey) (e : Nat) (v r3 : DWord)
  /-- The Keep sets the next number of a flow that this device receives, or sends, as it stood before the flow's context moved (R364). -/
  | flow (f : FlowId) (receives : Bool) (next : BitVec 32)
  /-- The Keep chooses the port that disciplines device time (R365). -/
  | ptpPort (port : Nat)
  /-- The Keep learns how a migration that it has sent went: the destination's key and its signed report of the restore, or that it has
  failed (R364). -/
  | migrated (stream : BitVec 32) (report : Option (BitVec 4096 × BitVec 4096))
  /-- The switch of a page move that is ready (R211, R315). -/
  | moved (c : CKey) (va : Nat)
  /-- The Keep reads and clears a 64-bit word of a die's dirty bitmap (R212). -/
  | dirtyWord (die n : Nat)
  /-- The Keep's frame counts of a virtual function (R209). -/
  | frames (vf guaranteed burst : Nat)
  /-- How many contexts a virtual function may hold (R320). -/
  | allowance (vf n : Nat)
  /-- The L2 ways of a virtual function's own partition; none is the pooled partition (R210). -/
  | l2ways (vf : Nat) (ways : List Nat)
  /-- A debug key installed for a scope, as the SHA-512 of the public key (R367). -/
  | debugKey (scope : Nat) (hash : BitVec 512)
  /-- Replay logging of a context (R382). -/
  | logging (c : CKey) (on : Bool)
  /-- The Keep replays a context's input log, or ends the replay (R382). -/
  | replay (c : CKey) (on : Bool)
  /-- The Keep deschedules a context's thread, which pre-empts its regions, or schedules it (R321). -/
  | schedule (c : CKey) (on : Bool)
  /-- A Keep thread asks by the hub's control interface for a save, for the load of an image, by a request of 64 bytes of a virtual
  function (R322, R338); its buffer is the Keep's own memory. -/
  | save (vf : Nat) (req : List Byte)
  | load (vf : Nat) (req image : List Byte)
  /-- The Keep restores a context that it has saved itself (R388). -/
  | restore (c : CKey)
  /-- The slice of a gang that the Keeps have agreed on, from one PTP time to another, in nanoseconds (R342). -/
  | gang (c : CKey) (start stop : Nat)
  /-- A Keep thread shoots down translations (R322, R339). -/
  | tlbinv (c : CKey) (lo hi : Nat)
  /-- A Keep thread launches the root region of a record (R82). -/
  | launch (c : CKey) (rcb : Nat)
  /-- The Keep releases the id of a completed root region (R93). -/
  | releaseRoot (r : RKey)
  /-- The Keep resets a counter of a context (R385). -/
  | resetCounter (c : CKey) (n : Nat)
  /-- The Keep supersedes the code in a range of a context by code at an address, of a length, with the maps of the old and of the new
  generation (R351, R354). -/
  | supersede (c : CKey) (lo hi newAt newLen : Nat) (oldMaps newMaps : List Byte)
  /-- The Keep loads a code object for a context at an address, with the entry addresses of its kernels and the address at which a
  translation would stand (R347, R348); it unloads one. -/
  | codeObject (c : CKey) (base : Nat) (bytes : List Byte) (kernels : List Nat) (xlAt : Nat)
  | unload (c : CKey) (base : Nat)
  /-- The Keep writes the code of a function that it binds to pages never fetched before, as part of the image of a kernel (R356). -/
  | publish (c : CKey) (kernel lo len : Nat)
  /-- The Keep limits the clock of a cluster for the package's power, or ends the limit (R389). -/
  | clockLimit (cluster : Nat) (on : Bool)
  /-- The Keep loads, saves the L2 tables of a virtual function (R293). -/
  | l2load (vf : Nat) (img : List Byte)
  | l2save (vf : Nat)
  /-- The Keep sets a context's sampling, its trace ring, as the commands do (R380, R383). -/
  | sampling (c : CKey) (n base cap : Nat) (timed : Bool)
  | tracing (c : CKey) (base cap : Nat)
deriving DecidableEq, Repr

/-! ## Steps -/

/-- The steps that are no instructions, each with its operands. -/
inductive Event where
  | forkResolve (g : GKey) (sh : Nat)
  | fusion (g : GKey) (lo hi : Nat)
  | joinWindowExpiry (g : GKey) (e : Nat)
  | napExpiry (g : GKey) (e : Nat)
  | blockAdmit (die : Nat) (r : RKey)
  | regionStarvation (die : Nat) (r : RKey)
  | regionComplete (r : RKey)
  | copyCommandComplete (cluster id : Nat)
  | bankSwitchComplete (b : BKey)
  | waitReread (g : GKey) (e : Nat)
  | parkedGiveWake (b : BKey) (n : Nat)
  | parkedTakeWake (b : BKey) (n : Nat)
  | barrierRelease (b : BKey) (t : Option Nat)
  | syscReply (g : GKey) (e : Nat) (r2 r3 : DWord) (fault : Option Nat)
  | fifoWaitEnd (g : GKey) (e : Nat)
  | resultReturn (g : GKey) (id : Nat)
  | lineFillComplete (cluster line : Nat)
  | adapterFillComplete (b : BKey) (id : Nat)
  | auditRecord (b : BKey)
  | frontListPromotion (g : GKey) (e : Nat)
  | quantumEnd (g : GKey)
  | quantumCommit (r : RKey)
  | sliceEnd (r : RKey)
  | pageMadeResident (c : CKey) (va frame : Nat) (ok : Bool)
  | pageMove (c : CKey) (va frame : Nat)
  | networkPacketReceive (port : Nat) (p : Packet)
  | ackReceive (f : FlowId) (seq : BitVec 32) (ok : Bool)
  | flowRetryLimit (f : FlowId)
  | keepRequestMessage (f : FlowId) (bytes : List Byte) (work : Option (CKey × Nat))
  | migration (c : CKey) (stream : BitVec 32) (offer : KeyOffer) (dst : Nat)
  | migrationRecordReceive (c : CKey) (stream : BitVec 32) (ctr : BitVec 64) (bytes : List Byte) (tag : BitVec 128) (last : Bool)
  | ptpMessage (port : Nat) (time : Nat)
  | hello (nc : BitVec 256) (keyHash : BitVec 512) (scope : Nat)
  | proof (sess : Nat) (key : BitVec 4096) (sig : BitVec 4096)
  | sessionIdleTimeout (sess : Nat)
  | attach (k : Cmd) (c : CKey) (allStop : Bool)
  | detach (k : Cmd)
  | halt (k : Cmd) (sel : Selector)
  | resume (k : Cmd) (sel : Selector)
  | step (k : Cmd) (name : BitVec 64)
  | read (k : Cmd) (name : BitVec 64) (types : Nat)
  | write (k : Cmd) (name : BitVec 64) (recs : List RecField)
  | memrd (k : Cmd) (c : CKey) (va len : Nat)
  | memwr (k : Cmd) (c : CKey) (va : Nat) (data : List Byte)
  | setbp (k : Cmd) (c : CKey) (n : Nat) (addr : Nat) (st : Stream) (sel : Selector)
  | clrbp (k : Cmd) (c : CKey) (n : Nat)
  | setwp (k : Cmd) (name : BitVec 64) (n : Nat) (addr ctl : DWord)
  | clrwp (k : Cmd) (name : BitVec 64) (n : Nat)
  | sample (k : Cmd) (c : CKey) (n base cap : Nat) (timed : Bool)
  | trace (k : Cmd) (c : CKey) (base cap : Nat)
  | counters (k : Cmd) (c : CKey)
  | breakpointMatch (g : GKey) (e n : Nat) (st : Stream)
  | registerWrite (w : RegWrite)
  | monitorPoll (readings : List (Nat × Reading))
  | droopDetect (cluster : Nat)
  | droopRecover (cluster : Nat)
  | boot (images : List FwImage)
  | attestationRequest (nonce : BitVec 256)
  | firmwareUpdate (comp : Component) (img : FwImage)
  | firmwareRecovery (comp : Component) (img : FwImage)
  | maintenanceFence (p : Part) (on : Bool)
  | accessPerformed (id : Nat)
  | matrixWordComplete (b : BKey)
  | campanileOperationComplete (core : Nat)
  | softError (die off : Nat) (sram correctable : Bool)
  | junctionShutdown
  | packetRetransmit (f : FlowId) (seq : BitVec 32)
  | gangSliceStart (c : CKey)
  | translationComplete (c : CKey) (kernel : Nat) (x : XlImg)
deriving DecidableEq, Repr

/-! ## Instructions -/

/-- The instructions and steps: one constructor per row of the opcode table. Scalar operands carry the
table's field names: `d` destination, `a`, `b`, `c` sources, `i` immediate, `o` offset. A step that is
no instruction has its operands in the `Event` that stands in the state when it runs. -/
inductive Instr where
  -- scalar stream, majors 0x00 to 0x0F
  | illegal (x : BitVec 26)
  | illegal3f (x : BitVec 26)
  | add (d a b : BitVec 7)
  | sub (d a b : BitVec 7)
  | and (d a b : BitVec 7)
  | or (d a b : BitVec 7)
  | xor (d a b : BitVec 7)
  | andn (d a b : BitVec 7)
  | shl (d a b : BitVec 7)
  | shr (d a b : BitVec 7)
  | sar (d a b : BitVec 7)
  | mul (d a b : BitVec 7)
  | mulh (d a b : BitVec 7)
  | mulhn (d a b : BitVec 7)
  | div (d a b : BitVec 7)
  | divn (d a b : BitVec 7)
  | rem (d a b : BitVec 7)
  | remn (d a b : BitVec 7)
  | min (d a b : BitVec 7)
  | max (d a b : BitVec 7)
  | minn (d a b : BitVec 7)
  | maxn (d a b : BitVec 7)
  | slt (d a b : BitVec 7)
  | sltn (d a b : BitVec 7)
  | seq (d a b : BitVec 7)
  | popc (d a : BitVec 7)
  | clz (d a : BitVec 7)
  | ctz (d a : BitVec 7)
  | addi (d a : BitVec 7) (i : BitVec 12)
  | andi (d a : BitVec 7) (i : BitVec 12)
  | ori (d a : BitVec 7) (i : BitVec 12)
  | xori (d a : BitVec 7) (i : BitVec 12)
  | slti (d a : BitVec 7) (i : BitVec 12)
  | sltni (d a : BitVec 7) (i : BitVec 12)
  | shli (d a : BitVec 7) (n : BitVec 6)
  | shri (d a : BitVec 7) (n : BitVec 6)
  | sari (d a : BitVec 7) (n : BitVec 6)
  | ldi (d : BitVec 7) (i : BitVec 19)
  | ldh1 (d : BitVec 7) (i : BitVec 19)
  | ldh2 (d : BitVec 7) (i : BitVec 19)
  | ldh3 (d : BitVec 7) (i : BitVec 7)
  | bfx (d a : BitVec 7) (p l : BitVec 6)
  | bfi (d a : BitVec 7) (p l : BitVec 6)
  | cmov (d a b : BitVec 7)
  | sld (d a : BitVec 7) (z : BitVec 3) (o : BitVec 9)
  | sst (t a : BitVec 7) (z : BitVec 3) (o : BitVec 9)
  -- branches, calls, splits
  | beq (a b : BitVec 7) (o : BitVec 12)
  | bne (a b : BitVec 7) (o : BitVec 12)
  | blt (a b : BitVec 7) (o : BitVec 12)
  | bge (a b : BitVec 7) (o : BitVec 12)
  | bltn (a b : BitVec 7) (o : BitVec 12)
  | bgen (a b : BitVec 7) (o : BitVec 12)
  | jmp (o : BitVec 26)
  | jal (o : BitVec 26)
  | jalr (d a : BitVec 7) (i : BitVec 12)
  | callf1 (i : BitVec 19)
  | callf2 (i : BitVec 19)
  | split (m : BitVec 4) (t j : BitVec 11)
  | switch (v : BitVec 11) (a : BitVec 7)
  | kill (n : BitVec 4)
  | nap (a : BitVec 7)
  | splrd (d e : BitVec 7)
  -- lane queue, translation registers, windows, special registers
  | lrun (i : BitVec 19)
  | bind (n : BitVec 4) (a : BitVec 7)
  | unbind (n : BitVec 4)
  | bstat (d : BitVec 7) (n : BitVec 4)
  | cwset (n : BitVec 3) (a b : BitVec 7)
  | cwinv (n : BitVec 3)
  | srd (d : BitVec 7) (r : BitVec 14)
  | swr (a : BitVec 7) (r : BitVec 14)
  | mtestAny (d : BitVec 7) (n : BitVec 4)
  | mtestAll (d : BitVec 7) (n : BitVec 4)
  | mtestNone (d : BitVec 7) (n : BitVec 4)
  | mcnt (d : BitVec 7) (n : BitVec 4)
  | sget (d : BitVec 7) (v : BitVec 9) (l : BitVec 5)
  -- regions
  | launch (d a : BitVec 7)
  | launchv (d a v : BitVec 7)
  | rwait (a : BitVec 7)
  | rstat (d a : BitVec 7)
  -- copy engine and banks
  | cpy (a b c : BitVec 7)
  | cpy2d (a b c : BitVec 7)
  | cpyg (a b c : BitVec 7)
  | cbatch (d : BitVec 7)
  | cwait (a : BitVec 7)
  | bankcfg (a b : BitVec 7)
  | bankst (d a : BitVec 7)
  | rret (a b c : BitVec 7)
  -- atomics, waits, fences
  | satom (s : BitVec 2) (o : BitVec 3) (d a b : BitVec 7)
  | scas (s : BitVec 2) (d a b : BitVec 7)
  | waiteq (a b : BitVec 7) (m : BitVec 5)
  | waitne (a b : BitVec 7) (m : BitVec 5)
  | fence (c : BitVec 3)
  -- rings and barriers
  | ringGive (d : BitVec 3) (n : BitVec 4)
  | ringTake (d : BitVec 3) (n : BitVec 4)
  | ringPeek (d : BitVec 7) (n : BitVec 4)
  | barArrive (t : BitVec 3)
  | barWait (t : BitVec 3)
  | barRoute (t : BitVec 3)
  -- Campanile, scalar side
  | twin (a b : BitVec 7)
  | tmode (m : BitVec 1)
  | tchain (n : BitVec 7)
  -- history, counters, pages
  | hsave (a : BitVec 7)
  | hload (a : BitVec 7)
  | hclr (a : BitVec 7)
  | hrd (d a : BitVec 7)
  | hwr (a b : BitVec 7)
  | cntRd (d : BitVec 7) (s : BitVec 3)
  | pgreq (a : BitVec 7)
  | pgq (d a : BitVec 7)
  -- traps, system, debug
  | trap (i : BitVec 14)
  | sysc (i : BitVec 14)
  | rteRe (n : BitVec 4)
  | fltrd (d a : BitVec 7)
  | ctxSave (d a : BitVec 7)
  | ctxLoad (d a : BitVec 7)
  | tlbinv (a b : BitVec 7)
  | brk (i : BitVec 14)
  | wptSet (n : BitVec 2) (a b : BitVec 7)
  | wptClr (n : BitVec 2)
  | smark (a : BitVec 7)
  | traceWr (a b : BitVec 7)
  -- lanes
  | vadd (x : LArgs)
  | vsub (x : LArgs)
  | vmul (x : LArgs)
  | vmulh (x : LArgs)
  | vmad (x : LArgs)
  | vmin (x : LArgs)
  | vmax (x : LArgs)
  | vabs (x : LArgs)
  | vneg (x : LArgs)
  | vand (x : LArgs)
  | vor (x : LArgs)
  | vxor (x : LArgs)
  | vandn (x : LArgs)
  | vnot (x : LArgs)
  | vshl (x : LArgs)
  | vshr (x : LArgs)
  | vsar (x : LArgs)
  | vpopc (x : LArgs)
  | vclz (x : LArgs)
  | vbfx (x : LArgs)
  | vbfi (x : LArgs)
  | vmov (x : LArgs)
  | vmovi (x : LArgs)
  | vsel (x : LArgs)
  | vlane (x : LArgs)
  | lend (x : LArgs)
  | vnop (x : LArgs)
  | vcmp (cond : BitVec 6) (x : LArgs)
  | vfadd (x : LArgs)
  | vfsub (x : LArgs)
  | vfmul (x : LArgs)
  | vffma (x : LArgs)
  | vfmin (x : LArgs)
  | vfmax (x : LArgs)
  | vfabs (x : LArgs)
  | vfneg (x : LArgs)
  | vfsign (x : LArgs)
  | vfdiv (x : LArgs)
  | vfsqrt (x : LArgs)
  | vfrcp (x : LArgs)
  | vfrsq (x : LArgs)
  | vfexp2 (x : LArgs)
  | vflog2 (x : LArgs)
  | vfcmp (cond : BitVec 6) (x : LArgs)
  | vfclass (x : LArgs)
  | vdot4 (x : LArgs)
  | vdot2 (x : LArgs)
  | vcvt (x : LArgs)
  | vcvtO (x : LArgs)
  | vternPack (x : LArgs)
  | vternUnpack (x : LArgs)
  | mand (x : LArgs)
  | mor (x : LArgs)
  | mxor (x : LArgs)
  | mandn (x : LArgs)
  | mnot (x : LArgs)
  | mmov (x : LArgs)
  | msetMask (x : LArgs)
  | mfirst (x : LArgs)
  | vshfl (x : LArgs)
  | vbcast (x : LArgs)
  | vrot (x : LArgs)
  | vvote (op : BitVec 6) (x : LArgs)
  | vred (op : BitVec 6) (x : LArgs)
  | vscan (op : BitVec 6) (x : LArgs)
  | vld (x : LArgs)
  | vst (x : LArgs)
  | vldu (x : LArgs)
  | vstu (x : LArgs)
  | vprf (x : LArgs)
  | vatom (op : BitVec 6) (x : LArgs)
  | vatomNr (op : BitVec 6) (x : LArgs)
  | vlds (x : LArgs)
  | vsts (x : LArgs)
  | vfpush (x : LArgs)
  | vfpop (x : LArgs)
  | tdly (x : LArgs)
  | tlaunch (x : LArgs)
  | tcap (x : LArgs)
  | trank (x : LArgs)
  -- matrix stream
  | macq (x : MArgs)
  | mrel (x : MArgs)
  | mwload (s : Bool) (x : MArgs)
  | mmul (x : MArgs)
  | mmulScr (x : MArgs)
  | mmula (x : MArgs)
  | mstore (f : BitVec 6) (x : MArgs)
  | mzero (x : MArgs)
  | mgive (x : MArgs)
  | mtake (x : MArgs)
  | mloop (x : MArgs)
  | mset (x : MArgs)
  | msetHi (x : MArgs)
  | msetV (x : MArgs)
  | madd (x : MArgs)
  | mend (x : MArgs)
  | maudit (x : MArgs)
  | mauditOff (x : MArgs)
  | adpf (x : MArgs)
  | adinv (x : MArgs)
  | adinvAll (x : MArgs)
  -- instructions without operands
  | ret
  | exit
  | yield
  | lsync
  | fenceEng
  | barBlk
  | tacq
  | trel
  | treset
  | qend
  | rte
  | rteSkip
  -- steps that are no instructions: their operands stand in `Event`
  | forkResolve
  | fusion
  | joinWindowExpiry
  | napExpiry
  | blockAdmit
  | regionStarvation
  | regionComplete
  | copyCommandComplete
  | bankSwitchComplete
  | waitReread
  | parkedGiveWake
  | parkedTakeWake
  | barrierRelease
  | syscReply
  | fifoWaitEnd
  | resultReturn
  | lineFillComplete
  | adapterFillComplete
  | auditRecord
  | frontListPromotion
  | quantumEnd
  | quantumCommit
  | sliceEnd
  | pageMadeResident
  | pageMove
  | networkPacketReceive
  | ackReceive
  | flowRetryLimit
  | keepRequestMessage
  | migration
  | migrationRecordReceive
  | ptpMessage
  | hello
  | proof
  | sessionIdleTimeout
  | attach
  | detach
  | halt
  | resume
  | step
  | read
  | write
  | memrd
  | memwr
  | setbp
  | clrbp
  | setwp
  | clrwp
  | sample
  | trace
  | counters
  | breakpointMatch
  | registerWrite
  | monitorPoll
  | droopDetect
  | droopRecover
  | boot
  | attestationRequest
  | firmwareUpdate
  | firmwareRecovery
  | maintenanceFence
  | unassignedEncoding
  | accessPerformed
  | matrixWordComplete
  | campanileOperationComplete
  | softError
  | junctionShutdown
  | packetRetransmit
  | gangSliceStart
  | translationComplete
deriving DecidableEq, Repr

/-- The row of the opcode table a step belongs to. -/
def Event.row : Event → Instr
  | .forkResolve _ _ => .forkResolve
  | .fusion _ _ _ => .fusion
  | .joinWindowExpiry _ _ => .joinWindowExpiry
  | .napExpiry _ _ => .napExpiry
  | .blockAdmit _ _ => .blockAdmit
  | .regionStarvation _ _ => .regionStarvation
  | .regionComplete _ => .regionComplete
  | .copyCommandComplete _ _ => .copyCommandComplete
  | .bankSwitchComplete _ => .bankSwitchComplete
  | .waitReread _ _ => .waitReread
  | .parkedGiveWake _ _ => .parkedGiveWake
  | .parkedTakeWake _ _ => .parkedTakeWake
  | .barrierRelease _ _ => .barrierRelease
  | .syscReply _ _ _ _ _ => .syscReply
  | .fifoWaitEnd _ _ => .fifoWaitEnd
  | .resultReturn _ _ => .resultReturn
  | .lineFillComplete _ _ => .lineFillComplete
  | .adapterFillComplete _ _ => .adapterFillComplete
  | .auditRecord _ => .auditRecord
  | .frontListPromotion _ _ => .frontListPromotion
  | .quantumEnd _ => .quantumEnd
  | .quantumCommit _ => .quantumCommit
  | .sliceEnd _ => .sliceEnd
  | .pageMadeResident _ _ _ _ => .pageMadeResident
  | .pageMove _ _ _ => .pageMove
  | .networkPacketReceive _ _ => .networkPacketReceive
  | .ackReceive _ _ _ => .ackReceive
  | .flowRetryLimit _ => .flowRetryLimit
  | .keepRequestMessage _ _ _ => .keepRequestMessage
  | .migration _ _ _ _ => .migration
  | .migrationRecordReceive _ _ _ _ _ _ => .migrationRecordReceive
  | .ptpMessage _ _ => .ptpMessage
  | .hello _ _ _ => .hello
  | .proof _ _ _ => .proof
  | .sessionIdleTimeout _ => .sessionIdleTimeout
  | .attach _ _ _ => .attach
  | .detach _ => .detach
  | .halt _ _ => .halt
  | .resume _ _ => .resume
  | .step _ _ => .step
  | .read _ _ _ => .read
  | .write _ _ _ => .write
  | .memrd _ _ _ _ => .memrd
  | .memwr _ _ _ _ => .memwr
  | .setbp _ _ _ _ _ _ => .setbp
  | .clrbp _ _ _ => .clrbp
  | .setwp _ _ _ _ _ => .setwp
  | .clrwp _ _ _ => .clrwp
  | .sample _ _ _ _ _ _ => .sample
  | .trace _ _ _ _ => .trace
  | .counters _ _ => .counters
  | .breakpointMatch _ _ _ _ => .breakpointMatch
  | .registerWrite _ => .registerWrite
  | .monitorPoll _ => .monitorPoll
  | .droopDetect _ => .droopDetect
  | .droopRecover _ => .droopRecover
  | .boot _ => .boot
  | .attestationRequest _ => .attestationRequest
  | .firmwareUpdate _ _ => .firmwareUpdate
  | .firmwareRecovery _ _ => .firmwareRecovery
  | .maintenanceFence _ _ => .maintenanceFence
  | .accessPerformed _ => .accessPerformed
  | .matrixWordComplete _ => .matrixWordComplete
  | .campanileOperationComplete _ => .campanileOperationComplete
  | .softError _ _ _ _ => .softError
  | .junctionShutdown => .junctionShutdown
  | .packetRetransmit _ _ => .packetRetransmit
  | .gangSliceStart _ => .gangSliceStart
  | .translationComplete _ _ _ => .translationComplete

end Sys2Proof
end

