-- ==== Sys2Proof/Config.lean ====
section
/-! DEFINITION. What an implementation fixes, and the free values: constants with no body, of which
no proof can see the value. -/

namespace Sys2Proof.Config

/-- A free choice (DESIGN CHOICE, log entry 5): which of several allowed outcomes takes place. It is applied to a
counter of State that every use advances. -/
opaque choice : Nat → Nat
/-- The cycles that pass in a step; when nothing moves, those beyond the first (DESIGN CHOICE, log entry 4). -/
opaque elapsed : Nat → Nat
/-- SHA-512 (R8, R367, R386). -/
opaque sha512 : List Byte → BitVec 512
/-- RSA-4096 verification of a signature over a digest under a public key (R367, R386). -/
opaque rsaVerify : BitVec 4096 → BitVec 512 → BitVec 4096 → Bool
/-- The signature of the device identity key over a digest (R367, R387). -/
opaque deviceSign : BitVec 512 → BitVec 4096
/-- RSA-OAEP of a session key to a client's public key (R367). -/
opaque oaep : BitVec 4096 → BitVec 256 → BitVec 4096
/-- Whether a public key, by its hash, is an operator's, which a session of device scope needs (R367); no rule says which keys are (DESIGN
CHOICE, log entry 108). -/
opaque operatorKey : BitVec 512 → Bool
/-- The random 256-bit values Belfry draws: nonces and session keys (R367). -/
opaque random256 : Nat → BitVec 256
/-- Whether an AES-256-GCM tag verifies under a key for a 96-bit nonce and a message (R364, R367). -/
opaque gcmVerify : BitVec 256 → BitVec 96 → List Byte → BitVec 128 → Bool
/-- AES-256-GCM of a message under a key and a nonce, tag included (R363). -/
opaque gcmSeal : BitVec 256 → BitVec 96 → List Byte → List Byte
/-- The SHA-512 of the vendor key, fused in the hub die (R386). -/
opaque vendorKeyHash : BitVec 512
/-- The device serial (R387). -/
opaque serial : BitVec 256
/-- AES-256-GCM opened: the message of a sealed record (R364). -/
opaque gcmOpen : BitVec 256 → BitVec 96 → List Byte → List Byte
/-- The share that a Keep shows of its secret, and the key agreed from a secret and the other's share (R363) (log entry 92). -/
opaque keyShare : BitVec 256 → List Byte
opaque keyAgree : BitVec 256 → List Byte → BitVec 256
/-- The message of a migration record: its kind, the owner and the address of its contents; and the page, or the
save image, that a received message carries, if it carries one. The spec gives no format (R363, DESIGN CHOICE, log
entry 12). -/
opaque migrationRecord : Nat → Nat → Nat → List Byte → List Byte
opaque migrationPage : List Byte → Option Page
opaque migrationImage : List Byte → Option (List Byte)
/-- This device's number among its peers, as flows name devices (R359). -/
opaque deviceId : Nat
/-- The deviation of an audit between two equal infinities, of which R74 states no value (DESIGN CHOICE, log entry 33). -/
opaque infDeviation : BitVec 32
/-- The port that carries a flow. -/
opaque portOf : Nat → Nat

end Sys2Proof.Config
end

