-- ==== Sys2Proof/WellFormed.lean ====
section
/-! DEFINITION. Which instructions are well formed: the checks of order 1 of R29 that an encoding
alone decides. An ill-formed instruction raises the illegal-instruction fault at issue. -/

namespace Sys2Proof

namespace Ty

/-- The integer types of R50. -/
def isInt : Ty → Bool
  | i32 | n32 | i16 | n16 | i8 | n8 | i64 | n64 => true
  | _ => false
/-- The types of 64 bits (R39). -/
def is64 : Ty → Bool
  | i64 | n64 => true
  | _ => false
/-- The float types of the arithmetic families (R156). -/
def isF3 : Ty → Bool
  | f32 | f16 | bf16 => true
  | _ => false
/-- Types 0 to 12, which conversions accept (R160). -/
def isConv : Ty → Bool
  | tr | tk | r15 => false
  | _ => true
/-- The word and doubleword integers (R155). -/
def isCmp : Ty → Bool
  | i32 | n32 | i64 | n64 => true
  | _ => false
/-- The types that move one word or one pair (R164, R180). -/
def isMove : Ty → Bool
  | i32 | n32 | f32 | i64 | n64 => true
  | _ => false
/-- The width of an element in bits (R39). -/
def width : Ty → Nat
  | i64 | n64 => 64
  | i32 | n32 | f32 => 32
  | i16 | n16 | f16 | bf16 => 16
  | i8 | n8 | e4 | e5 | tk => 8
  | tr => 2
  | r15 => 32
/-- The number of elements in a lane; a pair of a 64-bit type is one (R39, R160). -/
def elems (t : Ty) : Nat := if t.is64 then 1 else 32 / t.width
/-- The type of a code (R41). -/
def ofCode (n : BitVec 4) : Ty :=
  match n.toNat with
  | 0 => i32 | 1 => n32 | 2 => i16 | 3 => n16 | 4 => i8 | 5 => n8 | 6 => i64 | 7 => n64
  | 8 => f32 | 9 => f16 | 10 => bf16 | 11 => e4 | 12 => e5 | 13 => tr | 14 => tk | _ => r15
/-- The code of a type (R41). -/
def code : Ty → BitVec 4
  | i32 => 0 | n32 => 1 | i16 => 2 | n16 => 3 | i8 => 4 | n8 => 5 | i64 => 6 | n64 => 7
  | f32 => 8 | f16 => 9 | bf16 => 10 | e4 => 11 | e5 => 12 | tr => 13 | tk => 14 | r15 => 15

end Ty

namespace LArgs

/-- The b field is one its kind allows (R38): unused bits zero, and an even offset for a doubleword
of a constant window (R39). -/
def bOk (x : LArgs) : Bool :=
  match x.bk with
  | .vreg => x.b.extractLsb' 11 9 == 0
  | .window => x.b.extractLsb' 4 16 == 0
  | .const => !x.ty.is64 || x.b.extractLsb' 0 1 == 0
  | .imm => true
/-- No b operand: every bit of the field and of its kind is zero (R28). -/
def noB (x : LArgs) : Bool := x.bk == .vreg && x.b == 0
/-- A uniform b operand: kinds 01, 10 and 11 (R165, R200). -/
def uniB (x : LArgs) : Bool := x.bk != .vreg && x.bOk
/-- A mask in b: kind 00, a number below 16 (R150). -/
def mB (x : LArgs) : Bool := x.bk == .vreg && x.b.extractLsb' 4 16 == 0
/-- A mask in vd, in va, in vc (R150). -/
def mD (x : LArgs) : Bool := x.vd.extractLsb' 4 7 == 0
def mA (x : LArgs) : Bool := x.va.extractLsb' 4 7 == 0
def mC (x : LArgs) : Bool := x.vc.extractLsb' 4 7 == 0
/-- No rounding, no saturation, no ext. -/
def noRm (x : LArgs) : Bool := x.rm == .rne
def plain (x : LArgs) : Bool := x.noRm && !x.sat
def noExt (x : LArgs) : Bool := x.ext == 0
def noVc (x : LArgs) : Bool := x.vc == 0
/-- The fields of ext of the lane memory majors (R40). -/
def breg (x : LArgs) : Nat := (x.ext.extractLsb' 12 4).toNat
def scale (x : LArgs) : Nat := 2 ^ (x.ext.extractLsb' 10 2).toNat
def resmask (x : LArgs) : Nat := (x.ext.extractLsb' 6 4).toNat
def scope (x : LArgs) : Nat := (x.ext.extractLsb' 3 3).toNat
def order (x : LArgs) : Nat := (x.ext.extractLsb' 1 2).toNat
def nt (x : LArgs) : Bool := x.ext.getLsbD 0
/-- The checks that a load shares (R200): orders plain and acquire, .rmt only with acquire. -/
def ldOk (x : LArgs) : Bool :=
  x.noRm && x.ty != .r15 && x.noVc && (x.order == 0 || x.order == 1) && (!x.sat || x.order == 1)
/-- The checks that a store shares (R200): orders plain and release, no residency mask. -/
def stOk (x : LArgs) : Bool :=
  x.noRm && x.ty != .r15 && x.vd == 0 && (x.order == 0 || x.order == 2) && x.resmask == 0 && !x.sat
/-- The types an atomic accepts by op (R204). -/
def atTy (op : Nat) (t : Ty) : Bool :=
  if op == 1 then t == .f32
  else if op == 7 || op == 8 then t.isMove
  else op ≤ 8 && t.isCmp
/-- The checks of vatom and vatom.nr (R200, R204). -/
def atOk (op : Nat) (x : LArgs) : Bool :=
  x.noRm && atTy op x.ty && x.order != 3 && x.resmask == 0 && (!x.sat || x.order == 1) &&
    (if op == 8 then x.bOk else x.noB)
/-- A conversion's types and part (R160). -/
def cvSrc (x : LArgs) : Ty := Ty.ofCode (x.ext.extractLsb' 0 4)
def cvPart (x : LArgs) : Nat := (x.ext.extractLsb' 4 2).toNat
def cvOk (x : LArgs) : Bool :=
  x.ty.isConv && x.cvSrc.isConv && x.ext.extractLsb' 6 10 == 0 && x.noVc &&
    (let es := x.cvSrc.elems; let ed := x.ty.elems
     if es == ed then x.cvPart == 0
     else if ed > es then x.cvPart < ed / es else x.cvPart < es / ed)
/-- The types a reduction accepts by op, and where rounding and sat may be set (R167). -/
def redOk (op : Nat) (x : LArgs) : Bool :=
  x.noB && x.noVc &&
    (if op ≤ 5 then x.ty.isInt && x.noRm && (op == 0 || !x.sat)
     else op ≤ 8 && x.ty.isF3 && (op == 6 || x.plain))
/-- The shared checks of the Campanile lane side (R274). -/
def tkOk (x : LArgs) : Bool := x.ty == .tk && x.plain && x.noB && x.noVc

end LArgs

namespace MArgs

/-- The low, `hi`-exclusive field of the immediate from bit `lo`, as a number. -/
def immF (x : MArgs) (lo n : Nat) : Nat := (x.imm.extractLsb' lo n).toNat
/-- The fields of R240 that hold zero. -/
def z (x : MArgs) (ty a grp v qb : Bool) : Bool :=
  (!ty || x.ty == .i32) && (!a || x.a == 0) && (!grp || x.grp == 0) && (!v || x.v == 0) &&
    (!qb || x.qb == 0)
/-- The 8- and 16-bit operand types of mmul; tr is for weights only (R240). -/
def actTy (x : MArgs) : Bool :=
  match x.ty with
  | .f16 | .bf16 | .e4 | .e5 | .i8 | .n8 => true
  | _ => false
/-- The destination types of mstore (R240). -/
def stTy (x : MArgs) : Bool :=
  match x.ty with
  | .f32 | .f16 | .bf16 | .e4 | .e5 | .i32 | .n32 | .i16 | .n16 | .i8 | .n8 => true
  | _ => false

end MArgs

/-- The special registers of R98, by number. -/
def srKnown (n : Nat) : Bool := n ≤ 0x14 || (0x18 ≤ n && n ≤ 0x1A) || (0x20 ≤ n && n ≤ 0x23) || n == 0x28 || n == 0x29

/-- The special registers that swr may write: RW and W1C (R98). -/
def srWritable (n : Nat) : Bool := n == 0x13 || n == 0x18 || n == 0x19 || (0x20 ≤ n && n ≤ 0x23) || n == 0x29

/-- The checks of order 1 of R29 that the encoding decides. -/
def WellFormed : Instr → Bool
  | .jalr d a i => !(d == 0 && a == 1 && i == 0)
  | .bfx _ _ p l | .bfi _ _ p l => p.toNat + l.toNat + 1 ≤ 64
  | .sld _ _ z _ => z != 7
  | .sst _ _ z _ => z == 0 || z == 2 || z == 4 || z == 6
  | .splrd _ e => (e.extractLsb' 0 5).toNat ≤ 26
  | .srd _ r => srKnown r.toNat
  | .swr _ r => srWritable r.toNat
  | .cpy2d _ _ c | .cpyg _ _ c => c != 127
  | .satom s o _ _ _ => s != 3 && o != 7
  | .scas s _ _ _ => s != 3
  | .tchain n => n != 0
  | .cntRd _ s => s.toNat < 4
  | .vadd x | .vsub x | .vmul x => x.ty.isInt && x.noRm && x.bOk && x.noVc && x.noExt
  | .vmulh x | .vmin x | .vmax x => x.ty.isInt && x.plain && x.bOk && x.noVc && x.noExt
  | .vmad x => x.ty.isInt && x.noRm && x.bOk && x.noExt
  | .vabs x | .vneg x => x.ty.isInt && x.noRm && x.noB && x.noVc && x.noExt
  | .vand x | .vor x | .vxor x | .vandn x | .vshl x | .vshr x | .vsar x =>
    x.ty.isInt && x.plain && x.bOk && x.noVc && x.noExt
  | .vnot x | .vpopc x | .vclz x => x.ty.isInt && x.plain && x.noB && x.noVc && x.noExt
  | .vbfx x | .vbfi x =>
    (x.ty == .i32 || x.ty == .n32) && x.plain && x.noB && x.noVc && x.ext.extractLsb' 10 6 == 0 &&
      (x.ext.extractLsb' 0 5).toNat + (x.ext.extractLsb' 5 5).toNat + 1 ≤ 32
  | .vmov x => x.ty != .r15 && x.plain && x.va == 0 && x.bOk && x.noVc && x.noExt
  | .vmovi x =>
    (x.ty == .i32 || x.ty == .n32 || x.ty == .f32) && x.plain && x.va == 0 && x.noVc &&
      x.bk == .imm && x.b.extractLsb' 16 4 == 0
  | .vsel x => x.ty != .r15 && x.plain && x.bOk && x.mC && x.noExt
  | .vlane x => x.ty == .i32 && x.plain && x.va == 0 && x.noB && x.noVc && x.noExt
  | .lend x | .vnop x =>
    x.m == 0 && x.ty == .i32 && x.plain && x.vd == 0 && x.va == 0 && x.noB && x.noVc && x.noExt
  | .vcmp c x => c.toNat ≤ 5 && x.ty.isCmp && x.plain && x.mD && x.bOk && x.noVc && x.noExt
  | .vfadd x | .vfsub x | .vfmul x => x.ty.isF3 && x.bOk && x.noVc && x.noExt
  | .vffma x => x.ty.isF3 && x.bOk && x.noExt
  | .vfmin x | .vfmax x | .vfsign x => x.ty.isF3 && x.plain && x.bOk && x.noVc && x.noExt
  | .vfabs x | .vfneg x => x.ty.isF3 && x.plain && x.noB && x.noVc && x.noExt
  | .vfdiv x => x.ty.isF3 && x.bOk && x.noVc && x.noExt
  | .vfsqrt x | .vfrcp x | .vfrsq x | .vfexp2 x | .vflog2 x => x.ty.isF3 && x.noB && x.noVc && x.noExt
  | .vfcmp c x => c.toNat ≤ 7 && x.ty == .f32 && x.plain && x.mD && x.bOk && x.noVc && x.noExt
  | .vfclass x => x.ty.isF3 && x.plain && x.noB && x.noVc && x.noExt
  | .vdot4 x => (x.ty == .i8 || x.ty == .n8) && x.noRm && x.bOk && x.noExt
  | .vdot2 x => (x.ty == .f16 || x.ty == .bf16) && x.bOk && x.noExt
  | .vcvt x => x.cvOk && x.noB
  | .vcvtO x => x.cvOk && !x.sat && (x.bk == .window || x.bk == .imm) && x.bOk
  | .vternPack x | .vternUnpack x =>
    x.ty == .tr && x.plain && x.noB && x.noVc && x.ext.extractLsb' 1 15 == 0
  | .mand x | .mor x | .mxor x | .mandn x =>
    x.ty == .i32 && x.plain && x.mD && x.mA && x.mB && x.noVc && x.noExt
  | .mnot x | .mmov x | .mfirst x => x.ty == .i32 && x.plain && x.mD && x.mA && x.noB && x.noVc && x.noExt
  | .msetMask x => x.ty == .i32 && x.plain && x.mD && x.va == 0 && x.noB && x.noVc && x.noExt
  | .vshfl x => x.ty.isMove && x.plain && x.bOk && x.noExt
  | .vbcast x | .vrot x => x.ty.isMove && x.plain && x.uniB && x.noExt
  | .vvote op x => op.toNat ≤ 3 && x.ty == .i32 && x.plain && x.mD && x.noB && x.noVc && x.noExt
  | .vred op x => x.redOk op.toNat && x.noExt
  | .vscan op x => x.redOk op.toNat && x.ext.extractLsb' 1 15 == 0
  | .vld x => x.ldOk && x.noB
  | .vst x => x.stOk && x.noB
  | .vldu x => x.ldOk && x.va == 0 && x.uniB
  | .vstu x => x.stOk && x.va == 0 && x.uniB
  | .vprf x =>
    x.noRm && x.ty != .r15 && !x.sat && x.vd == 0 && x.noB && x.noVc && x.order == 0 && x.scope == 0 &&
      x.resmask == 0
  | .vatom op x => op.toNat ≤ 8 && x.atOk op.toNat
  | .vatomNr op x => op.toNat ≤ 8 && x.atOk op.toNat && x.vd == 0
  | .vlds x => x.ty.isMove && x.plain && x.bOk && x.noVc && x.ext.extractLsb' 0 10 == 0 && x.ext.extractLsb' 12 4 == 0
  | .vsts x => x.ty.isMove && x.plain && x.bOk && x.vd == 0 && x.ext.extractLsb' 0 10 == 0 && x.ext.extractLsb' 12 4 == 0
  | .vfpush x => x.ty == .i32 && x.plain && x.vd == 0 && x.uniB && x.noVc && x.noExt
  | .vfpop x => x.ty == .i32 && x.plain && x.va == 0 && x.uniB && x.noVc && x.noExt
  | .tdly x => x.tkOk && x.vd == 0 && x.ext.toNat ≤ 62
  | .tlaunch x => x.tkOk && x.vd == 0 && x.noExt
  | .tcap x => x.tkOk && x.va == 0 && x.noExt
  | .trank x => x.tkOk && x.va == 0 && x.ext.toNat ≤ 64
  | .macq x | .mrel x | .mend x | .mauditOff x | .adinvAll x => x.z true true true true true && x.imm == 0
  | .mwload _ x => (x.actTy || x.ty == .tr) && x.z false true false false true && x.imm == 0
  | .mmul x => x.actTy && x.qb == 0 && x.immF 6 18 == 0
  | .mmulScr x => x.actTy && x.z false false true true false
  | .mmula x => (x.ty == .f16 || x.ty == .bf16) && x.qb.getLsbD 0 == false && x.immF 20 4 == 0
  | .mstore f x =>
    x.stTy && !(f.getLsbD 2 && f.getLsbD 3) && (f.getLsbD 3 || x.qb == 0) &&
      (f.getLsbD 5 || x.immF 6 11 == 0) && x.immF 17 7 == 0
  | .mzero x => (x.ty == .f32 || x.ty == .i32) && x.z false false true true true && x.imm == 0
  | .mgive x | .mtake x => x.z true false true true true && x.immF 3 21 == 0
  | .mloop x | .mset x => x.z true false true true true
  | .msetHi x => x.z true false true true true && x.immF 16 8 == 0
  | .msetV x => x.z true false false false true && x.immF 5 19 == 0
  | .madd x => x.z true false true true false
  | .maudit x =>
    x.z true true true true false && x.qb.getLsbD 0 == false && x.immF 0 5 ≤ 16 && x.immF 5 5 == 0 &&
      x.immF 10 5 ≤ 20 && x.immF 15 9 == 0
  | .adpf x => x.z true true true true false && x.qb.getLsbD 0 == false && x.immF 19 5 == 0
  | .adinv x => x.z true true true true true && x.immF 16 8 == 0
  | .unassignedEncoding => false
  | _ => true

end Sys2Proof
end

