-- ==== Sys2Proof/Decode.lean ====
section
/-! DEFINITION. Decoding and encoding: words of the three streams to instructions and back (R27 to
R46), and the reading of a word from bytes. Decoding is total: a word that no row of the opcode table matches
is `.unassignedEncoding`, which raises the illegal-instruction fault (R28, R34, R42, R46). -/

namespace Sys2Proof

/-! ## Fields -/

/-- The fields of the scalar formats (R31). -/
def sOp (w : BitVec 32) : BitVec 6 := w.extractLsb' 26 6
def sD (w : BitVec 32) : BitVec 7 := w.extractLsb' 19 7
def sA (w : BitVec 32) : BitVec 7 := w.extractLsb' 12 7
def sB (w : BitVec 32) : BitVec 7 := w.extractLsb' 5 7
def sFn (w : BitVec 32) : BitVec 5 := w.extractLsb' 0 5
def sImm (w : BitVec 32) : BitVec 12 := w.extractLsb' 0 12
def sImm19 (w : BitVec 32) : BitVec 19 := w.extractLsb' 0 19
def sOff26 (w : BitVec 32) : BitVec 26 := w.extractLsb' 0 26
/-- The fields of the SX format (R31). -/
def xSub (w : BitVec 32) : BitVec 5 := w.extractLsb' 21 5
def xA (w : BitVec 32) : BitVec 7 := w.extractLsb' 14 7
def xB (w : BitVec 32) : BitVec 7 := w.extractLsb' 7 7
def xC (w : BitVec 32) : BitVec 7 := w.extractLsb' 0 7
def xBC (w : BitVec 32) : BitVec 14 := w.extractLsb' 0 14


/-- Major 0x01 by fn (R109). -/
def decodeAlu (w : BitVec 32) : Instr :=
  let d := sD w; let a := sA w; let b := sB w
  match (sFn w).toNat with
  | 0 => .add d a b | 1 => .sub d a b | 2 => .and d a b | 3 => .or d a b | 4 => .xor d a b
  | 5 => .andn d a b | 6 => .shl d a b | 7 => .shr d a b | 8 => .sar d a b | 9 => .mul d a b
  | 10 => .mulh d a b | 11 => .mulhn d a b | 12 => .div d a b | 13 => .divn d a b
  | 14 => .rem d a b | 15 => .remn d a b | 16 => .min d a b | 17 => .max d a b
  | 18 => .minn d a b | 19 => .maxn d a b | 20 => .slt d a b | 21 => .sltn d a b
  | 22 => .seq d a b
  | 23 => if b = 0 then .popc d a else .unassignedEncoding
  | 24 => if b = 0 then .clz d a else .unassignedEncoding
  | 25 => if b = 0 then .ctz d a else .unassignedEncoding
  | _ => .unassignedEncoding

/-- The SX majors 0x22 to 0x34 and 0x3C to 0x3E by sub. -/
def decodeSX (w : BitVec 32) : Instr :=
  let a := xA w; let b := xB w; let c := xC w
  let bad : Instr := .unassignedEncoding
  let a4 : BitVec 4 := w.extractLsb' 14 4
  let a4z := w.extractLsb' 18 3 = (0 : BitVec 3)
  let b4 : BitVec 4 := w.extractLsb' 7 4
  let b4z := w.extractLsb' 11 3 = (0 : BitVec 3)
  match (sOp w).toNat, (xSub w).toNat with
  | 0x22, 0 => if a4z ∧ b = 0 ∧ c = 0 then .kill a4 else bad
  | 0x23, 0 => if a = 0 ∧ b = 0 ∧ c = 0 then .exit else bad
  | 0x24, 0 => if a = 0 ∧ b = 0 ∧ c = 0 then .yield else bad
  | 0x24, 1 => if a = 0 ∧ c = 0 then .nap b else bad
  | 0x24, 2 => if b = 0 then .splrd a c else bad
  | 0x27, 0 => if a = 0 ∧ b = 0 ∧ c = 0 then .lsync else bad
  | 0x28, 0 => if a4z ∧ c = 0 then .bind a4 b else bad
  | 0x28, 1 => if a4z ∧ b = 0 ∧ c = 0 then .unbind a4 else bad
  | 0x28, 2 => if b4z ∧ c = 0 then .bstat a b4 else bad
  | 0x29, 0 => if w.extractLsb' 17 4 = (0 : BitVec 4) then .cwset (w.extractLsb' 14 3) b c else bad
  | 0x29, 1 => if w.extractLsb' 17 4 = (0 : BitVec 4) ∧ b = 0 ∧ c = 0 then .cwinv (w.extractLsb' 14 3) else bad
  | 0x2A, 0 => .srd a (xBC w)
  | 0x2A, 1 => .swr a (xBC w)
  | 0x2B, 0 => if b4z ∧ c = 0 then .mtestAny a b4 else bad
  | 0x2B, 1 => if b4z ∧ c = 0 then .mtestAll a b4 else bad
  | 0x2B, 2 => if b4z ∧ c = 0 then .mtestNone a b4 else bad
  | 0x2B, 3 => if b4z ∧ c = 0 then .mcnt a b4 else bad
  | 0x2B, 4 => .sget a (w.extractLsb' 5 9) (w.extractLsb' 0 5)
  | 0x2C, 0 => if c = 0 then .launch a b else bad
  | 0x2C, 1 => .launchv a b c
  | 0x2C, 2 => if a = 0 ∧ c = 0 then .rwait b else bad
  | 0x2C, 3 => if c = 0 then .rstat a b else bad
  | 0x2D, 0 => .cpy a b c
  | 0x2D, 1 => .cpy2d a b c
  | 0x2D, 2 => .cpyg a b c
  | 0x2D, 3 => if b = 0 ∧ c = 0 then .cbatch a else bad
  | 0x2D, 4 => if a = 0 ∧ c = 0 then .cwait b else bad
  | 0x2E, 0 => if c = 0 then .bankcfg a b else bad
  | 0x2E, 1 => if c = 0 then .bankst a b else bad
  | 0x2E, 2 => .rret a b c
  | 0x2F, 24 => if w.extractLsb' 5 2 = (0 : BitVec 2) then .waiteq a b (w.extractLsb' 0 5) else bad
  | 0x2F, 25 => if w.extractLsb' 5 2 = (0 : BitVec 2) then .waitne a b (w.extractLsb' 0 5) else bad
  | 0x2F, 26 => if a = 0 ∧ b = 0 ∧ w.extractLsb' 3 4 = (0 : BitVec 4) then .fence (w.extractLsb' 0 3) else bad
  | 0x2F, 27 => if a = 0 ∧ b = 0 ∧ c = 0 then .fenceEng else bad
  | 0x2F, n =>
    if n < 24 then
      (let s : BitVec 2 := w.extractLsb' 24 2
       let o : BitVec 3 := w.extractLsb' 21 3
       if o = 7 then .scas s a b c else .satom s o a b c)
    else bad
  | 0x30, 0 => if a = 0 ∧ b = 0 then .ringGive (w.extractLsb' 4 3) (w.extractLsb' 0 4) else bad
  | 0x30, 1 => if a = 0 ∧ b = 0 then .ringTake (w.extractLsb' 4 3) (w.extractLsb' 0 4) else bad
  | 0x30, 2 => if b = 0 ∧ w.extractLsb' 4 3 = (0 : BitVec 3) then .ringPeek a (w.extractLsb' 0 4) else bad
  | 0x30, 3 => if a = 0 ∧ b = 0 ∧ c = 0 then .barBlk else bad
  | 0x30, 4 => if a = 0 ∧ b = 0 ∧ w.extractLsb' 3 4 = (0 : BitVec 4) then .barArrive (w.extractLsb' 0 3) else bad
  | 0x30, 5 => if a = 0 ∧ b = 0 ∧ w.extractLsb' 3 4 = (0 : BitVec 4) then .barWait (w.extractLsb' 0 3) else bad
  | 0x30, 6 => if a = 0 ∧ b = 0 ∧ w.extractLsb' 3 4 = (0 : BitVec 4) then .barRoute (w.extractLsb' 0 3) else bad
  | 0x31, 0 => if a = 0 ∧ b = 0 ∧ c = 0 then .tacq else bad
  | 0x31, 1 => if a = 0 ∧ b = 0 ∧ c = 0 then .trel else bad
  | 0x31, 2 => if c = 0 then .twin a b else bad
  | 0x31, 3 => if a = 0 ∧ b = 0 ∧ w.extractLsb' 1 6 = (0 : BitVec 6) then .tmode (w.extractLsb' 0 1) else bad
  | 0x31, 4 => if a = 0 ∧ b = 0 ∧ c = 0 then .treset else bad
  | 0x31, 5 => if a = 0 ∧ b = 0 then .tchain c else bad
  | 0x32, 0 => if a = 0 ∧ c = 0 then .hsave b else bad
  | 0x32, 1 => if a = 0 ∧ c = 0 then .hload b else bad
  | 0x32, 2 => if a = 0 ∧ c = 0 then .hclr b else bad
  | 0x32, 3 => if c = 0 then .hrd a b else bad
  | 0x32, 4 => if a = 0 then .hwr b c else bad
  | 0x33, 0 => if b = 0 ∧ w.extractLsb' 3 4 = (0 : BitVec 4) then .cntRd a (w.extractLsb' 0 3) else bad
  | 0x33, 1 => if a = 0 ∧ b = 0 ∧ c = 0 then .qend else bad
  | 0x34, 0 => if a = 0 ∧ c = 0 then .pgreq b else bad
  | 0x34, 1 => if c = 0 then .pgq a b else bad
  | 0x3C, 0 => if a = 0 then .trap (xBC w) else bad
  | 0x3C, 1 => if a = 0 then .sysc (xBC w) else bad
  | 0x3C, 2 => if a = 0 ∧ b = 0 ∧ c = 0 then .rte else bad
  | 0x3C, 3 => if a = 0 ∧ b = 0 ∧ w.extractLsb' 4 3 = (0 : BitVec 3) then .rteRe (w.extractLsb' 0 4) else bad
  | 0x3C, 4 => if a = 0 ∧ b = 0 ∧ c = 0 then .rteSkip else bad
  | 0x3C, 5 => if c = 0 then .fltrd a b else bad
  | 0x3D, 0 => if c = 0 then .ctxSave a b else bad
  | 0x3D, 1 => if c = 0 then .ctxLoad a b else bad
  | 0x3D, 2 => if a = 0 then .tlbinv b c else bad
  | 0x3E, 0 => if a = 0 then .brk (xBC w) else bad
  | 0x3E, 1 => if w.extractLsb' 16 5 = (0 : BitVec 5) then .wptSet (w.extractLsb' 14 2) b c else bad
  | 0x3E, 2 => if w.extractLsb' 16 5 = (0 : BitVec 5) ∧ b = 0 ∧ c = 0 then .wptClr (w.extractLsb' 14 2) else bad
  | 0x3E, 3 => if a = 0 ∧ c = 0 then .smark b else bad
  | 0x3E, 4 => if a = 0 then .traceWr b c else bad
  | _, _ => bad

/-- A scalar word (R31 to R34). -/
def decodeScalar (w : BitVec 32) : Instr :=
  let d := sD w; let a := sA w; let i := sImm w
  match (sOp w).toNat with
  | 0x00 => .illegal (sOff26 w)
  | 0x01 => decodeAlu w
  | 0x02 => .addi d a i
  | 0x03 => .andi d a i
  | 0x04 => .ori d a i
  | 0x05 => .xori d a i
  | 0x06 => .slti d a i
  | 0x07 => .sltni d a i
  | 0x08 =>
    match (w.extractLsb' 6 6).toNat with
    | 0 => .shli d a (w.extractLsb' 0 6)
    | 1 => .shri d a (w.extractLsb' 0 6)
    | 2 => .sari d a (w.extractLsb' 0 6)
    | _ => .unassignedEncoding
  | 0x09 => .ldi d (sImm19 w)
  | 0x0A => .ldh1 d (sImm19 w)
  | 0x0B => .ldh2 d (sImm19 w)
  | 0x0C => if w.extractLsb' 7 12 = (0 : BitVec 12) then .ldh3 d (xC w) else .unassignedEncoding
  | 0x0D => .bfx d a (w.extractLsb' 6 6) (w.extractLsb' 0 6)
  | 0x0E => .bfi d a (w.extractLsb' 6 6) (w.extractLsb' 0 6)
  | 0x0F => if sFn w = 0 then .cmov d a (sB w) else .unassignedEncoding
  | 0x10 => .sld d a (w.extractLsb' 9 3) (w.extractLsb' 0 9)
  | 0x11 => .sst d a (w.extractLsb' 9 3) (w.extractLsb' 0 9)
  | 0x14 => .beq d a i
  | 0x15 => .bne d a i
  | 0x16 => .blt d a i
  | 0x17 => .bge d a i
  | 0x18 => .bltn d a i
  | 0x19 => .bgen d a i
  | 0x1A => .jmp (sOff26 w)
  | 0x1B => .jal (sOff26 w)
  | 0x1C => if d = 0 ∧ a = 1 ∧ i = 0 then .ret else .jalr d a i
  | 0x1E => if d = 1 then .callf1 (sImm19 w) else if d = 2 then .callf2 (sImm19 w) else .unassignedEncoding
  | 0x20 => .split (w.extractLsb' 22 4) (w.extractLsb' 11 11) (w.extractLsb' 0 11)
  | 0x21 => if w.extractLsb' 0 8 = (0 : BitVec 8) then .switch (w.extractLsb' 15 11) (w.extractLsb' 8 7) else .unassignedEncoding
  | 0x26 => if d = 0 then .lrun (sImm19 w) else .unassignedEncoding
  | 0x3F => .illegal3f (sOff26 w)
  | _ => decodeSX w

/-! ## Lane words -/

/-- The b-kind of a code, the rounding of a code (R38, R41). -/
def BKind.ofCode (n : BitVec 2) : BKind :=
  match n.toNat with | 0 => .vreg | 1 => .window | 2 => .const | _ => .imm
def BKind.code : BKind → BitVec 2
  | .vreg => 0 | .window => 1 | .const => 2 | .imm => 3
def Rm.ofCode (n : BitVec 2) : Rm :=
  match n.toNat with | 0 => .rne | 1 => .rtz | 2 => .rup | _ => .rdn
def Rm.code : Rm → BitVec 2
  | .rne => 0 | .rtz => 1 | .rup => 2 | .rdn => 3

/-- The operand fields of a lane word (R37). -/
def laneArgs (w : BitVec 96) : LArgs where
  h := w.getLsbD 95
  m := w.extractLsb' 78 4
  ty := Ty.ofCode (w.extractLsb' 74 4)
  rm := Rm.ofCode (w.extractLsb' 72 2)
  sat := w.getLsbD 71
  vd := w.extractLsb' 60 11
  va := w.extractLsb' 49 11
  bk := BKind.ofCode (w.extractLsb' 47 2)
  b := w.extractLsb' 27 20
  vc := w.extractLsb' 16 11
  ext := w.extractLsb' 0 16

/-- The lane instruction of a major and sub (R42 and the family tables). -/
def laneOf (major : BitVec 7) (sub : BitVec 6) (x : LArgs) : Option Instr :=
  match major.toNat, sub.toNat with
  | 0x01, 0 => some (.vadd x) | 0x01, 1 => some (.vsub x) | 0x01, 2 => some (.vmul x)
  | 0x01, 3 => some (.vmulh x) | 0x01, 4 => some (.vmad x) | 0x01, 5 => some (.vmin x)
  | 0x01, 6 => some (.vmax x) | 0x01, 7 => some (.vabs x) | 0x01, 8 => some (.vneg x)
  | 0x02, 0 => some (.vand x) | 0x02, 1 => some (.vor x) | 0x02, 2 => some (.vxor x)
  | 0x02, 3 => some (.vandn x) | 0x02, 4 => some (.vnot x) | 0x02, 5 => some (.vshl x)
  | 0x02, 6 => some (.vshr x) | 0x02, 7 => some (.vsar x) | 0x02, 8 => some (.vpopc x)
  | 0x02, 9 => some (.vclz x) | 0x02, 10 => some (.vbfx x) | 0x02, 11 => some (.vbfi x)
  | 0x03, 0 => some (.vmov x) | 0x03, 1 => some (.vmovi x) | 0x03, 2 => some (.vsel x)
  | 0x03, 3 => some (.vlane x) | 0x03, 0x3E => some (.lend x) | 0x03, 0x3F => some (.vnop x)
  | 0x08, n => if n ≤ 5 then some (.vcmp sub x) else none
  | 0x10, 0 => some (.vfadd x) | 0x10, 1 => some (.vfsub x) | 0x10, 2 => some (.vfmul x)
  | 0x10, 3 => some (.vffma x) | 0x10, 4 => some (.vfmin x) | 0x10, 5 => some (.vfmax x)
  | 0x10, 6 => some (.vfabs x) | 0x10, 7 => some (.vfneg x) | 0x10, 8 => some (.vfsign x)
  | 0x11, 0 => some (.vfdiv x) | 0x11, 1 => some (.vfsqrt x) | 0x11, 2 => some (.vfrcp x)
  | 0x11, 3 => some (.vfrsq x) | 0x11, 4 => some (.vfexp2 x) | 0x11, 5 => some (.vflog2 x)
  | 0x12, n => if n ≤ 7 then some (.vfcmp sub x) else if n = 8 then some (.vfclass x) else none
  | 0x13, 0 => some (.vdot4 x) | 0x13, 1 => some (.vdot2 x)
  | 0x20, 0 => some (.vcvt x)
  | 0x21, 0 => some (.vcvtO x)
  | 0x22, 0 => some (.vternPack x) | 0x22, 1 => some (.vternUnpack x)
  | 0x28, 0 => some (.mand x) | 0x28, 1 => some (.mor x) | 0x28, 2 => some (.mxor x)
  | 0x28, 3 => some (.mandn x) | 0x28, 4 => some (.mnot x) | 0x28, 5 => some (.mmov x)
  | 0x28, 6 => some (.msetMask x) | 0x28, 7 => some (.mfirst x)
  | 0x30, 0 => some (.vshfl x)
  | 0x31, 0 => some (.vbcast x) | 0x31, 1 => some (.vrot x)
  | 0x32, n => if n ≤ 3 then some (.vvote sub x) else none
  | 0x33, n => if n ≤ 8 then some (.vred sub x) else none
  | 0x34, n => if n ≤ 8 then some (.vscan sub x) else none
  | 0x38, 0 => some (.vld x) | 0x39, 0 => some (.vst x) | 0x3A, 0 => some (.vldu x)
  | 0x3B, 0 => some (.vstu x) | 0x3C, 0 => some (.vprf x)
  | 0x40, n =>
    if n ≤ 8 then some (.vatom sub x)
    else if 32 ≤ n ∧ n ≤ 40 then some (.vatomNr (sub - 32) x) else none
  | 0x48, 0 => some (.vlds x) | 0x48, 1 => some (.vsts x)
  | 0x49, 0 => some (.vfpush x) | 0x49, 1 => some (.vfpop x)
  | 0x50, 0 => some (.tdly x) | 0x50, 1 => some (.tlaunch x) | 0x50, 2 => some (.tcap x)
  | 0x50, 3 => some (.trank x)
  | _, _ => none

/-- A lane word (R37, R42). -/
def decodeLane (w : BitVec 96) : Instr :=
  (laneOf (w.extractLsb' 88 7) (w.extractLsb' 82 6) (laneArgs w)).getD .unassignedEncoding

/-! ## Matrix words -/

/-- The operand fields of a matrix word (R45). -/
def matArgs (w : BitVec 64) : MArgs where
  ty := Ty.ofCode (w.extractLsb' 48 4)
  a := w.extractLsb' 44 4
  grp := w.extractLsb' 38 6
  v := w.extractLsb' 27 11
  qb := w.extractLsb' 24 3
  imm := w.extractLsb' 0 24

/-- The matrix instruction of an op and sub (R46, R240). -/
def matOf (op sub : BitVec 6) (x : MArgs) : Option Instr :=
  match op.toNat, sub.toNat with
  | 0x01, 0 => some (.macq x) | 0x02, 0 => some (.mrel x)
  | 0x03, 0 => some (.mwload false x) | 0x03, 1 => some (.mwload true x)
  | 0x04, 0 => some (.mmul x) | 0x04, 1 => some (.mmulScr x) | 0x05, 0 => some (.mmula x)
  | 0x06, _ => some (.mstore sub x)
  | 0x07, 0 => some (.mzero x) | 0x08, 0 => some (.mgive x) | 0x09, 0 => some (.mtake x)
  | 0x0A, 0 => some (.mloop x) | 0x0B, 0 => some (.mset x) | 0x0B, 1 => some (.msetHi x)
  | 0x0B, 2 => some (.msetV x) | 0x0C, 0 => some (.madd x) | 0x0D, 0 => some (.mend x)
  | 0x0E, 0 => some (.maudit x) | 0x0E, 1 => some (.mauditOff x) | 0x0F, 0 => some (.adpf x)
  | 0x10, 0 => some (.adinv x) | 0x10, 1 => some (.adinvAll x)
  | _, _ => none

/-- A matrix word (R45, R46). -/
def decodeMatrix (w : BitVec 64) : Instr :=
  (matOf (w.extractLsb' 58 6) (w.extractLsb' 52 6) (matArgs w)).getD .unassignedEncoding

/-! ## Bytes -/

/-- Why no instruction could be read from bytes. -/
inductive DecodeError where
  /-- Fewer bytes than the word of the stream. -/
  | truncated
deriving DecidableEq, Repr

/-- The bytes of a word of each stream (R27). -/
def Stream.bytes : Stream → Nat
  | .scalar => 4 | .lane => 12 | .matrix => 8

/-- The little-endian number that bytes hold (R2). -/
def leNat : List Byte → Nat
  | [] => 0
  | b :: bs => b.toNat + 256 * leNat bs

/-- The `n` little-endian bytes of a number (R2). -/
def leBytes : Nat → Nat → List Byte
  | 0, _ => []
  | n + 1, v => BitVec.ofNat 8 v :: leBytes n (v / 256)

/-- The instruction of a word of a stream. -/
def decodeWord (st : Stream) (w : BitVec 96) : Instr :=
  match st with
  | .scalar => decodeScalar (w.setWidth 32)
  | .lane => decodeLane w
  | .matrix => decodeMatrix (w.setWidth 64)

/-- The first instruction of a stream's bytes, and the bytes after it (R27). -/
def decode (st : Stream) (bs : List Byte) : Except DecodeError (Instr × List Byte) :=
  if bs.length < st.bytes then .error .truncated
  else .ok (decodeWord st (BitVec.ofNat 96 (leNat (bs.take st.bytes))), bs.drop st.bytes)

/-- The stream of an instruction of `nbits` bits: rows of 32 bits are scalar, of 64 matrix, of 96
lane (R27). -/
def streamOfBits (nbits : Nat) : Stream :=
  if nbits ≤ 32 then .scalar else if nbits ≤ 64 then .matrix else .lane

/-- The instruction read from a row's bits, numbered as the opcode table numbers them. -/
def decodeTableWord (nbits w : Nat) : Option Instr :=
  let st := streamOfBits nbits
  match decode st (leBytes st.bytes w) with
  | .ok (i, _) => some i
  | .error _ => none

/-! ## Encoding -/

/-- The word of an instruction, with its stream. -/
inductive Enc where
  | scalar (w : BitVec 32)
  | lane (w : BitVec 96)
  | matrix (w : BitVec 64)
deriving DecidableEq, Repr

/-- The scalar formats (R31). -/
def encSR (op : BitVec 6) (d a b : BitVec 7) (fn : BitVec 5) : Option Enc := some (.scalar (op ++ d ++ a ++ b ++ fn))
def encSI (op : BitVec 6) (d a : BitVec 7) (i : BitVec 12) : Option Enc := some (.scalar (op ++ d ++ a ++ i))
def encSL (op : BitVec 6) (d : BitVec 7) (i : BitVec 19) : Option Enc := some (.scalar (op ++ d ++ i))
def encSM (op : BitVec 6) (d a : BitVec 7) (z : BitVec 3) (o : BitVec 9) : Option Enc := some (.scalar (op ++ d ++ a ++ z ++ o))
def encSJ (op : BitVec 6) (o : BitVec 26) : Option Enc := some (.scalar (op ++ o))
def encSX (op : BitVec 6) (sub : BitVec 5) (a b c : BitVec 7) : Option Enc := some (.scalar (op ++ sub ++ a ++ b ++ c))
/-- An SX word whose b and c form one immediate. -/
def encSXI (op : BitVec 6) (sub : BitVec 5) (a : BitVec 7) (i : BitVec 14) : Option Enc := some (.scalar (op ++ sub ++ a ++ i))

/-- A lane word (R37). -/
def encLane (major : BitVec 7) (sub : BitVec 6) (x : LArgs) : Option Enc :=
  some (.lane (BitVec.ofBool x.h ++ major ++ sub ++ x.m ++ x.ty.code ++ x.rm.code ++ BitVec.ofBool x.sat ++
    x.vd ++ x.va ++ x.bk.code ++ x.b ++ x.vc ++ x.ext))

/-- A matrix word (R45). -/
def encMat (op sub : BitVec 6) (x : MArgs) : Option Enc :=
  some (.matrix (op ++ sub ++ x.ty.code ++ x.a ++ x.grp ++ x.v ++ x.qb ++ x.imm))

/-- The word of an instruction, from the encoding tables of the spec; none for a step that is no
instruction. -/
def encode : Instr → Option Enc
  | .illegal x => encSJ 0x00 x
  | .illegal3f x => encSJ 0x3F x
  | .add d a b => encSR 0x01 d a b 0
  | .sub d a b => encSR 0x01 d a b 1
  | .and d a b => encSR 0x01 d a b 2
  | .or d a b => encSR 0x01 d a b 3
  | .xor d a b => encSR 0x01 d a b 4
  | .andn d a b => encSR 0x01 d a b 5
  | .shl d a b => encSR 0x01 d a b 6
  | .shr d a b => encSR 0x01 d a b 7
  | .sar d a b => encSR 0x01 d a b 8
  | .mul d a b => encSR 0x01 d a b 9
  | .mulh d a b => encSR 0x01 d a b 10
  | .mulhn d a b => encSR 0x01 d a b 11
  | .div d a b => encSR 0x01 d a b 12
  | .divn d a b => encSR 0x01 d a b 13
  | .rem d a b => encSR 0x01 d a b 14
  | .remn d a b => encSR 0x01 d a b 15
  | .min d a b => encSR 0x01 d a b 16
  | .max d a b => encSR 0x01 d a b 17
  | .minn d a b => encSR 0x01 d a b 18
  | .maxn d a b => encSR 0x01 d a b 19
  | .slt d a b => encSR 0x01 d a b 20
  | .sltn d a b => encSR 0x01 d a b 21
  | .seq d a b => encSR 0x01 d a b 22
  | .popc d a => encSR 0x01 d a 0 23
  | .clz d a => encSR 0x01 d a 0 24
  | .ctz d a => encSR 0x01 d a 0 25
  | .addi d a i => encSI 0x02 d a i
  | .andi d a i => encSI 0x03 d a i
  | .ori d a i => encSI 0x04 d a i
  | .xori d a i => encSI 0x05 d a i
  | .slti d a i => encSI 0x06 d a i
  | .sltni d a i => encSI 0x07 d a i
  | .shli d a n => encSI 0x08 d a (0#6 ++ n)
  | .shri d a n => encSI 0x08 d a (1#6 ++ n)
  | .sari d a n => encSI 0x08 d a (2#6 ++ n)
  | .ldi d i => encSL 0x09 d i
  | .ldh1 d i => encSL 0x0A d i
  | .ldh2 d i => encSL 0x0B d i
  | .ldh3 d i => encSL 0x0C d (0#12 ++ i)
  | .bfx d a p l => encSI 0x0D d a (p ++ l)
  | .bfi d a p l => encSI 0x0E d a (p ++ l)
  | .cmov d a b => encSR 0x0F d a b 0
  | .sld d a z o => encSM 0x10 d a z o
  | .sst t a z o => encSM 0x11 t a z o
  | .beq a b o => encSI 0x14 a b o
  | .bne a b o => encSI 0x15 a b o
  | .blt a b o => encSI 0x16 a b o
  | .bge a b o => encSI 0x17 a b o
  | .bltn a b o => encSI 0x18 a b o
  | .bgen a b o => encSI 0x19 a b o
  | .jmp o => encSJ 0x1A o
  | .jal o => encSJ 0x1B o
  | .jalr d a i => encSI 0x1C d a i
  | .ret => encSI 0x1C 0 1 0
  | .callf1 i => encSL 0x1E 1 i
  | .callf2 i => encSL 0x1E 2 i
  | .split m t j => some (.scalar (0x20#6 ++ m ++ t ++ j))
  | .switch v a => some (.scalar (0x21#6 ++ v ++ a ++ 0#8))
  | .kill n => encSX 0x22 0 (0#3 ++ n) 0 0
  | .exit => encSX 0x23 0 0 0 0
  | .yield => encSX 0x24 0 0 0 0
  | .nap a => encSX 0x24 1 0 a 0
  | .splrd d e => encSX 0x24 2 d 0 e
  | .lrun i => encSL 0x26 0 i
  | .lsync => encSX 0x27 0 0 0 0
  | .bind n a => encSX 0x28 0 (0#3 ++ n) a 0
  | .unbind n => encSX 0x28 1 (0#3 ++ n) 0 0
  | .bstat d n => encSX 0x28 2 d (0#3 ++ n) 0
  | .cwset n a b => encSX 0x29 0 (0#4 ++ n) a b
  | .cwinv n => encSX 0x29 1 (0#4 ++ n) 0 0
  | .srd d r => encSXI 0x2A 0 d r
  | .swr a r => encSXI 0x2A 1 a r
  | .mtestAny d n => encSX 0x2B 0 d (0#3 ++ n) 0
  | .mtestAll d n => encSX 0x2B 1 d (0#3 ++ n) 0
  | .mtestNone d n => encSX 0x2B 2 d (0#3 ++ n) 0
  | .mcnt d n => encSX 0x2B 3 d (0#3 ++ n) 0
  | .sget d v l => encSXI 0x2B 4 d (v ++ l)
  | .launch d a => encSX 0x2C 0 d a 0
  | .launchv d a v => encSX 0x2C 1 d a v
  | .rwait a => encSX 0x2C 2 0 a 0
  | .rstat d a => encSX 0x2C 3 d a 0
  | .cpy a b c => encSX 0x2D 0 a b c
  | .cpy2d a b c => encSX 0x2D 1 a b c
  | .cpyg a b c => encSX 0x2D 2 a b c
  | .cbatch d => encSX 0x2D 3 d 0 0
  | .cwait a => encSX 0x2D 4 0 a 0
  | .bankcfg a b => encSX 0x2E 0 a b 0
  | .bankst d a => encSX 0x2E 1 d a 0
  | .rret a b c => encSX 0x2E 2 a b c
  | .satom s o d a b => encSX 0x2F (s ++ o) d a b
  | .scas s d a b => encSX 0x2F (s ++ 7#3) d a b
  | .waiteq a b m => encSX 0x2F 24 a b (0#2 ++ m)
  | .waitne a b m => encSX 0x2F 25 a b (0#2 ++ m)
  | .fence c => encSX 0x2F 26 0 0 (0#4 ++ c)
  | .fenceEng => encSX 0x2F 27 0 0 0
  | .ringGive d n => encSX 0x30 0 0 0 (d ++ n)
  | .ringTake d n => encSX 0x30 1 0 0 (d ++ n)
  | .ringPeek d n => encSX 0x30 2 d 0 (0#3 ++ n)
  | .barBlk => encSX 0x30 3 0 0 0
  | .barArrive t => encSX 0x30 4 0 0 (0#4 ++ t)
  | .barWait t => encSX 0x30 5 0 0 (0#4 ++ t)
  | .barRoute t => encSX 0x30 6 0 0 (0#4 ++ t)
  | .tacq => encSX 0x31 0 0 0 0
  | .trel => encSX 0x31 1 0 0 0
  | .twin a b => encSX 0x31 2 a b 0
  | .tmode m => encSX 0x31 3 0 0 (0#6 ++ m)
  | .treset => encSX 0x31 4 0 0 0
  | .tchain n => encSX 0x31 5 0 0 n
  | .hsave a => encSX 0x32 0 0 a 0
  | .hload a => encSX 0x32 1 0 a 0
  | .hclr a => encSX 0x32 2 0 a 0
  | .hrd d a => encSX 0x32 3 d a 0
  | .hwr a b => encSX 0x32 4 0 a b
  | .cntRd d s => encSX 0x33 0 d 0 (0#4 ++ s)
  | .qend => encSX 0x33 1 0 0 0
  | .pgreq a => encSX 0x34 0 0 a 0
  | .pgq d a => encSX 0x34 1 d a 0
  | .trap i => encSXI 0x3C 0 0 i
  | .sysc i => encSXI 0x3C 1 0 i
  | .rte => encSX 0x3C 2 0 0 0
  | .rteRe n => encSX 0x3C 3 0 0 (0#3 ++ n)
  | .rteSkip => encSX 0x3C 4 0 0 0
  | .fltrd d a => encSX 0x3C 5 d a 0
  | .ctxSave d a => encSX 0x3D 0 d a 0
  | .ctxLoad d a => encSX 0x3D 1 d a 0
  | .tlbinv a b => encSX 0x3D 2 0 a b
  | .brk i => encSXI 0x3E 0 0 i
  | .wptSet n a b => encSX 0x3E 1 (0#5 ++ n) a b
  | .wptClr n => encSX 0x3E 2 (0#5 ++ n) 0 0
  | .smark a => encSX 0x3E 3 0 a 0
  | .traceWr a b => encSX 0x3E 4 0 a b
  | .vadd x => encLane 0x01 0 x
  | .vsub x => encLane 0x01 1 x
  | .vmul x => encLane 0x01 2 x
  | .vmulh x => encLane 0x01 3 x
  | .vmad x => encLane 0x01 4 x
  | .vmin x => encLane 0x01 5 x
  | .vmax x => encLane 0x01 6 x
  | .vabs x => encLane 0x01 7 x
  | .vneg x => encLane 0x01 8 x
  | .vand x => encLane 0x02 0 x
  | .vor x => encLane 0x02 1 x
  | .vxor x => encLane 0x02 2 x
  | .vandn x => encLane 0x02 3 x
  | .vnot x => encLane 0x02 4 x
  | .vshl x => encLane 0x02 5 x
  | .vshr x => encLane 0x02 6 x
  | .vsar x => encLane 0x02 7 x
  | .vpopc x => encLane 0x02 8 x
  | .vclz x => encLane 0x02 9 x
  | .vbfx x => encLane 0x02 10 x
  | .vbfi x => encLane 0x02 11 x
  | .vmov x => encLane 0x03 0 x
  | .vmovi x => encLane 0x03 1 x
  | .vsel x => encLane 0x03 2 x
  | .vlane x => encLane 0x03 3 x
  | .lend x => encLane 0x03 0x3E x
  | .vnop x => encLane 0x03 0x3F x
  | .vcmp c x => encLane 0x08 c x
  | .vfadd x => encLane 0x10 0 x
  | .vfsub x => encLane 0x10 1 x
  | .vfmul x => encLane 0x10 2 x
  | .vffma x => encLane 0x10 3 x
  | .vfmin x => encLane 0x10 4 x
  | .vfmax x => encLane 0x10 5 x
  | .vfabs x => encLane 0x10 6 x
  | .vfneg x => encLane 0x10 7 x
  | .vfsign x => encLane 0x10 8 x
  | .vfdiv x => encLane 0x11 0 x
  | .vfsqrt x => encLane 0x11 1 x
  | .vfrcp x => encLane 0x11 2 x
  | .vfrsq x => encLane 0x11 3 x
  | .vfexp2 x => encLane 0x11 4 x
  | .vflog2 x => encLane 0x11 5 x
  | .vfcmp c x => encLane 0x12 c x
  | .vfclass x => encLane 0x12 8 x
  | .vdot4 x => encLane 0x13 0 x
  | .vdot2 x => encLane 0x13 1 x
  | .vcvt x => encLane 0x20 0 x
  | .vcvtO x => encLane 0x21 0 x
  | .vternPack x => encLane 0x22 0 x
  | .vternUnpack x => encLane 0x22 1 x
  | .mand x => encLane 0x28 0 x
  | .mor x => encLane 0x28 1 x
  | .mxor x => encLane 0x28 2 x
  | .mandn x => encLane 0x28 3 x
  | .mnot x => encLane 0x28 4 x
  | .mmov x => encLane 0x28 5 x
  | .msetMask x => encLane 0x28 6 x
  | .mfirst x => encLane 0x28 7 x
  | .vshfl x => encLane 0x30 0 x
  | .vbcast x => encLane 0x31 0 x
  | .vrot x => encLane 0x31 1 x
  | .vvote op x => encLane 0x32 op x
  | .vred op x => encLane 0x33 op x
  | .vscan op x => encLane 0x34 op x
  | .vld x => encLane 0x38 0 x
  | .vst x => encLane 0x39 0 x
  | .vldu x => encLane 0x3A 0 x
  | .vstu x => encLane 0x3B 0 x
  | .vprf x => encLane 0x3C 0 x
  | .vatom op x => encLane 0x40 op x
  | .vatomNr op x => encLane 0x40 (op + 32) x
  | .vlds x => encLane 0x48 0 x
  | .vsts x => encLane 0x48 1 x
  | .vfpush x => encLane 0x49 0 x
  | .vfpop x => encLane 0x49 1 x
  | .tdly x => encLane 0x50 0 x
  | .tlaunch x => encLane 0x50 1 x
  | .tcap x => encLane 0x50 2 x
  | .trank x => encLane 0x50 3 x
  | .macq x => encMat 0x01 0 x
  | .mrel x => encMat 0x02 0 x
  | .mwload s x => encMat 0x03 (if s then 1 else 0) x
  | .mmul x => encMat 0x04 0 x
  | .mmulScr x => encMat 0x04 1 x
  | .mmula x => encMat 0x05 0 x
  | .mstore f x => encMat 0x06 f x
  | .mzero x => encMat 0x07 0 x
  | .mgive x => encMat 0x08 0 x
  | .mtake x => encMat 0x09 0 x
  | .mloop x => encMat 0x0A 0 x
  | .mset x => encMat 0x0B 0 x
  | .msetHi x => encMat 0x0B 1 x
  | .msetV x => encMat 0x0B 2 x
  | .madd x => encMat 0x0C 0 x
  | .mend x => encMat 0x0D 0 x
  | .maudit x => encMat 0x0E 0 x
  | .mauditOff x => encMat 0x0E 1 x
  | .adpf x => encMat 0x0F 0 x
  | .adinv x => encMat 0x10 0 x
  | .adinvAll x => encMat 0x10 1 x
  | _ => none

/-- The instruction of an encoded word. -/
def Enc.decode : Enc → Instr
  | .scalar w => decodeScalar w
  | .lane w => decodeLane w
  | .matrix w => decodeMatrix w

/-- The stream of an encoded word and its bytes, the lowest address first (R27). -/
def Enc.bytes : Enc → List Byte
  | .scalar w => leBytes 4 w.toNat
  | .lane w => leBytes 12 w.toNat
  | .matrix w => leBytes 8 w.toNat

end Sys2Proof
end

