-- ==== Sys2Proof/Machine/State.lean ====
section
/-! DEFINITION. The state of the device as plain data, and the state after reset. A field holds at its
declared default the value of a device, region, block or group that has just been reset or launched. -/

namespace Sys2Proof.Machine

/-! ## Faults and records -/

/-- What a fault says of itself besides its place (R323). -/
structure FaultInfo where
  kind : Nat := 0
  addr : Nat := 0
  extra : Nat := 0
  write : Bool := false
  batch : Bool := false
deriving DecidableEq, Repr

/-- A fault record of 32 bytes (R323). -/
structure FRec where
  kind : BitVec 8 := 0
  lane : BitVec 8 := 255
  split : BitVec 8 := 0
  flags : BitVec 8 := 0
  extra : BitVec 32 := 0
  lanePc : DWord := 0
  scalarPc : DWord := 0
  addr : DWord := 0
deriving DecidableEq, Repr

/-- The header of a record area (R324). -/
structure FHdr where
  lanei : Bool := false
  split : BitVec 3 := 0
  count : BitVec 6 := 0
  done : Word := 0
deriving DecidableEq, Repr

/-! ## Registers of a group -/

/-- A translation register (R100). -/
structure BReg where
  base : BitVec 56 := 0
  frame : BitVec 40 := 0
  psize : BitVec 2 := 0
  valid : Bool := false
  w : Bool := false
  r : Bool := false
  limit : BitVec 22 := 0
  /-- The limit as of the last commit, or of the bind since, which bstat returns in ordered mode (R314, R315). -/
  seen : BitVec 22 := 0
deriving DecidableEq, Repr

/-- A constant window (R102). -/
structure Win where
  base : DWord := 0
  len : DWord := 0
deriving DecidableEq, Repr

/-- A watchpoint (R377). -/
structure Wpt where
  en : Bool := false
  addr : DWord := 0
  r : Bool := false
  w : Bool := false
  size : Nat := 0
deriving DecidableEq, Repr

/-- An entry of a divergence stack (R118). -/
structure StackEnt where
  pc : DWord := 0
  mask : Word := 0
  j : DWord := 0
  level : BitVec 8 := 0
  swapped : Bool := false
  held : Word := 0
  regs : SMap DWord := []
deriving DecidableEq, Repr

/-- A lane word to execute again in some lanes (R197, R330): whether it counts once more, and the records,
the completed lanes and the Active set of its first execution. -/
structure Again where
  word : Nat := 0
  lanes : Word := 0
  count : Bool := true
  recs : List FRec := []
  done : Word := 0
  active : Word := 0
deriving DecidableEq, Repr

/-- A block of a lane queue with its snapshot; `pc` is the next lane word, `id` its place among the blocks enqueued and the
stores issued (R104, R107, R216). -/
structure QBlk where
  addr : DWord := 0
  pc : DWord := 0
  mask : Word := 0
  snapS : SMap DWord := []
  snapB : SMap BReg := []
  lrunPc : DWord := 0
  id : Nat := 0
  /-- Its next word has recorded a fault in a continuation (R134). -/
  dfault : Bool := false
  /-- The block is one word, executed again. -/
  again : Option Again := none
deriving DecidableEq, Repr

/-- An open call record (R392). -/
structure CallRec where
  id : Nat := 0
  pc : DWord := 0
  two : Bool := false
  level : BitVec 8 := 0
  fork : Option Nat := none
  closed : Bool := false
deriving DecidableEq, Repr

/-- Lane-produced state that a scalar instruction waits for (R107). -/
inductive LaneState where
  | mask (n : Nat) | vreg (n : Nat) | any | campanile
deriving DecidableEq, Repr

/-- Why a scalar stream is parked: what it waits for. -/
inductive Park where
  /-- A page that is not resident (R112, R103, R32, R82, R208). -/
  | page (va : Nat)
  /-- The same of an sld, which has trained the SPT at its issue (R287). -/
  | load (va : Nat)
  /-- Lane-produced state, of lane blocks enqueued before a number (R107). -/
  | lanes (w : LaneState) (n : Nat)
  /-- Room in the lane queue (R104). -/
  | queue
  /-- The lane stream and its stores (R105); a return waits so too (R330). -/
  | lsync
  /-- The lane instructions enqueued before a fence, of either kind (R220, R221). -/
  | fence
  | fenceEng
  /-- The end of a nap, a cycle count (R130). -/
  | nap (until_ : Nat)
  /-- A region's completion (R94). -/
  | region (id n : Nat)
  /-- Copy batches up to a number (R188); room for a closed batch (R187); room in the copy queue (R182). -/
  | batch (n : Nat)
  | batchRoom
  | copyRoom
  /-- The copies of the group, before it ends (R189). -/
  | exitBatches
  /-- The end of a switch of banks (R175, R176); a bankcfg's turn to be accepted, and the end of its switch, by a number (R173, R175). -/
  | bankIdle (mask : Word)
  | bankTurn
  | bankSwitch (n : Nat)
  /-- A ring operation waiting in order (R229). -/
  | ring (give : Bool) (n : Nat)
  /-- The release of a barrier instance: of the block or of a tag (R230, R233). -/
  | barrier (t : Option Nat) (inst : Nat)
  /-- A second arrival that waits for an instance (R233). -/
  | rearrive (t : Nat) (inst : Nat)
  /-- The Campanile array (R272), or its operation under way (R273). -/
  | array
  | arrayBusy
  /-- A value in memory (R208). -/
  | wait (va : Nat) (loc : Nat) (dbl : Bool) (eq : Bool) (v : DWord) (scope : Nat) (rmt : Bool)
  /-- The Keep's reply to a system call (R331). -/
  | sysc (imm : Nat)
  /-- The Keep's repair of a store to a page that is not resident (R197). -/
  | keep
  /-- A line that a copy command owns (R224). -/
  | owned (line : Nat)
  /-- A store of the split performed, by its number: the image of an hsave (R300). -/
  | written (id : Nat)
  /-- A fork to resolve, in a continuation (R134). -/
  | fork
  /-- The commit of the quantum (R307). -/
  | commit
  /-- A translation of the kernel in the Keep (R348). -/
  | image (k : Nat)
  /-- A save, load or shootdown under way (R338, R339). -/
  | system
deriving DecidableEq, Repr

/-- The state of a split-table entry (R131). -/
inductive SplitSt where
  | free
  | running
  /-- Waiting at a join since a cycle, or in ordered mode since a count of retired instructions. -/
  | waitJoin (start : Nat)
  /-- Committed to fuse with the other entries of one number at its PC (R125). -/
  | fusing (k : Nat)
  | parked (p : Park)
  | waitFork
  /-- Ended, while its lane queue and results are not finished (R115). -/
  | draining
deriving DecidableEq, Repr

/-- Why a lane queue does not issue beside a hold. -/
inductive LPark where
  | page (va : Nat)
  /-- The page or line of a constant window, for which the split's scalar stream waits too (R103). -/
  | const (va : Nat)
  | fifo (bank : Nat) (need : Nat) (push : Bool)
  | bank (mask : Word)
  | owned (line : Nat)
  | fork
  | array
deriving DecidableEq, Repr

/-- The Keep's reply to a system call (R331): s2 and s3, the kind of a fault instead, and whether the call is counted already. -/
structure SysReply where
  r2 : DWord := 0
  r3 : DWord := 0
  fault : Option Nat := none
  counted : Bool := false
deriving DecidableEq, Repr

/-- An entry of the split table (R116). -/
structure Split where
  st : SplitSt := .free
  /-- Suspended by a trap (R325). -/
  susp : Bool := false
  pc : DWord := 0
  mask : Word := 0
  level : BitVec 8 := 0
  join : Option (DWord × BitVec 8) := none
  stack : List StackEnt := []
  s : SMap DWord := []
  queue : List QBlk := []
  /-- Parked after a word with H = 1 (R148). -/
  hold : Bool := false
  lpark : Option LPark := none
  /-- Call records, the latest first (R392). -/
  calls : List CallRec := []
  /-- Its join window has expired, and stays so (R124). -/
  expired : Bool := false
  /-- Instructions of this entry retired, which its own join window does not count (R124). -/
  retired : Nat := 0
  /-- When it last went on or parked; demotion by an outstanding load (R139). -/
  ready : Nat := 0
  demoted : Option Nat := none
  /-- The cycles before which its next scalar instruction, its lane head cannot issue (DESIGN CHOICE, log entry 18); since when each
  can issue, and its place in the front list of its quadrant's choice (R139). -/
  busy : Nat := 0
  lbusy : Nat := 0
  since : Option Nat := none
  lsince : Option Nat := none
  front : Option Nat := none
  lfront : Option Nat := none
  /-- Its age since a yield made it the youngest of its quadrant (R130): the cycle, and a number among the yields. -/
  age : Option (Nat × Nat) := none
  /-- A reply of the Keep that has come while it was suspended (R331, R343). -/
  reply : Option SysReply := none
deriving DecidableEq, Repr

/-- An outstanding variable-latency result: what it writes when it returns (R147). -/
structure Outst where
  id : Nat := 0
  e : Nat := 0
  /-- The number of its block (R107). -/
  blk : Nat := 0
  /-- The lanes whose destinations are outstanding. -/
  lanes : Word := 0
  /-- Vector writes: register and lane values; mask writes: register and bits. -/
  v : List (Nat × List (Nat × Word)) := []
  m : List (Nat × Word) := []
  /-- An access to memory, which a fence waits for (R220); a Campanile result; a load with the counter of the LMP it trains
  (R290). -/
  mem : Bool := false
  camp : Bool := false
  lmp : Option Nat := none
  issued : Nat := 0
  /-- The lanes of a load whose line is in flight, with the line (R302). -/
  fills : List (Nat × Nat) := []
  /-- Not returned before a commit writes its values (R307). -/
  held : Bool := false
  /-- The Finial record to store when it returns (R380). -/
  sample : List Byte := []
deriving DecidableEq, Repr

/-- An outlier record still to be stored: element index and value (R65), and the instruction it comes from,
its entry, block, word and Active set. -/
structure OlRec where
  index : Word := 0
  value : Word := 0
  lane : Nat := 0
  e : Nat := 0
  blk : QBlk := {}
  word : Nat := 0
  active : Word := 0
  /-- The address that it goes to, once its turn has come and its page is not resident (R66). -/
  at_ : Option Nat := none
  /-- Its fault, taken with those of its instruction's other records (R66). -/
  fault : Option FaultInfo := none
deriving DecidableEq, Repr

/-- A closed batch: its number, its unfinished commands, its fault (R187, R189). -/
structure Batch where
  num : Nat := 0
  cmds : List Nat := []
  fault : Option FaultInfo := none
  /-- Its fault has been raised. -/
  told : Bool := false
  /-- In ordered mode, no cwait covers it yet (R312). -/
  covered : Bool := false
deriving DecidableEq, Repr

/-- What a trap interrupted, for the returns of R330. -/
inductive TrapFrom where
  | scalar (e : Nat) (pc next : DWord) (again : Bool)
  | lane (e : Nat) (blk : QBlk) (word : Nat) (active : Word)
  | seq
  | between
deriving DecidableEq, Repr

/-- A trap to take: its records, its header fields and what it interrupted. -/
structure PendTrap where
  recs : List FRec := []
  e : Nat := 0
  lanei : Bool := false
  done : Word := 0
  src : TrapFrom := .between
  /-- The split's s1 to s31 when it trapped, where it has gone on since (R327, R329). -/
  regs : Option (SMap DWord) := none
  /-- Of a watchpoint's match, its number (R371). -/
  wpt : Nat := 0
deriving DecidableEq, Repr

/-- The Keep's repair of fault 0x06 (R197): the addresses whose pages it makes resident, and then the lane word
to execute again, or the scalar access. -/
structure KeepFix where
  e : Nat := 0
  lane : Bool := false
  vas : List Nat := []
  blk : QBlk := {}
deriving DecidableEq, Repr

/-! ## Memory effects -/

/-- A place that an access touches: a byte of DRAM (R191), or of a block's scratch (R170). -/
inductive Loc where
  | mem (a : Nat)
  | scr (b : BKey) (a : Nat)
deriving DecidableEq, Repr

/-- A store issued and not yet performed at wider scopes (R214). -/
structure Pend where
  id : Nat := 0
  g : GKey
  e : Nat := 0
  lane : Bool := false
  release : Bool := false
  cells : List (Loc × Byte) := []
deriving DecidableEq, Repr

/-- An atomic request: what one address receives from its lanes (R204, R311). -/
structure AtomReq where
  loc : Nat := 0
  op : Nat := 0
  scalar : Bool := false
  cas : Bool := false
  size : Nat := 4
  ty : Nat := 0
  /-- Lane, operand and comparand, ascending lanes. -/
  lanes : List (Nat × DWord × DWord) := []
  /-- Where the old values go: split and register. -/
  ret : Option (Nat × Nat) := none
  outst : Option Nat := none
  scope : Nat := 0
  rel : Bool := true
  acq : Bool := true
  rmt : Bool := false
  seq : Nat := 0
  va : Nat := 0
  pc : DWord := 0
  e : Nat := 0
  /-- The lane instruction it comes from: block, word, Active set. -/
  blk : QBlk := {}
  word : Nat := 0
  active : Word := 0
deriving DecidableEq, Repr

/-- A bank mode (R169). -/
inductive BankMode where
  | cache | scratch | fifo
deriving DecidableEq, Repr

/-- What a quantum of an agent holds back beside its stores (R307, R310, R312, R295). -/
inductive QOp where
  | give (n : Nat) (e : Nat) (d : Nat)
  | take (n : Nat) (e : Nat) (d : Nat)
  | seqGive (n d : Nat)
  | seqTake (n d : Nat)
  | push (bank e : Nat) (ents : List (List Word)) (lanes : Word) (blk : QBlk) (word : Nat)
  | pop (bank e vd outst : Nat) (lanes : Word) (blk : QBlk) (word : Nat)
  | barrier (t : Option Nat) (e : Nat) (waits : Bool)
  | barWait (t : Nat) (e : Nat)
  | claim (e : Nat)
  | release
  | bankcfg (e d : Nat) (mask : Word) (mode : BankMode)
  | launch (e d : Nat) (recs : List Nat) (vec : Bool)
  | pgreq (va : Nat)
  | sysc (e imm : Nat)
  | acquire (e outst size scope : Nat) (rmt : Bool) (lanes : List (Nat × Nat × Nat)) (vd : Nat) (blk : QBlk) (word : Nat)
  | resume (e : Nat)
  /-- A watchpoint that lanes have matched, whose accesses the commit performs (R378). -/
  | watched (t : PendTrap) (n : Nat) (lanePc addr : DWord)
deriving DecidableEq, Repr

/-- A change of a history bank that a commit applies (R295). -/
inductive HEvent where
  | spt (lane : Bool) (pc addr slot : Nat)
  | rvp (pc : Nat) (two : Bool) (s2 s3 : DWord)
  | hwr (sel v : DWord)
  | hload (img : List Byte)
  | hclr (m : DWord)
  | rret (base len kw : DWord)
  | pfdist (v : DWord)
  | lmpthr (v : DWord)
deriving DecidableEq, Repr

/-- A scope check that failed at a commit (R394). -/
structure ScopeFail where
  recs : List FRec := []
  active : Word := 0
  e : Nat := 0
  lanei : Bool := false
  done : Word := 0
  word : Nat := 0
  blk : QBlk := {}
deriving DecidableEq, Repr

/-- One lane of a release store: its bytes are checked by its address (R394). -/
structure RelLane where
  lane : Nat := 0
  va : Nat := 0
  cells : List (Loc × Byte) := []
deriving DecidableEq, Repr

/-- A buffered store of a quantum: one instruction's bytes, with its scope check if it is a release. -/
structure QStore where
  id : Nat := 0
  cells : List (Loc × Byte) := []
  sync : Option Nat := none
  rel : List RelLane := []
  e : Nat := 0
  lanei : Bool := false
  pc : DWord := 0
  va : Nat := 0
  blk : QBlk := {}
  word : Nat := 0
  active : Word := 0
deriving DecidableEq, Repr

/-- A write of lanes of a vector register of a group, by a sequencer. -/
structure VWrite where
  grp : Nat := 0
  reg : Nat := 0
  lanes : List (Nat × Word) := []
deriving DecidableEq, Repr

/-- A sample or trace record on its way to its ring: the entry that has made it, and whether the trace ring is meant (R380, R383). -/
structure RingRec where
  e : Nat := 0
  tr : Bool := false
  bytes : List Byte := []
deriving DecidableEq, Repr

/-- What an agent of an ordered region holds for its quantum (R305 to R309). -/
structure Quantum where
  count : Nat := 0
  /-- An instruction or a limit ends the quantum (R307); the agent has reached its end. -/
  due : Bool := false
  atEnd : Bool := false
  buf : List QStore := []
  atoms : List AtomReq := []
  ops : List QOp := []
  hist : List HEvent := []
  /-- Register writes of mstore: group, register, lanes (R309). -/
  regs : List VWrite := []
  fails : List ScopeFail := []
  /-- Trace records (true) and samples, which the commit writes (R380, R383). -/
  recs : List RingRec := []
  /-- The entry whose visit it is, and whether its lane head has issued in it (R306). -/
  visit : Nat := 0
  lanedone : Bool := false
  /-- Vector registers and sr.olcnt as of the last commit, which the sequencer sees. -/
  vsnap : SMap VReg := []
  olsnap : BitVec 32 := 0
  /-- Outlier records of mstore with their groups (R248). -/
  ol : List (Nat × OlRec) := []
  /-- Those of an mstore that waits for a page of theirs, with its register writes (R248). -/
  lateOl : List (Nat × OlRec) := []
  lateRegs : List VWrite := []
  /-- Groups whose sr.vstat takes its trit flag from the sequencer's words (R63). -/
  trits : List Nat := []
  /-- sr.audit as of the last commit, which the groups see (R314). -/
  audit : Nat := 0
deriving DecidableEq, Repr

/-- What a fork shadow holds of its fork (R133). -/
structure Fork where
  /-- The entry of the continuation; the entry of its callee split, which a fusion may renumber (R125); and the entry
  whose ret resolves it (R392). -/
  e : Nat := 0
  own : Nat := 0
  ret : Nat := 0
  /-- The shadow it was forked from; 0 is the group. -/
  parent : Nat := 0
  callPc : DWord := 0
  two : Bool := false
  level : BitVec 8 := 0
  mask : Word := 0
  pred2 : DWord := 0
  pred3 : DWord := 0
  /-- Values at the fork of s32 to s63 and of the .fork range (R135). -/
  sBase : SMap DWord := []
  vBase : SMap VReg := []
  wroteS : List Nat := []
  wroteV : List Nat := []
  wroteM : List Nat := []
  /-- The counts of retired instructions and of outliers at the fork. -/
  retired0 : Nat := 0
  /-- The number of the next block or store at the fork: earlier ones of the group precede the continuation (R107, R215). -/
  id0 : Nat := 0
  buf : List QStore := []
  /-- Its outlier records, which its commit appends (R66, R67) (DESIGN CHOICE, log entry 72). -/
  ol : List OlRec := []
  tracked : List Nat := []
  conflict : Bool := false
  /-- The forks that it was begun in and that are in conflict when it has committed (R133). -/
  owed : List Nat := []
  deferred : Option PendTrap := none
  rvp : List HEvent := []
  /-- Trace records (true) and samples to append at commit (R383). -/
  traces : List RingRec := []
  /-- The ret that resolves it has run, with the actual values; and its checks have passed. -/
  atRet : Option (DWord × DWord × Word) := none
  passed : Bool := false
deriving DecidableEq, Repr

/-- A group, or with `fork` a shadow of one. -/
structure Group where
  vec : Bool := true
  die : Nat := 0
  core : Nat := 0
  slot : Nat := 0
  /-- First placement, which ordered mode shows (R98). -/
  die0 : Nat := 0
  core0 : Nat := 0
  slot0 : Nat := 0
  budget : Nat := 16
  pidx : Nat := 0
  stackBase : DWord := 0
  ended : Bool := false
  ents : SMap Split := []
  sregs : SMap DWord := []
  vregs : SMap VReg := []
  masks : SMap Word := []
  bregs : SMap BReg := []
  wins : SMap Win := []
  joinwin : BitVec 16 := 64
  trapkind : BitVec 8 := 0
  vstat : BitVec 2 := 0
  olbase : BitVec 53 := 0
  ollen : BitVec 32 := 0
  olcnt : BitVec 32 := 0
  tw : BitVec 16 := 0
  tstat : BitVec 3 := 0
  retired : Nat := 0
  /-- Cycles of residence before the present placement, and its start (R98). -/
  cycles : Nat := 0
  since : Nat := 0
  batchNext : Nat := 1
  openBatch : List Nat := []
  openAny : Bool := false
  openFault : Option FaultInfo := none
  batches : List Batch := []
  recs : List FRec := []
  hdr : FHdr := {}
  traps : List PendTrap := []
  trap : Option TrapFrom := none
  /-- The split table as it stood when the trap was taken, which the trap split reads (R131). -/
  snap : SMap Split := []
  fix : Option KeepFix := none
  wpts : SMap Wpt := []
  mark : BitVec 16 := 0
  finial : Nat := 0
  outst : List Outst := []
  ol : List OlRec := []
  halted : Bool := false
  haltedAt : Nat := 0
  /-- The split a debug step runs; the entries, with lane heads at 5 and up, whose next instruction issues
  without a match, since a breakpoint has stopped them there (R374). -/
  stepping : Option Nat := none
  passBp : List Nat := []
  fork : Option Fork := none
  forks : Nat := 0
  squashed : Nat := 0
  /-- A stop at the next safe point has been asked for (R352). -/
  stopping : Bool := false
  q : Quantum := {}
  nextId : Nat := 1
deriving DecidableEq, Repr

/-! ## Blocks -/

/-- A bank a block holds (R169, R170, R181): the mode it switches to, the cycles that takes, and the end of the switch once it has
begun (R174). -/
structure Bank where
  num : Nat := 0
  mode : BankMode := .scratch
  bytes : SMap Byte := []
  fifo : List (List Word) := []
  poison : List Nat := []
  switching : Option BankMode := none
  need : Nat := 0
  doneAt : Option Nat := none
deriving DecidableEq, Repr

/-- Who waits at a ring (R229). -/
inductive RWait where
  | split (g : GKey) (e : Nat) | seq
deriving DecidableEq, Repr

/-- A stage ring (R229). -/
structure Ring where
  depth : Option Nat := none
  full : BitVec 8 := 0
  gi : Nat := 0
  ti : Nat := 0
  givers : List RWait := []
  takers : List RWait := []
deriving DecidableEq, Repr

/-- A barrier: instances completed, the splits that have executed the open one, the groups that have arrived at it, those placed while it
is open, whether a named barrier's instruction has executed it (R232), who has arrived by bar.arrive and in which instance last, and the
releases to come: instance and cycle (R230, R233). -/
structure Bar where
  inst : Nat := 0
  execd : List (GKey × Nat) := []
  here : List GKey := []
  late : List GKey := []
  named : Bool := false
  last : Tab GKey Nat := []
  releases : List (Nat × Nat) := []
deriving DecidableEq, Repr

/-- An accumulator (R237). -/
structure AccReg where
  isInt : Bool := false
  elems : SMap Word := []
  scales : SMap Word := []
deriving DecidableEq, Repr

/-- The latched weight tile: element bits by k × 256 + n, and scales by column (R245). -/
structure Tile where
  ty : Ty := .bf16
  elems : SMap Nat := []
  scales : SMap Word := []
deriving DecidableEq, Repr

/-- A row that waits for its adapter (R256); `id` is its fill. -/
structure Replay where
  id : Nat := 0
  acc : Nat := 0
  row : Nat := 0
  x : List Nat := []
  ty : Ty := .bf16
  aid : Nat := 0
  tag : Word := 0
  dir : Nat := 0
  fault : Option FaultInfo := none
  cand : Option Nat := none
deriving DecidableEq, Repr

/-- An adapter fill under way (R255, R257). -/
structure AFill where
  id : Nat := 0
  aid : Nat := 0
  tag : Word := 0
  dir : Nat := 0
  /-- Not to be inserted (R257). -/
  drop : Bool := false
deriving DecidableEq, Repr

/-- An audited instruction: what its record will say (R259, R260), and its outputs by accumulator, row and
column: the engine's and the audit's. -/
structure AuditRec where
  cand : Nat := 0
  acc : Nat := 0
  fmt : Nat := 0
  retired : Nat := 0
  pc : Nat := 0
  isInt : Bool := false
  outs : SMap (Word × Word) := []
deriving DecidableEq, Repr

/-- What a sequencer waits for. -/
inductive SPark where
  | engine | accs (js : List Nat) | writes | room (n : Nat) | invalidate (id : Option Nat) | drain
  | idle | audits | gate | page (va : Nat) | owned (a : Nat) | ring (give : Bool) (n : Nat) | commit | record
deriving DecidableEq, Repr

/-- The state of a sequencer. -/
inductive SeqSt where
  | running | parked (p : SPark) | faulted | ended
deriving DecidableEq, Repr

/-- What a sequencer fault is about, for the returns of R330: the word, or the records of an mstore (R248); a fill, by its number (R256);
an audit record. -/
inductive SeqCause where
  | word | fill (id : Nat) | audit
deriving DecidableEq, Repr

/-- A matrix word in execution (R262): its address, the cycle at which it may end, the accumulators it writes,
the registers and outlier records it then writes, and whether those writes are made. -/
structure ExecWord where
  pc : DWord := 0
  ready : Nat := 0
  accs : List Nat := []
  writes : List VWrite := []
  recs : List (Nat × OlRec) := []
  made : Bool := false
  /-- The group whose sr.vstat takes its trit flag when the word completes (R63, R245). -/
  trit : Option Nat := none
deriving DecidableEq, Repr

/-- A block's sequencer (R237). -/
structure Seq where
  st : SeqSt := .running
  accs : SMap AccReg := []
  q : SMap Word := []
  pc : DWord := 0
  held : Bool := false
  heldSince : Nat := 0
  tile : Option Tile := none
  /-- The tile to latch again when a restored block obtains the engine (R263). -/
  relatch : Option Tile := none
  /-- A restored block that held the engine reclaims it before its next word (R263). -/
  reclaims : Bool := false
  /-- The issue occupancy of R262 ends at this cycle. -/
  busy : Nat := 0
  auditOn : Bool := false
  auditN : Nat := 0
  auditBase : Nat := 0
  auditCap : Nat := 0
  auditW : Nat := 0
  auditT : Nat := 0
  retired : Nat := 0
  exec : List ExecWord := []
  replays : List Replay := []
  fills : List AFill := []
  audits : List AuditRec := []
  /-- Outlier records of an mstore still to be stored, with their group. -/
  ol : List (Nat × OlRec) := []
  /-- The fault to raise once those are stored (R248), or in ordered mode after the commit. -/
  olFault : Option FaultInfo := none
  frec : Option FRec := none
  cause : SeqCause := .word
  quant : Quantum := {}
  halted : Bool := false
  /-- The cause and extra of a stop whose record follows when the words in execution have finished (R372). -/
  halting : Option (Nat × Nat) := none
  /-- Its next word issues without a match (R374). -/
  passBp : Bool := false
  nextId : Nat := 1
deriving DecidableEq, Repr

/-- A block (R78, R92). -/
structure Block where
  relaunches : Nat := 0
  cluster : Nat := 0
  cores : List Nat := []
  placedAt : Nat := 0
  banks : List Bank := []
  /-- The bankcfgs that wait to be accepted, in issue order, and the switches completed (R175). -/
  cfgQ : List (GKey × Nat) := []
  switched : Nat := 0
  /-- The banks that the accepted bankcfg names, until their switches are complete (R173). -/
  switchMask : Word := 0
  rings : SMap Ring := []
  bar : Bar := {}
  /-- The pool entry a spread block claims for bar.blk (R232). -/
  tag : Option Nat := none
  seq : Option Seq := none
  /-- The core of the first vector group, which runs the sequencer (R80). -/
  seqCore : Nat := 0
  lcore : Nat := 0
  ended : Bool := false
  /-- A save stops it (R333). -/
  vacating : Bool := false
deriving DecidableEq, Repr

/-! ## Regions -/

/-- An effective region control block (R75, R76). -/
structure Rcb where
  ordered : Bool := false
  persistent : Bool := false
  relaunchable : Bool := false
  coresident : Bool := false
  detached : Bool := false
  spread : Bool := false
  prio : Nat := 0
  entry : Nat := 0
  lanebase : Nat := 0
  matbase : Nat := 0
  gridx : Nat := 1
  gridy : Nat := 1
  gridz : Nat := 1
  copy : Nat := 0
  /-- The field as the record has it; 0 stands for P in a persistent region. -/
  vector : Nat := 1
  seq : Bool := false
  cores : Nat := 192
  slots : Nat := 49152
  vcopy : Nat := 1
  vvec : Nat := 1
  banks : Nat := 0
  tags : Nat := 0
  adways : Nat := 0
  hist : Nat := 1
  stack : Nat := 0
  domain : Nat := 1
  quantum : Nat := 4096
  handler : Nat := 0
  pgroups : Nat := 1
  lcores : Nat := 192
  arg : DWord := 0
  done : DWord := 0
  preds : List Nat := []
  kdesc : Nat := 0
  stackva : Nat := 0
deriving DecidableEq, Repr

/-- A kernel descriptor (R79). -/
structure KDesc where
  fork : Option (Nat × Nat) := none
  wins : SMap Win := []
deriving DecidableEq, Repr

/-- The state of a region (R95). -/
inductive RState where
  | waiting | queued | running | done | faulted | cancelled
deriving DecidableEq, Repr

/-- An input from outside an ordered region (R318, R382). -/
structure ExtIn where
  kind : Nat := 1
  target : Nat := 0
  cells : List (Loc × Byte) := []
  sysc : Option (GKey × Nat × SysReply) := none
  page : Option (CKey × Nat) := none
  region : Option RKey := none
  /-- The bytes of a message that writes no memory. -/
  data : List Byte := []
deriving DecidableEq, Repr

/-- The kinds of copy command (R185). -/
inductive CopyKind where
  | cpy | cpy2d | cpyg
deriving DecidableEq, Repr

/-- A copy command in a cluster's queue (R182). -/
structure CopyCmd where
  id : Nat := 0
  g : GKey
  batch : Nat := 0
  kind : CopyKind := .cpy
  dst : DWord := 0
  src : DWord := 0
  idx : DWord := 0
  len : Nat := 0
  rows : Nat := 1
  ps : Nat := 0
  pd : Nat := 0
  /-- Ordered mode: the quantum it issued in, what it has read, and that it may write (R312). -/
  quantum : Nat := 0
  data : Option (List (Nat × List Byte)) := none
  /-- Destination words of its data that come from poisoned scratch. -/
  bad : List Nat := []
  fault : Option FaultInfo := none
  covered : Bool := false
  /-- Packets not yet acknowledged, and an error acknowledgement (R360). -/
  packets : List (FlowId × BitVec 32) := []
  sent : Bool := false
deriving DecidableEq, Repr

/-- A block that waits to be restored, with its groups and shared state (R334). -/
structure SavedBlock where
  b : BKey
  blk : Block := {}
  groups : List (GKey × Group) := []
  camp : Tab GKey (SMap Byte × Bool × SMap Byte) := []
  /-- The copies of an ordered region that are not written yet (R317). -/
  copies : List CopyCmd := []
  savedAt : Nat := 0
deriving DecidableEq, Repr

/-- An agent of the scope rules (R213). -/
inductive Agent where
  | split (g : GKey) (e : Nat) (die core : Nat)
  | seq (b : BKey) (die core : Nat)
  | copy (cluster : Nat) (b : BKey)
  /-- The hardware that writes completion words (R93). -/
  | dispatch
  | net | migration | keep
deriving DecidableEq, Repr

/-- A region (R75 to R96). -/
structure Region where
  rcb : Rcb := {}
  kd : KDesc := {}
  parent : Option Nat := none
  st : RState := .waiting
  /-- Its id is released (R93). -/
  gone : Bool := false
  /-- Its domain has ended it (R91). -/
  completing : Bool := false
  seq : Nat := 0
  dies : List Nat := []
  /-- The predecessors that it waits for still, and whether one of them has ended ill (R86). -/
  waits : List Nat := []
  doomed : Bool := false
  next : Nat := 0
  doneBlocks : Nat := 0
  /-- Where the next block is tried first under the spread flag, by die (R88). -/
  nextCluster : SMap Nat := []
  tags : List Nat := []
  qtag : Option Nat := none
  bars : SMap Bar := []
  /-- Since when its next block does not fit, by die (R87), and the dies it has starved. -/
  passed : SMap Nat := []
  starved : List Nat := []
  quantum : Nat := 0
  commitAt : Option Nat := none
  /-- What memory held at the last commit where an input has written since (R318). -/
  undo : List (Loc × Byte) := []
  inputs : List ExtIn := []
  /-- The context's mappings as of the last commit, when they have changed since (R315). -/
  pages : Option (List Page) := none
  /-- State and blocks done of other regions as of the last commit (R315). -/
  seen : SMap (Nat × Nat) := []
  /-- The records of the lines that its commits have synchronised on, in ordered mode: scope and agent (R223, R394). -/
  syncs : SMap (Nat × Agent) := []
  /-- Saved blocks, in the order in which they wait to be restored (R334). -/
  saved : List SavedBlock := []
  /-- The block that is saved to make room for a saved one (R334, R341). -/
  rotating : Option BKey := none
  /-- History images with no core to take them yet, in ascending number of the cores that they come from (R296). -/
  spare : List (Nat × List Byte) := []
  /-- The cores that the images come from which have been taken since, while others wait. -/
  taken : List Nat := []
deriving DecidableEq, Repr

/-! ## Contexts -/

/-- The configuration and state of a record ring (R380, R383). -/
structure RecRing where
  base : Nat := 0
  cap : Nat := 0
  n : Nat := 0
  timed : Bool := false
  w : Nat := 0
  lost : Nat := 0
deriving DecidableEq, Repr

/-- A breakpoint of a context (R370, R374). -/
structure Bp where
  addr : DWord := 0
  st : Stream := .scalar
  sel : Selector := ⟨false, 0, 0, 0, 0⟩
deriving DecidableEq, Repr

/-- An entry of the input log (R382). -/
structure LogEnt where
  region : Nat := 0
  quantum : Nat := 0
  kind : Nat := 0
  target : Nat := 0
  seq : Nat := 0
  payload : List Byte := []
  /-- The input itself, for a replay: as it was told, the Keep's write of a page, the fields of a debug write. -/
  inp : ExtIn := {}
  change : Option RegWrite := none
  fields : List RecField := []
deriving DecidableEq, Repr

/-- A write held in a bounce ring: to memory or to a block's scratch (R340). -/
structure Bounce where
  va : Nat := 0
  scr : Option BKey := none
  data : List Byte := []
deriving DecidableEq, Repr

/-- Superseded code: its range, the safe points of the old generation with their ids, and of the current one
(R354); how many later generations exist (R355). -/
structure Gen where
  lo : Nat := 0
  hi : Nat := 0
  old : List RetSite := []
  new : List RetSite := []
  later : Nat := 1
deriving DecidableEq, Repr

/-- Who has asked for a save or a load (R322, R338). -/
inductive SysWho where
  | split (g : GKey) (e : Nat)
  | keep (w : RegWrite)
deriving DecidableEq, Repr

/-- A section of an image in a context's memory. -/
structure Sect where
  lo : Nat := 0
  len : Nat := 0
deriving DecidableEq, Repr
/-- An image in a context's memory (R347): its scalar section, with the code that the Keep has published for it since, its lane and its
matrix section; whether every safe point is mapped; its safe points (R351). -/
structure CodeImg where
  scal : List Sect := []
  lane : Sect := {}
  mat : Sect := {}
  mapped : Bool := false
  points : List RetSite := []
deriving DecidableEq, Repr
/-- A code object that the Keep has loaded for a context (R347, R348): its address, the entry addresses of its kernels, its native images
by their revision keys, with whether each is compatible with later minors. -/
structure CodeObj where
  base : Nat := 0
  kernels : List Nat := []
  natives : List ((Nat × Nat) × Bool × CodeImg) := []
  /-- The SHA-512 of its portable image, and whether its containers keep their rules (R350). -/
  hvi : BitVec 512 := 0
  hviOk : Bool := false
  /-- Where a translation would stand. -/
  xlAt : Nat := 0
  /-- The image that the Keep has selected. -/
  use : Option CodeImg := none
  /-- Its translation is under way; fsd-xl has refused its portable image. -/
  busy : Bool := false
  refused : Bool := false
deriving DecidableEq, Repr

/-- A context (R320). -/
structure Context where
  sys : Bool := false
  proc : BitVec 32 := 0
  thr : BitVec 32 := 0
  pages : List Page := []
  nextRid : Nat := 1
  /-- Wholly saved (R338). -/
  absent : Bool := false
  /-- Its thread is scheduled (R321). -/
  scheduled : Bool := true
  attached : Option (Nat × Bool) := none
  bps : SMap Bp := []
  fin : RecRing := {}
  trace : RecRing := {}
  /-- Records for the rings that wait for lines which copies own (R224). -/
  recQ : List (GKey × RingRec) := []
  counters : SMap DWord := []
  logging : Bool := false
  log : List LogEnt := []
  bounce : List Bounce := []
  /-- Its code objects (R347). -/
  objects : List CodeObj := []
  /-- The mapped safe points of later generations, and of images that a restore has selected (R351, R353, R354). -/
  points : List RetSite := []
  gens : List Gen := []
  /-- The cores that take no block of it while a save vacates them (R338). -/
  closed : List Nat := []
  /-- Its Keep thread has stopped for a session (R371, R373). -/
  thrHalted : Bool := false
  /-- The log that a replay injects, and the live inputs that it holds back meanwhile (R382). -/
  replay : Option (List LogEnt) := none
  heldIn : List ExtIn := []
  /-- Saves and loads of this context under way, in issue order, with the blocks that a save has told to stop (R338). -/
  sysq : List (SysWho × Option (List BKey)) := []
  /-- The slice of its gang, in device time (R342). -/
  gang : Option (Nat × Nat) := none
  /-- Writes of the Keep that wait for a commit (R315). -/
  later : List RegWrite := []
deriving DecidableEq, Repr

/-- The frames and L2 ways of a virtual function, and its L2 tables (R209, R210, R293). -/
structure VFunc where
  guaranteed : Nat := 0
  /-- Its burstable count, once the Keep has set it. -/
  burst : Option Nat := none
  /-- How many contexts it may hold, once the Keep has set it (R320). -/
  allowance : Option Nat := none
  ways : List Nat := []
  sweep : Nat := 0
  l2 : SMap Nat := []
deriving DecidableEq, Repr

/-! ## Cores, clusters, dies -/

/-- An entry of an SPT, an RVP (R286, R288). -/
structure SptEnt where
  valid : Bool := false
  stream : Bool := false
  slot : BitVec 8 := 0
  pc : BitVec 24 := 0
  conf : BitVec 2 := 0
  lru : BitVec 5 := 0
  last : BitVec 56 := 0
  stride : BitVec 24 := 0
  pfline : BitVec 49 := 0
deriving DecidableEq, Repr

structure RvpEnt where
  valid : Bool := false
  tag : BitVec 18 := 0
  conf2 : BitVec 2 := 0
  conf3 : BitVec 2 := 0
  stride2 : BitVec 32 := 0
  last2 : DWord := 0
  last3 : DWord := 0
deriving DecidableEq, Repr

/-- A history bank with its range register (R281, R285, R177). -/
structure HBank where
  owner : Option RKey := none
  spt : SMap SptEnt := []
  rvp : SMap RvpEnt := []
  lmp : SMap Nat := []
  cst : SMap Nat := []
  pfdist : Nat := 4
  lmpthr : Nat := 300
  base : DWord := 0
  len : DWord := 0
  k : Nat := 0
  ways : Nat := 0
  ctr : Nat := 0
deriving DecidableEq, Repr

/-- A TLB entry (R192). -/
structure TlbEnt where
  c : CKey
  va : Nat := 0
  psize : Nat := 0
  frame : Nat := 0
  r : Bool := false
  w : Bool := false
deriving DecidableEq, Repr

/-- A line of a constant cache (R103). -/
structure ConstLine where
  c : CKey
  line : Nat := 0
  bytes : List Byte := []
  /-- Its poisoned sectors, 0 to 3 (R199). -/
  poison : List Nat := []
deriving DecidableEq, Repr

/-- A core: matrix engine, Campanile, constant cache, history banks, TLB. -/
structure Core where
  eng : Option BKey := none
  engQ : List BKey := []
  camp : Option GKey := none
  campSince : Nat := 0
  campQ : List (GKey × Nat) := []
  delays : SMap Byte := []
  maxMode : Bool := false
  latch : SMap Byte := []
  /-- The cycle at which the array's operation under way ends (R277). -/
  campBusy : Option Nat := none
  /-- The array to hand to a restored group, with its state (R278). -/
  campSaved : Tab GKey (SMap Byte × Bool × SMap Byte) := []
  consts : List ConstLine := []
  hist : SMap HBank := []
  tlb : List TlbEnt := []
  /-- The last cycle in which it has issued, and the first place that is then open still in the order of R294. -/
  issued : Nat × Nat := (0, 0)
deriving DecidableEq, Repr

/-- A line of a cluster cache or of the L2 (R291, R293); for the L2 with its synchronisation record
(scope, agent) and the core of its last core-scope release (R222, R223). -/
structure CLine where
  line : Nat := 0
  rrpv : Nat := 0
  sig : Nat := 0
  reused : Bool := false
  owner : Option Nat := none
deriving DecidableEq, Repr

structure L2Line where
  line : Nat := 0
  vf : Nat := 0
  rrpv : Nat := 0
  sig : Nat := 0
  reused : Bool := false
  owned : Bool := false
  sync : Option (Nat × Agent) := none
  relCore : Option Nat := none
deriving DecidableEq, Repr

/-- A fill in flight with the requests that joined it (R302). -/
structure Fill where
  line : Nat := 0
  sig : Nat := 0
  owner : Option Nat := none
  retained : Bool := false
  nt : Bool := false
  l2only : Bool := false
  joins : Nat := 0
  demand : Bool := true
  vf : Nat := 0
deriving DecidableEq, Repr

/-- An entry of an adapter cache: tag, and the two chunks as 16-bit elements by 64 × row + column. -/
structure AdEnt where
  r : RKey
  aid : Nat := 0
  tag : Word := 0
  la : SMap Nat := []
  ra : SMap Nat := []
  used : Nat := 0
deriving DecidableEq, Repr

/-- A cluster: copy engine, data cache, TLB, adapter cache, clock and fence. -/
structure Cluster where
  copyQ : List CopyCmd := []
  cache : SMap CLine := []
  fills : List Fill := []
  tlb : List TlbEnt := []
  adways : SMap RKey := []
  adEnts : SMap AdEnt := []
  stretched : Bool := false
  /-- Cycles that the cluster's clock has lost, stretched or capped (R389). -/
  lag : Nat := 0
  capped : Bool := false
  /-- The Keep limits its clock for the package's power. -/
  limited : Bool := false
  fenced : Bool := false
  /-- The cycles at which banks given back have become cache banks (R174). -/
  bankFree : SMap Nat := []
deriving DecidableEq, Repr

/-- A page move under way (R211). -/
structure Move where
  c : CKey
  va : Nat := 0
  dest : Nat := 0
  rewritten : List Nat := []
  round : Nat := 0
  /-- Its switch waits for the commits of the ordered regions of its context (R315). -/
  ready : Bool := false
deriving DecidableEq, Repr

/-! ## Ports, Belfry, platform -/

/-- The receiving and the sending side of a flow (R359, R360). -/
structure RFlow where
  next : BitVec 32 := 0
  /-- Packets held, each with the port it has come in by. -/
  held : List (Nat × Packet) := []
  /-- The numbers last refused, and the bytes of window 0 that are no whole message yet (R361, R362). -/
  refused : List (BitVec 32) := []
  partial_ : List Byte := []
deriving DecidableEq, Repr

structure SFlow where
  next : BitVec 32 := 0
  /-- Unacknowledged packets with cluster, command and source-side destination address. -/
  sent : List (Packet × Nat × Nat × Nat) := []
  retries : Nat := 0
  /-- The retry limit has ended the flow (R359). -/
  dead : Bool := false
deriving DecidableEq, Repr

/-- A debug session (R367). -/
structure Session where
  id : Nat := 0
  scope : Nat := 0
  keyHash : BitVec 512 := 0
  nc : BitVec 256 := 0
  nd : BitVec 256 := 0
  key : Option (BitVec 256) := none
  ctr : Nat := 0
  outCtr : Nat := 0
  seq : Nat := 0
  last : Nat := 0
  halted : List GKey := []
  haltedSeqs : List BKey := []
  wpts : List (GKey × Nat) := []
deriving DecidableEq, Repr

/-- A stop record of 64 bytes (R371). -/
structure StopRec where
  name : BitVec 128 := 0
  block : BitVec 32 := 0
  who : Nat := 0
  cause : Nat := 0
  entry : Nat := 0
  pc : DWord := 0
  lanePc : DWord := 0
  addr : DWord := 0
  extra : BitVec 32 := 0
  quantum : BitVec 32 := 0
  retired : DWord := 0
deriving DecidableEq, Repr

/-- What Belfry, the Keep and the ports have sent. -/
inductive Out where
  | challenge (sess : Nat) (nd : BitVec 256) (sig : BitVec 4096)
  | accept (sess : Nat) (key : BitVec 4096)
  | reply (sess : Nat) (code seq : Nat) (status : Int) (data : List Byte)
  | stop (sess : Nat) (r : StopRec)
  /-- The message of a session as it leaves: its counter, and its sealed bytes (R367, R369). -/
  | sealed (sess ctr : Nat) (bytes : List Byte)
  /-- The estimated offset of device time from the grandmaster, in nanoseconds (R365). -/
  | offset (ns : Int)
  | report (bytes : List Byte)
  /-- This device's part of a migration's key exchange (R363). -/
  | offer (stream : BitVec 32) (share : List Byte) (sig : BitVec 4096)
  | ack (f : FlowId) (seq : BitVec 32) (ok : Bool)
  | packet (port : Nat) (p : Packet)
  | record (stream : BitVec 32) (ctr : BitVec 64) (bytes : List Byte)
  | syscall (g : GKey) (e imm : Nat) (args : List DWord)
  | domainEnd (r : RKey) (kind : Nat)
  | keepRecord (b : BKey) (r : FRec)
  | l2image (vf : Nat) (bytes : List Byte)
  | dirtyWord (die n : Nat) (bits : DWord)
  | objectRefused (c : CKey) (base : Nat)
  | saved (c : CKey) (status : Int) (used : Nat) (bytes : List Byte)
  | loaded (c : CKey) (status : Int)
  | launched (c : CKey) (rcb : Nat) (status : DWord)
deriving DecidableEq, Repr

/-- A whole context's save image (R335): its bytes, and what a restore reads back from them. -/
structure Image where
  c : CKey
  bytes : List Byte := []
  regions : List (RKey × Region) := []
deriving DecidableEq, Repr

/-- The contents of a record of a save image, as R335 lists them: of a context, a region, a block, a group, its split table, its lane
queues, the history images of cores, the banks of a block, its sequencer, a group's array, its forks; or what a debugger reads of a
group. -/
inductive SaveBody where
  | context (vf : Nat) (sys : Bool) (root : List Page) (revision : List Byte) (whole safe : Bool) (cores : List Nat)
  | region (rcb : Rcb) (st : RState) (done quantum : Nat) (tags : List Nat) (qtag : Option Nat)
  | block (x : Block)
  | group (x : Group)
  | splits (es : SMap Split)
  | lanes (qs : List (Nat × List QBlk))
  /-- A core's index in the region's placement and its bank image (R296). -/
  | history (index : Nat) (img : List Byte)
  | scratch (banks : List Bank)
  | sequencer (x : Option Seq)
  | campanile (delays : SMap Byte) (maxMode : Bool) (latch : SMap Byte)
  | forks (committed squashed : Nat)
  | quantum (buf : List QStore) (atoms : List AtomReq)
deriving DecidableEq, Repr

/-- The code of a region in an image of another device (R353): the safe points and the matrix base of the image that
it ran, the safe points of the image that is selected here, and where this one's code stands. -/
structure NewCode where
  old : List RetSite := []
  oldMat : Nat := 0
  new : List RetSite := []
  entry : Nat := 0
  lanebase : Nat := 0
  matbase : Nat := 0
  handler : Nat := 0
deriving DecidableEq, Repr

/-- What the Keep reads from an image of another device (R335, R353): whether it has another revision key, and its
regions by their ids. -/
structure Foreign where
  other : Bool := false
  regions : List (Nat × Region × NewCode) := []
deriving DecidableEq, Repr

/-- A migration stream received or sent (R363, R364). -/
structure Migration where
  c : CKey
  key : BitVec 256 := 0
  /-- The identity key of the other device. -/
  peer : BitVec 4096 := 0
  dst : Nat := 0
  ctr : Nat := 0
  recv : Bool := false
  pages : List Page := []
  /-- The save image and the held writes received. -/
  image : List Byte := []
  bounce : List Bounce := []
  /-- Rounds sent; the context is being frozen; all is sent. -/
  round : Nat := 0
  freeze : Bool := false
  sent : Bool := false
  /-- Pages that have lost their frame, or were mapped, since the last round: they are sent again. -/
  again : List Nat := []
deriving DecidableEq, Repr

/-- Boot, firmware and monitors (R386 to R391). -/
structure Platform where
  /-- Stages started: 0 none, 1 Belfry, 2 die controllers, 3 the Keep, 4 its services. -/
  stage : Nat := 0
  meas : SMap (BitVec 512) := []
  images : List (Component × BitVec 512) := []
  down : List Component := []
  /-- The contexts that an update of the Keep has saved (R388). -/
  saved : List CKey := []
  fencedDies : List Nat := []
  /-- The dies whose maintenance has not ended (R390). -/
  maint : List Nat := []
  /-- What the Keep has read of the clusters' monitors (R389). -/
  readings : SMap Reading := []
  off : Bool := false
  polls : Nat := 0
deriving DecidableEq, Repr

/-- Every component that holds firmware: none runs before the boot chain has verified it (R386). -/
def allComponents : List Component := .belfry :: (List.range 8).map .die ++ [.keep]

/-! ## The whole -/

/-- Which agent moves next. -/
inductive Turn where
  | scalar (g : GKey) (e : Nat)
  | lane (g : GKey) (e : Nat)
  | seq (b : BKey)
  | event (ev : Event)
  | idle
deriving DecidableEq, Repr

/-- The state of the device. -/
structure State where
  /-- Which agent moves next (the model's own, DESIGN CHOICE, log entry 1). -/
  turn : Turn
  /-- Happenings from outside that have not taken place yet (the model's own, DESIGN CHOICE, log entry 1). -/
  inputs : List Event
  /-- Cycles since reset (DESIGN CHOICE, log entry 4), and the counter of the free values (DESIGN CHOICE, log entry 5). -/
  cycle : Nat
  free : Nat
  /-- DRAM: cells by die × 2^36 + offset (R191). -/
  mem : List Host.Cell
  /-- Poisoned sectors of DRAM, by address / 32 (R199). -/
  poison : List Nat
  /-- Dirty bitmap: frames by address / 4096 (R212). -/
  dirty : List Nat
  groups : Tab GKey Group
  blocks : Tab BKey Block
  regions : Tab RKey Region
  ctxs : Tab CKey Context
  vfs : SMap VFunc
  /-- By die × 24 + core, by die × 6 + cluster. -/
  cores : SMap Core
  clusters : SMap Cluster
  /-- L2 lines by ((die × 24 + slice) × 1024 + set) × 32 + way (R191, R210). -/
  l2 : SMap L2Line
  /-- By die, the starved regions that stop lower priorities there, with their priorities (R87). -/
  starving : SMap (List (RKey × Nat))
  /-- Stores not yet performed (R214). -/
  pend : List Pend
  moves : List Move
  /-- Port tables by port × 4096 + entry (R361). -/
  ports : SMap (BitVec 128)
  rflows : Tab FlowId RFlow
  sflows : Tab FlowId SFlow
  keepQueue : List (FlowId × List Byte)
  images : List Image
  migrations : Tab (BitVec 32) Migration
  /-- Translations cached in the Keep, by the hash of the portable image (R348). -/
  translated : List (BitVec 512 × XlImg)
  sessions : List Session
  /-- Debug keys by scope (R367). -/
  debugKeys : List (Nat × BitVec 512)
  outs : List Out
  /-- Device time at a cycle, in ns and the 36,000,000ths of one beyond, the slew in ppm since, and the chosen PTP port (R365). -/
  timeNs : Nat
  timeFr : Nat
  timeAt : Nat
  slew : Int
  ptp : Option Nat
  platform : Platform
  /-- The next launch's place in the queues, the next copy command, the next store. -/
  launchSeq : Nat
  nextId : Nat
deriving DecidableEq, Repr

/-- Why the machine stops. -/
inductive Fault where
  /-- Raised by `step` when the device has shut down at its junction limit (R391) and no boot is queued.
  Safe: the device does nothing more. -/
  | deviceOff
deriving DecidableEq, Repr

/-- Why an instruction has no meaning. -/
inductive Refusal where
  /-- Raised by `exec` for an instruction whose meaning is not written yet. Safe: nothing is claimed. -/
  | notModelled (mnemonic : String)
deriving DecidableEq, Repr

/-- The device right after power-on: no context, no region, nothing listed in memory, and every
register of the platform at zero (R386). -/
def State.reset : State where
  turn := .idle
  inputs := []
  cycle := 0
  free := 0
  mem := []
  poison := []
  dirty := []
  groups := []
  blocks := []
  regions := []
  ctxs := []
  vfs := []
  cores := []
  clusters := []
  l2 := []
  starving := []
  pend := []
  moves := []
  ports := []
  rflows := []
  sflows := []
  keepQueue := []
  images := []
  migrations := []
  translated := []
  sessions := []
  debugKeys := []
  outs := []
  timeNs := 0
  timeFr := 0
  timeAt := 0
  slew := 0
  ptp := none
  platform := { down := allComponents }
  launchSeq := 0
  nextId := 1

end Sys2Proof.Machine

namespace Sys2Proof.Config
open Sys2Proof.Machine

/-- What the Keep reads from the bytes of an image that this device has not written, for a context, if they are
such an image; and the held write that a received migration message carries, if it carries one. The spec gives the
contents of the records no layout (R335, R340, R363, DESIGN CHOICE, log entry 12). -/
opaque foreignImage : CKey → List Byte → Option Foreign
/-- The bytes of a record's contents, from its second doubleword pair on; and how many
doublewords they take, by the type, the region's effective record and the number of parts. R335 lists what a record contains and gives
no field its place (DESIGN CHOICE, log entry 12). -/
opaque recordByte : SaveBody → Nat → Byte
opaque recordLen : Nat → Rcb → Nat → Nat
opaque migrationBounce : List Byte → Option Bounce

end Sys2Proof.Config
end

