-- ==== Sys2Proof/Machine/Maps.lean ====
section
/-! DEFINITION. Tables with keys, and memory as a canonical list of cells. -/

namespace Sys2Proof

/-- The row of a key. -/
def Tab.get? {κ α : Type} [DecidableEq κ] : Tab κ α → κ → Option α
  | [], _ => none
  | (k', v) :: r, k => if k' = k then some v else Tab.get? r k

/-- The row of a key, or a default. -/
def Tab.get {κ α : Type} [DecidableEq κ] (t : Tab κ α) (d : α) (k : κ) : α := (t.get? k).getD d

/-- The table with a row put at a key; a new row stands last. -/
def Tab.put {κ α : Type} [DecidableEq κ] : Tab κ α → κ → α → Tab κ α
  | [], k, v => [(k, v)]
  | (k', v') :: r, k, v => if k' = k then (k, v) :: r else (k', v') :: Tab.put r k v

/-- The table without a key's row. -/
def Tab.del {κ α : Type} [DecidableEq κ] (t : Tab κ α) (k : κ) : Tab κ α := t.filter fun p => !decide (p.1 = k)

/-- The table with a key's row changed, if it has one. -/
def Tab.upd {κ α : Type} [DecidableEq κ] (t : Tab κ α) (k : κ) (f : α → α) : Tab κ α :=
  match t.get? k with
  | some v => t.put k (f v)
  | none => t

namespace Machine

/-- What a byte of DRAM reads as that nothing has written: zero (DESIGN CHOICE, log entry 2). -/
def Memory.unlisted : Byte := 0

/-- The form of memory: addresses strictly rising from a bound, no cell at the unlisted value. -/
def Memory.wfFrom : Nat → List Host.Cell → Bool
  | _, [] => true
  | lo, (a, v) :: r => decide (lo ≤ a) && v != Memory.unlisted && Memory.wfFrom (a + 1) r

/-- The canonical form of memory. -/
def Memory.wf (m : List Host.Cell) : Bool := Memory.wfFrom 0 m

/-- The byte at an address. -/
def Memory.read : List Host.Cell → Nat → Byte
  | [], _ => Memory.unlisted
  | (a, v) :: r, x => if a = x then v else Memory.read r x

/-- A new cell, if its value has to be listed. -/
def Memory.cons (x : Nat) (b : Byte) (r : List Host.Cell) : List Host.Cell :=
  if b = Memory.unlisted then r else (x, b) :: r

/-- Memory with a byte written, in canonical form. -/
def Memory.write : List Host.Cell → Nat → Byte → List Host.Cell
  | [], x, b => Memory.cons x b []
  | (a, v) :: r, x, b =>
    if x < a then Memory.cons x b ((a, v) :: r)
    else if x = a then Memory.cons x b r
    else (a, v) :: Memory.write r x b

/-- Memory with several bytes written, in order. -/
def Memory.writeAll (m : List Host.Cell) (ws : List (Nat × Byte)) : List Host.Cell :=
  ws.foldl (fun m w => Memory.write m w.1 w.2) m

end Machine
end Sys2Proof
end

