-- ==== Sys2Proof/Machine/Values.lean ====
section
/-! DEFINITION. Values: elements, integers, floats and their rounding (R49 to R74). -/

namespace Sys2Proof.Machine

/-! ## Integers -/

/-- The number of bits of a number, 0 for 0. -/
def bitLen (n : Nat) : Nat := if n = 0 then 0 else Nat.log2 n + 1

/-- The signed reading of the low `w` bits (R50). -/
def sInt (w n : Nat) : Int := let m := n % 2 ^ w; if m < 2 ^ (w - 1) then (m : Int) else (m : Int) - 2 ^ w

/-- Whether a type is signed (R50). -/
def Ty.signed : Ty → Bool
  | .i32 | .i16 | .i8 | .i64 => true
  | _ => false

/-- The value of an integer element (R50). -/
def elInt (t : Ty) (n : Nat) : Int := if Ty.signed t then sInt t.width n else ((n % 2 ^ t.width : Nat) : Int)

/-- The low `w` bits of an integer (R51). -/
def wrapInt (w : Nat) (x : Int) : Nat := (x % 2 ^ w).toNat

def minInt (t : Ty) : Int := if Ty.signed t then -2 ^ (t.width - 1) else 0
def maxInt (t : Ty) : Int := if Ty.signed t then 2 ^ (t.width - 1) - 1 else 2 ^ t.width - 1

/-- An integer result: wrapped, or clamped with sat (R51). -/
def fitInt (t : Ty) (sat : Bool) (x : Int) : Nat :=
  wrapInt t.width (if sat then max (minInt t) (min (maxInt t) x) else x)

/-- The number of one bits among the low `w`. -/
def popBits (w n : Nat) : Nat := (List.range w).countP fun i => n.testBit i
/-- Leading zeros among the low `w` bits. -/
def clzBits (w n : Nat) : Nat := ((List.range w).find? fun i => n.testBit (w - 1 - i)).getD w
/-- Trailing zeros among the low `w` bits. -/
def ctzBits (w n : Nat) : Nat := ((List.range w).find? fun i => n.testBit i).getD w

/-- A quotient that truncates toward zero, its remainder with the sign of the dividend (R109). -/
def quotInt (a b : Int) : Int := Int.tdiv a b
def remInt (a b : Int) : Int := Int.tmod a b

/-! ## Floats -/

/-- A float format (R52). -/
structure Fmt where
  w : Nat
  f : Nat
  bias : Int
  hasInf : Bool
  maxFin : Nat
  infBits : Nat
  nanBits : Nat
deriving DecidableEq, Repr

def fmtF32 : Fmt := ⟨32, 23, 127, true, 0x7F7FFFFF, 0x7F800000, 0x7FC00000⟩

/-- The format of a float type; others read as f32. -/
def Ty.fmt : Ty → Fmt
  | .f16 => ⟨16, 10, 15, true, 0x7BFF, 0x7C00, 0x7E00⟩
  | .bf16 => ⟨16, 7, 127, true, 0x7F7F, 0x7F80, 0x7FC0⟩
  | .e4 => ⟨8, 3, 7, false, 0x7E, 0x7F, 0x7F⟩
  | .e5 => ⟨8, 2, 15, true, 0x7B, 0x7C, 0x7E⟩
  | _ => fmtF32

/-- Whether a type is a float type (R52). -/
def Ty.isFloat : Ty → Bool
  | .f32 | .f16 | .bf16 | .e4 | .e5 => true
  | _ => false

/-- An exact value: NaN, an infinity, or sign × m × 2^e; zero keeps its sign. -/
inductive Num where
  | nan
  | inf (neg : Bool)
  | fin (neg : Bool) (m : Nat) (e : Int)
deriving DecidableEq, Repr

/-- The value of a bit pattern (R53). -/
def readFloat (t : Fmt) (n : Nat) : Num :=
  let s := n.testBit (t.w - 1)
  let mag := n % 2 ^ (t.w - 1)
  let ex := mag / 2 ^ t.f
  let fr := mag % 2 ^ t.f
  if t.hasInf && mag == t.infBits then .inf s
  else if t.hasInf && mag > t.infBits then .nan
  else if !t.hasInf && mag == t.nanBits then .nan
  else if ex = 0 then .fin s fr (1 - t.bias - t.f)
  else .fin s (2 ^ t.f + fr) (ex - t.bias - t.f)

/-- The value of an element of a type; integers are exact, and tr is a trit (R60). -/
def readEl (t : Ty) (n : Nat) : Num :=
  if Ty.isFloat t then readFloat (Ty.fmt t) n
  else if t == .tr then
    (match n % 4 with | 1 => .fin false 1 0 | 3 => .fin true 1 0 | _ => .fin false 0 0)
  else let x := elInt t n; .fin (decide (x < 0)) x.natAbs 0

/-- The bits of a signed magnitude. -/
def signBits (t : Fmt) (neg : Bool) (mag : Nat) : Nat := if neg then 2 ^ (t.w - 1) + mag else mag

/-- Whether a rounding mode rounds magnitudes of a sign away from zero when it must choose. -/
def roundsUp (rm : Rm) (neg : Bool) (odd : Bool) (cmpHalf : Ordering) : Bool :=
  match rm with
  | .rne => cmpHalf == .gt || (cmpHalf == .eq && odd)
  | .rtz => false
  | .rup => !neg
  | .rdn => neg

/-- Overflow (R56, R57). -/
def overflowBits (t : Fmt) (rm : Rm) (sat neg : Bool) : Nat :=
  if !sat && (rm == .rne || (rm == .rup && !neg) || (rm == .rdn && neg)) then
    (if t.hasInf then signBits t neg t.infBits else t.nanBits)
  else signBits t neg t.maxFin

/-- RoundTo of the magnitude m × 2^e, or of a value between it and (m + 1) × 2^e when `sticky`: R56. With
`sticky`, m has more bits than the format needs. -/
def roundMag (t : Fmt) (rm : Rm) (sat neg : Bool) (m : Nat) (e : Int) (sticky : Bool) : Nat :=
  if m = 0 && !sticky then signBits t neg 0
  else
    let top : Int := e + (bitLen m : Int) - 1
    let ex := max top (1 - t.bias)
    let q : Int := ex - t.f
    let sh := (q - e).toNat
    let n := if e ≥ q then m * 2 ^ (e - q).toNat else m / 2 ^ sh
    let r := if e ≥ q then 0 else m % 2 ^ sh
    let up :=
      if r = 0 && !sticky then false
      else
        let half := if sh = 0 then 1 else 2 ^ (sh - 1)
        let c : Ordering :=
          if sh = 0 then .lt
          else if r > half || (r == half && sticky) then .gt else if r == half then .eq else .lt
        roundsUp rm neg (n % 2 == 1) c
    let n' := if up then n + 1 else n
    let mag := ((q + t.f + t.bias) * 2 ^ t.f + n' - 2 ^ t.f).toNat
    if mag > t.maxFin then overflowBits t rm sat neg else signBits t neg mag

/-- RoundTo, or RoundSat when `sat` (R56, R57). -/
def roundTo (t : Fmt) (rm : Rm) (sat : Bool) : Num → Nat
  | .nan => t.nanBits
  | .inf s => if sat then signBits t s t.maxFin else if t.hasInf then signBits t s t.infBits else t.nanBits
  | .fin s m e => roundMag t rm sat s m e false

/-- An exact value as an integer multiple of 2^e, for a small enough e. -/
def scaled (e : Int) : Num → Int
  | .fin s m e' => let v : Int := (m * 2 ^ (e' - e).toNat : Nat); if s then -v else v
  | _ => 0

def Num.exp : Num → Int
  | .fin _ _ e => e
  | _ => 0
def Num.isZero : Num → Bool
  | .fin _ m _ => m == 0
  | _ => false
def Num.neg : Num → Bool
  | .inf s => s
  | .fin s _ _ => s
  | .nan => false
def Num.negate : Num → Num
  | .inf s => .inf !s
  | .fin s m e => .fin (!s) m e
  | .nan => .nan

/-- An exact sum; the sign of an exact zero follows R58. -/
def addNum (rm : Rm) (a b : Num) : Num :=
  match a, b with
  | .nan, _ | _, .nan => .nan
  | .inf s, .inf s' => if s == s' then .inf s else .nan
  | .inf s, _ | _, .inf s => .inf s
  | .fin s m e, .fin s' m' e' =>
    let lo := min e e'
    let v := scaled lo (.fin s m e) + scaled lo (.fin s' m' e')
    if v = 0 then .fin (if s == s' then s else rm == .rdn) 0 lo
    else .fin (decide (v < 0)) v.natAbs lo

/-- An exact product. -/
def mulNum (a b : Num) : Num :=
  match a, b with
  | .nan, _ | _, .nan => .nan
  | .inf s, x | x, .inf s => if x.isZero then .nan else .inf (s != x.neg)
  | .fin s m e, .fin s' m' e' => .fin (s != s') (m * m') (e + e')

/-- The exact sum of several values, +0 when it is zero (R71). -/
def sumNum (xs : List Num) : Num :=
  let s := xs.foldl (addNum .rne) (.fin false 0 0)
  match s with
  | .fin _ 0 e => .fin false 0 e
  | x => x

/-- The integer square root, bit by bit from `2^k`. -/
def isqrtFrom (n : Nat) : Nat → Nat → Nat
  | 0, r => r
  | k + 1, r => let r' := r + 2 ^ k; isqrtFrom n k (if r' * r' ≤ n then r' else r)
def isqrt (n : Nat) : Nat := isqrtFrom n (bitLen n / 2 + 1) 0

/-- Division, rounded once (R157). -/
def divF (t : Fmt) (rm : Rm) (sat : Bool) (a b : Num) : Nat :=
  match a, b with
  | .nan, _ | _, .nan => t.nanBits
  | .inf _, .inf _ => t.nanBits
  | .inf s, x => roundTo t rm sat (.inf (s != x.neg))
  | x, .inf s => signBits t (x.neg != s) 0
  | .fin s m e, .fin s' m' e' =>
    if m' = 0 then (if m = 0 then t.nanBits else roundTo t rm sat (.inf (s != s')))
    else
      let k := 64 + bitLen m'
      let q := m * 2 ^ k / m'
      roundMag t rm sat (s != s') q (e - e' - k) (m * 2 ^ k % m' != 0)

/-- The square root (R157). -/
def sqrtF (t : Fmt) (rm : Rm) (sat : Bool) : Num → Nat
  | .nan => t.nanBits
  | .inf s => if s then t.nanBits else roundTo t rm sat (.inf false)
  | .fin s m e =>
    if m = 0 then signBits t s 0
    else if s then t.nanBits
    else
      let (m, e) := if e % 2 = 0 then (m, e) else (m * 2, e - 1)
      let m := m * 2 ^ 160
      let r := isqrt m
      roundMag t rm sat false r (e / 2 - 80) (r * r != m)

/-- The reciprocal square root (R157). -/
def rsqrtF (t : Fmt) (rm : Rm) (sat : Bool) : Num → Nat
  | .nan => t.nanBits
  | .inf s => if s then t.nanBits else signBits t false 0
  | .fin s m e =>
    if m = 0 then roundTo t rm sat (.inf s)
    else if s then t.nanBits
    else
      let (m, e) := if e % 2 = 0 then (m, e) else (m * 2, e - 1)
      let k := 80 + bitLen m
      let r := isqrt (2 ^ (2 * k) / m)
      roundMag t rm sat false r (-(e / 2) - k) (r * r * m != 2 ^ (2 * k))

/-- ln 2 in units of 2^-512. -/
def ln2 : Nat := (List.range 530).foldl (fun s k => s + 2 ^ 512 / ((k + 1) * 2 ^ (k + 1))) 0

/-- e^x for 0 ≤ x < 1, in units of 2^-512. -/
def expFix (x : Nat) : Nat :=
  ((List.range 120).foldl (fun (p : Nat × Nat) k =>
    let t := p.2 * x / 2 ^ 512 / (k + 1); (p.1 + t, t)) (2 ^ 512, 2 ^ 512)).1

/-- 2^a (R157): a whole power of two is exact; any other value is irrational. -/
def exp2F (t : Fmt) (rm : Rm) (sat : Bool) : Num → Nat
  | .nan => t.nanBits
  | .inf s => if s then signBits t false 0 else roundTo t rm sat (.inf false)
  | .fin s m e =>
    if m = 0 then roundMag t rm sat false 1 0 false
    else if e + (bitLen m : Int) > 20 then
      roundMag t rm sat false (2 ^ 64) ((if s then -1 else 1) * 100000) false
    else
      let v := scaled (min e (-512)) (.fin s m e)
      let unit : Int := 2 ^ (-(min e (-512))).toNat
      let n := Int.fdiv v unit
      let fr := (Int.fmod v unit).toNat
      if fr = 0 then roundMag t rm sat false 1 n false
      else
        let x := fr * 2 ^ 512 / unit.toNat
        let y := expFix (x * ln2 / 2 ^ 512)
        roundMag t rm sat false (y / 2 ^ 100) (n - 412) true

/-- ln m for 1 ≤ m < 2 given in units of 2^-512, in the same units. -/
def lnFix (m : Nat) : Nat :=
  let z := (m - 2 ^ 512) * 2 ^ 512 / (m + 2 ^ 512)
  let z2 := z * z / 2 ^ 512
  2 * ((List.range 180).foldl (fun (p : Nat × Nat) k =>
    (p.1 + p.2 / (2 * k + 1), p.2 * z2 / 2 ^ 512)) (0, z)).1

/-- log₂ a (R157): of a power of two it is exact. -/
def log2F (t : Fmt) (rm : Rm) (sat : Bool) : Num → Nat
  | .nan => t.nanBits
  | .inf s => if s then t.nanBits else roundTo t rm sat (.inf false)
  | .fin s m e =>
    if m = 0 then roundTo t rm sat (.inf true)
    else if s then t.nanBits
    else
      let k := bitLen m - 1
      let n : Int := e + k
      if m = 2 ^ k then roundMag t rm sat (decide (n < 0)) n.natAbs 0 false
      else
        let v : Int := n * 2 ^ 512 + (lnFix (m * 2 ^ 512 / 2 ^ k) * 2 ^ 512 / ln2 : Nat)
        roundMag t rm sat (decide (v < 0)) (v.natAbs / 2 ^ 100) (-412) true

/-- An order on values; −0 below +0 when `zeros` (R156), else equal (R158). -/
def ltNum (zeros : Bool) (a b : Num) : Bool :=
  match a, b with
  | .nan, _ | _, .nan => false
  | .inf s, .inf s' => s && !s'
  | .inf s, _ => s
  | _, .inf s => !s
  | .fin s m e, .fin s' m' e' =>
    let lo := min e e'
    let x := scaled lo (.fin s m e)
    let y := scaled lo (.fin s' m' e')
    decide (x < y) || (zeros && decide (m = 0 ∧ m' = 0) && s && !s')

/-- vfmin and vfmax on bit patterns (R156). -/
def minF (t : Fmt) (wantMax : Bool) (a b : Nat) : Nat :=
  let x := readFloat t a
  let y := readFloat t b
  match x, y with
  | .nan, .nan => t.nanBits
  | .nan, _ => b
  | _, .nan => a
  | _, _ => if wantMax then (if ltNum true x y then b else a) else (if ltNum true y x then b else a)

/-- The class of a float (R158). -/
def classF (t : Fmt) (n : Nat) : Nat :=
  let mag := n % 2 ^ (t.w - 1)
  let s := n.testBit (t.w - 1)
  match readFloat t n with
  | .nan => 2 ^ 8
  | .inf s => if s then 2 ^ 0 else 2 ^ 7
  | .fin _ _ _ =>
    if mag = 0 then (if s then 2 ^ 3 else 2 ^ 4)
    else if mag < 2 ^ t.f then (if s then 2 ^ 2 else 2 ^ 5)
    else (if s then 2 ^ 1 else 2 ^ 6)

/-! ## Conversions -/

/-- A finite value rounded to an integer (R59). -/
def roundToInt (rm : Rm) (s : Bool) (m : Nat) (e : Int) : Int :=
  let n : Nat :=
    if e ≥ 0 then m * 2 ^ e.toNat
    else
      let sh := (-e).toNat
      let q := m / 2 ^ sh
      let r := m % 2 ^ sh
      if r = 0 then q
      else if roundsUp rm s (q % 2 == 1) (compare r (2 ^ (sh - 1))) then q + 1 else q
  if s then -(n : Int) else n

/-- A conversion to an element of type `t` (R59). -/
def convEl (t : Ty) (rm : Rm) (sat : Bool) (x : Num) : Nat :=
  if Ty.isFloat t then roundTo (Ty.fmt t) rm sat x
  else match x with
    | .nan => 0
    | .inf s => if sat then wrapInt t.width (if s then minInt t else maxInt t) else 0
    | .fin s m e => fitInt t sat (roundToInt rm s m e)

/-- Whether an element overflows for the outlier list (R65). -/
def isOutlier (t : Ty) (rm : Rm) (x : Num) : Bool :=
  match x with
  | .nan => false
  | .inf _ => true
  | .fin s m e =>
    if Ty.isFloat t then
      let f := Ty.fmt t
      let n := roundTo f rm false x % 2 ^ (f.w - 1)
      if f.hasInf then n ≥ f.infBits else n == f.nanBits
    else
      let v := roundToInt rm s m e
      v < minInt t || v > maxInt t

/-- The value an outlier record holds (R65). -/
def outlierValue (x : Num) : Word := BitVec.ofNat 32 (roundTo fmtF32 .rne false x)

/-! ## Ternary values -/

/-- The trits of a T5B byte, and whether the byte is one of 243 to 255 (R61). -/
def t5bDecode (b : Nat) : List Int × Bool :=
  if b ≥ 243 then ([0, 0, 0, 0, 0], true)
  else ((List.range 5).map fun i => match b / 3 ^ i % 3 with | 1 => 1 | 2 => -1 | _ => 0, false)

/-- The T5B byte of five trits (R61). -/
def t5bEncode (ts : List Int) : Nat :=
  ((List.range ts.length).zip ts).foldl
    (fun s p => s + (if p.2 > 0 then 1 else if p.2 < 0 then 2 else 0) * 3 ^ p.1) 0

/-- The 2-bit code of a trit (R60). -/
def tritCode (x : Int) : Nat := if x > 0 then 1 else if x < 0 then 3 else 0
def tritOf (c : Nat) : Int := match c % 4 with | 1 => 1 | 3 => -1 | _ => 0

/-! ## Elements -/

/-- Element `i` of width `w` (R49). -/
def elGet (w n i : Nat) : Nat := n / 2 ^ (w * i) % 2 ^ w
/-- A lane with element `i` of width `w` replaced. -/
def elPut (w n i v : Nat) : Nat :=
  n - elGet w n i * 2 ^ (w * i) + v % 2 ^ w * 2 ^ (w * i)
/-- A lane built element by element. -/
def elMap (w cnt : Nat) (f : Nat → Nat) : Nat :=
  (List.range cnt).foldl (fun s i => s + f i % 2 ^ w * 2 ^ (w * i)) 0

/-! ## Trees -/

/-- One level of the tree of R68: neighbours combine, an empty one passes the other on. -/
def treeLevel {α : Type} (f : α → α → α) : List (Option α) → List (Option α)
  | some a :: some b :: r => some (f a b) :: treeLevel f r
  | a :: none :: r => a :: treeLevel f r
  | none :: b :: r => b :: treeLevel f r
  | r => r

/-- The tree over 32 leaves (R68). -/
def tree {α : Type} (f : α → α → α) (ls : List (Option α)) : Option α :=
  ((treeLevel f (treeLevel f (treeLevel f (treeLevel f (treeLevel f ls))))).head?).getD none

end Sys2Proof.Machine
end

