-- ==== Sys2Proof/Machine/Ops.lean ====
section
/-! DEFINITION. The named operations over the state: the objects and registers, memory and translation,
stores and their performing. -/

namespace Sys2Proof.Machine

/-! ## Objects -/

def State.group (s : State) (g : GKey) : Group := s.groups.get {} g
def State.setGroup (s : State) (g : GKey) (x : Group) : State := { s with groups := s.groups.put g x }
def State.updGroup (s : State) (g : GKey) (f : Group → Group) : State := s.setGroup g (f (s.group g))
def State.split (s : State) (g : GKey) (e : Nat) : Split := (s.group g).ents.get {} e
def State.updSplit (s : State) (g : GKey) (e : Nat) (f : Split → Split) : State :=
  s.updGroup g fun x => { x with ents := x.ents.put e (f (x.ents.get {} e)) }
def State.block (s : State) (b : BKey) : Block := s.blocks.get {} b
def State.updBlock (s : State) (b : BKey) (f : Block → Block) : State :=
  { s with blocks := s.blocks.put b (f (s.block b)) }
def State.seq (s : State) (b : BKey) : Seq := ((s.block b).seq).getD {}
def State.updSeq (s : State) (b : BKey) (f : Seq → Seq) : State :=
  s.updBlock b fun x => { x with seq := some (f (x.seq.getD {})) }
def State.region (s : State) (r : RKey) : Region := s.regions.get {} r
def State.updRegion (s : State) (r : RKey) (f : Region → Region) : State :=
  { s with regions := s.regions.put r (f (s.region r)) }
def State.ctx (s : State) (c : CKey) : Context := s.ctxs.get {} c
def State.updCtx (s : State) (c : CKey) (f : Context → Context) : State :=
  { s with ctxs := s.ctxs.put c (f (s.ctx c)) }
def State.vf (s : State) (n : Nat) : VFunc := s.vfs.get {} n
def State.updVf (s : State) (n : Nat) (f : VFunc → VFunc) : State := { s with vfs := s.vfs.put n (f (s.vf n)) }
def State.core (s : State) (n : Nat) : Core := s.cores.get {} n
def State.updCore (s : State) (n : Nat) (f : Core → Core) : State :=
  { s with cores := s.cores.put n (f (s.core n)) }
def State.cluster (s : State) (n : Nat) : Cluster := s.clusters.get {} n
def State.updCluster (s : State) (n : Nat) (f : Cluster → Cluster) : State :=
  { s with clusters := s.clusters.put n (f (s.cluster n)) }

/-- The number of a group's core, die × 24 + core, and of its cluster, die × 6 + cluster (R7). -/
def State.coreOf (s : State) (g : GKey) : Nat := (s.group g).die * 24 + (s.group g).core
def State.clusterOf (s : State) (g : GKey) : Nat := s.coreOf g / 4
/-- The cycles of a cluster's clock (R389). -/
def State.clusterCycle (s : State) (cl : Nat) : Nat := s.cycle - (s.cluster cl).lag
/-- The region, its effective RCB, and whether it runs in ordered mode (R12). -/
def State.rcb (s : State) (g : GKey) : Rcb := (s.region g.b.r).rcb
def State.ordered (s : State) (g : GKey) : Bool := (s.rcb g).ordered
/-- The keys of the live groups of a block, in ascending index; shadows apart (R47). -/
def State.groupsOf (s : State) (b : BKey) : List GKey :=
  (s.groups.filter fun p => decide (p.1.b = b) && p.1.sh == 0).map (·.1)
/-- The fork shadows of a group. -/
def State.shadows (s : State) (g : GKey) : List GKey :=
  (s.groups.filter fun p => decide (p.1.b = g.b) && p.1.gid == g.gid && p.1.sh != 0).map (·.1)
/-- The group that a shadow belongs to; of a group, itself. A shadow of a group by number. -/
def baseKey (g : GKey) : GKey := { g with sh := 0 }
def shadowKey (g : GKey) (k : Nat) : GKey := { g with sh := k }
/-- What a continuation stands on, innermost first: itself and the number of the next block or store, and the shadow, or
group, that it was forked from and its number at the fork (R133). The fuel bounds the depth. -/
def State.lineage (s : State) (g : GKey) (n : Nat) : Nat → List (GKey × Nat)
  | 0 => [(g, n)]
  | k + 1 => match (s.group g).fork with
    | some f => (g, n) :: s.lineage (shadowKey g f.parent) (min n f.id0) k
    | none => [(g, n)]
/-- The instructions that a group has retired as a split of it reads them: in a continuation the group's, and its own since
the fork (R305, R345). -/
def State.retiredOf (s : State) (g : GKey) : Nat → Nat
  | 0 => (s.group g).retired
  | k + 1 => match (s.group g).fork with
    | some f => s.retiredOf (shadowKey g f.parent) k + ((s.group g).retired - f.retired0)
    | none => (s.group g).retired

/-- A fresh value of the counter of the free values, and the state after its use. -/
def State.choose (s : State) (n : Nat) : Nat × State :=
  ((Config.choice s.free) % (if n = 0 then 1 else n), { s with free := s.free + 1 })

/-- A context's counter raised, in bits [62:0] (R385). -/
def State.bump (s : State) (c : CKey) (n k : Nat) : State :=
  s.updCtx c fun x =>
    let v := x.counters.get 0 n
    let v' := BitVec.ofNat 64 (v.toNat / 2 ^ 63 * 2 ^ 63 + (v.toNat % 2 ^ 63 + k) % 2 ^ 63)
    { x with counters := x.counters.put n v' }

/-! ## Registers -/

/-- The entry and group of the scalar stream whose turn it is (DESIGN CHOICE, log entry 60). -/
def State.actor (s : State) : GKey × Nat :=
  match s.turn with
  | .scalar g e | .lane g e => (g, e)
  | _ => (⟨⟨⟨⟨0, 0⟩, 0⟩, 0⟩, 0, 0⟩, 0)

/-- A scalar register: s0 is 0, s1 to s31 are the split's, the others the group's (R97). -/
def State.getS (s : State) (g : GKey) (e n : Nat) : DWord :=
  if n = 0 then 0 else if n < 32 then (s.split g e).s.get 0 n else (s.group g).sregs.get 0 n

/-- A write of a scalar register; a write of s0 is discarded (R97). A shadow notes the shared
registers it writes (R135). -/
def State.setS (s : State) (g : GKey) (e n : Nat) (v : DWord) : State :=
  if n = 0 then s
  else if n < 32 then s.updSplit g e fun x => { x with s := x.s.put n v }
  else s.updGroup g fun x =>
    { x with sregs := x.sregs.put n v, fork := x.fork.map fun f => { f with wroteS := n :: f.wroteS } }

def zeroV : VReg := List.replicate 32 0
/-- A vector register, and one lane of it (R142). -/
def State.getV (s : State) (g : GKey) (n : Nat) : VReg := (s.group g).vregs.get zeroV n
def State.getVL (s : State) (g : GKey) (n l : Nat) : Word := (s.getV g n).getD l 0
/-- A vector register with lanes written, of which a lane written twice keeps the later value. -/
def VReg.setLanes (v : VReg) (ls : List (Nat × Word)) : VReg :=
  (List.range 32).map fun l => ls.foldl (fun w p => if p.1 = l then p.2 else w) (v.getD l 0)
/-- Lanes of a vector register written; a shadow notes the granule (R133). -/
def State.setVLs (s : State) (g : GKey) (n : Nat) (ls : List (Nat × Word)) : State :=
  s.updGroup g fun x =>
    { x with
      vregs := x.vregs.put n (VReg.setLanes (x.vregs.get zeroV n) ls)
      fork := x.fork.map fun f => { f with wroteV := (n / 8) :: f.wroteV } }

/-- A mask register as a split or a lane block with recorded mask `act` reads it (R144). -/
def State.getM (s : State) (g : GKey) (act : Word) (n : Nat) : Word :=
  if n = 0 then act else (s.group g).masks.get 0 n
/-- Bits `sel` of a mask register written; m0 discards (R144, R145). -/
def State.setM (s : State) (g : GKey) (n : Nat) (sel v : Word) : State :=
  if n = 0 then s
  else s.updGroup g fun x =>
    { x with
      masks := x.masks.put n (((x.masks.get 0 n) &&& ~~~sel) ||| (v &&& sel))
      fork := x.fork.map fun f => { f with wroteM := n :: f.wroteM } }

/-- The lanes of a mask, ascending. -/
def lanesOf (m : Word) : List Nat := (List.range 32).filter fun l => m.getLsbD l
/-- A mask of lanes. -/
def maskOf (ls : List Nat) : Word := ls.foldl (fun m l => m ||| BitVec.ofNat 32 (2 ^ l)) 0
/-- The lowest lane of a mask; 32 for none. -/
def lowLane (m : Word) : Nat := (lanesOf m).headD 32

/-! ## Addresses -/

/-- The bytes of a page of a size code (R100). -/
def pageBytes (p : Nat) : Nat := if p = 0 then 4096 else if p = 1 then 65536 else 2097152
def Page.size (p : Page) : Nat := pageBytes p.psize
def Page.holds (p : Page) (va : Nat) : Bool := p.va ≤ va && va < p.va + Page.size p
/-- The DRAM cell of a physical address, in either window (R191). -/
def cellOf (pa : Nat) : Nat :=
  if pa < 2 ^ 39 then pa / 4096 % 8 * 2 ^ 36 + pa / 32768 * 4096 + pa % 4096
  else (pa - 2 ^ 51) % 2 ^ 39
/-- Whether DRAM backs a range of physical addresses (R191). -/
def backed (pa n : Nat) : Bool := pa + n ≤ 2 ^ 39 || (2 ^ 51 ≤ pa && pa + n ≤ 2 ^ 51 + 2 ^ 39)
/-- The physical address of a virtual address in its page. -/
def Page.pa (p : Page) (va : Nat) : Nat := p.frame * 4096 + (va - p.va)
/-- The frames of 4 KiB that a page lies on, by DRAM address / 4096; of a resident page in this device (R191). -/
def framesAt (frame size : Nat) : List Nat := (List.range (size / 4096)).map fun k => cellOf (frame * 4096 + 4096 * k) / 4096
def Page.frames (p : Page) : List Nat := if p.res && p.peer.isNone then framesAt p.frame (Page.size p) else []
/-- The mapping that holds an address. -/
def findPage (ps : List Page) (va : Nat) : Option Page := ps.find? fun p => Page.holds p va
/-- The mappings a group's accesses use: the context's, in ordered mode as of the last commit (R315). -/
def State.pagesFor (s : State) (g : GKey) : List Page :=
  let now := (s.ctx g.b.r.c).pages
  if s.ordered g then ((s.region g.b.r).pages).getD now else now

/-- A running ordered region of a context. -/
def Region.listens (x : Region) : Bool := x.rcb.ordered && decide (x.st = .running)
/-- A change of a context's page tables. A running ordered region goes on with the tables of its last commit. -/
def State.setPages (s : State) (c : CKey) (f : List Page → List Page) : State :=
  let old := (s.ctx c).pages
  let s : State :=
    { s with
      regions := s.regions.map fun p =>
        if decide (p.1.c = c) && p.2.listens && p.2.pages.isNone then (p.1, { p.2 with pages := some old }) else p }
  s.updCtx c fun x => { x with pages := f x.pages }

/-- How a translation ends: the DRAM cell, a fault of a kind, or a page that is not resident. -/
inductive Xl where
  | ok (cell : Nat)
  | fault (kind : Nat)
  | nonres
deriving DecidableEq, Repr

def TlbEnt.holds (t : TlbEnt) (c : CKey) (va : Nat) : Bool :=
  decide (t.c = c) && t.va ≤ va && va < t.va + pageBytes t.psize

/-- A TLB entry put first; the core TLB keeps 64, a set of the cluster TLB the 8 walked last (R192; DESIGN CHOICE, log entry 103). -/
def coreTlbAdd (t : List TlbEnt) (x : TlbEnt) : List TlbEnt :=
  (x :: t.filter fun y => !(decide (y.c = x.c) && y.va == x.va)).take 64
def tlbSet (x : TlbEnt) : Nat := x.va / pageBytes x.psize % 256
def clusterTlbAdd (t : List TlbEnt) (x : TlbEnt) : List TlbEnt :=
  let t := t.filter fun y => !(decide (y.c = x.c) && y.va == x.va)
  let same := (t.filter fun y => tlbSet y == tlbSet x).take 7
  x :: same ++ t.filter fun y => tlbSet y != tlbSet x

/-- A translation through the TLBs and a walk, with the permission check and re-walk (R194): `wr` for a
store, both for an atomic. -/
def State.xlate (s : State) (g : GKey) (va : Nat) (rd wr : Bool) : State × Xl :=
  let c := g.b.r.c
  let k := s.coreOf g
  let grants (r w : Bool) := (!rd || r) && (!wr || w)
  let hit := if s.ordered g then none else
    ((s.core k).tlb ++ (s.cluster (k / 4)).tlb).find? fun t => TlbEnt.holds t c va && grants t.r t.w
  match hit with
  | some t =>
    let s := if wr then s.updCtx c fun x => { x with pages := x.pages.map fun q => if q.va = t.va then { q with dirty := true } else q }
      else s
    (s.updCore k fun x => { x with tlb := coreTlbAdd x.tlb t }, .ok (cellOf (t.frame * 4096 + (va - t.va))))
  | none =>
    match findPage (s.pagesFor g) va with
    | none => (s, .fault 5)
    | some p =>
      if p.peer.isSome || !grants p.r p.w then (s, .fault 5)
      else if !p.res then (s, .nonres)
      else
        let t : TlbEnt := ⟨c, p.va, p.psize, p.frame, p.r, p.w⟩
        let s := s.updCtx c fun x => { x with pages := x.pages.map fun q =>
          if q.va = p.va then { q with acc := true, dirty := q.dirty || wr } else q }
        let s := s.updCore k fun x => { x with tlb := coreTlbAdd x.tlb t }
        let s := s.updCluster (k / 4) fun x => { x with tlb := clusterTlbAdd x.tlb t }
        (s, .ok (cellOf (Page.pa p va)))

/-! ## Reading memory -/

/-- The last of several writes to a place. -/
def lastWrite (ws : List (Loc × Byte)) (l : Loc) : Option Byte :=
  ws.foldl (fun r w => if w.1 = l then some w.2 else r) none

/-- The bank of a block that holds a local address in SCRATCH mode (R170). -/
def Block.bankAt (x : Block) (a : Nat) : Option Bank :=
  match x.banks[a / 131072]? with
  | some k => if k.mode = .scratch then some k else none
  | none => none
/-- Whether a local range is valid scratch (R170). -/
def Block.scratchOk (x : Block) (a n : Nat) : Bool :=
  n == 0 || (List.range ((a + n - 1) / 131072 - a / 131072 + 1)).all fun i =>
    (x.bankAt ((a / 131072 + i) * 131072)).isSome

/-- The byte that memory itself holds at a place. -/
def State.rawByte (s : State) (l : Loc) : Byte :=
  match l with
  | .mem a => Memory.read s.mem a
  | .scr b a => match (s.block b).banks[a / 131072]? with
    | some k => k.bytes.get 0 (a % 131072)
    | none => 0

/-- What an agent's own held-back stores lay over memory, oldest first: its stores not yet performed,
its quantum's stores (R309), or a shadow's buffer over what its split had stored before the fork (R133, R215). -/
def State.ownStores (s : State) (g : GKey) (e : Nat) : List (List (Loc × Byte)) :=
  match (s.group g).fork with
  | some f =>
    let line := s.lineage g s.nextId 4
    let up := line.drop 1
    let own := ((line.filterMap fun k => (s.group k.1).fork).getLastD f).own
    let from_ (k : GKey × Nat) : List (List (Loc × Byte)) := match (s.group k.1).fork with
      | some y => (y.buf.filter fun x => x.id < k.2).map (·.cells)
      | none => (s.pend.filter fun p => decide (p.g = k.1) && p.e == own && p.id < k.2).map (·.cells)
    up.reverse.flatMap from_ ++ f.buf.map (·.cells)
  | none =>
    if s.ordered g then (s.group g).q.buf.map (·.cells)
    else (s.pend.filter fun p => decide (p.g = g) && p.e == e).map (·.cells)
def State.ownWrites (s : State) (g : GKey) (e : Nat) : List (Loc × Byte) := (s.ownStores g e).flatten

/-- The byte a split reads at a place (DESIGN CHOICE, log entry 16). -/
def State.readByte (s : State) (g : GKey) (e : Nat) (l : Loc) : Byte :=
  match lastWrite (s.ownWrites g e) l with
  | some b => b
  | none =>
    let u := if s.ordered g then (s.region g.b.r).undo.find? fun w => decide (w.1 = l) else none
    match u with
    | some w => w.2
    | none => s.rawByte l

/-- The places that follow a place. -/
def Loc.add (l : Loc) (i : Nat) : Loc :=
  match l with
  | .mem a => .mem (a + i)
  | .scr b a => .scr b (a + i)
def Loc.span (l : Loc) (n : Nat) : List Loc := (List.range n).map l.add
/-- A little-endian value that a split reads (R5). -/
def State.load (s : State) (g : GKey) (e : Nat) (l : Loc) (n : Nat) : Nat :=
  leNat ((Loc.span l n).map fun x => s.readByte g e x)
/-- The bytes of a little-endian value at a place. -/
def cellsOf (l : Loc) (n v : Nat) : List (Loc × Byte) := (Loc.span l n).zip (leBytes n v)

/-- Whether a place is poisoned (R199). -/
def State.poisoned (s : State) (l : Loc) : Bool :=
  match l with
  | .mem a => s.poison.contains (a / 32)
  | .scr b a => match (s.block b).banks[a / 131072]? with
    | some k => k.poison.contains (a % 131072 / 32)
    | none => false

/-- Whether a resident page of a context holds a poisoned sector (R199, R287). -/
def State.pagePoisoned (s : State) (p : Page) : Bool :=
  (Page.frames p).any fun k => s.poison.any fun x => x / 128 == k

/-- Whether cells cover the whole sector of a place. -/
def coversSector (cells : List (Loc × Byte)) (l : Loc) : Bool :=
  let base : Loc := match l with | .mem a => .mem (a / 32 * 32) | .scr b a => .scr b (a / 32 * 32)
  (Loc.span base 32).all fun x => cells.any fun w => decide (w.1 = x)
/-- Whether a place is poisoned for a split: no store of its own that is held back clears the sector. -/
def State.poisonFor (s : State) (g : GKey) (e : Nat) (l : Loc) : Bool :=
  s.poisoned l && !(s.ownStores g e).any fun c => coversSector c l
/-- Whether a store of cells may be made: no sector it writes in part is poisoned (R199). -/
def State.storeOk (s : State) (cells : List (Loc × Byte)) (l : Loc) : Bool :=
  !s.poisoned l || coversSector cells l

/-! ## Performing stores -/

/-- One byte written at its home: memory, its dirty bit (R212), and the bitmap of a page move (R211). -/
def State.poke (s : State) (l : Loc) (v : Byte) : State :=
  match l with
  | .mem a =>
    { s with
      mem := Memory.write s.mem a v
      dirty := if s.dirty.contains (a / 4096) then s.dirty else (a / 4096) :: s.dirty
      moves := s.moves.map fun m => if m.rewritten.contains (a / 128) then m
        else { m with rewritten := (a / 128) :: m.rewritten } }
  | .scr b a =>
    s.updBlock b fun x => { x with banks := x.banks.modify (a / 131072) fun k =>
      { k with bytes := k.bytes.put (a % 131072) v } }

/-- The poison of sectors that cells cover whole, cleared (R199). -/
def State.clean (s : State) (cells : List (Loc × Byte)) : State :=
  cells.foldl (fun s w =>
    if s.poisoned w.1 && coversSector cells w.1 then
      match w.1 with
      | .mem a => { s with poison := s.poison.filter (· != a / 32) }
      | .scr b a => s.updBlock b fun x => { x with banks := x.banks.modify (a / 131072) fun k =>
          { k with poison := k.poison.filter (· != a % 131072 / 32) } }
    else s) s

/-- The sector of a place poisoned (R199). -/
def State.spoil (s : State) (l : Loc) : State :=
  match l with
  | .mem a => { s with poison := if s.poison.contains (a / 32) then s.poison else (a / 32) :: s.poison }
  | .scr b a => s.updBlock b fun x => { x with banks := x.banks.modify (a / 131072) fun k =>
      { k with poison := if k.poison.contains (a % 131072 / 32) then k.poison else (a % 131072 / 32) :: k.poison } }

/-- Stores performed at their home, in order. -/
def State.perform (s : State) (cells : List (Loc × Byte)) : State :=
  cells.foldl (fun s w => s.poke w.1 w.2) (s.clean cells)

/-- The aligned unit of 8 bytes of a place (R214). -/
def Loc.unit : Loc → Loc
  | .mem a => .mem (a / 8)
  | .scr b a => .scr b (a / 8)
/-- Whether two stores of one agent touch one unit of 8 bytes: they are performed in the order of their issue (R214, R215). -/
def Pend.meets (p q : Pend) : Bool :=
  decide (p.g = q.g) && p.e == q.e && p.cells.any fun w => q.cells.any fun v => decide (w.1.unit = v.1.unit)
/-- Stores picked from a list in the order of their issue, with the older ones that have to be performed before them, and what is left. -/
def takeStores (sel : Pend → Bool) : List Pend → List Pend × List Pend
  | [] => ([], [])
  | p :: l =>
    let r := takeStores sel l
    if sel p || r.1.any p.meets then (p :: r.1, r.2) else (r.1, p :: r.2)
/-- Some stores performed, in the order in which they were issued, and after the older ones of their agents to the same units. -/
def State.flush (s : State) (sel : Pend → Bool) : State :=
  let r := takeStores sel s.pend
  { r.1.foldl (fun s p => s.perform p.cells) s with pend := r.2 }
/-- What a release covers: of the scalar stream the split's scalar stores; of the lane stream its lane stores
and the scalar stores made before the block was enqueued (R216). -/
def State.flushScalar (s : State) (g : GKey) (e : Nat) : State :=
  s.flush fun p => decide (p.g = g) && p.e == e && !p.lane
def State.flushLane (s : State) (g : GKey) (e : Nat) (blk : QBlk) : State :=
  s.flush fun p => decide (p.g = g) && p.e == e && (p.lane || p.id < blk.id)
/-- The stores of a split, of a group. -/
def State.flushSplit (s : State) (g : GKey) (e : Nat) : State := s.flush fun p => decide (p.g = g) && p.e == e
/-- The stores of a block's sequencer. -/
def State.flushSeq (s : State) (b : BKey) : State := s.flush fun p => decide (p.g.b = b) && p.e == 4
def State.flushGroup (s : State) (g : GKey) : State := s.flush fun p => decide (p.g.b = g.b) && p.g.gid == g.gid

/-- The line of a place, as a number: of DRAM, or beyond it of a block's scratch. -/
def Loc.line : Loc → Nat
  | .mem a => a / 128
  | .scr _ a => 2 ^ 40 + a / 128

/-- The stores of a split to lines, which go before its atomics there. -/
def State.flushLines (s : State) (g : GKey) (e : Nat) (lines : List Nat) : State :=
  s.flush fun p => decide (p.g = g) && p.e == e && p.cells.any fun w => lines.contains w.1.line

/-- The forks that a shadow stands in, by their numbers: its own, and those that this one was begun in; the fuel bounds the depth. -/
def State.forkPath (s : State) (g : GKey) : Nat → List Nat
  | 0 => []
  | n + 1 => match (s.group g).fork with
    | some f => g.sh :: s.forkPath (shadowKey g f.parent) n
    | none => []
/-- A conflict of a fork, found at a line that a continuation has read: of its own fork, or of one that this is begun in, which has it once
the inner ones have committed (R133, R135). -/
def Fork.clash (f : Fork) (me k : Nat) : Fork :=
  if k = me then { f with conflict := true } else { f with owed := if f.owed.contains k then f.owed else k :: f.owed }

/-- A store of a callee to lines: a continuation that has read one of them is marked in conflict (R133). -/
def State.conflicts (s : State) (g : GKey) (e : Nat) (lines : List Nat) : State :=
  (s.shadows (baseKey g)).foldl (fun s k =>
    let ours := (s.forkPath k 4).filter fun j => match (s.group (shadowKey g j)).fork with
      | some f => f.parent == g.sh && f.own == e
      | none => false
    s.updGroup k fun y => { y with fork := y.fork.map fun f =>
      if (lines.any fun l => f.tracked.contains l) then ours.foldl (fun f j => f.clash k.sh j) f else f }) s
/-- The lines of stores that the callee of a fork has made since the fork and that are not performed. -/
def State.calleeLines (s : State) (g : GKey) (j : Nat) : List Nat :=
  match (s.group (shadowKey g j)).fork with
  | none => []
  | some f =>
    let pk := shadowKey g f.parent
    let cells : List (Loc × Byte) := match (s.group pk).fork with
      | some o => (o.buf.filter fun x => f.id0 ≤ x.id).flatMap (·.cells)
      | none => (s.pend.filter fun p => decide (p.g = pk) && p.e == f.own && f.id0 ≤ p.id).flatMap (·.cells)
    cells.map (·.1.line)

/-- The distinct lines of several stores. -/
def linesOf (xs : List QStore) : List Nat :=
  xs.foldl (fun m x => x.cells.foldl (fun m w => if m.contains w.1.line then m else w.1.line :: m) m) []

/-- A store of one instruction: held back as the agent's mode says (R133, R309, R214); a quantum buffer of
512 lines ends the quantum (R307). -/
def State.storeAs (s : State) (g : GKey) (e : Nat) (x : QStore) (release : Bool) (id : Nat) : State :=
  let s := s.conflicts g e (linesOf [x])
  if (s.group g).fork.isSome then
    let new : QStore := { x with id }
    { s.updGroup g fun y => { y with fork := y.fork.map fun f => { f with buf := f.buf ++ [new] } } with nextId := max s.nextId (id + 1) }
  else if s.ordered g then
    s.updGroup g fun y =>
      { y with q := { y.q with buf := y.q.buf ++ [x], due := y.q.due || decide ((linesOf (y.q.buf ++ [x])).length ≥ 512) } }
  else
    { s with
      pend := s.pend ++ [{ id, g := g, e := e, lane := x.lanei, release := release, cells := x.cells }]
      nextId := max s.nextId (id + 1) }
def State.store (s : State) (g : GKey) (e : Nat) (x : QStore) (release : Bool) : State := s.storeAs g e x release s.nextId

/-- The first so many stores of an agent in a list, and what is left of it. -/
def takeOwn (own : Pend → Bool) : Nat → List Pend → List Pend × List Pend
  | 0, l => ([], l)
  | _ + 1, [] => ([], [])
  | k + 1, p :: l =>
    if own p then (p :: (takeOwn own k l).1, (takeOwn own k l).2)
    else ((takeOwn own (k + 1) l).1, p :: (takeOwn own (k + 1) l).2)
/-- A load of places settles the order of its split's stores with those of others: where it reads a byte of a unit that its own
stores not yet performed touch and do not cover, these are performed before it (R214). -/
def State.settleUnits (s : State) (g : GKey) (e : Nat) (ls : List Loc) : State :=
  if (s.group g).fork.isSome || s.ordered g then s
  else
    let mine (p : Pend) : Bool := decide (p.g = g) && p.e == e
    let own := s.pend.filter mine
    let ws := (own.flatMap (·.cells)).map (·.1)
    let open_ := ls.filter fun l => !ws.contains l && ws.any fun w => decide (w.unit = l.unit)
    let last := (own.reverse.findIdx fun p => p.cells.any fun w => open_.any fun l => decide (w.1.unit = l.unit))
    let r := takeOwn mine (own.length - last) s.pend
    { r.1.foldl (fun s p => s.perform p.cells) s with pend := r.2 }
/-- A load's value after it has settled. -/
def State.settleLoads (s : State) (g : GKey) (e : Nat) (cells : List Nat) (n : Nat) : State :=
  s.settleUnits g e (cells.flatMap fun c => Loc.span (.mem c) n)

/-- A shadow's loads are tracked by line; one that a store of its callee, made and not performed, will still change is in conflict (R133). -/
def State.track (s : State) (g : GKey) (ls : List Nat) : State :=
  if (s.group g).fork.isSome then
    let hit := (s.forkPath g 4).filter fun j => (s.calleeLines g j).any ls.contains
    let seen (f : Fork) : Fork := { f with tracked := ls.foldl (fun t l => if t.contains l then t else l :: t) f.tracked }
    s.updGroup g fun y => { y with fork := y.fork.map fun f => hit.foldl (fun f j => f.clash g.sh j) (seen f) }
  else s

/-- A line that a copy command of another agent owns (R224). -/
def CopyCmd.owns (c : CopyCmd) (line : Nat) (dstLines : List Nat) : Bool := !c.sent && dstLines.contains line

/-! ## Stops and names of debug -/

/-- A group name (R366). -/
def groupName (g : GKey) (e : Nat) : BitVec 64 :=
  BitVec.ofNat 64 (g.b.r.c.id % 2 ^ 16 * 2 ^ 48 + g.b.r.id % 2 ^ 16 * 2 ^ 32 + g.b.n % 2 ^ 24 * 2 ^ 8 +
    g.gid % 64 * 4 + (if e < 4 then e else 0))
/-- A joined name (R366). -/
def State.joinedName (s : State) (g : GKey) (e : Nat) : BitVec 128 :=
  (groupName g e ++ (s.ctx g.b.r.c).thr ++ (s.ctx g.b.r.c).proc : BitVec 128)

/-- The fork shadows of a group discarded, with their stores (R135, R137). A split that waited to resolve
one goes on with its ret. -/
def State.squash (s : State) (g : GKey) : State :=
  let ks := s.shadows g
  if ks.isEmpty then s
  else
    let s := { s with groups := s.groups.filter fun p => !ks.contains p.1 }
    s.updGroup g fun x =>
      { x with
        squashed := x.squashed + ks.length
        ents := x.ents.map fun p => (p.1, { p.2 with
          st := if p.2.st = .waitFork then .running else p.2.st
          calls := p.2.calls.map fun r => { r with fork := none } }) }

/-- The stop record of a group's split (R371). -/
def State.stopRec (s : State) (g : GKey) (e cause : Nat) (lanePc addr : DWord) (extra : Nat) : StopRec where
  name := s.joinedName g e
  block := BitVec.ofNat 32 g.b.n
  who := if e == 4 then 1 else 0
  cause := cause
  entry := e
  pc := (s.split g e).pc
  lanePc := lanePc
  addr := addr
  extra := BitVec.ofNat 32 extra
  quantum := BitVec.ofNat 32 (if s.ordered g then (s.region g.b.r).quantum else 0)
  retired := BitVec.ofNat 64 (s.group g).retired

/-- The bytes of a stop record (R371). -/
def StopRec.bytes (r : StopRec) : List Byte :=
  leBytes 16 r.name.toNat ++ leBytes 4 r.block.toNat ++ [r.who, r.cause, r.entry, 0].map (BitVec.ofNat 8) ++ leBytes 8 r.pc.toNat ++
    leBytes 8 r.lanePc.toNat ++ leBytes 8 r.addr.toNat ++ leBytes 4 r.extra.toNat ++ leBytes 4 r.quantum.toNat ++ leBytes 8 r.retired.toNat
/-- A message of Belfry as it leaves: the header of R369 and the data, padded to a multiple of 8, under the session's key and the nonce
of direction 1 and the message's counter (R367). -/
def sealMsg (x : Session) (code seq : Nat) (status : Int) (data : List Byte) : Out :=
  let data := data ++ List.replicate ((8 - data.length % 8) % 8) 0
  .sealed x.id x.outCtr (Config.gcmSeal (x.key.getD 0) ((1 : BitVec 32) ++ BitVec.ofNat 64 x.outCtr)
    (leBytes 2 code ++ leBytes 2 0 ++ leBytes 4 seq ++ leBytes 4 (16 + data.length) ++ leBytes 4 (status % 2 ^ 32).toNat ++ data))
/-- An event with a stop record sent to a session (R370, R371); its sequence number is 0 (DESIGN CHOICE, log entry 90). -/
def State.sendStop (s : State) (sess : Nat) (r : StopRec) : State :=
  let s : State := { s with outs := s.outs ++ [.stop sess r] }
  match s.sessions.find? fun x => x.id == sess with
  | none => s
  | some x =>
    { s with
      outs := s.outs ++ [sealMsg x 0x11 0 0 r.bytes]
      sessions := s.sessions.map fun y => if y.id = sess then { y with outCtr := y.outCtr + 1 } else y }

/-- An entry whose join window and nap have not counted for some cycles (R373). -/
def Split.later (ordered : Bool) (d : Nat) (p : Split) : Split :=
  { p with st := match p.st with
      | .waitJoin t => if ordered then .waitJoin t else .waitJoin (t + d)
      | .parked (.nap t) => .parked (.nap (t + d))
      | k => k }
/-- One group halted, its shadows squashed and its accesses performed, with its stop record sent
(R371, R372). The splits that a debug step has kept halted have not counted during it (R374). -/
def State.haltOne (s : State) (g : GKey) (e cause : Nat) (lanePc addr : DWord) (extra : Nat) : State :=
  let s := (s.squash g).flushGroup g
  let s := s.updGroup g fun x =>
    { x with
      halted := true
      haltedAt := s.cycle
      stepping := none
      ents := match x.stepping with
        | some k => x.ents.map fun p => if p.1 = k then p else (p.1, p.2.later (s.rcb g).ordered (s.cycle - x.haltedAt))
        | none => x.ents }
  match (s.ctx g.b.r.c).attached with
  | some (sess, _) =>
    let s := s.sendStop sess (s.stopRec g e cause lanePc addr extra)
    { s with sessions := s.sessions.map fun x => if x.id = sess then { x with halted := g :: x.halted } else x }
  | none => s

/-- Whether an entry is live (R115). -/
def Split.live (x : Split) : Bool :=
  match x.st with
  | .free | .draining => false
  | _ => true
/-- The lowest live entry of a group, which its stop record names; in a trap its trap split. -/
def State.stopEntry (s : State) (g : GKey) : Nat :=
  let x := s.group g
  if x.trap.isSome then 4
  else ((x.ents.filter fun p => p.2.live).foldl (fun (m : Nat) p => min m p.1) 4) % 4

/-- The lowest-numbered vector group of a block, which names its sequencer (R366). -/
def State.firstVec (s : State) (b : BKey) : Nat :=
  (s.groups.filter fun p => decide (p.1.b = b) && p.1.sh == 0 && p.2.vec).foldl (fun (m : Nat) p => min m p.1.gid) 64 % 64
/-- The stop record of a sequencer that is to stop, once no word of it is in execution; its accesses are performed before that (R371,
R372). -/
def State.seqStops (s : State) (b : BKey) : State :=
  match (s.seq b).halting, (s.ctx b.r.c).attached with
  | some (cause, extra), some (sess, _) =>
    if !(s.seq b).exec.isEmpty then s
    else
      let s := (s.flushSeq b).updBlock b fun x => { x with seq := x.seq.map fun q => { q with halting := none } }
      let r : StopRec :=
        { name := s.joinedName ⟨b, s.firstVec b, 0⟩ 0, block := BitVec.ofNat 32 b.n, who := 2, cause, pc := (s.seq b).pc
          extra := BitVec.ofNat 32 extra, quantum := BitVec.ofNat 32 (if (s.region b.r).rcb.ordered then (s.region b.r).quantum else 0)
          retired := BitVec.ofNat 64 (s.group ⟨b, s.firstVec b, 0⟩).retired }
      s.sendStop sess r
  | _, _ => s
/-- A sequencer halted: it issues no further word, and stops after the words in execution finish (R372). -/
def State.haltSeq (s : State) (b : BKey) (cause extra : Nat) : State :=
  let s := s.updBlock b fun x => { x with seq := x.seq.map fun q => { q with halted := true, halting := some (cause, extra) } }
  let of (x : Session) : Bool := (s.ctx b.r.c).attached.any (·.1 == x.id)
  ({ s with sessions := s.sessions.map fun x => if of x then { x with haltedSeqs := b :: x.haltedSeqs } else x }).seqStops b
/-- The stop of a context's Keep thread, and its record (DESIGN CHOICE, log entry 27). -/
def State.threadStop (s : State) (c : CKey) (sess cause : Nat) : State :=
  if (s.ctx c).thrHalted then s
  else (s.updCtx c fun x => { x with thrHalted := true }).sendStop sess { name := (0#64 ++ (s.ctx c).thr ++ (s.ctx c).proc : BitVec 128), who := 3, cause }

/-- A saved block as if it stood, for the records of its agents. -/
def State.asPlaced (s : State) (k : SavedBlock) : State :=
  { s with blocks := s.blocks.put k.b k.blk, groups := k.groups.foldl (fun m q => m.put q.1 q.2) s.groups }
/-- The agents of a saved block that are named and not halted: they are halted when the block is restored, before they issue anything
(R372, R373). -/
def SavedBlock.toHalt (k : SavedBlock) (gs : GKey → Bool) (bs : BKey → Bool) : List GKey × List BKey :=
  ((k.groups.filter fun q => gs q.1 && !q.2.halted && !q.2.ended).map (·.1),
    if bs k.b && k.blk.seq.any fun q => !q.halted && decide (q.st ≠ .ended) then [k.b] else [])
def SavedBlock.halt (k : SavedBlock) (now : Nat) (gs : List GKey) (bs : List BKey) : SavedBlock :=
  { k with
    blk := if bs.contains k.b then { k.blk with seq := k.blk.seq.map fun q => { q with halted := true } } else k.blk
    groups := k.groups.map fun q => if gs.contains q.1 then (q.1, { q.2 with halted := true, haltedAt := now }) else q }
/-- Saved agents of a context halted, with their stop records. -/
def State.haltSaved (s : State) (c : CKey) (sess cause : Nat) (gs : GKey → Bool) (bs : BKey → Bool) : State :=
  let ks := (s.regions.filter fun p => decide (p.1.c = c)).flatMap fun p => p.2.saved
  let name (s : State) (k : SavedBlock) (g : GKey) : StopRec := let t := s.asPlaced k; t.stopRec g (t.stopEntry g) cause 0 0 0
  let seq (s : State) (k : SavedBlock) : StopRec :=
    let t := s.asPlaced k
    { t.stopRec ⟨k.b, t.firstVec k.b, 0⟩ 0 cause 0 0 0 with name := t.joinedName ⟨k.b, t.firstVec k.b, 0⟩ 0, who := 2, pc := (t.seq k.b).pc }
  let s := ks.foldl (fun s k =>
    let x := k.toHalt gs bs
    x.2.foldl (fun s _ => s.sendStop sess (seq s k)) (x.1.foldl (fun s g => s.sendStop sess (name s k g)) s)) s
  let all := ks.map fun k => k.toHalt gs bs
  let hg := all.flatMap (·.1)
  let hb := all.flatMap (·.2)
  { s with
    regions := s.regions.map fun p => if p.1.c = c then (p.1, { p.2 with saved := p.2.saved.map fun k => k.halt s.cycle hg hb }) else p
    sessions := s.sessions.map fun x => if x.id = sess then { x with halted := hg ++ x.halted, haltedSeqs := hb ++ x.haltedSeqs } else x }
/-- Every agent of a context that is not halted halts with cause 4, as all-stop mode asks (R373); no block of it is placed meanwhile. -/
def State.haltRest (s : State) (c : CKey) (sess : Nat) : State :=
  let gs := (s.groups.filter fun p => decide (p.1.b.r.c = c) && p.1.sh == 0 && !p.2.halted && !p.2.ended).map (·.1)
  let s := gs.foldl (fun s k => s.haltOne k (s.stopEntry k) 4 0 0 0) s
  let bs := (s.blocks.filter fun p => decide (p.1.r.c = c) && p.2.seq.any fun q => !q.halted && decide (q.st ≠ .ended)).map (·.1)
  ((bs.foldl (fun s b => s.haltSeq b 4 0) s).haltSaved c sess 4 (fun _ => true) fun _ => true).threadStop c sess 4
/-- Whether a context stands still in all-stop mode. -/
def State.allStopped (s : State) (c : CKey) : Bool := (s.ctx c).thrHalted && (s.ctx c).attached.any (·.2)
/-- A group halted; in all-stop mode every other agent of the context halts with it (R373). -/
def State.halt (s : State) (g : GKey) (e cause : Nat) (lanePc addr : DWord) (extra : Nat) : State :=
  let s := s.haltOne g e cause lanePc addr extra
  match (s.ctx g.b.r.c).attached with
  | some (sess, true) => s.haltRest g.b.r.c sess
  | _ => s

/-! ## The engine and the array as resources -/

/-- The engine handed to the oldest waiter (R239). -/
def State.grantEngine (s : State) (k : Nat) : State :=
  match (s.core k).engQ with
  | b :: r =>
    let s := s.updCore k fun x => { x with eng := some b, engQ := r }
    s.updSeq b fun q => { q with held := true, heldSince := s.cycle, tile := q.relatch, relatch := none, reclaims := false }
  | [] => s.updCore k fun x => { x with eng := none }
/-- The engine released by its holder; its cycles count (R236). -/
def State.freeEngine (s : State) (b : BKey) : State :=
  let k := (s.block b).seqCore
  if (s.core k).eng = some b then
    let s := s.bump b.r.c 9 (s.cycle - (s.seq b).heldSince)
    let s := s.updSeq b fun q => { q with held := false, tile := none }
    s.grantEngine k
  else s.updCore k fun x => { x with engQ := x.engQ.filter (· ≠ b) }

/-- The array granted to a restored holder first, else to the oldest waiter, in its initial state
(R266, R278). -/
def State.grantArray (s : State) (k : Nat) : State :=
  match (s.core k).campSaved with
  | (g, d, m, l) :: r =>
    let s := s.updCore k fun x =>
      { x with camp := some g, campSince := s.cycle, campSaved := r, delays := d, maxMode := m, latch := l, campBusy := none }
    s.updGroup g fun x => { x with tstat := x.tstat ||| 4 }
  | [] =>
    match (s.core k).campQ with
    | (g, _) :: r =>
      let s := s.updCore k fun x =>
        { x with camp := some g, campSince := s.cycle, campQ := r, delays := [], maxMode := false, latch := [], campBusy := none }
      s.updGroup g fun x => { x with tstat := x.tstat ||| 4 }
    | [] => s.updCore k fun x => { x with camp := none, delays := [], maxMode := false, latch := [], campBusy := none }
/-- The array released by a group that holds it (R265). -/
def State.freeArray (s : State) (g : GKey) : State :=
  let k := s.coreOf g
  if (s.core k).camp = some g then
    let s := s.bump g.b.r.c 10 (s.cycle - (s.core k).campSince)
    let s := s.updGroup g fun x => { x with tstat := x.tstat &&& 3 }
    s.grantArray k
  else s
/-- The array left by a group that stands on the core no more: its claims are given up, and the array is released if it holds it (R265). -/
def State.dropArray (s : State) (g : GKey) : State :=
  (s.updCore (s.coreOf g) fun x =>
    { x with campQ := x.campQ.filter fun p => decide (p.1 ≠ g), campSaved := x.campSaved.filter fun p => decide (p.1 ≠ g) }).freeArray g
/-- Whether a restored group waits for the array that it held (R278). -/
def State.arrayDue (s : State) (g : GKey) : Bool := (s.core (s.coreOf g)).campSaved.any fun p => decide (p.1 = baseKey g)

/-! ## Barriers -/

/-- The barrier that an instruction acts on: of a block, of which a spread block's claimed tag entry is
the region's (R232), or of a tag. -/
def State.barKey (s : State) (b : BKey) (t : Option Nat) : Option Nat :=
  match t with
  | some t => some t
  | none => (s.block b).tag
def State.bar (s : State) (b : BKey) (t : Option Nat) : Bar :=
  match s.barKey b t with
  | some t => (s.region b.r).bars.get {} t
  | none => (s.block b).bar
def State.updBar (s : State) (b : BKey) (t : Option Nat) (f : Bar → Bar) : State :=
  match s.barKey b t with
  | some t => s.updRegion b.r fun x => { x with bars := x.bars.put t (f (x.bars.get {} t)) }
  | none => s.updBlock b fun x => { x with bar := f x.bar }
/-- The spread block that claims a pool entry, placed or saved (R232). -/
def State.tagBlock (s : State) (r : RKey) (t : Nat) : Option BKey :=
  let all := (s.blocks.filter fun p => decide (p.1.r = r) && !p.2.ended) ++ (s.region r).saved.map fun x => (x.b, x.blk)
  (all.find? fun p => p.2.tag == some t).map (·.1)
/-- The block whose groups alone take part: of bar.blk. The instance of a claimed entry is one of the whole region once a named barrier's
instruction has executed it (R231, R232) (DEDUCED, log entry 81). -/
def State.barBlock (s : State) (b : BKey) (t : Option Nat) : Option BKey :=
  match s.barKey b t with
  | none => some b
  | some k => if ((s.region b.r).bars.get {} k).named then none else s.tagBlock b.r k
/-- Whether a group's block takes part. -/
def State.barBlockOk (s : State) (b : BKey) (t : Option Nat) (c : BKey) : Bool :=
  match s.barBlock b t with
  | some x => decide (c = x)
  | none => decide (c.r = b.r)
/-- The participants: every unended group of the block, or every placed one of the region, but for those placed since the instance
opened (R230, R231). -/
def State.barGroups (s : State) (b : BKey) (t : Option Nat) : List GKey :=
  (s.groups.filter fun p => p.1.sh == 0 && !p.2.ended && !(s.bar b t).late.contains p.1 && s.barBlockOk b t p.1.b).map (·.1)
/-- Whether every live split of a group has executed the open instance: then it arrives (R230). -/
def Bar.met (k : Bar) (g : GKey) (x : Group) : Bool :=
  (k.execd.any fun p => decide (p.1 = g)) &&
    x.ents.all fun p => p.1 == 4 || !Split.live p.2 || k.execd.contains (g, p.1)
/-- Whether a split of a group that executes the barrier waits for the next instance: it, or its group, is at this one already, or the
group was placed since it opened (R230, R233). -/
def Bar.next (k : Bar) (g : GKey) (e : Nat) : Bool := k.execd.contains (g, e) || k.here.contains g || k.late.contains g
/-- Whether the groups of saved blocks, which are placed and unended too, have arrived, those apart that were placed since the instance
opened, and none of them is halted (R230, R373) (DEDUCED, log entry 24). -/
def State.savedArrived (s : State) (b : BKey) (t : Option Nat) : Bool :=
  (s.region b.r).saved.all fun x => !s.barBlockOk b t x.b || x.groups.all fun p =>
    p.2.ended || (s.bar b t).late.contains p.1 || ((s.bar b t).here.contains p.1 && !p.2.halted)
/-- The cycles from the last arrival to the release (R231). -/
def State.barLatency (s : State) (b : BKey) (t : Option Nat) : Nat :=
  match s.barBlock b t with
  | some c => if (s.block c).cores.length > 1 then 96 else 8
  | none => if (s.region b.r).dies.length > 1 then 160 else 96
/-- The groups that arrive now; then the open instance completed, when every participant has arrived and none is halted (R230, R373). -/
def State.barCheck (s : State) (b : BKey) (t : Option Nat) : State :=
  let gs := s.barGroups b t
  let k := s.bar b t
  let s := s.updBar b t fun k => { k with here := k.here ++ gs.filter fun g => !k.here.contains g && k.met g (s.group g) }
  let here := (s.bar b t).here
  if here.isEmpty then s
  else if (gs.all fun g => here.contains g && !(s.group g).halted) && s.savedArrived b t then
    let release := (k.inst, s.cycle + s.barLatency b t)
    s.updBar b t fun k => { k with inst := k.inst + 1, execd := [], here := [], late := [], releases := k.releases ++ [release] }
  else s
/-- Every barrier a group takes part in, looked at again after a split or a group of it has ended. -/
def State.barRecheck (s : State) (b : BKey) : State :=
  ((s.region b.r).bars.map (·.1)).foldl (fun s t => s.barCheck b (some t)) (s.barCheck b none)
/-- An entry has executed no open instance: a new split stands in it, whatever the entry's last one had, or none (R230). -/
def State.unarrive (s : State) (g : GKey) (i : Nat) : State :=
  let f (k : Bar) : Bar := { k with execd := k.execd.filter fun p => decide (p ≠ (g, i)) }
  (s.updBlock g.b fun x => { x with bar := f x.bar }).updRegion g.b.r fun x =>
    { x with bars := x.bars.map fun p => (p.1, f p.2) }
/-- Groups of a block placed: in the tag instances that are open they have no part (R230). -/
def State.joinBars (s : State) (b : BKey) : State :=
  let gs := s.groupsOf b
  s.updRegion b.r fun x => { x with bars := x.bars.map fun p => (p.1, if p.2.here.isEmpty then p.2 else { p.2 with late := p.2.late ++ gs }) }

/-! ## Ends of groups and blocks -/

/-- Whether a group or shadow holds its slot and its registers: until it ends (R114, R142), a group of a relaunchable region until its
block is done, since a relaunch takes them again (R90, R92) (DESIGN CHOICE, log entry 76). -/
def State.holdsRoom (s : State) (p : GKey × Group) : Bool :=
  !p.2.ended || (p.1.sh == 0 && (s.rcb p.1).relaunchable && !(s.block p.1.b).ended)
/-- The group slots of a core in use, by groups and shadows (R114). -/
def State.slotsUsed (s : State) (k : Nat) : List Nat :=
  (s.groups.filter fun p => s.holdsRoom p && p.2.die * 24 + p.2.core == k).map (·.2.slot)
/-- The slot that a group or shadow takes: the lowest free one of the quadrant with the most free slots (R114). -/
def freeSlot (used : List Nat) : Option Nat :=
  let cnt (q : Nat) : Nat := (used.filter fun x => x / 64 == q).length
  let q := (List.range 4).foldl (fun b q => if cnt q < cnt b then q else b) 0
  ((List.range 64).map fun i => q * 64 + i).find? fun i => !used.contains i
/-- The physical vector registers of a core in use: allotted budgets, and the granules of 8 that a shadow or
its group has written since the fork (R133, R142). -/
def State.regsUsed (s : State) (k : Nat) : Nat :=
  (s.groups.filter fun p => s.holdsRoom p && p.2.die * 24 + p.2.core == k).foldl (fun n p =>
    match p.2.fork with
    | none => n + p.2.budget
    | some f => n + 8 * ((List.range 192).filter fun i => f.wroteV.contains i ||
        (List.range 8).any fun j => decide ((s.group ⟨p.1.b, p.1.gid, f.parent⟩).vregs.get? (8 * i + j) ≠ f.vBase.get? (8 * i + j))).length) 0
/-- Whether the core has physical vector registers for the granules of these registers that a write takes for a group or shadow, as it shares
them with a fork (R133, R142). -/
def State.cowRoom (s : State) (g : GKey) (vd : List Nat) : Bool :=
  let fs := s.groups.filterMap fun p => if decide (p.1.b = g.b) && p.1.gid == g.gid then
      (p.2.fork.filter fun f => p.1.sh == g.sh || f.parent == g.sh) else none
  let own (f : Fork) (i : Nat) : Bool := f.wroteV.contains i ||
    (List.range 8).any fun j => decide ((s.group { g with sh := f.parent }).vregs.get? (8 * i + j) ≠ f.vBase.get? (8 * i + j))
  let need := fs.foldl (fun n f => n + (((vd.map (· / 8)).eraseDups).filter fun i => !own f i).length) 0
  need == 0 || s.regsUsed (s.coreOf g) + 8 * need ≤ 16384
/-- The group slots that a region's blocks hold under its budget: a group's until its block is done (R90, R114) (DESIGN CHOICE, log
entry 76). -/
def State.slotsHeld (s : State) (r : RKey) : Nat :=
  (s.groups.filter fun p => decide (p.1.b.r = r) && !(s.block p.1.b).ended).length

/-- Whether a block of a region that is not done stands on a core, on a cluster. -/
def State.regionOnCore (s : State) (r : RKey) (k : Nat) : Bool :=
  s.blocks.any fun p => decide (p.1.r = r) && !p.2.ended && p.2.cores.contains k
def State.regionOnCluster (s : State) (r : RKey) (k : Nat) : Bool :=
  s.blocks.any fun p => decide (p.1.r = r) && !p.2.ended && p.2.cluster == k

/-- The cycles of a switch (R174). -/
def switchTime (a b : BankMode) : Nat :=
  (match a with | .cache => 1024 | _ => 8) + (match b with | .cache => 8 | _ => 1024)

/-- A block's resources reclaimed, after its stores are performed, its sequencer's too (R93): engine, array, banks, history banks, adapter ways (R90, R169, R254,
R281). -/
def State.reclaim (s : State) (b : BKey) : State :=
  let s := (s.flush fun p => decide (p.g.b = b)).freeEngine b
  let s := (s.groupsOf b).foldl (fun s g => s.dropArray g) s
  let s := s.updCluster (s.block b).cluster fun x =>
    { x with
      bankFree := (s.block b).banks.foldl (fun m k =>
        if k.mode = .cache then m else m.put k.num (s.cycle + switchTime k.mode .cache)) x.bankFree
      cache := x.cache.filter fun p => (s.block b).banks.all fun k => k.num != p.1 / 1024 }
  let s := s.updBlock b fun x => { x with ended := true, banks := [] }
  let s := (s.block b).cores.foldl (fun s k =>
    if s.regionOnCore b.r k then s
    else s.updCore k fun x => { x with hist := x.hist.map fun p => (p.1, if p.2.owner = some b.r then { p.2 with owner := none } else p.2) }) s
  let cl := (s.block b).cluster
  let s := s.updCluster cl fun x => { x with copyQ := x.copyQ.filter fun c => decide (c.g.b ≠ b) }
  if s.regionOnCluster b.r cl then s
  else s.updCluster cl fun x =>
    { x with
      adways := x.adways.filter fun p => decide (p.2 ≠ b.r)
      adEnts := x.adEnts.filter fun p => decide (p.2.r ≠ b.r) }

/-- A block is done when all its groups have ended and its sequencer has executed mend (R115). -/
def State.blockCheck (s : State) (b : BKey) : State :=
  let x := s.block b
  if x.ended then s
  else if (s.groupsOf b).all (fun g => (s.group g).ended) && (x.seq.all fun q => q.st = .ended) then
    (s.reclaim b).updRegion b.r fun r => { r with doneBlocks := r.doneBlocks + 1 }
  else s

/-- Entries that have ended and drained become free; a group with no live entry and no unresolved fork
ends (R115). In ordered mode what its end does to others waits for the commit (R310). -/
def State.groupCheck (s : State) (g : GKey) : State :=
  if g.sh != 0 || (s.group g).ended then s
  else
    let drained : Nat × Split → Bool := fun p => p.2.queue.isEmpty && ((s.group g).outst.all fun o => o.e != p.1) &&
      ((s.group g).ol.all fun o => o.e != p.1)
    let s := s.updGroup g fun x =>
      { x with
        ents := x.ents.map fun p =>
          if decide (p.2.st = .draining) && drained p then (p.1, { p.2 with st := .free, mask := 0 }) else p }
    let x := s.group g
    if (x.ents.all fun p => decide (p.2.st = .free)) && (s.shadows g).isEmpty && x.fix.isNone then
      if s.ordered g then s.updGroup g fun x => { x with ended := true, q := { x.q with ops := x.q.ops ++ [.release] } }
      else
      let s := (s.flushGroup g).dropArray g
      let s := s.updGroup g fun x => { x with ended := true }
      (s.barRecheck g.b).blockCheck g.b
    else s

/-! ## Fault domains -/

/-- A region and those above it that are joined to it by one domain id (R91); the fuel bounds the depth. -/
def State.chain (s : State) (r : RKey) : Nat → List RKey
  | 0 => [r]
  | n + 1 =>
    match (s.region r).parent with
    | some p =>
      let q : RKey := ⟨r.c, p⟩
      if (s.region q).rcb.domain = (s.region r).rcb.domain && (s.regions.get? q).isSome then r :: s.chain q n else [r]
    | none => [r]
/-- The root of a region's domain. -/
def State.domainRoot (s : State) (r : RKey) : RKey := (s.chain r s.regions.length).getLastD r
/-- The regions that a fault in a region ends: its domain without the detached descendants that the faulting
region does not stand under (R91) (DEDUCED, log entry 8). -/
def State.domainOf (s : State) (r : RKey) : List RKey :=
  let n := s.regions.length
  let up := s.chain r n
  let root := up.getLastD r
  (s.regions.filter fun p =>
    let c := s.chain p.1 n
    decide (p.1.c = r.c) && decide (c.getLastD p.1 = root) &&
      c.all fun x => decide (x = root) || !(s.region x).rcb.detached || up.contains x).map (·.1)

/-- A block stopped: its groups, shadows and sequencer, and its resources reclaimed. -/
def State.stopBlock (s : State) (b : BKey) : State :=
  let s := (s.groupsOf b).foldl (fun s g =>
    ((s.squash g).flushGroup g).updGroup g fun x =>
      { x with ended := true, ents := x.ents.map fun p => (p.1, { p.2 with st := .free, queue := [] }) }) s
  let s := s.updBlock b fun x => { x with seq := x.seq.map fun q => { q with st := .ended, exec := [], replays := [], fills := [] } }
  s.reclaim b

/-- A fault that no handler takes ends every region of the domain (R91). -/
def State.endDomain (s : State) (r : RKey) (kind : Nat) : State :=
  let ds := (s.domainOf r).filter fun d => match (s.region d).st with
    | .waiting | .queued | .running => true
    | _ => false
  let s := ds.foldl (fun s d =>
    let bs := (s.blocks.filter fun p => decide (p.1.r = d) && !p.2.ended).map (·.1)
    let s := bs.foldl (fun s b => s.stopBlock b) s
    s.updRegion d fun x => { x with completing := true, saved := [] }) s
  { s with outs := s.outs ++ [.domainEnd (s.domainRoot r) kind] }

/-! ## Taking a trap -/

/-- A fault record (R323). -/
def State.frec (f : FaultInfo) (lane split : Nat) (isLane : Bool) (lanePc scalarPc : DWord) : FRec where
  kind := BitVec.ofNat 8 f.kind
  lane := BitVec.ofNat 8 lane
  split := BitVec.ofNat 8 split
  flags := BitVec.ofNat 8 ((if isLane then 1 else 0) + (if f.write then 2 else 0) + (if f.batch then 8 else 0))
  extra := BitVec.ofNat 32 f.extra
  lanePc := lanePc
  scalarPc := scalarPc
  addr := BitVec.ofNat 64 f.addr

/-- The records, header and sr.trapkind that a trap leaves (R323 to R325). -/
def State.writeRecords (s : State) (g : GKey) (t : PendTrap) : State :=
  s.updGroup g fun x =>
    { x with
      recs := t.recs.take 32
      hdr := ⟨t.lanei, BitVec.ofNat 3 t.e, BitVec.ofNat 6 (min 32 t.recs.length), t.done⟩
      trapkind := (t.recs.head?.map (·.kind)).getD 0 }

/-- Whether a fault of a kind goes to the region's handler (R326) (DEDUCED, log entry 52). -/
def State.toHandler (s : State) (g : GKey) : Bool :=
  (s.rcb g).handler != 0 && (s.group g).trap.isNone

/-- The trap split started at the handler (R327), whose address the spec does not ask to be aligned (DESIGN CHOICE, log entry 93). -/
def State.startHandler (s : State) (g : GKey) (t : PendTrap) : State :=
  let c := s.rcb g
  s.updGroup g fun x =>
    let from_ := if t.src = .seq then ((x.ents.filter fun p => Split.live p.2).foldl
        (fun (m : Nat) p => min m p.1) 4) else t.e
    let regs := (t.regs.getD (x.ents.get {} from_).s).put 15 (x.stackBase + BitVec.ofNat 64 c.stack)
    let ents : SMap Split := x.ents.map fun p => (p.1, { p.2 with susp := true })
    { x with
      trap := some t.src
      snap := ents
      ents := ents.put 4 { st := .running, pc := BitVec.ofNat 64 c.handler, mask := 0xFFFFFFFF, s := regs, ready := s.cycle } }

/-- TAKING A TRAP (R325): in a fork shadow the fault is deferred; else the group's shadows are squashed and
its accesses performed at group scope, the records written, and the handler started or the fault
domain ended (R326). A fault that lane instructions raise while the trap split runs stays pending, and so does one raised while the group
is halted (R372). -/
def State.takeTrap (s : State) (g : GKey) (t : PendTrap) : State :=
  if (s.group g).fork.isSome then
    s.updGroup g fun x =>
      { x with
        fork := x.fork.map fun f => { f with deferred := some t }
        ents := x.ents.map fun p => (p.1, { p.2 with st := .parked .fork, lpark := some .fork }) }
  else if (s.group g).halted || ((s.group g).trap.isSome && (t.e != 4 || decide (t.src = .seq))) then
    s.updGroup g fun x => { x with traps := x.traps ++ [t] }
  else
    let s := (s.squash g).flushGroup g
    let s := s.writeRecords g t
    if s.toHandler g then s.startHandler g t
    else s.endDomain g.b.r ((t.recs.head?.map (·.kind.toNat)).getD 0)

/-- A precise scalar fault: no effect, one record, and a trap at the instruction (R30, R325). -/
def State.scalarFault (s : State) (g : GKey) (e : Nat) (f : FaultInfo) : State :=
  let pc := (s.split g e).pc
  let s := s.updSplit g e fun x => { x with st := .running }
  s.takeTrap g
    { recs := [State.frec f 255 e false 0 pc], e := e, src := .scalar e pc (pc + 4) true }

/-- A sequencer fault (R238): the stream stops, its record stays in the sequencer, and the block's
lowest-numbered vector group that has not ended takes the trap (R327). -/
def State.seqFault (s : State) (b : BKey) (f : FaultInfo) : State :=
  let r := State.frec f 255 4 false 0 (s.seq b).pc
  let s := s.updSeq b fun q => { q with st := .faulted, frec := some r }
  let vs := (s.groups.filter fun p => decide (p.1.b = b) && p.1.sh == 0 && p.2.vec && !p.2.ended).map (·.1)
  match vs.foldl (fun (m : Option GKey) g => match m with
      | some k => if g.gid < k.gid then some g else m
      | none => some g) none with
  | some g => s.takeTrap g { recs := [r], e := 4, src := .seq }
  | none => State.endDomain { s with outs := s.outs ++ [.keepRecord b r] } b.r f.kind

/-- The oldest pending trap of a group taken, if no trap split runs and the group is not halted (R330, R372). -/
def State.nextTrap (s : State) (g : GKey) : State :=
  match (s.group g).traps with
  | t :: r => if (s.group g).halted || (s.group g).trap.isSome then s else (s.updGroup g fun x => { x with traps := r }).takeTrap g t
  | [] => s
/-- THE RETURN FROM A TRAP (R330): the trap split ends, the interrupted place resumes, the suspended splits
go on in entry order, and a pending trap is taken at once. -/
def State.endTrap (s : State) (g : GKey) (resume : State → State) : State :=
  let s := s.flushGroup g
  let s := s.updGroup g fun x =>
    { x with trap := none, snap := [], ents := (x.ents.del 4).map fun p => (p.1, { p.2 with susp := false }) }
  let s := resume s
  if (s.group g).traps.isEmpty then s.groupCheck g else s.nextTrap g

/-! ## Retiring an instruction -/

/-- Whether two splits may fuse (R125). -/
def mayFuse (a b : Split) : Bool :=
  a.level == b.level && (a.stack.isEmpty || b.stack.isEmpty) && (a.join.isNone || b.join.isNone)

/-- Two lists of call records joined: records either holds, the latest first (R392). -/
def insCall (r : CallRec) : List CallRec → List CallRec
  | [] => [r]
  | q :: qs => if q.id = r.id then q :: qs else if q.id < r.id then r :: q :: qs else q :: insCall r qs
def joinCalls (a b : List CallRec) : List CallRec := a.foldr insCall (b.foldr insCall [])

/-- The forks of a split whose entry a fusion frees pass to the entry that it keeps (R125, R392). -/
def State.giveForks (s : State) (g : GKey) (hi lo : Nat) : State :=
  { s with
    groups := s.groups.map fun p =>
      if p.1 != g && decide (p.1.b = g.b) && p.1.gid == g.gid then
        (p.1, { p.2 with fork := p.2.fork.map fun f => if f.parent == g.sh && f.own == hi then { f with own := lo } else f })
      else p }

/-- A trap of an entry as that of another entry, to which its split has come (R125, R135). -/
def TrapFrom.asOf (t : TrapFrom) (e : Nat) : TrapFrom :=
  match t with
  | .scalar _ pc next again => .scalar e pc next again
  | .lane _ blk word active => .lane e blk word active
  | x => x
def PendTrap.asOf (t : PendTrap) (e : Nat) : PendTrap :=
  { t with e, recs := t.recs.map fun r => { r with split := BitVec.ofNat 8 e }, src := t.src.asOf e }
/-- The entry that a trap interrupted. -/
def TrapFrom.entry : TrapFrom → Option Nat
  | .scalar e _ _ _ | .lane e _ _ _ => some e
  | _ => none

/-- What a group holds by the number of an entry that a fusion frees passes to the entry that it keeps (R125): stores not performed, held-back
stores and requests, pending traps. -/
def Group.renumber (x : Group) (hi lo : Nat) : Group :=
  let at_ (e : Nat) : Nat := if e = hi then lo else e
  { x with
    traps := x.traps.map fun t => if t.e = hi then t.asOf lo else t
    trap := x.trap.map fun t => if t.entry = some hi then t.asOf lo else t
    q := { x.q with
      buf := x.q.buf.map fun y => { y with e := at_ y.e }
      atoms := x.q.atoms.map fun y => { y with e := at_ y.e } } }
def State.renumber (s : State) (g : GKey) (hi lo : Nat) : State :=
  { s.updGroup g (·.renumber hi lo) with pend := s.pend.map fun p => if decide (p.g = g) && p.e == hi then { p with e := lo } else p }

/-- The fusion of two entries of one number (R125); the fused split goes on unless more are to fuse with it. At the barriers of its group it
counts as the split of the entry that it keeps (DESIGN CHOICE, log entry 94). -/
def State.fuse (s : State) (g : GKey) (i j k : Nat) : State :=
  let lo := min i j
  let hi := max i j
  let a := s.split g lo
  let b := s.split g hi
  let more := (s.group g).ents.any fun q => q.1 != lo && q.1 != hi && decide (q.2.st = .fusing k)
  let f : Split :=
    { a with
      st := if more then .fusing k else .running
      mask := a.mask ||| b.mask
      s := if lowLane a.mask < lowLane b.mask then a.s else b.s
      stack := if a.stack.isEmpty then b.stack else a.stack
      join := if a.join.isNone then b.join else a.join
      calls := joinCalls a.calls b.calls
      ready := s.cycle }
  let s := ((s.giveForks g hi lo).renumber g hi lo).updGroup g fun y => { y with ents := (y.ents.put lo f).put hi {} }
  let s := s.unarrive g hi
  if s.ordered g then s else s.barRecheck g.b

/-- Whether all that an entry has enqueued has completed: its queue is empty, no result is outstanding and no outlier waits
(R105, R115). -/
def State.entryDone (s : State) (g : GKey) (e : Nat) : Bool :=
  (s.split g e).queue.isEmpty && ((s.group g).outst.all fun o => o.e != e) && (s.group g).ol.all fun o => o.e != e
/-- Two entries of one number that are to fuse now: everything of the higher one is done (R115, R125). -/
def State.fusePair (s : State) (g : GKey) (k : Nat) : Option (Nat × Nat) :=
  let es := ((s.group g).ents.filter fun q => decide (q.2.st = .fusing k)).map (·.1)
  match (List.range 4).find? fun e => es.contains e with
  | none => none
  | some lo => (es.find? fun hi => hi != lo && s.entryDone g hi).map fun hi => (lo, hi)

/-- The fusions of one number that can take place, made one after the other. -/
def State.fuseAll (s : State) (g : GKey) (k : Nat) : Nat → State
  | 0 => s
  | n + 1 =>
    match s.fusePair g k with
    | some (lo, hi) => (s.fuse g lo hi k).fuseAll g k n
    | none => s

/-- Splits at one address as an arriving one meets them: each by itself, but those whose fusion is decided together (R125). -/
def fuseUnits (l : List (Nat × Split)) : List (List (Nat × Split)) :=
  (l.map fun q => match q.2.st with
    | .fusing k => l.filter fun r => decide (r.2.st = .fusing k)
    | _ => [q]).eraseDups
/-- What a split becomes by fusing with others, as the conditions of a further fusion see it (R125). -/
def Split.joined (p : Split) (qs : List (Nat × Split)) : Split :=
  qs.foldl (fun p q =>
    { p with stack := if p.stack.isEmpty then q.2.stack else p.stack, join := if p.join.isNone then q.2.join else p.join }) p
/-- Whether a split may fuse with all of some splits. -/
def mayFuseAll (p : Split) : List (Nat × Split) → Bool
  | [] => true
  | q :: r => mayFuse p q.2 && mayFuseAll (p.joined [q]) r
/-- The entries that an arriving split fuses with, in entry order; each must be allowed to fuse with what the
earlier ones make of it (R123, R125). -/
def partners (p : Split) : List (List (Nat × Split)) → List Nat
  | [] => []
  | u :: r => if mayFuseAll p u then u.map (·.1) ++ partners (p.joined u) r else partners p r

/-- An arriving split committed to fuse with others at an address (R125); they bear a number of the group. -/
def State.beginFuse (s : State) (g : GKey) (e : Nat) (others : List Nat) (x : DWord) : State :=
  let k := (s.group g).nextId
  let s := s.updGroup g fun y => { y with nextId := k + 1 }
  let s := (e :: others).foldl (fun s i => s.updSplit g i fun p => { p with st := .fusing k, pc := x }) s
  s.fuseAll g k 4

/-- The stack rules of a split whose next address is `x` (R123, step 1), applied again at the address of an
entry that is swapped in; the answer is where the split arrives. -/
def State.popStack (s : State) (g : GKey) (e : Nat) (x : DWord) : Nat → State × DWord
  | 0 => (s, x)
  | n + 1 =>
    let p := s.split g e
    match p.stack with
    | t :: r =>
      if t.j = x && t.level == p.level then
        if !t.swapped then
          let t' := { t with held := p.mask, regs := p.s, swapped := true }
          (s.updSplit g e fun p => { p with mask := t.mask, pc := t.pc, s := t.regs, stack := t' :: r }).popStack g e t.pc n
        else
          (s.updSplit g e fun p =>
            { p with
              mask := p.mask ||| t.held
              s := if lowLane t.held < lowLane p.mask then t.regs else p.s
              stack := r }).popStack g e x n
      else (s, x)
    | [] => (s, x)

/-- Where a join window starts to count: the cycle, or in ordered mode the instructions that the group's other
splits have retired (R124). -/
def State.windowNow (s : State) (g : GKey) (e : Nat) : Nat :=
  if s.ordered g then (s.group g).retired - (s.split g e).retired else s.cycle

/-- Whether a split is parked by its lane head's read of a constant window (R103). -/
def Split.constHeld (p : Split) : Bool := match p.lpark with
  | some (.const _) => true
  | _ => false
/-- Whether a split that would wait at a join does: its window is not 0, and another entry runs (R124). -/
def State.mayWait (s : State) (g : GKey) (e : Nat) : Bool :=
  (s.group g).joinwin != 0 &&
    (s.group g).ents.any fun q => q.1 != e && q.1 != 4 && decide (q.2.st = .running) && !q.2.susp && !q.2.constHeld

/-- Whether an entry waits at its PC for another (R123); parked for a fusion it waits too (R125). -/
def Split.waiting (x : Split) : Bool :=
  match x.st with
  | .waitJoin _ | .fusing _ => true
  | _ => false
/-- Whether a parked instruction has done nothing yet and issues again as soon as it can. -/
def Park.fresh (ordered : Bool) : Park → Bool
  | .page _ | .load _ | .lanes _ _ | .queue | .lsync | .copyRoom | .batchRoom | .bankIdle _ | .bankTurn | .written _ | .rearrive _ _ | .owned _ | .image _ => true
  | .fence | .fenceEng | .region _ _ | .batch _ | .wait .. | .nap _ => !ordered
  | _ => false
/-- Whether the next instruction of an entry has not acted (R123). -/
def Split.atPc (ordered : Bool) (x : Split) : Bool :=
  match x.st with
  | .running => true
  | .parked p => p.fresh ordered
  | _ => Split.waiting x

/-- Whether a split waits at a join that its window has ended: it goes on alone (R124). -/
def Split.over_ (x : Split) : Bool := match x.st with
  | .waitJoin _ => x.expired
  | _ => false
/-- A split's next address: reconvergence and fusion (R123), with splits that stand there and have not acted (DEDUCED, log entry 68). A
continuation that reaches the address at which
its caller's split reconverges stops there until its fork resolves (DEDUCED, log entry 21). -/
def State.goTo (s : State) (g : GKey) (e : Nat) (x : DWord) : State :=
  let s := s.updSplit g e fun p => { p with st := .running, pc := x, ready := s.cycle, front := none }
  let p := s.split g e
  let atTop := match p.stack with
    | t :: _ => decide (t.j = x) && t.level == p.level
    | [] => false
  let atJoin := p.join.any (·.1 == x)
  if e == 4 then s
  else if g.sh != 0 then
    if atTop || atJoin then s.updSplit g e fun p => { p with st := .parked .fork } else s
  else
    let (s, x) := s.popStack g e x 18
    let p := s.split g e
    let others := (s.group g).ents.filter fun q => q.1 != e && q.1 != 4 && !q.2.over_ && Split.atPc (s.ordered g) q.2 && decide (q.2.pc = x)
    if p.join.any (·.1 == x) then
      let s := s.updSplit g e fun p => { p with join := none }
      match partners (s.split g e) (fuseUnits others) with
      | [] => if s.mayWait g e then s.updSplit g e fun p => { p with st := .waitJoin (s.windowNow g e), expired := false } else s
      | qs => s.beginFuse g e qs x
    else
      match partners p (fuseUnits (others.filter fun q => Split.waiting q.2)) with
      | [] => s
      | qs => s.beginFuse g e qs x

/-- An instruction counted: the group's, its quantum's and its context's (R305, R345, R385). -/
def State.count (s : State) (g : GKey) (e : Nat) : State :=
  let s := s.updGroup g fun x =>
    { x with
      retired := x.retired + 1
      q := { x.q with count := x.q.count + 1 }
      ents := x.ents.upd e fun p => { p with retired := p.retired + 1 } }
  if g.sh = 0 then s.bump g.b.r.c 0 1 else s

/-- The end of a debug step: its split has retired one instruction (R374). -/
def State.stepDone (s : State) (g : GKey) (e : Nat) : State :=
  if (s.group g).stepping = some e then s.halt g e 5 0 0 0 else s

/-- A scalar instruction retires and its split goes to an address. -/
def State.retire (s : State) (g : GKey) (e : Nat) (next : DWord) : State :=
  ((s.count g e).goTo g e next).stepDone g e

/-- A split parked at its instruction; `ready` keeps the cycle at which it first parked there. -/
def State.park (s : State) (g : GKey) (e : Nat) (p : Park) : State :=
  s.updSplit g e fun x => { x with st := .parked p, ready := if decide (x.st = .running) then s.cycle else x.ready }

/-- Device time since boot, of the 3.6 GHz clock as PTP slews it, in 36,000,000ths of a ns beyond the last setting, and in ns (R313, R365). -/
def State.deviceFr (s : State) : Nat := s.timeFr + (s.cycle - s.timeAt) * (1000000 + max (-100) (min 100 s.slew)).toNat * 10
def State.deviceNs (s : State) : Nat := s.timeNs + s.deviceFr / 36000000
/-- The setting of device time moved to now: the time is what it was. -/
def State.holdTime (s : State) : State := { s with timeNs := s.deviceNs, timeFr := s.deviceFr % 36000000, timeAt := s.cycle }

/-- A matrix word retires and the sequencer goes to an address (R305). -/
def State.seqRetire (s : State) (b : BKey) (pc : DWord) : State :=
  (s.updSeq b fun q =>
    { q with st := .running, pc := pc, retired := q.retired + 1, quant := { q.quant with count := q.quant.count + 1 } }).bump b.r.c 0 1

/-- The instruction ends the quantum (R307). -/
def State.endsQuantum (s : State) (g : GKey) : State :=
  if s.ordered g then s.updGroup g fun x => { x with q := { x.q with due := true } } else s

/-! ## Issue of a scalar instruction -/

/-- How a scalar instruction ends: it retires to the next word or elsewhere, it faults, it parks, or it has
settled its split itself. -/
inductive Ends where
  | next (s : State)
  | goto (s : State) (pc : DWord)
  | fault (s : State) (f : FaultInfo)
  | park (s : State) (p : Park)
  | done (s : State)

/-- The state after a scalar instruction. -/
def State.finish (g : GKey) (e : Nat) : Ends → State
  | .next s => s.retire g e ((s.split g e).pc + 4)
  | .goto s pc => s.retire g e pc
  | .fault s f => s.scalarFault g e f
  | .park s p => s.park g e p
  | .done s => s

/-- What a scalar instruction requires at issue beside its encoding (R29, R35): a vector group; no copy
group's command; a privilege; registers below the budget; and, in a fork continuation, no stall (R134). -/
structure Needs where
  vec : Bool := false
  copy : Bool := false
  priv : Bool := false
  vregs : List Nat := []
  stalls : Bool := false
  trapOk : Bool := true

/-- The checks of orders 1 to 4 of R29, and then the trap split's restrictions (R327); none when they pass. -/
def State.issueCheck (s : State) (g : GKey) (e : Nat) (legal : Bool) (n : Needs) : Option Nat :=
  let x := s.group g
  if !legal || (n.vec && !x.vec) || (n.copy && x.vec) then some 1
  else if n.priv && !(s.ctx g.b.r.c).sys then some 0x0D
  else if n.vregs.any fun v => v ≥ x.budget then some 2
  else if e == 4 && !n.trapOk then some 1
  else none

/-- A scalar instruction issued by the split whose turn it is: the checks of R29, the stall points of a
continuation (R134), then its effect. -/
def scalarOp (legal : Bool) (n : Needs) (f : State → GKey → Nat → Ends) (s : State) :
    Host.Outcome State Fault Refusal :=
  let g := s.actor.1
  let e := s.actor.2
  .next <|
    match s.issueCheck g e legal n with
    | some k => s.scalarFault g e { kind := k }
    | none =>
      if n.stalls && (s.group g).fork.isSome then s.park g e .fork
      else State.finish g e (f s g e)

end Sys2Proof.Machine
end

