-- ==== Sys2Proof/Machine/Cache.lean ====
section
/-! DEFINITION. The caches' tags and replacement state, line requests, and the scope rules of
synchronising accesses (R171, R179, R210, R213, R222, R223, R291, R293, R302), and the lines that copy commands own (R224). -/

namespace Sys2Proof.Machine

/-- The history bank a region holds on a core (R281). -/
def State.histIdx (s : State) (r : RKey) (k : Nat) : Option Nat :=
  ((s.core k).hist.find? fun p => decide (p.2.owner = some r)).map (·.1)
def State.hbank (s : State) (k h : Nat) : HBank := (s.core k).hist.get {} h
def State.updHbank (s : State) (k h : Nat) (f : HBank → HBank) : State :=
  s.updCore k fun x => { x with hist := x.hist.put h (f (x.hist.get {} h)) }

/-- A victim among ways by their RRPVs: the way, and by how much every line of the ways ages (R291). -/
def victim (ways : List Nat) (rrpv : Nat → Option Nat) : Option (Nat × Nat) :=
  match ways.find? fun w => (rrpv w).isNone with
  | some w => some (w, 0)
  | none =>
    let m := ways.foldl (fun m w => max m ((rrpv w).getD 0)) 0
    (ways.find? fun w => (rrpv w).getD 0 == m).map fun w => (w, 3 - m)

/-- The banks of a cluster in CACHE mode (R169), of those given back the ones whose switch is over (R174). -/
def State.cacheBanks (s : State) (cl : Nat) : List Nat :=
  let held := (s.blocks.filter fun p => p.2.cluster == cl && !p.2.ended).flatMap fun p =>
    (p.2.banks.filter fun k => decide (k.mode ≠ .cache) || k.switching.isSome).map (·.num)
  (List.range 32).filter fun n => !held.contains n && (s.cluster cl).bankFree.get 0 n ≤ s.cycle
/-- The reserved ways of a cluster (R179). -/
def State.reservedWays (s : State) (cl : Nat) : List Nat :=
  let w := (List.range 4).foldl (fun m i => (s.core (cl * 4 + i)).hist.foldl
    (fun m p => if p.2.len != 0 then max m p.2.ways else m) m) 0
  let b := s.cacheBanks cl
  b.drop (b.length - w)

/-- The line of physical memory at a line of DRAM: in the die-local window where a page has its frame
there, else in the interleaved one (R191). -/
def State.paLine (s : State) (line : Nat) : Nat :=
  let isLocal := s.ctxs.any fun c => c.2.pages.any fun p =>
    p.res && p.peer.isNone && 2 ^ 39 ≤ p.frame && decide (cellOf (p.frame * 4096) / 128 ≤ line) &&
      decide (line * 128 < cellOf (p.frame * 4096) + Page.size p)
  if isLocal then 2 ^ 44 + line
  else (line % 2 ^ 29 / 32 * 8 + line / 2 ^ 29) * 32 + line % 32
/-- The set of a line in a cluster cache: A[16:7] xor A[26:17] of its physical address (R171) (DEDUCED, log entry 54). -/
def State.clusterSet (s : State) (line : Nat) : Nat :=
  let a := s.paLine line
  (a % 1024) ^^^ (a / 1024 % 1024)
/-- The first row of a line's L2 set (R191). -/
def l2Row (line : Nat) : Nat :=
  let x := line % 2 ^ 29
  let y := x / 24
  ((line / 2 ^ 29 * 24 + x % 24) * 1024 + ((y % 1024) ^^^ (y / 1024 % 1024))) * 32
/-- The way of a set of L2 that holds a line. -/
def State.l2Find (s : State) (line : Nat) : Option Nat :=
  ((List.range 32).find? fun w => match s.l2.get? (l2Row line + w) with
    | some x => x.line == line
    | none => false).map fun w => l2Row line + w
/-- The ways of a virtual function's partition, the pooled one if it has none (R210). -/
def State.l2Ways (s : State) (vf : Nat) : List Nat :=
  let own := (s.vf vf).ways
  if own.isEmpty then (List.range 32).filter fun w => s.vfs.all fun p => !p.2.ways.contains w else own
/-- A counter of a virtual function's L2 table moved (R293). -/
def State.l2Train (s : State) (x : L2Line) (up : Bool) : State :=
  if !x.owned then s
  else s.updVf x.vf fun v =>
    let i := x.line / 2 ^ 29 * 1024 + x.sig
    { v with l2 := v.l2.put i (if up then min 7 (v.l2.get 0 i + 1) else v.l2.get 0 i - 1) }

/-- The stores of the agents of a core performed, as a promotion makes them (R222). -/
def State.promote (s : State) (k : Nat) : State := s.flush fun p => s.coreOf p.g == k

/-- A line leaves the L2: its recorded core is promoted, its synchronisation record is lost (R222, R223). -/
def State.l2Evict (s : State) (row : Nat) : State :=
  match s.l2.get? row with
  | none => s
  | some x =>
    let s := match x.relCore with | some k => s.promote k | none => s
    let s := if x.reused then s else s.l2Train x false
    { s with l2 := s.l2.del row }

/-- The cycles that a request waits in a slice or in DRAM behind its own virtual function's requests and behind those
of others, which are free (R384, R385) (DESIGN CHOICE, log entry 63); with no context of another none. -/
def State.queueCycles (s : State) (c : CKey) : State :=
  let (own, s) := s.choose (2 ^ 32)
  let (other, s) := if s.ctxs.any fun p => p.1.vf != c.vf then s.choose (2 ^ 32) else (0, s)
  (s.bump c 5 own).bump c 6 other
/-- The bytes that a fill moves to and from DRAM: the line, and a line written back if that is dirty, which is free
(R385) (DESIGN CHOICE, log entry 63). -/
def State.dramBytes (s : State) (c : CKey) (evicts : Bool) : State :=
  let (k, s) := s.choose (if evicts then 2 else 1)
  s.bump c 7 (128 + 128 * k)
/-- The sectors that a cluster cache has written back to the L2 since the last request, which are free (R385) (DESIGN CHOICE, log entry 63). -/
def State.writeBacks (s : State) (c : CKey) : State :=
  let (k, s) := s.choose (2 ^ 32)
  s.bump c 2 k
/-- An access of a line in the L2: a hit, or a fill in the partition (R210, R293); `sig` is the signature of a request with an
owner, and the hit of a prefetch is none (R291). -/
def State.l2Access (s : State) (c : CKey) (line : Nat) (sig : Option Nat) (nt pf : Bool) : State :=
  let s := s.queueCycles c
  match s.l2Find line with
  | some row =>
    if pf then s else match s.l2.get? row with
    | some x => ({ s with l2 := s.l2.put row { x with rrpv := 0, reused := true } }).l2Train x true
    | none => s
  | none =>
    let base := l2Row line
    let ways := s.l2Ways c.vf
    match victim ways fun w => (s.l2.get? (base + w)).map (·.rrpv) with
    | none => s
    | some (w, age) =>
      let s := if age = 0 then s else
        { s with l2 := s.l2.map fun p =>
          if (ways.any fun w => base + w == p.1) then (p.1, { p.2 with rrpv := min 3 (p.2.rrpv + age) }) else p }
      let s := match s.l2.get? (base + w) with
        | some x =>
          let s := s.bump c 4 1
          if x.vf != c.vf && (s.vf c.vf).ways.isEmpty then s.updCtx c fun y => { y with counters := y.counters.put 4 (y.counters.get 0 4 ||| BitVec.ofNat 64 (2 ^ 63)) } else s
        | none => s
      let s := (((s.l2Evict (base + w)).bump c 3 1)).dramBytes c (s.l2.get? (base + w)).isSome
      let zero := sig.any fun n => (s.vf c.vf).l2.get 0 (line / 2 ^ 29 * 1024 + n) == 0
      { s with l2 := s.l2.put (base + w) { line, vf := c.vf, rrpv := if nt || zero then 3 else 2, sig := sig.getD 0, owned := sig.isSome } }

/-- Lines that the copy engine or a port accesses: their fills have no owner (R293). -/
def State.l2Lines (s : State) (c : CKey) (lines : List Nat) : State :=
  lines.eraseDups.foldl (fun s line => s.l2Access c line none false false) s

/-- A counter of the CST of the bank that owns a line moved (R291); the tables of an ordered region do not train (R295)
(DEDUCED, log entry 64). -/
def State.cstTrain (s : State) (cl : Nat) (owner : Option Nat) (sig : Nat) (up : Bool) : State :=
  match owner with
  | none => s
  | some o =>
    if ((s.hbank (cl * 4 + o / 4) (o % 4)).owner).any fun r => (s.region r).rcb.ordered then s
    else s.updHbank (cl * 4 + o / 4) (o % 4) fun b =>
      { b with cst := b.cst.put sig (if up then min 7 (b.cst.get 0 sig + 1) else b.cst.get 0 sig - 1) }

/-- The way of a cluster cache that holds a line. -/
def State.cacheFind (s : State) (cl line : Nat) : Option Nat :=
  let set := s.clusterSet line
  ((List.range 32).find? fun w => match (s.cluster cl).cache.get? (w * 1024 + set) with
    | some x => x.line == line
    | none => false).map fun w => w * 1024 + set

/-- The hit of a line (R291). -/
def State.cacheHit (s : State) (cl row : Nat) : State :=
  match (s.cluster cl).cache.get? row with
  | none => s
  | some x =>
    let s := s.updCluster cl fun y => { y with cache := y.cache.put row { x with rrpv := 0, reused := true } }
    s.cstTrain cl x.owner x.sig true

/-- What asks for a line: an access of the program, the SPT, vprf, vprf.nt. -/
inductive ReqKind where
  | demand
  | spt
  | vprf
  | l2
deriving DecidableEq, Repr
/-- The signature of an instruction in the L2's table, when its region holds a bank on the core (R291, R293). -/
def State.l2Sig (s : State) (g : GKey) (pc : Nat) : Option Nat :=
  (s.histIdx g.b.r (s.coreOf g)).map fun _ => (pc / 4 % 1024) ^^^ (pc / 4096 % 1024)

/-- A request of a group for a line (R291, R302). The line requests of R179, the program's and the SPT's, move the counter of
their range register when the cluster has a cache for them to reach. -/
def State.lineReq (s : State) (g : GKey) (pc va cell : Nat) (nt : Bool) (kind : ReqKind) : State :=
  let k := s.coreOf g
  let cl := k / 4
  let line := cell / 128
  let h := s.histIdx g.b.r k
  let b := match h with | some h => s.hbank k h | none => {}
  let lva := va / 128 * 128
  let cached := !(s.cacheBanks cl).isEmpty
  let inRange := h.isSome && b.len.toNat != 0 && (b.base.toNat ≤ lva && lva < b.base.toNat + b.len.toNat) && cached &&
    (kind == .demand || kind == .spt)
  let s := match h with
    | some h => if inRange && !s.ordered g then s.updHbank k h fun b => { b with ctr := (b.ctr + 1) % 16 } else s
    | none => s
  let s := if cached then s.writeBacks g.b.r.c else s
  let pf := decide (kind ≠ .demand)
  let l2 (s : State) : State := s.l2Access g.b.r.c line (s.l2Sig g pc) nt pf
  if kind = .l2 || !cached then l2 s
  else
    match s.cacheFind cl line with
    | some row => if pf then s else s.cacheHit cl row
    | none =>
      if ((s.cluster cl).fills.any fun f => f.line == line) then
        if pf then s
        else s.updCluster cl fun x =>
          { x with fills := x.fills.map fun f => if f.line = line then { f with joins := f.joins + 1 } else f }
      else
        let new : Fill :=
          { line, sig := (pc / 4 % 256) ^^^ (pc / 1024 % 256), owner := h.map fun h => k % 4 * 4 + h, retained := inRange && b.ctr < b.k
            nt, demand := !pf, vf := g.b.r.c.vf }
        ((l2 s).bump g.b.r.c 2 4).updCluster cl fun x => { x with fills := x.fills ++ [new] }

/-- The results that wait for a line on a cluster may return (R302). -/
def State.fillArrived (s : State) (cl line : Nat) : State :=
  { s with groups := s.groups.map fun p =>
      if s.clusterOf p.1 = cl && p.2.outst.any (fun o => o.fills.any fun q => q.2 == line) then
        (p.1, { p.2 with outst := p.2.outst.map fun o => { o with fills := o.fills.filter fun q => q.2 != line } })
      else p }
/-- A fill completed: the line inserted, the joined requests counted as hits (R291, R302). -/
def State.fillDone (s : State) (cl line : Nat) : State :=
  match (s.cluster cl).fills.find? fun f => f.line == line with
  | none => s
  | some f =>
    let s := (s.updCluster cl fun x => { x with fills := x.fills.filter fun y => y.line != line }).fillArrived cl line
    let res := s.reservedWays cl
    let ways := if f.retained then res else (s.cacheBanks cl).filter fun w => !res.contains w
    let set := s.clusterSet line
    match victim ways fun w => ((s.cluster cl).cache.get? (w * 1024 + set)).map (·.rrpv) with
    | none => s
    | some (w, age) =>
      let s := if age = 0 then s else s.updCluster cl fun x =>
        { x with cache := x.cache.map fun p =>
            if (ways.any fun w => w * 1024 + set == p.1) then (p.1, { p.2 with rrpv := min 3 (p.2.rrpv + age) }) else p }
      let s := match (s.cluster cl).cache.get? (w * 1024 + set) with
        | some x => if x.reused then s else s.cstTrain cl x.owner x.sig false
        | none => s
      let zero := match f.owner with
        | some o => (s.hbank (cl * 4 + o / 4) (o % 4)).cst.get 0 f.sig == 0
        | none => false
      let new : CLine := { line, sig := f.sig, owner := f.owner, rrpv := if f.nt || zero then 3 else 2 }
      let s := s.updCluster cl fun x => { x with cache := x.cache.put (w * 1024 + set) new }
      (List.range f.joins).foldl (fun s _ => s.cacheHit cl (w * 1024 + set)) s

/-! ## Scopes -/

/-- Whether a scope relative to an agent includes another agent (R213). The hardware that writes completion words is listed at device
scope (DESIGN CHOICE, log entry 85). -/
def inScope (scope : Nat) (by_ other : Agent) : Bool :=
  let place : Agent → Option (Nat × Nat × BKey)
    | .split g _ d c => some (d, c, g.b)
    | .seq b d c => some (d, c, b)
    | _ => none
  let lists (o : Agent) : Nat := match o with
    | .net | .migration | .dispatch => 6
    | .keep => 7
    | _ => 0
  decide (by_ = other) ||
    (if scope < lists other || scope < lists by_ then false
     else if scope ≥ 6 then true
     else match by_, other with
      | .split g e _ _, .split g' e' _ _ =>
        if scope = 0 then decide (g = g') && e == e'
        else if scope = 1 then decide (g.b = g'.b) && g.gid == g'.gid
        else if scope = 2 then decide (g.b = g'.b)
        else match place by_, place other with
          | some (d, c, _), some (d', c', _) =>
            decide (g.b = g'.b) || (d == d' && (scope = 5 || (scope = 4 && c / 4 == c' / 4) || c == c'))
          | _, _ => false
      | _, .copy cl b =>
        match place by_ with
        | some (d, c, b') => (scope ≥ 2 && decide (b = b')) || (scope ≥ 4 && cl == d * 6 + c / 4) ||
            (scope ≥ 5 && cl / 6 == d)
        | none => false
      | .copy cl b, _ =>
        match place other with
        | some (d, c, b') => (scope ≥ 2 && decide (b = b')) || (scope ≥ 4 && cl == d * 6 + c / 4) ||
            (scope ≥ 5 && cl / 6 == d)
        | none => false
      | _, _ =>
        match place by_, place other with
        | some (d, c, b), some (d', c', b') =>
          (scope ≥ 2 && decide (b = b')) ||
            (d == d' && ((scope ≥ 5) || (scope ≥ 4 && c / 4 == c' / 4) || (scope ≥ 3 && c == c')))
        | _, _ => false)

/-- A split as the records of lines and of scopes name it; in an ordered region by its first placement (R98, R394). -/
def State.agent (s : State) (g : GKey) (e : Nat) : Agent :=
  let x := s.group g
  if s.ordered g then .split g e x.die0 x.core0 else .split g e x.die x.core

/-- The check and record of a synchronising access to a line (R222, R223): a failed check answers the recorded scope. Outside
ordered mode a failed access may pass, by a free choice; the commits of an ordered region check against the records that
its commits have left (R394), which the L2 does not lose for it (DEDUCED, log entry 34). -/
def State.syncAccess (s : State) (c : CKey) (a : Agent) (k scope : Nat) (rmt release acquire : Bool) (own : Option RKey)
    (sig : Option Nat) (cell : Nat) : State × Option Nat :=
  let line := cell / 128
  let s := if (s.l2Find line).isSome then s else s.l2Access c line sig false false
  let x := ((s.l2Find line).bind fun row => s.l2.get? row).getD { line := line }
  let seen := match own with
    | some r => (s.region r).syncs.get? line
    | none => x.sync
  let s := match x.relCore with
    | some r => if rmt && acquire && scope ≥ 5 && r != k then s.promote r else s
    | none => s
  let bad := match seen with
    | some (rs, ra) => !rmt && !(inScope scope a ra && inScope rs ra a)
    | none => false
  let (pass, s) := if bad && own.isNone then s.choose 2 else (0, s)
  if bad && pass = 0 then (s, seen.map (·.1))
  else
    let s := match own with
      | some r => s.updRegion r fun y => { y with syncs := y.syncs.put line (scope, a) }
      | none => s
    match s.l2Find line with
    | none => (s, none)
    | some row =>
      let x := s.l2.get { line := line } row
      ({ s with l2 := s.l2.put row { x with sync := some (scope, a), relCore := if release && scope = 3 then some k else x.relCore } }, none)
/-- The same of a split's instruction; `commit` in an ordered region's commit. -/
def State.syncOf (s : State) (g : GKey) (e pc scope : Nat) (rmt release acquire commit : Bool) (cell : Nat) : State × Option Nat :=
  s.syncAccess g.b.r.c (s.agent g e) (s.coreOf g) scope rmt release acquire (if commit then some g.b.r else none) (s.l2Sig g pc) cell

/-! ## Lines that a copy command owns -/

/-- Whether a copy address is a local one (R183). -/
def isLocal (x : Nat) : Bool := x ≥ 2 ^ 63
/-- The start of a destination row, of a source row but for cpyg (R185). -/
def CopyCmd.dstRow (c : CopyCmd) (j : Nat) : Nat :=
  c.dst.toNat + j * (match c.kind with | .cpy => 0 | .cpy2d => c.pd | .cpyg => c.len)
def CopyCmd.srcRow (c : CopyCmd) (j : Nat) : Nat := c.src.toNat + j * (match c.kind with | .cpy2d => c.ps | _ => 0)

/-- The place of a copy address of a block: scratch, or the memory of a resident page that is no peer
window (R183). -/
def State.placeOf (s : State) (b : BKey) (x : Nat) : Option Loc :=
  if isLocal x then some (.scr b (x % 2 ^ 32))
  else match findPage (s.ctx b.r.c).pages x with
    | some p => if p.res && p.peer.isNone then some (.mem (cellOf (Page.pa p x))) else none
    | none => none

/-- The first byte of a place's line. -/
def Loc.lineBase : Loc → Loc
  | .mem a => .mem (a / 128 * 128)
  | .scr b a => .scr b (a / 128 * 128)

/-- The addresses at which the lines of a range start. -/
def lineStarts (a n : Nat) : List Nat :=
  if n = 0 then [] else (List.range ((a + n - 1) / 128 - a / 128 + 1)).map fun i => (a / 128 + i) * 128

/-- Whether a command owns the line of a place: one of its destination lines, until it has written it (R224). -/
def State.ownsLine (s : State) (c : CopyCmd) (l : Loc) : Bool :=
  !c.sent && (List.range c.rows).any fun j => (lineStarts (c.dstRow j) c.len).any fun a =>
    match s.placeOf c.g.b a with
    | some m => decide (m.lineBase = l.lineBase)
    | none => false

/-- Whether a copy command outside ordered mode (R227) owns the line of a place. -/
def State.ownedAt (s : State) (l : Loc) : Bool :=
  s.clusters.any fun p => p.2.copyQ.any fun c => !(s.ordered c.g) && s.ownsLine c l
/-- Whether one owns a line of a write: the write waits and lands after it (R224). -/
def State.ownedCells (s : State) (cells : List (Loc × Byte)) : Bool := cells.any fun w => s.ownedAt w.1
/-- A happening from outside that waits for a copy: it stays first, behind the pages made resident, for which the copy may wait. -/
def State.holdInput (s : State) (ev : Event) : State :=
  let page (ev : Event) : Bool := match ev with
    | .pageMadeResident .. => true
    | _ => false
  { s with inputs := s.inputs.filter page ++ ev :: s.inputs.filter (!page ·) }

end Sys2Proof.Machine
end

