-- ==== Sys2Proof/Machine/Tables.lean ====
section
/-! DEFINITION. The tables of a history bank: training, doublewords and images (R281 to R301). -/

namespace Sys2Proof.Machine

/-- An SPT event (R287): the bank after it and the address it would prefetch. -/
def sptEvent (b : HBank) (lane : Bool) (pc addr slot : Nat) : HBank × Option Nat :=
  if addr ≥ 2 ^ 56 then (b, none)
  else
    let pcf := BitVec.ofNat 24 (pc / 4)
    let hit := (List.range 32).find? fun i =>
      let x := b.spt.get {} i
      x.valid && x.stream == lane && x.pc == pcf && x.slot == BitVec.ofNat 8 slot
    match hit with
    | some i =>
      let x := b.spt.get {} i
      let d : Int := (addr : Int) - x.last.toNat
      let x := if d = x.stride.toInt && d != 0 then { x with conf := if x.conf = 3 then 3 else x.conf + 1 }
        else if x.conf.toNat > 0 then { x with conf := x.conf - 1 }
        else { x with stride := if -2 ^ 23 ≤ d && d < 2 ^ 23 then BitVec.ofInt 24 d else 0 }
      let x := { x with last := BitVec.ofNat 56 addr }
      let dist : Nat := if x.conf.toNat = 3 then b.pfdist else if x.conf.toNat = 2 then b.pfdist / 2 else 0
      let p : Int := addr + x.stride.toInt * dist
      let go := x.conf.toNat ≥ 2 && 0 ≤ p && p < 2 ^ 56 && p.toNat / 128 != x.pfline.toNat && p.toNat / 128 != addr / 128
      let x := if go then { x with pfline := BitVec.ofNat 49 (p.toNat / 128) } else x
      let spt := (List.range 32).foldl (fun (t : SMap SptEnt) j =>
        let y := t.get {} j
        let older : SptEnt := { y with lru := if y.lru = 31 then 31 else y.lru + 1 }
        if j != i && y.valid && y.lru < x.lru then t.put j older else t) b.spt
      let x := { x with lru := 0 }
      ({ b with spt := spt.put i x }, if go then some p.toNat else none)
    | none =>
      let i := match (List.range 32).find? fun i => !(b.spt.get {} i).valid with
        | some i => i
        | none => (List.range 32).foldl (fun m j => if (b.spt.get {} j).lru > (b.spt.get {} m).lru then j else m) 0
      let spt := (List.range 32).foldl (fun (t : SMap SptEnt) j =>
        let y := t.get {} j
        let older : SptEnt := { y with lru := if y.lru = 31 then 31 else y.lru + 1 }
        if j != i && y.valid then t.put j older else t) b.spt
      let new : SptEnt :=
        { valid := true, stream := lane, slot := BitVec.ofNat 8 slot, pc := pcf, last := BitVec.ofNat 56 addr
          pfline := BitVec.ofNat 49 (addr / 128) }
      ({ b with spt := spt.put i new }, none)

/-- The RVP entry of a callf, and whether it matches (R288). -/
def rvpOf (b : HBank) (pc : Nat) : RvpEnt := b.rvp.get {} (pc / 4 % 64)
def rvpMatch (b : HBank) (pc : Nat) : Bool := (rvpOf b pc).valid && (rvpOf b pc).tag == BitVec.ofNat 18 (pc / 256)
def rvpPred2 (x : RvpEnt) : DWord := x.last2 + x.stride2.signExtend 64

/-- An RVP event (R289). -/
def rvpEvent (b : HBank) (pc : Nat) (two : Bool) (a2 a3 : DWord) : HBank :=
  let x := rvpOf b pc
  let up (c : BitVec 2) : BitVec 2 := if c = 3 then 3 else c + 1
  let y : RvpEnt :=
    if !rvpMatch b pc then { valid := true, tag := BitVec.ofNat 18 (pc / 256), last2 := a2, last3 := a3 }
    else
      let d : Int := (a2.toNat : Int) - x.last2.toNat
      let x := if d = x.stride2.toInt then { x with conf2 := up x.conf2 }
        else { x with conf2 := 0, stride2 := if -2 ^ 31 ≤ d && d < 2 ^ 31 then BitVec.ofInt 32 d else 0 }
      let x := { x with last2 := a2 }
      if two then { x with conf3 := if a3 = x.last3 then up x.conf3 else 0, last3 := a3 } else x
  { b with rvp := b.rvp.put (pc / 4 % 64) y }

/-- A cleared table (R297). -/
def clearTable (b : HBank) : Nat → HBank
  | 0 => { b with spt := [] }
  | 1 => { b with rvp := [] }
  | 2 => { b with lmp := [] }
  | 3 => { b with cst := [] }
  | 4 => { b with pfdist := 4, lmpthr := 300, base := 0, len := 0, k := 0, ways := 0, ctr := 0 }
  | _ => b
def clearTables (b : HBank) (sel : DWord) : HBank :=
  (List.range 5).foldl (fun b t => if sel.getLsbD t then clearTable b t else b) b

/-- The clamps of swr and rret (R98, R178). -/
def clampPfdist (n : Nat) : Nat := min (max n 1) 64
def clampLmpthr (n : Nat) : Nat := min n 65535
def setRange (b : HBank) (base len kw : DWord) : HBank :=
  { b with base := base, len := len, k := min (kw.extractLsb' 8 5).toNat 16, ways := min (kw.extractLsb' 0 5).toNat 16 }

/-- A doubleword of a bank by table, entry and doubleword (R285, R286, R288, R301). -/
def hdword (b : HBank) (t i w : Nat) : DWord :=
  match t with
  | 0 =>
    let x := b.spt.get {} i
    match w with
    | 0 => 0#17 ++ x.lru ++ x.conf ++ x.pc ++ x.slot ++ 0#6 ++ BitVec.ofBool x.stream ++ BitVec.ofBool x.valid
    | 1 => x.last.setWidth 64
    | 2 => x.stride.setWidth 64
    | 3 => x.pfline.setWidth 64
    | _ => 0
  | 1 =>
    let x := b.rvp.get {} i
    match w with
    | 0 => x.last2
    | 1 => x.last3
    | _ => 0#9 ++ BitVec.ofBool x.valid ++ x.conf3 ++ x.conf2 ++ x.tag ++ x.stride2
  | 2 => BitVec.ofNat 64 (b.lmp.get 0 i)
  | 3 => BitVec.ofNat 64 (b.cst.get 0 i)
  | _ =>
    match w with
    | 0 => BitVec.ofNat 64 (b.lmpthr * 65536 + b.pfdist)
    | 1 => b.base
    | 2 => b.len
    | _ => BitVec.ofNat 64 (b.ctr * 65536 + b.k * 256 + b.ways)

/-- A doubleword written, by the fields its map marks RW, clamped (R301, R285). -/
def setHdword (b : HBank) (t i w : Nat) (v : DWord) : HBank :=
  match t with
  | 0 =>
    let x := b.spt.get {} i
    let x := match w with
      | 0 => { x with lru := v.extractLsb' 42 5, conf := v.extractLsb' 40 2, pc := v.extractLsb' 16 24, slot := v.extractLsb' 8 8, stream := v.getLsbD 1, valid := v.getLsbD 0 }
      | 1 => { x with last := v.setWidth 56 }
      | 2 => { x with stride := v.setWidth 24 }
      | 3 => { x with pfline := v.setWidth 49 }
      | _ => x
    { b with spt := b.spt.put i x }
  | 1 =>
    let x := b.rvp.get {} i
    let x := match w with
      | 0 => { x with last2 := v }
      | 1 => { x with last3 := v }
      | _ => { x with valid := v.getLsbD 54, conf3 := v.extractLsb' 52 2, conf2 := v.extractLsb' 50 2, tag := v.extractLsb' 32 18, stride2 := v.setWidth 32 }
    { b with rvp := b.rvp.put i x }
  | 2 => { b with lmp := b.lmp.put i (v.toNat % 4) }
  | 3 => { b with cst := b.cst.put i (v.toNat % 8) }
  | _ =>
    match w with
    | 0 => { b with pfdist := clampPfdist (v.toNat % 128), lmpthr := clampLmpthr (v.toNat / 65536 % 65536) }
    | 1 => { b with base := v &&& ~~~127 }
    | 2 => { b with len := v &&& ~~~127 }
    | _ => { b with ctr := v.toNat / 65536 % 16, k := min (v.toNat / 256 % 32) 16, ways := min (v.toNat % 32) 16 }

/-- The selector of hrd and hwr, when it is valid (R301). -/
def hsel (v : DWord) : Option (Nat × Nat × Nat) :=
  let w := v.toNat % 8
  let i := v.toNat / 8 % 256
  let t := v.toNat / 2048 % 16
  let ok := v.toNat / 32768 = 0 &&
    ((t == 0 && i < 32) || (t == 1 && i < 64 && w < 3) || (t == 2 && i < 64 && w == 0) ||
     (t == 3 && w == 0) || (t == 4 && i == 0 && w < 4))
  if ok then some (t, i, w) else none

/-- The directory of an image: offset and length of each table, in 16 bytes (R284). -/
def histDir : List (Nat × Nat) := [(0x04, 0x80), (0x84, 0x60), (0xE4, 0x01), (0xE5, 0x06), (0xEB, 0x02)]
def revisionBytes : List Byte := [0x41, 0x5A, 0x39, 0x2E, 0x41, 0x30] ++ List.replicate 10 0

/-- The header of an image with the tables of a list present; the directory is that of every image of this revision (R284). -/
def histHeader (present : List Nat) : List Byte :=
  leBytes 4 0x68597A39 ++ leBytes 2 1 ++ leBytes 2 4096 ++ revisionBytes ++
    leBytes 2 (present.foldl (fun m t => m + 2 ^ t) 0) ++ List.replicate 6 (0 : Byte) ++
    (List.range 8).flatMap fun t =>
      match histDir[t]? with
      | some (o, n) => leBytes 4 (o + 256 * n + 65536)
      | none => leBytes 4 0

/-- Packed counters of `n` bits, as bytes. -/
def packCounters (m : SMap Nat) (cnt n : Nat) : List Byte :=
  leBytes (cnt * n / 8) ((List.range cnt).foldl (fun a i => a + m.get 0 i * 2 ^ (n * i)) 0)

/-- The bank image (R283). -/
def histImage (b : HBank) : List Byte :=
  histHeader [0, 1, 2, 3, 4] ++
    ((List.range 32).flatMap fun i => (List.range 8).flatMap fun w => leBytes 8 (hdword b 0 i w).toNat) ++
    ((List.range 64).flatMap fun i => (List.range 3).flatMap fun w => leBytes 8 (hdword b 1 i w).toNat) ++
    packCounters b.lmp 64 2 ++ packCounters b.cst 256 3 ++
    ((List.range 4).flatMap fun w => leBytes 8 (hdword b 4 0 w).toNat) ++ List.replicate 304 0

/-- The image of a region with no bank: no table present (R282). -/
def histEmpty : List Byte := histHeader [] ++ List.replicate 4032 0

def imgNat (img : List Byte) (o n : Nat) : Nat := leNat ((img.drop o).take n)

/-- An image applied to a bank (R297). -/
def applyImage (b : HBank) (img : List Byte) : HBank :=
  let head := imgNat img 0 4 == 0x68597A39 && imgNat img 4 2 == 1 && imgNat img 6 2 == 4096
  (List.range 5).foldl (fun b t =>
    let d := 32 + 4 * t
    let o := imgNat img d 1 * 16
    let n := imgNat img (d + 1) 1 * 16
    let ok := head && (imgNat img 24 2).testBit t && imgNat img (d + 2) 1 == 1 &&
      n == (histDir.getD t (0, 0)).2 * 16 && 0x40 ≤ o && o + n ≤ 0x1000
    if !ok then clearTable b t
    else match t with
      | 0 => (List.range 32).foldl (fun b i => (List.range 4).foldl (fun b w =>
          setHdword b 0 i w (BitVec.ofNat 64 (imgNat img (o + 64 * i + 8 * w) 8))) b) b
      | 1 => (List.range 64).foldl (fun b i => (List.range 3).foldl (fun b w =>
          setHdword b 1 i w (BitVec.ofNat 64 (imgNat img (o + 24 * i + 8 * w) 8))) b) b
      | 2 => (List.range 64).foldl (fun b i => setHdword b 2 i 0 (BitVec.ofNat 64 (imgNat img o n / 4 ^ i))) b
      | 3 => (List.range 256).foldl (fun b i => setHdword b 3 i 0 (BitVec.ofNat 64 (imgNat img o n / 8 ^ i))) b
      | _ => (List.range 4).foldl (fun b w => setHdword b 4 0 w (BitVec.ofNat 64 (imgNat img (o + 8 * w) 8))) b) b

/-- A prefetch of the line of an address: dropped where a load would not go ahead or the page is poisoned (R287). -/
def State.prefetch (s : State) (g : GKey) (pc va : Nat) : State :=
  match s.xlate g va true false with
  | (s, .ok cell) =>
    if (findPage (s.pagesFor g) va).any s.pagePoisoned then s else s.lineReq g pc va cell false .spt
  | (s, _) => s

/-- The bank a region holds on a core after an event (R294). -/
def histApply (b : HBank) : HEvent → HBank
  | .spt lane pc addr slot => (sptEvent b lane pc addr slot).1
  | .rvp pc two s2 s3 => rvpEvent b pc two s2 s3
  | .hwr sel v => match hsel sel with
    | some (t, i, w) => setHdword b t i w v
    | none => b
  | .hload img => applyImage b img
  | .hclr m => clearTables b m
  | .rret x l kw => setRange b x l kw
  | .pfdist v => { b with pfdist := clampPfdist v.toNat }
  | .lmpthr v => { b with lmpthr := clampLmpthr v.toNat }
/-- The prefetch that an event decides on from a bank (R287). -/
def State.histPrefetch (s : State) (g : GKey) (b : HBank) : HEvent → State
  | .spt lane pc addr slot => match (sptEvent b lane pc addr slot).2 with
    | some va => s.prefetch g pc va
    | none => s
  | _ => s

/-- An event at once, or in ordered mode kept for the commit, with a prefetch by the bank of the last commit (R295); a region without a bank
has none (R282). -/
def State.histNow (s : State) (g : GKey) (v : HEvent) : State :=
  match s.histIdx g.b.r (s.coreOf g) with
  | none => s
  | some h =>
    let b := s.hbank (s.coreOf g) h
    if s.ordered g then (s.updGroup g fun x => { x with q := { x.q with hist := x.q.hist ++ [v] } }).histPrefetch g b v
    else (s.updHbank (s.coreOf g) h fun b => histApply b v).histPrefetch g b v

end Sys2Proof.Machine
end

