-- ==== Sys2Proof/Machine/Operands.lean ====
section
/-! DEFINITION. Operands of lane instructions: the registers each reads and writes (R150, R200), the b operand
(R38, R39), the checks of orders 4 and 5 of R29, and the issue of a lane instruction. -/

namespace Sys2Proof.Machine

/-- The registers of an operand of a type: one, or both of a pair (R39). -/
def pairRegs (t : Ty) (n : Nat) : List Nat := if t.is64 then [n, n + 1] else [n]

/-- The registers and masks of a lane instruction. -/
structure LRegs where
  /-- Vector destinations, and sources read in the executing lane. -/
  vd : List Nat := []
  vs : List Nat := []
  /-- Sources read in other lanes (R146), and sources read in lanes 0 to 15 alone (R275). -/
  xs : List Nat := []
  half : List Nat := []
  md : List Nat := []
  ms : List Nat := []
  /-- Registers named as pairs, which must be even (R39). -/
  pairs : List Nat := []
  var : Bool := false
  camp : Bool := false
deriving DecidableEq, Repr

def LArgs.D (x : LArgs) : List Nat := pairRegs x.ty x.vd.toNat
def LArgs.A (x : LArgs) : List Nat := pairRegs x.ty x.va.toNat
def LArgs.C (x : LArgs) : List Nat := pairRegs x.ty x.vc.toNat
def LArgs.bReg (x : LArgs) : Nat := (x.b.extractLsb' 0 11).toNat
def LArgs.B (x : LArgs) : List Nat := if x.bk == .vreg then pairRegs x.ty (LArgs.bReg x) else []
/-- The named registers that must be even: those of the fields listed, and b when it names a register. -/
def LArgs.P (x : LArgs) (fs : List (BitVec 11)) (b : Bool) : List Nat :=
  if x.ty.is64 then fs.map BitVec.toNat ++ (if b && x.bk == .vreg then [LArgs.bReg x] else []) else []
def LArgs.rng (n k : Nat) : List Nat := (List.range k).map fun i => n + i

/-- Forms of the arithmetic families (R150): vd, va, b; vd, va, b, vc; vd, va. -/
def LArgs.f2 (x : LArgs) : LRegs := { vd := LArgs.D x, vs := LArgs.A x ++ LArgs.B x, pairs := LArgs.P x [x.vd, x.va] true }
def LArgs.f3 (x : LArgs) : LRegs :=
  { vd := LArgs.D x, vs := LArgs.A x ++ LArgs.B x ++ LArgs.C x, pairs := LArgs.P x [x.vd, x.va, x.vc] true }
def LArgs.f1 (x : LArgs) : LRegs := { vd := LArgs.D x, vs := LArgs.A x, pairs := LArgs.P x [x.vd, x.va] false }
def LArgs.fcmp (x : LArgs) : LRegs := { md := [x.vd.toNat], vs := LArgs.A x ++ LArgs.B x, pairs := LArgs.P x [x.va] true }
def LArgs.fx (x : LArgs) : LRegs :=
  { vd := LArgs.D x, xs := LArgs.A x, vs := LArgs.B x ++ LArgs.C x, pairs := LArgs.P x [x.vd, x.va, x.vc] true, var := true }
def LArgs.fmask (x : LArgs) : LRegs := { md := [x.vd.toNat], ms := [x.va.toNat, (x.b.extractLsb' 0 4).toNat] }
def LArgs.fmask1 (x : LArgs) : LRegs := { md := [x.vd.toNat], ms := [x.va.toNat] }
def LArgs.fcvt (x : LArgs) : LRegs :=
  { vd := LArgs.D x, vs := pairRegs (x.cvSrc) x.va.toNat
    pairs := (if x.ty.is64 then [x.vd.toNat] else []) ++ (if x.cvSrc.is64 then [x.va.toNat] else []) }
def LArgs.ternN (x : LArgs) : Nat := if x.ext.getLsbD 0 then 5 else 4

/-- The registers of each lane instruction; none for what is no lane instruction. The offset of a memory instruction is one
32-bit register under every type, so it may be odd (DEDUCED, log entry 70). -/
def laneRegs : Instr → Option LRegs
  | .vadd x | .vsub x | .vmul x | .vmulh x | .vmin x | .vmax x => some (LArgs.f2 x)
  | .vand x | .vor x | .vxor x | .vandn x | .vshl x | .vshr x | .vsar x => some (LArgs.f2 x)
  | .vfadd x | .vfsub x | .vfmul x | .vfmin x | .vfmax x | .vfsign x => some (LArgs.f2 x)
  | .vmad x | .vffma x => some (LArgs.f3 x)
  | .vabs x | .vneg x | .vnot x | .vpopc x | .vclz x | .vbfx x | .vfabs x | .vfneg x | .vfclass x => some (LArgs.f1 x)
  | .vbfi x => some { LArgs.f1 x with vs := LArgs.A x ++ LArgs.D x }
  | .vmov x => some { vd := LArgs.D x, vs := LArgs.B x, pairs := LArgs.P x [x.vd] true }
  | .vmovi x | .vlane x => some { vd := [x.vd.toNat] }
  | .vsel x => some { LArgs.f2 x with ms := [x.vc.toNat] }
  | .lend _ | .vnop _ => some {}
  | .vcmp _ x | .vfcmp _ x => some (LArgs.fcmp x)
  | .vfdiv x => some { LArgs.f2 x with var := true }
  | .vfsqrt x | .vfrcp x | .vfrsq x | .vfexp2 x | .vflog2 x => some { LArgs.f1 x with var := true }
  | .vdot4 x | .vdot2 x =>
    some { vd := [x.vd.toNat], vs := [x.va.toNat, x.vc.toNat] ++ (if x.bk == .vreg then [LArgs.bReg x] else []) }
  | .vcvt x | .vcvtO x => some (LArgs.fcvt x)
  | .vternPack x => some { vd := [x.vd.toNat], vs := LArgs.rng x.va.toNat (LArgs.ternN x) }
  | .vternUnpack x => some { vd := LArgs.rng x.vd.toNat (LArgs.ternN x), vs := [x.va.toNat] }
  | .mand x | .mor x | .mxor x | .mandn x => some (LArgs.fmask x)
  | .mnot x | .mmov x | .mfirst x => some (LArgs.fmask1 x)
  | .msetMask x => some { md := [x.vd.toNat] }
  | .vshfl x | .vbcast x | .vrot x => some (LArgs.fx x)
  | .vvote op x =>
    some (if op = 0 then { md := [x.vd.toNat], vs := [x.va.toNat], var := true }
          else { md := [x.vd.toNat], xs := [x.va.toNat], var := true })
  | .vred _ x | .vscan _ x => some { vd := LArgs.D x, xs := LArgs.A x, pairs := LArgs.P x [x.vd, x.va] false, var := true }
  | .vld x => some { vd := LArgs.D x, md := [x.resmask], vs := [x.va.toNat], pairs := LArgs.P x [x.vd] false, var := true }
  | .vldu x => some { vd := LArgs.D x, md := [x.resmask], pairs := LArgs.P x [x.vd] false, var := true }
  | .vst x => some { vs := x.va.toNat :: LArgs.C x, pairs := LArgs.P x [x.vc] false }
  | .vstu x => some { vs := LArgs.C x, pairs := LArgs.P x [x.vc] false }
  | .vprf x => some { vs := [x.va.toNat] }
  | .vatom op x =>
    some { vd := LArgs.D x, vs := x.va.toNat :: LArgs.C x ++ (if op = 8 then LArgs.B x else [])
           pairs := LArgs.P x [x.vd, x.vc] (op = 8), var := true }
  | .vatomNr op x =>
    some { vs := x.va.toNat :: LArgs.C x ++ (if op = 8 then LArgs.B x else []), pairs := LArgs.P x [x.vc] (op = 8) }
  | .vlds x => some { vd := LArgs.D x, vs := x.va.toNat :: (if x.bk == .vreg then [LArgs.bReg x] else []), pairs := LArgs.P x [x.vd] false, var := true }
  | .vsts x => some { vs := x.va.toNat :: (if x.bk == .vreg then [LArgs.bReg x] else []) ++ LArgs.C x, pairs := LArgs.P x [x.vc] false }
  | .vfpush x => some { vs := LArgs.rng x.va.toNat 4 }
  | .vfpop x => some { vd := LArgs.rng x.vd.toNat 4, var := true }
  | .tdly x => some { vs := [x.va.toNat], camp := true }
  | .tlaunch x => some { half := [x.va.toNat], camp := true }
  | .tcap x | .trank x => some { vd := [x.vd.toNat], var := true, camp := true }
  | _ => none

/-- A lane instruction's operand fields. -/
def laneArgsOf : Instr → Option LArgs
  | .vadd x | .vsub x | .vmul x | .vmulh x | .vmad x | .vmin x | .vmax x | .vabs x | .vneg x | .vand x | .vor x
  | .vxor x | .vandn x | .vnot x | .vshl x | .vshr x | .vsar x | .vpopc x | .vclz x | .vbfx x | .vbfi x | .vmov x
  | .vmovi x | .vsel x | .vlane x | .lend x | .vnop x | .vcmp _ x | .vfadd x | .vfsub x | .vfmul x | .vffma x
  | .vfmin x | .vfmax x | .vfabs x | .vfneg x | .vfsign x | .vfdiv x | .vfsqrt x | .vfrcp x | .vfrsq x | .vfexp2 x
  | .vflog2 x | .vfcmp _ x | .vfclass x | .vdot4 x | .vdot2 x | .vcvt x | .vcvtO x | .vternPack x | .vternUnpack x
  | .mand x | .mor x | .mxor x | .mandn x | .mnot x | .mmov x | .msetMask x | .mfirst x | .vshfl x | .vbcast x
  | .vrot x | .vvote _ x | .vred _ x | .vscan _ x | .vld x | .vst x | .vldu x | .vstu x | .vprf x | .vatom _ x
  | .vatomNr _ x | .vlds x | .vsts x | .vfpush x | .vfpop x | .tdly x | .tlaunch x | .tcap x | .trank x => some x
  | _ => none

/-- The head of a split's lane queue. -/
def State.head (s : State) (g : GKey) (e : Nat) : QBlk := (s.split g e).queue.headD {}

/-! ## Outstanding results -/

/-- The lanes of a vector register, of a mask register, whose write is outstanding (R147). -/
def State.outV (s : State) (g : GKey) (n : Nat) : Word :=
  (s.group g).outst.foldl (fun m o => if o.v.any fun p => p.1 == n then m ||| o.lanes else m) 0
def State.outM (s : State) (g : GKey) (n : Nat) : Word :=
  (s.group g).outst.foldl (fun m o => if o.m.any fun p => p.1 == n then m ||| o.lanes else m) 0

/-- The Active lanes of a lane instruction (R5, R104); of a word executed again, the lanes named for it (R330). -/
def State.activeOf (s : State) (g : GKey) (blk : QBlk) (m : Nat) : Word :=
  match blk.again with
  | some a => a.lanes
  | none => blk.mask &&& s.getM g blk.mask m
/-- The lanes whose bit of the instruction's mask is outstanding, of which it is not known whether they are
Active (R149). -/
def State.unknownLanes (s : State) (g : GKey) (blk : QBlk) (m : Nat) : Word :=
  if m = 0 || blk.again.isSome then 0 else s.outM g m &&& blk.mask

/-! ## The b operand -/

/-- How reading a constant window ends (R103). -/
inductive CRead where
  | val (v : Nat)
  | fault (kind addr : Nat)
  | wait (va : Nat)
deriving DecidableEq, Repr

/-- A word of a constant window through the core's constant cache, which a miss fills by the line (R103). An ordered group reads
memory as its loads do (R309). The cache holds its 64 KiB of newest lines and serves a line that it holds without another
look at its page (DESIGN CHOICE, log entry 100). -/
def State.constWord (s : State) (g : GKey) (e : Nat) (w k : Nat) : State × CRead :=
  let win := (s.group g).wins.get {} w
  if 4 * k + 4 > win.len.toNat then (s, .val 0)
  else
    let va := (win.base.toNat + 4 * k) % 2 ^ 64
    if va ≥ 2 ^ 56 then (s, .fault 5 va)
    else
      let c := g.b.r.c
      let core := s.coreOf g
      match (if s.ordered g then none else (s.core core).consts.find? fun l => decide (l.c = c) && l.line == va / 128) with
      | some l =>
        if l.poison.contains (va % 128 / 32) then (s, .fault 0x0B va)
        else (s, .val (leNat ((l.bytes.drop (va % 128)).take 4)))
      | none =>
        match s.xlate g va true false with
        | (s, .fault k) => (s, .fault k va)
        | (s, .nonres) => (s, .wait va)
        | (s, .ok cell) =>
          if s.ownedAt (.mem cell) then (s, .wait va)
          else if s.poisonFor (baseKey g) e (.mem cell) then (s, .fault 0x0B va)
          else if s.ordered g then (s, .val (s.load g e (.mem cell) 4))
          else
            let base : Loc := .mem (cell / 128 * 128)
            let bytes := (Loc.span base 128).map fun l => s.readByte (baseKey g) e l
            let poison := (List.range 4).filter fun i => s.poisonFor (baseKey g) e (base.add (32 * i))
            (s.updCore core fun x => { x with consts := ({ c, line := va / 128, bytes, poison } :: x.consts).take 512 },
              .val (leNat ((bytes.drop (va % 128)).take 4)))

/-- A float immediate under a type (R38, R39). -/
def immFloat (t : Ty) (b : BitVec 20) : Nat :=
  let v := b.toNat * 4096
  if t == .f32 then v else roundTo (Ty.fmt t) .rne false (readFloat fmtF32 v)

/-- A broadcast value repeated into every element of a lane (R39). -/
def repeatEl (t : Ty) (v : Nat) : Nat :=
  let w := t.width
  if w ≥ 32 then v % 2 ^ w else elMap w (32 / w) fun _ => v

/-- The uniform b operand under a type: scalar window, constant or immediate; `flt` when an immediate of a float type denotes a
float value. Of a 64-bit constant each word is read by the rule of one: a high word beyond the window's length is 0 (DEDUCED,
log entry 78). -/
def State.uniformB (s : State) (g : GKey) (e : Nat) (x : LArgs) (t : Ty) (flt : Bool) : State × CRead :=
  match x.bk with
  | .vreg => (s, .val 0)
  | .window =>
    let v := ((s.head g e).snapS.get 0 (16 + (x.b.extractLsb' 0 4).toNat)).toNat
    (s, .val (repeatEl t v))
  | .imm =>
    if flt && Ty.isFloat t then (s, .val (repeatEl t (immFloat t x.b)))
    else (s, .val (repeatEl t (wrapInt 64 (x.b.toInt))))
  | .const =>
    let w := (x.b.extractLsb' 17 3).toNat
    let k := (x.b.extractLsb' 0 17).toNat
    match s.constWord g e w k with
    | (s, .val lo) =>
      if t.is64 then
        match s.constWord g e w (k + 1) with
        | (s, .val hi) => (s, .val (lo + hi * 2 ^ 32))
        | r => r
      else (s, .val (repeatEl t lo))
    | r => r

/-! ## Hold violations (R149) -/

/-- The lanes in which a register is read as a source for another lane (R149): which source lanes each
Active lane reads, by instruction. A constant that cannot be read names no source lane (DESIGN CHOICE, log entry 99). -/
def State.srcLanes (s : State) (g : GKey) (i : Instr) (l : Nat) (act : Word) : List Nat :=
  let bv (x : LArgs) (l : Nat) : List Nat :=
    match x.bk with
    | .vreg => [(s.getVL g (LArgs.bReg x) l).toNat]
    | .window => [((s.head g (s.actor.2)).snapS.get 0 (16 + (x.b.extractLsb' 0 4).toNat)).toNat % 2 ^ 32]
    | .imm => [(x.b.signExtend 32).toNat]
    | .const => match (s.uniformB g s.actor.2 x x.ty false).2 with
      | .val v => [v % 2 ^ 32]
      | _ => []
  match i with
  | .vshfl x | .vbcast x => bv x l
  | .vrot x => (bv x l).map fun v => (l + v) % 32
  | .vscan _ x => (lanesOf act).filter fun k => if x.ext.getLsbD 0 then k < l else k ≤ l
  | _ => lanesOf act

/-- The lanes in which an instruction meets a hold violation (R149). A lane of which it is not known whether it is Active
supplies no source value, and mfirst is charged with its own lane's bit alone (DESIGN CHOICE, log entry 71). -/
def State.holdFaults (s : State) (g : GKey) (blk : QBlk) (i : Instr) (r : LRegs) (m : Nat) : Word :=
  let unknown := s.unknownLanes g blk m
  let act := s.activeOf g blk m &&& ~~~unknown
  let own := (r.vd ++ r.vs).foldl (fun w n => w ||| s.outV g n) 0 |||
    (r.half.foldl (fun w n => w ||| s.outV g n) 0 &&& 0xFFFF) |||
    (r.md ++ r.ms).foldl (fun w n => if n = 0 then w else w ||| s.outM g n) 0
  let ext := r.xs.foldl (fun w n => w ||| s.outV g n) 0
  let xl := if ext = 0 then 0
    else maskOf ((lanesOf act).filter fun l => (s.srcLanes g i l act).any fun k => k < 32 && ext.getLsbD k && act.getLsbD k)
  unknown ||| (act &&& (own ||| xl))

/-! ## Values in lanes -/

/-- The value of a register operand in a lane, both registers of a pair (R39). -/
def State.laneVal (s : State) (g : GKey) (t : Ty) (n l : Nat) : Nat :=
  if t.is64 then (s.getVL g n l).toNat + (s.getVL g (n + 1) l).toNat * 2 ^ 32 else (s.getVL g n l).toNat

/-- The lane writes of values under a type: one register, or both of a pair (R39). -/
def laneWrite (t : Ty) (n : Nat) (vs : List (Nat × Nat)) : List (Nat × List (Nat × Word)) :=
  (n, vs.map fun p => (p.1, BitVec.ofNat 32 p.2)) ::
    (if t.is64 then [(n + 1, vs.map fun p => (p.1, BitVec.ofNat 32 (p.2 / 2 ^ 32)))] else [])
def State.writeLanes (s : State) (g : GKey) (ws : List (Nat × List (Nat × Word))) : State :=
  ws.foldl (fun s w => if w.2.isEmpty then s else s.setVLs g w.1 w.2) s

/-! ## Issue of a lane instruction -/

/-- How a lane instruction ends before its faults are counted: with faults by lane, with a fault of the whole
instruction, or waiting. -/
inductive LEnds where
  | ok (s : State) (faults : List (Nat × FaultInfo))
  /-- The same, with what a watchpoint does after the instruction (R378). -/
  | seen (s : State) (faults : List (Nat × FaultInfo)) (after : State → State)
  | whole (f : FaultInfo)
  | wait (s : State) (p : LPark)
  /-- It has done nothing, because lanes met a hold violation, and no lane has completed (R275). -/
  | idle (s : State)

/-- A lane instruction as its meaning sees it. -/
structure LCtx where
  g : GKey
  e : Nat
  blk : QBlk
  /-- Active lanes without those that meet a hold violation, and the Active set as it issued. -/
  act : Word
  active : Word
  /-- The lanes known to be Active, which supply source values (R146). -/
  src : Word

/-- The next word of the head block; after lend, the next block. -/
def State.advanceLane (s : State) (g : GKey) (e : Nat) (isEnd : Bool) (h : Bool) : State :=
  let out := (s.group g).outst.any fun o => o.e == e
  s.updSplit g e fun x =>
    { x with
      hold := h && out
      lpark := none
      lfront := none
      queue := match x.queue with
        | [] => []
        | b :: r => if isEnd || b.again.isSome then r else { b with pc := b.pc + 12, dfault := false } :: r }

/-- A record of a fault that a continuation recorded (R134, R323). -/
def deferredRec (blk : QBlk) (r : FRec) : FRec := if blk.dfault then { r with flags := r.flags ||| 4 } else r

/-- A lane instruction of a continuation that would fault does not issue, and the continuation stops (R134); it
issues as the split's once the queue has passed to the split (R135). -/
def State.laneStop (s : State) (g : GKey) (e : Nat) : State :=
  s.updSplit g e fun x =>
    { x with
      st := .parked .fork
      lpark := some .fork
      queue := match x.queue with
        | [] => []
        | b :: r => { b with dfault := true } :: r }

/-- The end of a lane instruction with its faults by lane (R30, R197, R325): the lanes with fault 0x06 are
executed again once their pages are resident, and the trap of the others waits for them. -/
def State.laneEnd (s : State) (c : LCtx) (word : Nat) (idle : Bool) (fs : List (Nat × FaultInfo)) : State :=
  let old : Again := c.blk.again.getD {}
  let first := c.blk.again.isNone
  let active := if first then c.active else old.active
  let keep := fs.filter fun f => f.2.kind == 6
  let own := fs.filter fun f => f.2.kind != 6
  let new := own.map fun f => deferredRec c.blk (State.frec f.2 f.1 c.e true c.blk.pc c.blk.lrunPc)
  let recs := (List.range 32).filterMap fun l => (old.recs ++ new).find? fun r => r.lane.toNat == l
  let done := if idle then old.done else old.done ||| (c.active &&& ~~~ maskOf (fs.map (·.1)))
  let plain := { c.blk with again := none, dfault := false }
  if !keep.isEmpty then
    let a : Again := { word, lanes := maskOf (keep.map (·.1)), count := false, recs, done, active }
    s.updGroup c.g fun x =>
      { x with fix := some { e := c.e, lane := true, vas := keep.map (·.2.addr), blk := { plain with again := some a } } }
  else if recs.isEmpty then s
  else s.takeTrap c.g { recs, e := c.e, lanei := true, done, src := .lane c.e plain word active }

/-- The word of a lane instruction. -/
def laneWord (i : Instr) : Nat := match encode i with
  | some (.lane w) => w.toNat
  | _ => 0

/-- A lane instruction issued from the queue of the split whose turn it is: the checks of R29 in their order,
the effect in the lanes that pass, the count, the next word, and the trap if lanes faulted (DEDUCED, log entry 48). A word skipped for
a fault of the whole instruction sets no hold (DESIGN CHOICE, log entry 102). -/
def laneIssue (i : Instr) (x : LArgs) (stalls : Bool) (f : State → LCtx → LEnds) (s : State) :
    Host.Outcome State Fault Refusal :=
  let g := s.actor.1
  let e := s.actor.2
  let blk := s.head g e
  let r := (laneRegs i).getD {}
  let word := laneWord i
  let isEnd := match i with | .lend _ => true | _ => false
  let fork := (s.group g).fork.isSome
  let counted (s : State) : State := if blk.again.all (·.count) then s.count g e else s
  let whole (k : FaultInfo) : State :=
    if fork then s.laneStop g e else
    ((counted s).advanceLane g e isEnd false).takeTrap g
      { recs := [deferredRec blk (State.frec k 255 e true blk.pc blk.lrunPc)], e, lanei := true, src := .lane e blk word (s.activeOf g blk x.m.toNat) }
  .next <|
    if !WellFormed i || !(s.group g).vec then whole { kind := 1 }
    else if (r.vd ++ r.vs ++ r.xs ++ r.half).any (· ≥ (s.group g).budget) || r.pairs.any (· % 2 == 1) then whole { kind := 2 }
    else if stalls && fork then s.updSplit g e fun y => { y with lpark := some .fork }
    else
      let m := x.m.toNat
      let hf := s.holdFaults g blk i r m
      let active := s.activeOf g blk m ||| hf
      let unknown := s.unknownLanes g blk m
      let c : LCtx := { g, e, blk, act := active &&& ~~~hf, active, src := s.activeOf g blk m &&& ~~~unknown }
      let close (t : State) (fs : List (Nat × FaultInfo)) (idle : Bool) (after : State → State) : State :=
        let hold := (lanesOf hf).map fun l => (l, ({ kind := 3 } : FaultInfo))
        let all := (List.range 32).filterMap fun l => ((hold ++ fs).find? fun p => p.1 == l)
        if fork && !all.isEmpty then s.laneStop g e
        else
          let t := after ((counted t).advanceLane g e isEnd x.h)
          let t := t.laneEnd c word idle all
          (t.stepDone g e).groupCheck g
      match f s c with
      | .whole k => whole k
      | .wait s p => s.updSplit g e fun y => { y with lpark := some p }
      | .ok t fs => close t fs false id
      | .seen t fs after => close t fs false after
      | .idle t => close t [] true id

/-- Results that come later: outstanding from issue until RESULT_RETURN (R147). -/
def State.addOutst (s : State) (g : GKey) (o : Outst) : State :=
  let blk := (s.head g o.e).id
  s.updGroup g fun x => { x with outst := x.outst ++ [{ o with id := x.nextId, issued := s.cycle, blk }], nextId := x.nextId + 1 }

/-- The lane-produced state that a scalar instruction waits for is still being produced (R107): by results
outstanding, or by words of a queue that have not issued. In the trap split the queues of suspended
splits do not count. -/
def writesState (w : LaneState) (i : Instr) : Bool :=
  match laneRegs i with
  | none => false
  | some r => match w with
    | .mask n => r.md.contains n
    | .vreg n => r.vd.contains n
    | .any => true
    | .campanile => r.camp

/-- Whether a queued block holds, from its next word to its lend, an instruction of some kind, as its group's
memory holds the words (R44). A word that cannot be read counts. -/
def State.scanBlock (s : State) (g : GKey) (e : Nat) (f : Instr → Bool) (pc : Nat) : Nat → Bool
  | 0 => false
  | n + 1 =>
    match (s.xlate g pc true false).2 with
    | .ok cell =>
      let i := decodeLane (BitVec.ofNat 96 (s.load g e (.mem cell) 12))
      f i || (match i with
        | .lend _ => false
        | _ => s.scanBlock g e f (pc + 12) n)
    | _ => true

/-- The same of a block of a queue, which may be one word executed again. -/
def State.blockHas (s : State) (g : GKey) (e : Nat) (f : Instr → Bool) (b : QBlk) : Bool :=
  match b.again with
  | some a => a.word ≥ 2 ^ 96 || f (decodeLane (BitVec.ofNat 96 a.word))
  | none => s.scanBlock g e f b.pc.toNat 1024

/-- Whether an instruction accesses memory as a fence sees it (R220). -/
def lanesMemory : Instr → Bool
  | .vld _ | .vst _ | .vldu _ | .vstu _ | .vatom _ _ | .vatomNr _ _ | .vlds _ | .vsts _ | .vcvtO _ => true
  | _ => false

/-- The lane-produced state of a group or shadow itself, by blocks enqueued before a number. -/
def State.ownBusy (s : State) (g : GKey) (e : Nat) (w : LaneState) (n : Nat) : Bool :=
  let x := s.group g
  (x.outst.any fun o => o.blk < n && match w with
    | .mask n => o.m.any fun p => p.1 == n
    | .vreg n => o.v.any fun p => p.1 == n
    | .any => true
    | .campanile => o.camp) ||
  (decide (w = .any) && x.ol.any fun o => o.blk.id < n) ||
  x.ents.any fun p =>
    !(e == 4 && p.1 != 4) && p.2.queue.any fun b =>
      b.id < n && match w with
      | .any => true
      | _ => s.blockHas g p.1 (writesState w) b
/-- Lane instructions of the group enqueued before a number that write some state are still to complete; a continuation waits
also for those that were enqueued before its callf (R107, R133). -/
def State.laneBusy (s : State) (g : GKey) (e : Nat) (w : LaneState) (n : Nat) : Bool :=
  ((s.lineage g n 4).any fun k => s.ownBusy k.1 e w k.2) ||
    (decide (w = .campanile) && decide ((s.core (s.coreOf g)).camp = some (baseKey g)) && (s.core (s.coreOf g)).campBusy.isSome)
/-- The number before which the blocks count that an instruction of a split waits for: that of its issue (R107). One that has waited for
the array has waited for its blocks before (R272). -/
def State.laneMark (s : State) (g : GKey) (e : Nat) : Nat :=
  match (s.split g e).st with
  | .parked (.lanes _ n) => n
  | .parked .array => 0
  | _ => s.nextId

end Sys2Proof.Machine
end

