-- ==== Sys2Proof/Machine/Access.lean ====
section
/-! DEFINITION. Accesses of the scalar stream and what all accesses share:
the checks of an address (R112, R190, R194, R199), watchpoints (R377, R378), the limits of a fork
continuation (R133), and the repair of a store to a page that is not resident (R197); then sld and sst. -/

namespace Sys2Proof.Machine

/-! ## One access -/

/-- How the checks of an access end. -/
inductive Acc where
  | ok (cell : Nat)
  | fault (f : FaultInfo)
  | nonres
  | owned
deriving DecidableEq, Repr

/-- The checks of an access of `n` bytes at a virtual address: validity, alignment, translation and
permission, residency, ownership, poison (R112, R190, R194, R199, R224). -/
def State.accessAs (s : State) (g : GKey) (e va n : Nat) (rd wr : Bool) : State × Acc :=
  let flt (k : Nat) : Acc := .fault { kind := k, addr := va, write := wr }
  if va ≥ 2 ^ 56 then (s, flt 5)
  else if va % n != 0 then (s, flt 4)
  else match s.xlate g va rd wr with
    | (s, .fault k) => (s, flt k)
    | (s, .nonres) => (s, .nonres)
    | (s, .ok cell) =>
      if s.ownedAt (.mem cell) then (s, .owned)
      else if s.poisonFor g e (.mem cell) then (s, flt 0x0B)
      else (s, .ok cell)
/-- The same for the split whose turn it is. -/
def State.access (s : State) (g : GKey) (va n : Nat) (rd wr : Bool) : State × Acc := s.accessAs g s.actor.2 va n rd wr

/-- The sr.slot that a history entry records: in ordered mode the first placement's (R98, R286). -/
def State.slotOf (s : State) (g : GKey) : Nat := if s.ordered g then (s.group g).slot0 else (s.group g).slot

/-- A load trains the SPT (R287). -/
def State.train (s : State) (g : GKey) (lane : Bool) (pc va : Nat) : State :=
  s.histNow g (.spt lane pc va (s.slotOf g))

/-- A continuation whose tracked lines are full and who would read another waits for its fork (R133). -/
def State.trackFull (s : State) (g : GKey) (ls : List Nat) : Bool :=
  match (s.group g).fork with
  | some f => decide ((ls.foldl (fun t l => if t.contains l then t else l :: t) f.tracked).length > 256)
  | none => false
/-- A continuation whose store buffer is full waits for its fork (R133). -/
def State.bufferFull (s : State) (g : GKey) (x : QStore) : Bool :=
  match (s.group g).fork with
  | some f => decide ((linesOf (f.buf ++ [x])).length > 64)
  | none => false

/-! ## Watchpoints -/

/-- The lowest watchpoint of a group that an access matches (R377, R378). -/
def State.wptHit (s : State) (g : GKey) (va n : Nat) (rd wr : Bool) : Option Nat :=
  (List.range 4).find? fun i =>
    let w := (s.group g).wpts.get {} i
    w.en && ((rd && w.r) || (wr && w.w)) && w.addr.toNat < va + n && va < w.addr.toNat + 2 ^ w.size

/-- What follows an instruction that matched a watchpoint (R378): a halt with its records, or the trap of the
region's handler, or nothing; in a continuation the match is deferred as a fault is. -/
def State.watch (s : State) (g : GKey) (t : PendTrap) (n : Nat) (lanePc addr : DWord) : State :=
  if (s.group g).fork.isSome then s.takeTrap g { t with wpt := n }
  else if ((s.ctx g.b.r.c).attached).isSome then
    ((s.squash g).writeRecords g t).halt g t.e 3 lanePc addr n
  else if (s.rcb g).handler != 0 then s.takeTrap g t
  else s

/-- The end of a scalar instruction that has accessed memory: it retires, and a watchpoint it matched acts. -/
def State.afterAccess (s : State) (g : GKey) (e va n : Nat) (rd wr : Bool) : Ends :=
  match s.wptHit g va n rd wr with
  | none => .next s
  | some w =>
    let pc := (s.split g e).pc
    let r := State.frec { kind := 0x10, addr := va, write := wr } 255 e false 0 pc
    .done (((s.count g e).goTo g e (pc + 4)).watch g { recs := [r], e, src := .between } w 0 (BitVec.ofNat 64 va))

/-! ## Record rings (R380, R383) -/

/-- A record stored in a context's ring and published in its header by a device-scope release of its split, whose group's earlier stores
are performed first; one of which a store would fault is lost (R380, R383). -/
def State.ringStore (s : State) (g : GKey) (x : RingRec) : State :=
  let c := g.b.r.c
  let r := if x.tr then (s.ctx c).trace else (s.ctx c).fin
  let set (s : State) (y : RecRing) : State := s.updCtx c fun z => if x.tr then { z with trace := y } else { z with fin := y }
  let lost (s : State) : State :=
    let s := match s.access g (r.base + 8) 8 false true with
      | (s, .ok cell) => s.perform (cellsOf (.mem cell) 8 (r.lost + 1))
      | (s, _) => s
    (set s { r with lost := r.lost + 1 }).bump c 12 1
  match s.access g (r.base + 64 + x.bytes.length * (r.w % 2 ^ r.cap)) 8 false true with
  | (s, .ok cell) => match s.access g r.base 8 false true with
    | (s, .ok head) =>
      let s := if s.ordered g then s else s.flushGroup g
      (match s.syncOf g x.e 0 6 false true false (s.ordered g) head with
      | (s, none) => set ((s.perform ((Loc.span (.mem cell) x.bytes.length).zip x.bytes)).perform (cellsOf (.mem head) 8 (r.w + 1)))
          { r with w := r.w + 1 }
      | (s, some _) => lost s)
    | (s, _) => lost s
  | (s, _) => lost s
/-- Whether a copy owns a line that a record is stored to (R224). -/
def State.ringOwned (s : State) (g : GKey) (x : RingRec) : Bool :=
  let r := if x.tr then (s.ctx g.b.r.c).trace else (s.ctx g.b.r.c).fin
  [r.base, r.base + 64 + x.bytes.length * (r.w % 2 ^ r.cap)].any fun a => match (s.access g a 8 false true).2 with
    | .owned => true
    | _ => false
/-- A record for a context's ring, behind those that wait. -/
def State.ringPut (s : State) (g : GKey) (x : RingRec) : State :=
  let c := g.b.r.c
  if (if x.tr then (s.ctx c).trace else (s.ctx c).fin).base = 0 then s
  else if !(s.ctx c).recQ.isEmpty || s.ringOwned g x then s.updCtx c fun y => { y with recQ := y.recQ ++ [(g, x)] }
  else s.ringStore g x
/-- The records that wait stored in order, up to one whose lines are owned still. -/
def State.ringRetry (s : State) (c : CKey) : Nat → State
  | 0 => s
  | n + 1 =>
    match (s.ctx c).recQ with
    | [] => s
    | (g, x) :: rest =>
      if s.ringOwned g x then s
      else ((s.updCtx c fun y => { y with recQ := rest }).ringStore g x).ringRetry c n
def State.ringRetryAll (s : State) : State := s.ctxs.foldl (fun s p => s.ringRetry p.1 p.2.recQ.length) s

/-- A record of a group: in the ring at once, at its commit in ordered mode, or with a continuation's buffer. -/
def State.record (s : State) (g : GKey) (x : RingRec) : State :=
  if (s.group g).fork.isSome then
    s.updGroup g fun y => { y with fork := y.fork.map fun f => { f with traces := f.traces ++ [x] } }
  else if s.ordered g then s.updGroup g fun y => { y with q := { y.q with recs := y.q.recs ++ [x] } }
  else s.ringPut g x

/-- The time field of a record (R381, R383): device time, in ordered mode the quantum and the retired count. -/
def State.recTime (s : State) (g : GKey) : Nat :=
  if s.ordered g then (s.region g.b.r).quantum % 16 * 2 ^ 60 + (s.group g).retired % 2 ^ 60
  else s.deviceNs

/-! ## Stores to pages that are not resident -/

/-- A scalar access for the Keep to repair: the split parks until the page is resident and the instruction is
executed again (R197); a continuation waits for its fork first (R134). -/
def State.keepScalar (s : State) (g : GKey) (e va : Nat) : Ends :=
  if (s.group g).fork.isSome then .park s .fork
  else
    .done ((s.updGroup g fun x => { x with fix := some { e, vas := [va], blk := {} } }).park g e .keep)

/-! ## Scalar loads and stores -/

/-- The bytes of a size field, and whether a load extends the sign (R33). -/
def sizeBytes (z : BitVec 3) : Nat := 2 ^ (z.toNat / 2)
def loadExtend (z : BitVec 3) (v : Nat) : DWord :=
  if z.toNat % 2 == 0 then BitVec.ofInt 64 (sInt (8 * sizeBytes z) v) else BitVec.ofNat 64 v
/-- The address of an SM access (R112). -/
def smAddr (a : DWord) (z : BitVec 3) (o : BitVec 9) : Nat := (a + o.signExtend 64 * BitVec.ofNat 64 (sizeBytes z)).toNat

/-- sld (R112): a page that is not resident parks the split; the SPT trains once, at its issue, whether or not it faults (R287). The load
waits for the fill of its line, which so completes in it (R302). -/
def execSld (d a : BitVec 7) (z : BitVec 3) (o : BitVec 9) : State → Host.Outcome State Fault Refusal :=
  scalarOp (WellFormed (.sld d a z o)) {} fun s g e =>
    let n := sizeBytes z
    let va := smAddr (s.getS g e a.toNat) z o
    let pc := (s.split g e).pc.toNat
    let trained := decide ((s.split g e).st = .parked (.load va))
    let trains (s : State) : State := if trained then s else s.train g false pc va
    match s.access g va n true false with
    | (s, .nonres) => .park (trains s) (.load va)
    | (s, .owned) => .park s (if trained then .load va else .owned va)
    | (s, .fault f) => .fault (trains s) f
    | (s, .ok cell) =>
      if s.trackFull g [cell / 128] then .park s .fork
      else
        let s := s.settleLoads g e [cell] n
        let v := s.load g e (.mem cell) n
        let s := ((trains s).lineReq g pc va cell false .demand).track g [cell / 128]
        let s := s.fillDone (s.clusterOf g) (cell / 128)
        (s.setS g e d.toNat (loadExtend z v)).afterAccess g e va n true false

/-- sst (R112): a page that is not resident is the Keep's fault 0x06 (R197). -/
def execSst (t a : BitVec 7) (z : BitVec 3) (o : BitVec 9) : State → Host.Outcome State Fault Refusal :=
  scalarOp (WellFormed (.sst t a z o)) {} fun s g e =>
    let n := sizeBytes z
    let va := smAddr (s.getS g e a.toNat) z o
    let pc := (s.split g e).pc
    match s.access g va n false true with
    | (s, .nonres) => s.keepScalar g e va
    | (s, .owned) => .park s (.owned va)
    | (s, .fault f) => .fault s f
    | (s, .ok cell) =>
      let x : QStore := { cells := cellsOf (.mem cell) n (s.getS g e t.toNat).toNat, e, pc, va }
      if s.bufferFull g x then .park s .fork
      else
        let s := s.lineReq g pc.toNat va cell false .demand
        (s.store g e x false).afterAccess g e va n false true

end Sys2Proof.Machine
end

