-- ==== Sys2Proof/Machine/Flags.lean ====
section
/-! DEFINITION. The format-error flags of a group and its outlier list (R60 to R67). -/

namespace Sys2Proof.Machine

/-- A code 10 of tr has been read, a T5B byte above 242 decoded: the sticky flags of sr.vstat (R60, R61, R63). -/
def State.formatErr (s : State) (g : GKey) (trit t5b : Bool) : State :=
  if trit || t5b then
    s.updGroup g fun x => { x with vstat := x.vstat ||| (BitVec.ofBool t5b ++ BitVec.ofBool trit) }
  else s

/-- Whether a lane of 16 codes holds a code 10. -/
def hasTen (v : Nat) : Bool := (List.range 16).any fun i => elGet 2 v i == 2
/-- Whether a lane of T5B bytes holds one above 242. -/
def hasBadT5b (v : Nat) : Bool := (List.range 4).any fun i => elGet 8 v i ≥ 243

/-- sr.olcnt after one more record, kept or dropped (R64, R66). -/
def olNext (c : BitVec 32) (dropped : Bool) : BitVec 32 :=
  let n := c.toNat % 2 ^ 31
  BitVec.ofNat 32 (min (n + 1) (2 ^ 31 - 1) + if dropped || c.getLsbD 31 then 2 ^ 31 else 0)

/-- How the append of an outlier record goes. -/
inductive OlEnd where
  | done
  | fault (f : FaultInfo)
  | wait
deriving DecidableEq, Repr

/-- sr.olcnt as a continuation reads it: the group's, and the records that wait for its commit (DESIGN CHOICE, log entry 72). -/
def State.olcntOf (s : State) (g : GKey) : Nat → BitVec 32
  | 0 => (s.group g).olcnt
  | n + 1 => match (s.group g).fork with
    | none => (s.group g).olcnt
    | some f => f.ol.foldl (fun c _ => olNext c (c.toNat % 2 ^ 31 ≥ (s.group g).ollen.toNat)) (s.olcntOf (shadowKey g f.parent) n)

/-- The address of the next record of a group's list. -/
def Group.olPlace (x : Group) : Nat := x.olbase.toNat * 8 + 8 * (x.olcnt.toNat % 2 ^ 31)
/-- One record appended to a group's list: stored, dropped, faulting, or waiting for its page (R66); `at_` is the address that it
has waited for. -/
def State.olAppend (s : State) (g : GKey) (e : Nat) (lane : Bool) (index value : Word) (at_ : Option Nat) : State × OlEnd :=
  let x := s.group g
  let c := x.olcnt.toNat % 2 ^ 31
  let bump (s : State) (d : Bool) : State := s.updGroup g fun x => { x with olcnt := olNext x.olcnt d }
  if at_.isNone && c ≥ x.ollen.toNat then (bump s true, .done)
  else
    let va := at_.getD x.olPlace
    match s.access g va 8 false true with
    | (s, .nonres) => (s, .wait)
    | (s, .owned) => (s, .wait)
    | (s, .fault f) => (s, .fault f)
    | (s, .ok cell) =>
      let q : QStore := { cells := cellsOf (.mem cell) 8 (value.toNat * 2 ^ 32 + index.toNat), e, lanei := lane, va }
      if s.bufferFull g q then (s, .wait) else (bump (s.store g e q false) false, .done)

/-- Whether a record of a group must wait for others: for records of an mstore in the list's order, or for lane blocks enqueued
earlier by other splits that append too; in ordered mode the order is that of issue (R66, R67). -/
def appendsOl : Instr → Bool
  | .vcvtO _ => true
  | _ => false
def State.olBehind (s : State) (g : GKey) (r : OlRec) : Bool :=
  ((s.seq g.b).ol.any fun w => w.1 == g.gid) ||
    (!s.ordered g && (s.group g).ents.any fun p => p.1 != r.e && !p.2.susp && p.2.queue.any fun b =>
      b.id < r.blk.id && s.blockHas g p.1 appendsOl b)
/-- The waiting records of a group appended in order, up to the first that waits; those whose stores fault are not made, and stay until
every record of their instruction is settled (R66). -/
def State.olDrainList (s : State) (g : GKey) : List OlRec → State × List OlRec
  | [] => (s, [])
  | r :: rs =>
    if r.fault.isSome then
      let (s, left) := s.olDrainList g rs
      (s, r :: left)
    else if s.olBehind g r then (s, r :: rs)
    else match s.olAppend g r.e true r.index r.value r.at_ with
      | (s, .wait) => (s, { r with at_ := some (r.at_.getD (s.group g).olPlace) } :: rs)
      | (s, .done) => s.olDrainList g rs
      | (s, .fault f) =>
        let (s, left) := s.olDrainList g rs
        (s, { r with fault := some f } :: left)
/-- Whether two records are of one instruction. -/
def OlRec.same (r k : OlRec) : Bool := r.e == k.e && r.blk.id == k.blk.id && r.word == k.word
/-- The records drained; those whose instruction has faulted records only leave the list as its faults. -/
def State.olDrain (s : State) (g : GKey) : State × List (OlRec × FaultInfo) :=
  let (s, left) := s.olDrainList g (s.group g).ol
  let (stay, fall) := left.partition fun r => left.any fun k => r.same k && k.fault.isNone
  (s.updGroup g fun x => { x with ol := stay }, fall.filterMap fun r => r.fault.map fun f => (r, f))
/-- Records put among the waiting ones of a group, in the order in which their blocks were enqueued (R67). -/
def insOl (new : List OlRec) : List OlRec → List OlRec
  | [] => new
  | r :: rs => if new.head?.any fun n => n.blk.id < r.blk.id then new ++ r :: rs else r :: insOl new rs

/-- Faulted records as the traps of their instructions: one for each, with a record for each lane (R66). -/
def olTraps : List (OlRec × FaultInfo) → List (OlRec × List (Nat × FaultInfo))
  | [] => []
  | (r, f) :: l =>
    match olTraps l with
    | (k, fs) :: ts => if r.same k then (r, (r.lane, f) :: fs.filter (·.1 != r.lane)) :: ts else (r, [(r.lane, f)]) :: (k, fs) :: ts
    | [] => [(r, [(r.lane, f)])]
/-- The waiting records of a group taken up again; those that fault are faults of their lanes, one trap for an instruction (R66). -/
def State.olRetry (s : State) (g : GKey) : State :=
  if (s.group g).ol.isEmpty then s
  else
    let (s, fs) := s.olDrain g
    let s := (olTraps fs).foldl (fun s t =>
      let r := t.1
      s.takeTrap g
        { recs := t.2.map fun l => State.frec l.2 l.1 r.e true r.blk.pc r.blk.lrunPc, e := r.e, lanei := true
          done := r.active &&& ~~~maskOf (t.2.map (·.1)), src := .lane r.e r.blk r.word r.active }) s
    s.groupCheck g
/-- The waiting records of every group taken up again but in ordered mode, where they wait for a commit. -/
def State.olRetryAll (s : State) : State :=
  ((s.groups.filter fun p => !p.2.ol.isEmpty && !s.ordered p.1).map (·.1)).foldl (fun s g => s.olRetry g) s

end Sys2Proof.Machine
end

