-- ==== Sys2Proof/Machine/Lanes.lean ====
section
/-! DEFINITION. The lane instructions that touch only their group's registers (R150 to R167): arithmetic, logic,
moves, compares, conversions, ternary packing, mask logic, exchange and reductions. -/

namespace Sys2Proof.Machine

/-! ## Frames -/

/-- The b operand in each lane: a register, or a uniform value read once if a lane is Active. A fault of a
constant window is a fault of every Active lane (R168), and so is what `miss` then leaves. Where every Active lane meets a
hold violation b is looked at alone. The type is the one b is read under (DEDUCED, log entry 67). -/
def withB (s : State) (c : LCtx) (x : LArgs) (t : Ty) (flt : Bool) (k : State → (Nat → Nat) → LEnds)
    (miss : State → State := id) : LEnds :=
  if x.bk == .vreg then k s fun l => s.laneVal c.g t (LArgs.bReg x) l
  else if c.active = 0 then k s fun _ => 0
  else if c.act = 0 then match (s.uniformB c.g c.e x t flt).2 with
    | .val v => k s fun _ => v
    | _ => .ok (miss s) []
  else match s.uniformB c.g c.e x t flt with
    | (s, .val v) => k s fun _ => v
    | (s, .fault n a) => .ok (miss s) ((lanesOf c.act).map fun l => (l, { kind := n, addr := a }))
    | (s, .wait va) => .wait s (.const va)

/-- A function of elements made one of lanes (R151). -/
def elems1 (t : Ty) (f : Nat → Nat) (a : Nat) : Nat := elMap t.width t.elems fun i => f (elGet t.width a i)
def elems2 (t : Ty) (f : Nat → Nat → Nat) (a b : Nat) : Nat :=
  elMap t.width t.elems fun i => f (elGet t.width a i) (elGet t.width b i)
def elems3 (t : Ty) (f : Nat → Nat → Nat → Nat) (a b c : Nat) : Nat :=
  elMap t.width t.elems fun i => f (elGet t.width a i) (elGet t.width b i) (elGet t.width c i)

/-- Values of Active lanes under the instruction's type. -/
def perLane (c : LCtx) (f : Nat → Nat) : List (Nat × Nat) := (lanesOf c.act).map fun l => (l, f l)

/-- A fixed-latency instruction on va and b. -/
def lane2 (i : Instr) (x : LArgs) (flt : Bool) (f : Nat → Nat → Nat) : State → Host.Outcome State Fault Refusal :=
  laneIssue i x false fun s c => withB s c x x.ty flt fun s b =>
    .ok (s.writeLanes c.g (laneWrite x.ty x.vd.toNat (perLane c fun l => f (s.laneVal c.g x.ty x.va.toNat l) (b l)))) []
/-- A fixed-latency instruction on va alone. -/
def lane1 (i : Instr) (x : LArgs) (f : Nat → Nat) : State → Host.Outcome State Fault Refusal :=
  laneIssue i x false fun s c =>
    .ok (s.writeLanes c.g (laneWrite x.ty x.vd.toNat (perLane c fun l => f (s.laneVal c.g x.ty x.va.toNat l)))) []
/-- A fixed-latency instruction on va, b and vc. -/
def lane3 (i : Instr) (x : LArgs) (flt : Bool) (f : Nat → Nat → Nat → Nat) : State → Host.Outcome State Fault Refusal :=
  laneIssue i x false fun s c => withB s c x x.ty flt fun s b =>
    .ok (s.writeLanes c.g (laneWrite x.ty x.vd.toNat (perLane c fun l =>
      f (s.laneVal c.g x.ty x.va.toNat l) (b l) (s.laneVal c.g x.ty x.vc.toNat l)))) []

/-- Results that return later (R147). -/
def State.laneLater (s : State) (c : LCtx) (lanes : Word) (v : List (Nat × List (Nat × Word))) (m : List (Nat × Word)) : State :=
  if lanes = 0 then s else s.addOutst c.g { e := c.e, lanes, v, m }

/-- Bits of Active lanes written to a mask register (R145). -/
def State.laneMask (s : State) (c : LCtx) (d : Nat) (f : Nat → Bool) : State :=
  s.setM c.g d c.act (maskOf ((lanesOf c.act).filter f))

/-! ## Integer arithmetic (R152) -/

def intOp2 (t : Ty) (sat : Bool) (f : Int → Int → Int) : Nat → Nat → Nat := elems2 t fun a b => fitInt t sat (f (elInt t a) (elInt t b))

def execVadd (x : LArgs) (s : State) : Host.Outcome State Fault Refusal := lane2 (.vadd x) x false (intOp2 x.ty x.sat (· + ·)) s
def execVsub (x : LArgs) (s : State) : Host.Outcome State Fault Refusal := lane2 (.vsub x) x false (intOp2 x.ty x.sat (· - ·)) s
def execVmul (x : LArgs) (s : State) : Host.Outcome State Fault Refusal := lane2 (.vmul x) x false (intOp2 x.ty x.sat (· * ·)) s
def execVmulh (x : LArgs) (s : State) : Host.Outcome State Fault Refusal :=
  lane2 (.vmulh x) x false (intOp2 x.ty false fun a b => a * b / 2 ^ x.ty.width) s
def execVmad (x : LArgs) (s : State) : Host.Outcome State Fault Refusal :=
  lane3 (.vmad x) x false (elems3 x.ty fun a b c => fitInt x.ty x.sat (elInt x.ty a * elInt x.ty b + elInt x.ty c)) s
def execVmin (x : LArgs) (s : State) : Host.Outcome State Fault Refusal := lane2 (.vmin x) x false (intOp2 x.ty false min) s
def execVmax (x : LArgs) (s : State) : Host.Outcome State Fault Refusal := lane2 (.vmax x) x false (intOp2 x.ty false max) s
def execVabs (x : LArgs) (s : State) : Host.Outcome State Fault Refusal :=
  lane1 (.vabs x) x (elems1 x.ty fun a => fitInt x.ty x.sat ((elInt x.ty a).natAbs : Nat)) s
def execVneg (x : LArgs) (s : State) : Host.Outcome State Fault Refusal :=
  lane1 (.vneg x) x (elems1 x.ty fun a => fitInt x.ty x.sat (-elInt x.ty a)) s

/-! ## Logic, shifts and bit fields (R153) -/

def execVand (x : LArgs) (s : State) : Host.Outcome State Fault Refusal := lane2 (.vand x) x false (· &&& ·) s
def execVor (x : LArgs) (s : State) : Host.Outcome State Fault Refusal := lane2 (.vor x) x false (· ||| ·) s
def execVxor (x : LArgs) (s : State) : Host.Outcome State Fault Refusal := lane2 (.vxor x) x false (· ^^^ ·) s
/-- The bits of an element that are 0. -/
def notBits (w a : Nat) : Nat := 2 ^ w - 1 - a % 2 ^ w
def execVandn (x : LArgs) (s : State) : Host.Outcome State Fault Refusal :=
  lane2 (.vandn x) x false (elems2 x.ty fun a b => a &&& notBits x.ty.width b) s
def execVnot (x : LArgs) (s : State) : Host.Outcome State Fault Refusal := lane1 (.vnot x) x (elems1 x.ty (notBits x.ty.width)) s
def execVshl (x : LArgs) (s : State) : Host.Outcome State Fault Refusal :=
  lane2 (.vshl x) x false (elems2 x.ty fun a b => a * 2 ^ (b % x.ty.width)) s
def execVshr (x : LArgs) (s : State) : Host.Outcome State Fault Refusal :=
  lane2 (.vshr x) x false (elems2 x.ty fun a b => a / 2 ^ (b % x.ty.width)) s
def execVsar (x : LArgs) (s : State) : Host.Outcome State Fault Refusal :=
  lane2 (.vsar x) x false (elems2 x.ty fun a b => wrapInt x.ty.width (sInt x.ty.width a / 2 ^ (b % x.ty.width))) s
def execVpopc (x : LArgs) (s : State) : Host.Outcome State Fault Refusal := lane1 (.vpopc x) x (elems1 x.ty (popBits x.ty.width)) s
def execVclz (x : LArgs) (s : State) : Host.Outcome State Fault Refusal := lane1 (.vclz x) x (elems1 x.ty (clzBits x.ty.width)) s
/-- The position and the length of a bit field. -/
def LArgs.pos (x : LArgs) : Nat := (x.ext.extractLsb' 0 5).toNat
def LArgs.len (x : LArgs) : Nat := (x.ext.extractLsb' 5 5).toNat + 1
def execVbfx (x : LArgs) (s : State) : Host.Outcome State Fault Refusal :=
  lane1 (.vbfx x) x (fun a =>
    let v := a / 2 ^ LArgs.pos x % 2 ^ LArgs.len x
    if x.ty == .i32 then wrapInt 32 (sInt (LArgs.len x) v) else v) s
/-- vbfi reads its destination. -/
def execVbfi (x : LArgs) (s : State) : Host.Outcome State Fault Refusal :=
  laneIssue (.vbfi x) x false (fun s c =>
    .ok (s.writeLanes c.g (laneWrite x.ty x.vd.toNat (perLane c fun l =>
      let old := (s.getVL c.g x.vd.toNat l).toNat
      let a := (s.getVL c.g x.va.toNat l).toNat
      let m := 2 ^ LArgs.len x
      old - old / 2 ^ LArgs.pos x % m * 2 ^ LArgs.pos x + a % m * 2 ^ LArgs.pos x))) []) s

/-! ## Moves, select and lane index (R154) -/

def execVmov (x : LArgs) (s : State) : Host.Outcome State Fault Refusal := lane2 (.vmov x) x true (fun _ b => b) s
def execVmovi (x : LArgs) (s : State) : Host.Outcome State Fault Refusal :=
  laneIssue (.vmovi x) x false (fun s c =>
    .ok (s.writeLanes c.g [(x.vd.toNat, (lanesOf c.act).map fun l => (l, x.b.extractLsb' 0 16 ++ x.ext))]) []) s
def execVsel (x : LArgs) (s : State) : Host.Outcome State Fault Refusal :=
  laneIssue (.vsel x) x false (fun s c => withB s c x x.ty true fun s b =>
    let m := s.getM c.g c.blk.mask x.vc.toNat
    .ok (s.writeLanes c.g (laneWrite x.ty x.vd.toNat (perLane c fun l =>
      if m.getLsbD l then b l else s.laneVal c.g x.ty x.va.toNat l))) []) s
def execVlane (x : LArgs) (s : State) : Host.Outcome State Fault Refusal :=
  laneIssue (.vlane x) x false (fun s c =>
    .ok (s.writeLanes c.g [(x.vd.toNat, (lanesOf c.act).map fun l => (l, BitVec.ofNat 32 l))]) []) s
/-- lend ends its block (R44); vnop does nothing. -/
def execLend (x : LArgs) (s : State) : Host.Outcome State Fault Refusal := laneIssue (.lend x) x false (fun s _ => .ok s []) s
def execVnop (x : LArgs) (s : State) : Host.Outcome State Fault Refusal := laneIssue (.vnop x) x false (fun s _ => .ok s []) s

/-! ## Compares (R155, R158) -/

/-- A compare into a mask. -/
def laneCmp (i : Instr) (x : LArgs) (flt : Bool) (f : Nat → Nat → Bool) : State → Host.Outcome State Fault Refusal :=
  laneIssue i x false fun s c => withB s c x x.ty flt fun s b =>
    .ok (s.laneMask c x.vd.toNat fun l => f (s.laneVal c.g x.ty x.va.toNat l) (b l)) []
def intCond (cond : Nat) (a b : Int) : Bool :=
  match cond with
  | 0 => a == b | 1 => a != b | 2 => a < b | 3 => a ≤ b | 4 => b < a | _ => b ≤ a
def execVcmp (cond : BitVec 6) (x : LArgs) (s : State) : Host.Outcome State Fault Refusal :=
  laneCmp (.vcmp cond x) x false (fun a b => intCond cond.toNat (elInt x.ty a) (elInt x.ty b)) s
def floatCond (cond : Nat) (a b : Num) : Bool :=
  let un := decide (a = .nan) || decide (b = .nan)
  let lt := ltNum false a b
  let gt := ltNum false b a
  match cond with
  | 0 => !un && !lt && !gt | 1 => un || lt || gt | 2 => lt | 3 => !un && !gt | 4 => gt
  | 5 => !un && !lt | 6 => un | _ => !un
def execVfcmp (cond : BitVec 6) (x : LArgs) (s : State) : Host.Outcome State Fault Refusal :=
  laneCmp (.vfcmp cond x) x true (fun a b => floatCond cond.toNat (readFloat fmtF32 a) (readFloat fmtF32 b)) s

/-! ## Floats (R156, R157) -/

def fl2 (x : LArgs) (f : Num → Num → Num) : Nat → Nat → Nat :=
  let t := Ty.fmt x.ty
  elems2 x.ty fun a b => roundTo t x.rm x.sat (f (readFloat t a) (readFloat t b))

def execVfadd (x : LArgs) (s : State) : Host.Outcome State Fault Refusal := lane2 (.vfadd x) x true (fl2 x (addNum x.rm)) s
def execVfsub (x : LArgs) (s : State) : Host.Outcome State Fault Refusal :=
  lane2 (.vfsub x) x true (fl2 x fun a b => addNum x.rm a b.negate) s
def execVfmul (x : LArgs) (s : State) : Host.Outcome State Fault Refusal := lane2 (.vfmul x) x true (fl2 x mulNum) s
def execVffma (x : LArgs) (s : State) : Host.Outcome State Fault Refusal :=
  let t := Ty.fmt x.ty
  lane3 (.vffma x) x true (elems3 x.ty fun a b c =>
    roundTo t x.rm x.sat (addNum x.rm (mulNum (readFloat t a) (readFloat t b)) (readFloat t c))) s
def execVfmin (x : LArgs) (s : State) : Host.Outcome State Fault Refusal := lane2 (.vfmin x) x true (elems2 x.ty (minF (Ty.fmt x.ty) false)) s
def execVfmax (x : LArgs) (s : State) : Host.Outcome State Fault Refusal := lane2 (.vfmax x) x true (elems2 x.ty (minF (Ty.fmt x.ty) true)) s
/-- The sign bit of an element replaced. -/
def withSign (w a : Nat) (neg : Bool) : Nat := a % 2 ^ (w - 1) + if neg then 2 ^ (w - 1) else 0
def execVfabs (x : LArgs) (s : State) : Host.Outcome State Fault Refusal :=
  lane1 (.vfabs x) x (elems1 x.ty fun a => withSign x.ty.width a false) s
def execVfneg (x : LArgs) (s : State) : Host.Outcome State Fault Refusal :=
  lane1 (.vfneg x) x (elems1 x.ty fun a => withSign x.ty.width a (!a.testBit (x.ty.width - 1))) s
def execVfsign (x : LArgs) (s : State) : Host.Outcome State Fault Refusal :=
  lane2 (.vfsign x) x true (elems2 x.ty fun a b => withSign x.ty.width a (b.testBit (x.ty.width - 1))) s
def execVfclass (x : LArgs) (s : State) : Host.Outcome State Fault Refusal := lane1 (.vfclass x) x (elems1 x.ty (classF (Ty.fmt x.ty))) s

/-- A variable-latency instruction on va. -/
def later1 (i : Instr) (x : LArgs) (f : Nat → Nat) : State → Host.Outcome State Fault Refusal :=
  laneIssue i x false fun s c =>
    .ok (s.laneLater c c.act (laneWrite x.ty x.vd.toNat (perLane c fun l => f (s.laneVal c.g x.ty x.va.toNat l))) []) []
def root1 (x : LArgs) (f : Fmt → Rm → Bool → Num → Nat) : Nat → Nat :=
  elems1 x.ty fun a => f (Ty.fmt x.ty) x.rm x.sat (readFloat (Ty.fmt x.ty) a)
def execVfdiv (x : LArgs) (s : State) : Host.Outcome State Fault Refusal :=
  let t := Ty.fmt x.ty
  laneIssue (.vfdiv x) x false (fun s c => withB s c x x.ty true fun s b =>
    .ok (s.laneLater c c.act (laneWrite x.ty x.vd.toNat (perLane c fun l =>
      elems2 x.ty (fun a b => divF t x.rm x.sat (readFloat t a) (readFloat t b)) (s.laneVal c.g x.ty x.va.toNat l) (b l))) []) []) s
def execVfsqrt (x : LArgs) (s : State) : Host.Outcome State Fault Refusal := later1 (.vfsqrt x) x (root1 x sqrtF) s
def execVfrcp (x : LArgs) (s : State) : Host.Outcome State Fault Refusal :=
  later1 (.vfrcp x) x (root1 x fun t rm sat a => divF t rm sat (.fin false 1 0) a) s
def execVfrsq (x : LArgs) (s : State) : Host.Outcome State Fault Refusal := later1 (.vfrsq x) x (root1 x rsqrtF) s
def execVfexp2 (x : LArgs) (s : State) : Host.Outcome State Fault Refusal := later1 (.vfexp2 x) x (root1 x exp2F) s
def execVflog2 (x : LArgs) (s : State) : Host.Outcome State Fault Refusal := later1 (.vflog2 x) x (root1 x log2F) s

/-! ## Dot products (R159) -/

def dot4 (t : Ty) (sat : Bool) (a b c : Nat) : Nat :=
  let w : Ty := if t == .i8 then .i32 else .n32
  fitInt w sat ((List.range 4).foldl (fun (r : Int) i => r + elInt t (elGet 8 a i) * elInt t (elGet 8 b i)) (elInt w c))
def dot2 (t : Ty) (rm : Rm) (sat : Bool) (a b c : Nat) : Nat :=
  let f := Ty.fmt t
  let p (i : Nat) : Num := mulNum (readFloat f (elGet 16 a i)) (readFloat f (elGet 16 b i))
  roundTo fmtF32 rm sat (addNum rm (addNum rm (p 0) (p 1)) (readFloat fmtF32 c))
def execVdot4 (x : LArgs) (s : State) : Host.Outcome State Fault Refusal := lane3 (.vdot4 x) x false (dot4 x.ty x.sat) s
def execVdot2 (x : LArgs) (s : State) : Host.Outcome State Fault Refusal := lane3 (.vdot2 x) x true (dot2 x.ty x.rm x.sat) s

/-! ## Conversions (R160, R161) -/

/-- The pairs of source and destination element that a conversion converts. -/
def cvPairs (S T : Ty) (p : Nat) : List (Nat × Nat) :=
  if T.elems > S.elems then (List.range S.elems).map fun i => (i, p * S.elems + i)
  else (List.range T.elems).map fun i => (p * T.elems + i, i)
/-- A lane converted: the old destination value keeps the elements that are not written. -/
def cvLane (S T : Ty) (p : Nat) (f : Num → Nat) (a old : Nat) : Nat :=
  (cvPairs S T p).foldl (fun d q => elPut T.width d q.2 (f (readEl S (elGet S.width a q.1)))) old

def execVcvt (x : LArgs) (s : State) : Host.Outcome State Fault Refusal :=
  laneIssue (.vcvt x) x false (fun s c =>
    .ok (s.writeLanes c.g (laneWrite x.ty x.vd.toNat (perLane c fun l =>
      cvLane x.cvSrc x.ty x.cvPart (convEl x.ty x.rm x.sat) (s.laneVal c.g x.cvSrc x.va.toNat l)
        (s.laneVal c.g x.ty x.vd.toNat l)))) []) s
/-- vcvt.o: outliers become zero and are appended in lane and element order, behind records that wait (R65 to R67); a
continuation's wait for its commit (DESIGN CHOICE, log entry 72). -/
def execVcvtO (x : LArgs) (s : State) : Host.Outcome State Fault Refusal :=
  laneIssue (.vcvtO x) x false (fun s c => withB s c x .n32 false fun s b =>
    let S := x.cvSrc
    let T := x.ty
    let ws := laneWrite T x.vd.toNat (perLane c fun l =>
      cvLane S T x.cvPart (fun v => if isOutlier T x.rm v then 0 else convEl T x.rm false v) (s.laneVal c.g S x.va.toNat l)
        (s.laneVal c.g T x.vd.toNat l))
    let word := laneWord (.vcvtO x)
    let recs := (lanesOf c.act).flatMap fun l => (cvPairs S T x.cvPart).filterMap fun q =>
      let v := readEl S (elGet S.width (s.laneVal c.g S x.va.toNat l) q.1)
      if isOutlier T x.rm v then
        some ({ index := BitVec.ofNat 32 (b l + l * T.elems + q.2), value := outlierValue v, lane := l, e := c.e
                blk := c.blk, word, active := c.active } : OlRec)
      else none
    let s := s.writeLanes c.g ws
    if recs.isEmpty then .ok s []
    else
      if (s.group c.g).fork.isSome then
        .ok (s.updGroup c.g fun y => { y with fork := y.fork.map fun f => { f with ol := insOl recs f.ol } }) []
      else
        let free := (s.group c.g).ol.isEmpty
        let s := s.updGroup c.g fun y => { y with ol := if s.ordered c.g then y.ol ++ recs else insOl recs y.ol }
        if free then
          let (s, fs) := s.olDrain c.g
          .ok s (fs.map fun p => (p.1.lane, p.2))
        else .ok s []) s

/-! ## Ternary packing (R162) -/

/-- The trits that a range of i8 registers holds in a lane. -/
def State.signs (s : State) (g : GKey) (n cnt l : Nat) : List Int :=
  (List.range (4 * cnt)).map fun j => (elInt .i8 (elGet 8 (s.getVL g (n + j / 4) l).toNat (j % 4))).sign
def packTrits (t5b : Bool) (ts : List Int) : Nat :=
  if t5b then elMap 8 4 fun k => t5bEncode ((ts.drop (5 * k)).take 5)
  else elMap 2 16 fun j => tritCode (ts.getD j 0)
def unpackTrits (t5b : Bool) (v : Nat) : List Int :=
  if t5b then (List.range 4).flatMap fun k => (t5bDecode (elGet 8 v k)).1
  else (List.range 16).map fun j => tritOf (elGet 2 v j)
def execVternPack (x : LArgs) (s : State) : Host.Outcome State Fault Refusal :=
  laneIssue (.vternPack x) x false (fun s c =>
    .ok (s.writeLanes c.g [(x.vd.toNat, (lanesOf c.act).map fun l =>
      (l, BitVec.ofNat 32 (packTrits (x.ext.getLsbD 0) (s.signs c.g x.va.toNat (LArgs.ternN x) l))))]) []) s
def execVternUnpack (x : LArgs) (s : State) : Host.Outcome State Fault Refusal :=
  laneIssue (.vternUnpack x) x false (fun s c =>
    let t5b := x.ext.getLsbD 0
    let ls := (lanesOf c.act).map fun l => (l, (s.getVL c.g x.va.toNat l).toNat)
    let out := ls.map fun p => (p.1, unpackTrits t5b p.2)
    let s := s.writeLanes c.g ((List.range (LArgs.ternN x)).map fun r =>
      (x.vd.toNat + r, out.map fun p => (p.1, BitVec.ofNat 32 (elMap 8 4 fun i => wrapInt 8 (p.2.getD (4 * r + i) 0)))))
    .ok (s.formatErr c.g (!t5b && ls.any fun p => hasTen p.2) (t5b && ls.any fun p => hasBadT5b p.2)) []) s

/-! ## Mask logic (R163) -/

/-- Mask logic on the bits of two masks. -/
def maskOp (i : Instr) (x : LArgs) (f : Bool → Bool → Bool) : State → Host.Outcome State Fault Refusal :=
  laneIssue i x false fun s c =>
    let a := s.getM c.g c.blk.mask x.va.toNat
    let b := s.getM c.g c.blk.mask (x.b.extractLsb' 0 4).toNat
    .ok (s.laneMask c x.vd.toNat fun l => f (a.getLsbD l) (b.getLsbD l)) []
def execMand (x : LArgs) (s : State) : Host.Outcome State Fault Refusal := maskOp (.mand x) x (fun a b => a && b) s
def execMor (x : LArgs) (s : State) : Host.Outcome State Fault Refusal := maskOp (.mor x) x (fun a b => a || b) s
def execMxor (x : LArgs) (s : State) : Host.Outcome State Fault Refusal := maskOp (.mxor x) x (fun a b => a != b) s
def execMandn (x : LArgs) (s : State) : Host.Outcome State Fault Refusal := maskOp (.mandn x) x (fun a b => a && !b) s
def execMnot (x : LArgs) (s : State) : Host.Outcome State Fault Refusal := maskOp (.mnot x) x (fun a _ => !a) s
def execMmov (x : LArgs) (s : State) : Host.Outcome State Fault Refusal := maskOp (.mmov x) x (fun a _ => a) s
def execMsetMask (x : LArgs) (s : State) : Host.Outcome State Fault Refusal := maskOp (.msetMask x) x (fun _ _ => true) s
def execMfirst (x : LArgs) (s : State) : Host.Outcome State Fault Refusal :=
  laneIssue (.mfirst x) x false (fun s c =>
    let first := lowLane (s.getM c.g c.blk.mask x.va.toNat &&& c.src)
    .ok (s.laneMask c x.vd.toNat fun l => l == first) []) s

/-! ## Exchange (R164 to R166) -/

/-- A value taken from a source lane by each Active lane, vc's where the source is not Active. -/
def exchange (i : Instr) (x : LArgs) (f : Nat → Nat → Nat) : State → Host.Outcome State Fault Refusal :=
  laneIssue i x false fun s c => withB s c x x.ty false fun s b =>
    .ok (s.laneLater c c.act (laneWrite x.ty x.vd.toNat (perLane c fun l =>
      let k := f l (b l % 2 ^ 32)
      if k < 32 && c.src.getLsbD k then s.laneVal c.g x.ty x.va.toNat k else s.laneVal c.g x.ty x.vc.toNat l)) []) []
def execVshfl (x : LArgs) (s : State) : Host.Outcome State Fault Refusal := exchange (.vshfl x) x (fun _ b => b) s
def execVbcast (x : LArgs) (s : State) : Host.Outcome State Fault Refusal := exchange (.vbcast x) x (fun _ b => b) s
def execVrot (x : LArgs) (s : State) : Host.Outcome State Fault Refusal := exchange (.vrot x) x (fun l b => (l + b) % 32) s

/-- vvote (R166): the lanes that are not Active receive 0 (DEDUCED, log entry 14). -/
def execVvote (op : BitVec 6) (x : LArgs) (s : State) : Host.Outcome State Fault Refusal :=
  laneIssue (.vvote op x) x false (fun s c =>
    let vals := (lanesOf c.src).map fun l => s.getVL c.g x.va.toNat l
    let whole : Bool := match op.toNat with
      | 1 => vals.any (· != 0)
      | 2 => vals.all (· != 0)
      | _ => vals.all fun v => some v == vals.head?
    let bits := maskOf ((lanesOf c.act).filter fun l => if op = 0 then s.getVL c.g x.va.toNat l != 0 else whole)
    let d := x.vd.toNat
    .ok ((s.setM c.g d (~~~c.active) 0).laneLater c c.act [] (if d = 0 then [] else [(d, bits)])) []) s

/-! ## Reductions and scans (R167, R68, R69) -/

/-- The combination of a reduction on elements, and its identity in an exclusive scan. -/
def redOp (op : Nat) (x : LArgs) : Nat → Nat → Nat :=
  let t := x.ty
  let f := Ty.fmt t
  match op with
  | 0 => fun a b => fitInt t x.sat (elInt t a + elInt t b)
  | 1 => fun a b => if elInt t b < elInt t a then b else a
  | 2 => fun a b => if elInt t a < elInt t b then b else a
  | 3 => fun a b => a &&& b
  | 4 => fun a b => a ||| b
  | 5 => fun a b => a ^^^ b
  | 6 => fun a b => roundTo f x.rm x.sat (addNum x.rm (readFloat f a) (readFloat f b))
  | 7 => minF f false
  | _ => minF f true
def redIdentity (op : Nat) (t : Ty) : Nat :=
  let f := Ty.fmt t
  match op with
  | 1 => wrapInt t.width (maxInt t)
  | 2 => wrapInt t.width (minInt t)
  | 3 => 2 ^ t.width - 1
  | 6 => signBits f true 0
  | 7 => f.infBits
  | 8 => signBits f true f.infBits
  | _ => 0
/-- The tree over lanes of a mask, per element; none when no lane is in it. -/
def State.treeLanes (s : State) (g : GKey) (op : Nat) (x : LArgs) (m : Word) : Option Nat :=
  if m = 0 then none
  else some (elMap x.ty.width x.ty.elems fun i =>
    (tree (redOp op x) ((List.range 32).map fun l =>
      if m.getLsbD l then some (elGet x.ty.width (s.laneVal g x.ty x.va.toNat l) i) else none)).getD 0)
def execVred (op : BitVec 6) (x : LArgs) (s : State) : Host.Outcome State Fault Refusal :=
  laneIssue (.vred op x) x false (fun s c =>
    let v := (s.treeLanes c.g op.toNat x c.src).getD 0
    .ok (s.laneLater c c.act (laneWrite x.ty x.vd.toNat (perLane c fun _ => v)) []) []) s
def execVscan (op : BitVec 6) (x : LArgs) (s : State) : Host.Outcome State Fault Refusal :=
  laneIssue (.vscan op x) x false (fun s c =>
    let t := x.ty
    let ident := elMap t.width t.elems fun _ => redIdentity op.toNat t
    .ok (s.laneLater c c.act (laneWrite t x.vd.toNat (perLane c fun l =>
      let below := BitVec.ofNat 32 (2 ^ (if x.ext.getLsbD 0 then l else l + 1) - 1)
      (s.treeLanes c.g op.toNat x (c.src &&& below)).getD ident)) []) []) s

end Sys2Proof.Machine
end

