-- ==== Sys2Proof/Machine/Scalar.lean ====
section
/-! DEFINITION. The scalar ALU, constants, bit fields, branches and jumps; translation registers and constant
windows; special registers; reads of lane state; lrun and lsync (R97 to R113). -/

namespace Sys2Proof.Machine

/-! ## The ALU -/

/-- An instruction that computes one register from two (R109). -/
def alu2 (f : DWord → DWord → DWord) (d a b : BitVec 7) : State → Host.Outcome State Fault Refusal :=
  scalarOp true {} fun s g e => .next (s.setS g e d.toNat (f (s.getS g e a.toNat) (s.getS g e b.toNat)))
/-- An instruction that computes one register from one (R109 to R111). -/
def alu1 (f : DWord → DWord) (d a : BitVec 7) : State → Host.Outcome State Fault Refusal :=
  scalarOp true {} fun s g e => .next (s.setS g e d.toNat (f (s.getS g e a.toNat)))
/-- An instruction that replaces bits of its destination (R33, R111). -/
def aluD (f : DWord → DWord) (d : BitVec 7) : State → Host.Outcome State Fault Refusal :=
  scalarOp true {} fun s g e => .next (s.setS g e d.toNat (f (s.getS g e d.toNat)))

def boolWord (b : Bool) : DWord := if b then 1 else 0
/-- The high doubleword of the signed, of the unsigned product. -/
def mulHigh (a b : DWord) : DWord := BitVec.ofInt 64 ((a.toInt * b.toInt) / 2 ^ 64)
def mulHighN (a b : DWord) : DWord := BitVec.ofNat 64 (a.toNat * b.toNat / 2 ^ 64)
/-- Division: by zero the quotient is all ones and the remainder the dividend (R109). -/
def divS (a b : DWord) : DWord := if b = 0 then BitVec.allOnes 64 else BitVec.ofInt 64 (quotInt a.toInt b.toInt)
def divN (a b : DWord) : DWord := if b = 0 then BitVec.allOnes 64 else a / b
def remS (a b : DWord) : DWord := if b = 0 then a else BitVec.ofInt 64 (remInt a.toInt b.toInt)
def remN (a b : DWord) : DWord := if b = 0 then a else a % b
/-- Shifts by the low 6 bits of a register (R109). -/
def shLeft (a b : DWord) : DWord := a <<< (b.toNat % 64)
def shRight (a b : DWord) : DWord := a >>> (b.toNat % 64)
def shRightS (a b : DWord) : DWord := a.sshiftRight (b.toNat % 64)
def andN (a b : DWord) : DWord := a &&& ~~~b
def minS (a b : DWord) : DWord := if a.slt b then a else b
def maxS (a b : DWord) : DWord := if a.slt b then b else a
def minN (a b : DWord) : DWord := if a.ult b then a else b
def maxN (a b : DWord) : DWord := if a.ult b then b else a
def popCount (a : DWord) : DWord := BitVec.ofNat 64 (popBits 64 a.toNat)
def leadZeros (a : DWord) : DWord := BitVec.ofNat 64 (clzBits 64 a.toNat)
def trailZeros (a : DWord) : DWord := BitVec.ofNat 64 (ctzBits 64 a.toNat)

def execAdd (d a b : BitVec 7) (s : State) : Host.Outcome State Fault Refusal := alu2 (fun x y => x + y) d a b s
def execSub (d a b : BitVec 7) (s : State) : Host.Outcome State Fault Refusal := alu2 (fun x y => x - y) d a b s
def execAnd (d a b : BitVec 7) (s : State) : Host.Outcome State Fault Refusal := alu2 (fun x y => x &&& y) d a b s
def execOr (d a b : BitVec 7) (s : State) : Host.Outcome State Fault Refusal := alu2 (fun x y => x ||| y) d a b s
def execXor (d a b : BitVec 7) (s : State) : Host.Outcome State Fault Refusal := alu2 (fun x y => x ^^^ y) d a b s
def execAndn (d a b : BitVec 7) (s : State) : Host.Outcome State Fault Refusal := alu2 (andN) d a b s
def execShl (d a b : BitVec 7) (s : State) : Host.Outcome State Fault Refusal := alu2 (shLeft) d a b s
def execShr (d a b : BitVec 7) (s : State) : Host.Outcome State Fault Refusal := alu2 (shRight) d a b s
def execSar (d a b : BitVec 7) (s : State) : Host.Outcome State Fault Refusal := alu2 (shRightS) d a b s
def execMul (d a b : BitVec 7) (s : State) : Host.Outcome State Fault Refusal := alu2 (fun x y => x * y) d a b s
def execMulh (d a b : BitVec 7) (s : State) : Host.Outcome State Fault Refusal := alu2 (mulHigh) d a b s
def execMulhn (d a b : BitVec 7) (s : State) : Host.Outcome State Fault Refusal := alu2 (mulHighN) d a b s
def execDiv (d a b : BitVec 7) (s : State) : Host.Outcome State Fault Refusal := alu2 (divS) d a b s
def execDivn (d a b : BitVec 7) (s : State) : Host.Outcome State Fault Refusal := alu2 (divN) d a b s
def execRem (d a b : BitVec 7) (s : State) : Host.Outcome State Fault Refusal := alu2 (remS) d a b s
def execRemn (d a b : BitVec 7) (s : State) : Host.Outcome State Fault Refusal := alu2 (remN) d a b s
def execMin (d a b : BitVec 7) (s : State) : Host.Outcome State Fault Refusal := alu2 (minS) d a b s
def execMax (d a b : BitVec 7) (s : State) : Host.Outcome State Fault Refusal := alu2 (maxS) d a b s
def execMinn (d a b : BitVec 7) (s : State) : Host.Outcome State Fault Refusal := alu2 (minN) d a b s
def execMaxn (d a b : BitVec 7) (s : State) : Host.Outcome State Fault Refusal := alu2 (maxN) d a b s
def execSlt (d a b : BitVec 7) (s : State) : Host.Outcome State Fault Refusal := alu2 (fun x y => boolWord (x.slt y)) d a b s
def execSltn (d a b : BitVec 7) (s : State) : Host.Outcome State Fault Refusal := alu2 (fun x y => boolWord (x.ult y)) d a b s
def execSeq (d a b : BitVec 7) (s : State) : Host.Outcome State Fault Refusal := alu2 (fun x y => boolWord (x == y)) d a b s
def execPopc (d a : BitVec 7) (s : State) : Host.Outcome State Fault Refusal := alu1 popCount d a s
def execClz (d a : BitVec 7) (s : State) : Host.Outcome State Fault Refusal := alu1 leadZeros d a s
def execCtz (d a : BitVec 7) (s : State) : Host.Outcome State Fault Refusal := alu1 trailZeros d a s

/-! ## Immediates, constants, bit fields (R110, R33, R111) -/

def imm12 (i : BitVec 12) : DWord := i.signExtend 64

def execAddi (d a : BitVec 7) (i : BitVec 12) (s : State) : Host.Outcome State Fault Refusal := alu1 (fun x => x + imm12 i) d a s
def execAndi (d a : BitVec 7) (i : BitVec 12) (s : State) : Host.Outcome State Fault Refusal := alu1 (fun x => x &&& imm12 i) d a s
def execOri (d a : BitVec 7) (i : BitVec 12) (s : State) : Host.Outcome State Fault Refusal := alu1 (fun x => x ||| imm12 i) d a s
def execXori (d a : BitVec 7) (i : BitVec 12) (s : State) : Host.Outcome State Fault Refusal := alu1 (fun x => x ^^^ imm12 i) d a s
def execSlti (d a : BitVec 7) (i : BitVec 12) (s : State) : Host.Outcome State Fault Refusal := alu1 (fun x => boolWord (x.slt (imm12 i))) d a s
def execSltni (d a : BitVec 7) (i : BitVec 12) (s : State) : Host.Outcome State Fault Refusal := alu1 (fun x => boolWord (x.ult (imm12 i))) d a s
def execShli (d a : BitVec 7) (n : BitVec 6) (s : State) : Host.Outcome State Fault Refusal := alu1 (fun x => x <<< n.toNat) d a s
def execShri (d a : BitVec 7) (n : BitVec 6) (s : State) : Host.Outcome State Fault Refusal := alu1 (fun x => x >>> n.toNat) d a s
def execSari (d a : BitVec 7) (n : BitVec 6) (s : State) : Host.Outcome State Fault Refusal := alu1 (fun x => x.sshiftRight n.toNat) d a s
/-- Bits [lo + len − 1 : lo] of a doubleword replaced. -/
def putBits (x : DWord) (lo len : Nat) (v : DWord) : DWord :=
  let m : DWord := BitVec.ofNat 64 (2 ^ len - 1)
  (x &&& ~~~(m <<< lo)) ||| ((v &&& m) <<< lo)
def getBits (x : DWord) (lo len : Nat) : DWord := (x >>> lo) &&& BitVec.ofNat 64 (2 ^ len - 1)
def execLdi (d : BitVec 7) (i : BitVec 19) (s : State) : Host.Outcome State Fault Refusal := aluD (fun _ => i.signExtend 64) d s
def execLdh1 (d : BitVec 7) (i : BitVec 19) (s : State) : Host.Outcome State Fault Refusal := aluD (fun x => putBits x 19 19 (i.setWidth 64)) d s
def execLdh2 (d : BitVec 7) (i : BitVec 19) (s : State) : Host.Outcome State Fault Refusal := aluD (fun x => putBits x 38 19 (i.setWidth 64)) d s
def execLdh3 (d : BitVec 7) (i : BitVec 7) (s : State) : Host.Outcome State Fault Refusal := aluD (fun x => putBits x 57 7 (i.setWidth 64)) d s
def execBfx (d a : BitVec 7) (p l : BitVec 6) : State → Host.Outcome State Fault Refusal :=
  scalarOp (WellFormed (.bfx d a p l)) {} fun s g e =>
    .next (s.setS g e d.toNat (getBits (s.getS g e a.toNat) p.toNat (l.toNat + 1)))
def execBfi (d a : BitVec 7) (p l : BitVec 6) : State → Host.Outcome State Fault Refusal :=
  scalarOp (WellFormed (.bfi d a p l)) {} fun s g e =>
    .next (s.setS g e d.toNat (putBits (s.getS g e d.toNat) p.toNat (l.toNat + 1) (s.getS g e a.toNat)))
def execCmov (d a b : BitVec 7) : State → Host.Outcome State Fault Refusal :=
  scalarOp true {} fun s g e =>
    .next (if s.getS g e b.toNat != 0 then s.setS g e d.toNat (s.getS g e a.toNat) else s)

/-! ## Illegal words (R34) -/

def execIllegal (_x : BitVec 26) (s : State) : Host.Outcome State Fault Refusal :=
  scalarOp false {} (fun s _ _ => .next s) s
def execIllegal3f (_x : BitVec 26) (s : State) : Host.Outcome State Fault Refusal :=
  scalarOp false {} (fun s _ _ => .next s) s

/-! ## Branches and jumps (R113, R32) -/

/-- A branch on two registers. -/
def branch (f : DWord → DWord → Bool) (a b : BitVec 7) (o : BitVec 12) : State → Host.Outcome State Fault Refusal :=
  scalarOp true {} fun s g e =>
    if f (s.getS g e a.toNat) (s.getS g e b.toNat) then .goto s ((s.split g e).pc + 4 * o.signExtend 64) else .next s
def execBeq (a b : BitVec 7) (o : BitVec 12) (s : State) : Host.Outcome State Fault Refusal := branch (fun x y => x == y) a b o s
def execBne (a b : BitVec 7) (o : BitVec 12) (s : State) : Host.Outcome State Fault Refusal := branch (fun x y => x != y) a b o s
def execBlt (a b : BitVec 7) (o : BitVec 12) (s : State) : Host.Outcome State Fault Refusal := branch (fun x y => x.slt y) a b o s
def execBge (a b : BitVec 7) (o : BitVec 12) (s : State) : Host.Outcome State Fault Refusal := branch (fun x y => !x.slt y) a b o s
def execBltn (a b : BitVec 7) (o : BitVec 12) (s : State) : Host.Outcome State Fault Refusal := branch (fun x y => x.ult y) a b o s
def execBgen (a b : BitVec 7) (o : BitVec 12) (s : State) : Host.Outcome State Fault Refusal := branch (fun x y => !x.ult y) a b o s
def execJmp (o : BitVec 26) : State → Host.Outcome State Fault Refusal :=
  scalarOp true {} fun s g e => .goto s ((s.split g e).pc + 4 * o.signExtend 64)
/-- The call level of a split raised (R117). -/
def State.deeper (s : State) (g : GKey) (e : Nat) : State := s.updSplit g e fun p => { p with level := p.level + 1 }
def execJal (o : BitVec 26) : State → Host.Outcome State Fault Refusal :=
  scalarOp true {} fun s g e =>
    let pc := (s.split g e).pc
    .goto ((s.setS g e 1 (pc + 4)).deeper g e) (pc + 4 * o.signExtend 64)
def execJalr (d a : BitVec 7) (i : BitVec 12) : State → Host.Outcome State Fault Refusal :=
  scalarOp (WellFormed (.jalr d a i)) {} fun s g e =>
    let pc := (s.split g e).pc
    let t := s.getS g e a.toNat + imm12 i
    if t.toNat % 4 != 0 then .fault s { kind := 4, addr := t.toNat }
    else .goto (if d = 0 then s else (s.setS g e d.toNat (pc + 4)).deeper g e) t

/-! ## Translation registers (R100, R101) -/

/-- The translation register that bind makes. -/
def State.bound (s : State) (g : GKey) (va : DWord) : BReg :=
  match findPage (s.pagesFor g) va.toNat with
  | some p =>
    if p.res && p.peer.isNone then
      { base := va.setWidth 56, frame := BitVec.ofNat 40 p.frame, psize := BitVec.ofNat 2 p.psize
        valid := true, w := p.w, r := p.r, limit := BitVec.ofNat 22 (p.va + Page.size p - va.toNat)
        seen := BitVec.ofNat 22 (p.va + Page.size p - va.toNat) }
    else { base := va.setWidth 56, valid := true }
  | none => { base := va.setWidth 56, valid := true }
/-- A mapping whose walk has set its accessed bit (R192). -/
def accessed (va : Nat) (p : Page) : Page := if Page.holds p va then { p with acc := true } else p
def execBind (n : BitVec 4) (a : BitVec 7) : State → Host.Outcome State Fault Refusal :=
  scalarOp true { stalls := true } fun s g e =>
    let va := s.getS g e a.toNat
    if va.toNat ≥ 2 ^ 56 then .fault s { kind := 5, addr := va.toNat }
    else
      let b := s.bound g va
      let s := s.updCtx g.b.r.c fun x => { x with pages := x.pages.map (accessed va.toNat) }
      .next (s.updGroup g fun x => { x with bregs := x.bregs.put n.toNat b })
def execUnbind (n : BitVec 4) : State → Host.Outcome State Fault Refusal :=
  scalarOp true { stalls := true } fun s g _ => .next (s.updGroup g fun x => { x with bregs := x.bregs.put n.toNat {} })
def execBstat (d : BitVec 7) (n : BitVec 4) : State → Host.Outcome State Fault Refusal :=
  scalarOp true {} fun s g e =>
    let b := (s.group g).bregs.get {} n.toNat
    let limit := if s.ordered g then b.seen else b.limit
    .next (s.setS g e d.toNat (0#29 ++ BitVec.ofBool b.valid ++ BitVec.ofBool b.w ++ BitVec.ofBool b.r ++ 0#10 ++ limit))

/-! ## Reads of lane state, and constant windows -/

/-- A scalar instruction that waits for lane-produced state (R107). -/
def State.awaitLanes (s : State) (g : GKey) (e : Nat) (w : LaneState) (k : Ends) : Ends :=
  if s.laneBusy g e w (s.laneMark g e) then .park s (.lanes w (s.laneMark g e)) else k

def execCwset (n : BitVec 3) (a b : BitVec 7) : State → Host.Outcome State Fault Refusal :=
  scalarOp true { stalls := true } fun s g e =>
    let va := s.getS g e a.toNat
    if va.toNat ≥ 2 ^ 56 then .fault s { kind := 5, addr := va.toNat }
    else if va.toNat % 4 != 0 then .fault s { kind := 4, addr := va.toNat }
    else s.awaitLanes g e .any
      (.next (s.updGroup g fun x => { x with wins := x.wins.put n.toNat { base := va, len := s.getS g e b.toNat } }))
/-- cwinv (R102): a line that lies only partly in the range is dropped too (DESIGN CHOICE, log entry 77); no line lies in an empty
window. -/
def execCwinv (n : BitVec 3) : State → Host.Outcome State Fault Refusal :=
  scalarOp true { stalls := true } fun s g e =>
    let w := (s.group g).wins.get {} n.toNat
    s.awaitLanes g e .any
      (.next (s.updCore (s.coreOf g) fun x =>
        { x with consts := x.consts.filter fun l =>
            !(decide (l.c = g.b.r.c) && w.len != 0 && l.line * 128 < w.base.toNat + w.len.toNat && w.base.toNat < l.line * 128 + 128) }))

/-- A mask register ANDed with the split's lanes (R108). -/
def maskRead (n : BitVec 4) (d : BitVec 7) (f : Word → Word → DWord) : State → Host.Outcome State Fault Refusal :=
  scalarOp true { vec := true } fun s g e =>
    let act := (s.split g e).mask
    let k := Ends.next (s.setS g e d.toNat (f act (s.getM g act n.toNat &&& act)))
    if n = 0 then k else s.awaitLanes g e (.mask n.toNat) k
def execMtestAny (d : BitVec 7) (n : BitVec 4) (s : State) : Host.Outcome State Fault Refusal := maskRead n d (fun _ x => boolWord (x != 0)) s
def execMtestAll (d : BitVec 7) (n : BitVec 4) (s : State) : Host.Outcome State Fault Refusal := maskRead n d (fun act x => boolWord (x == act)) s
def execMtestNone (d : BitVec 7) (n : BitVec 4) (s : State) : Host.Outcome State Fault Refusal := maskRead n d (fun _ x => boolWord (x == 0)) s
def execMcnt (d : BitVec 7) (n : BitVec 4) (s : State) : Host.Outcome State Fault Refusal :=
  maskRead n d (fun _ x => BitVec.ofNat 64 (popBits 32 x.toNat)) s
def execSget (d : BitVec 7) (v : BitVec 9) (l : BitVec 5) : State → Host.Outcome State Fault Refusal :=
  scalarOp true { vec := true, vregs := [v.toNat] } fun s g e =>
    s.awaitLanes g e (.vreg v.toNat) (.next (s.setS g e d.toNat ((s.getVL g v.toNat l.toNat).setWidth 64)))

/-! ## The lane queue (R104, R105) -/

def execLrun (i : BitVec 19) : State → Host.Outcome State Fault Refusal :=
  scalarOp true { vec := true } fun s g e =>
    let p := s.split g e
    if p.queue.length ≥ 4 then .park s .queue
    else
      let a := BitVec.ofNat 64 ((s.rcb g).lanebase + 4 * i.toNat)
      let blk : QBlk :=
        { addr := a, pc := a, mask := p.mask, snapS := p.s.filter (fun r => 16 ≤ r.1 && r.1 < 32)
          snapB := (s.group g).bregs, lrunPc := p.pc, id := s.nextId }
      .next ({ s with nextId := s.nextId + 1 }.updSplit g e fun p => { p with queue := p.queue ++ [blk] })

/-- Whether a split's lane stream has finished: its queue, its results and its outlier records (R105). -/
def State.lanesDone (s : State) (g : GKey) (e : Nat) : Bool := s.entryDone g e
def execLsync (s : State) : Host.Outcome State Fault Refusal :=
  scalarOp true { vec := true } (fun s g e => if s.lanesDone g e then .next s else .park s .lsync) s

/-! ## Special registers (R98, R99) -/

/-- sr.cycle and selector 0 of cnt.rd; in ordered mode the retired count (R313, R345). -/
def State.cycles (s : State) (g : GKey) : Nat :=
  if s.ordered g then (s.group g).retired else (s.group g).cycles + (s.clusterCycle (s.clusterOf g) - (s.group g).since)
/-- sr.quantum. -/
def State.quantum (s : State) (g : GKey) : Nat := if s.ordered g then (s.region g.b.r).quantum else 0
/-- The history bank of the issuing region on the issuing core. -/
def State.bankOf (s : State) (g : GKey) : Option HBank :=
  (s.histIdx g.b.r (s.coreOf g)).map fun h => s.hbank (s.coreOf g) h
/-- The group that stands for a shadow in what only a group has. -/
def State.home (s : State) (g : GKey) : Group := s.group (baseKey g)

/-- What sr.audit says of a sequencer (R259). -/
def Seq.auditCode (q : Seq) : Nat := (if q.auditOn then 32 else 0) + q.auditN
/-- The value of a special register (R98). -/
def State.special (s : State) (g : GKey) (e : Nat) (n : Nat) : DWord :=
  let x := s.group g
  let c := s.rcb g
  let o := s.ordered g
  match n with
  | 0x00 => BitVec.ofNat 64 g.gid
  | 0x01 => BitVec.ofNat 64 g.b.n
  | 0x02 => BitVec.ofNat 64 (c.gridx * c.gridy * c.gridz)
  | 0x03 => BitVec.ofNat 64 g.b.r.id
  | 0x04 => if x.vec then 1 else 0
  | 0x05 => if c.persistent then BitVec.ofNat 64 (s.block g.b).lcore else 0
  | 0x06 => if c.persistent then BitVec.ofNat 64 c.lcores else 1
  | 0x07 => BitVec.ofNat 64 (if c.persistent then x.pidx else g.gid)
  | 0x08 => BitVec.ofNat 64 e
  | 0x09 => BitVec.ofNat 64 (s.shadows (baseKey g)).length
  | 0x0A => c.arg
  | 0x0B => BitVec.ofNat 64 (if o then x.die0 else x.die)
  | 0x0C => BitVec.ofNat 64 (if o then x.core0 else x.core)
  | 0x0D => BitVec.ofNat 64 (if o then x.slot0 else x.slot)
  | 0x0E => BitVec.ofNat 64 g.b.r.c.id
  | 0x0F => BitVec.ofNat 64 g.b.r.c.vf
  | 0x10 => BitVec.ofNat 64 (s.cycles g)
  | 0x11 => BitVec.ofNat 64 (s.retiredOf g 4)
  | 0x12 => BitVec.ofNat 64 (s.quantum g)
  | 0x13 => x.joinwin.setWidth 64
  | 0x14 => x.trapkind.setWidth 64
  | 0x18 => BitVec.ofNat 64 ((s.bankOf g).elim 4 (·.pfdist))
  | 0x19 => BitVec.ofNat 64 ((s.bankOf g).elim 300 (·.lmpthr))
  | 0x1A => BitVec.ofNat 64 (match (s.block g.b).seq with
    | some q => if o then q.quant.audit else q.auditCode
    | none => 0)
  | 0x20 => (((s.lineage g 0 4).foldl (fun v k => v ||| (s.group k.1).vstat) 0#2)).setWidth 64
  | 0x21 => x.olbase.setWidth 64 <<< 3
  | 0x22 => x.ollen.setWidth 64
  | 0x23 => (s.olcntOf g 4).setWidth 64
  | 0x28 => x.tw.setWidth 64
  | 0x29 => (s.group (baseKey g)).tstat.setWidth 64
  | _ => 0

/-- The lane state that srd and swr of a register wait for (R107). -/
def specialWait (n : Nat) : Option LaneState :=
  if n = 0x20 || n = 0x23 then some .any else if n = 0x29 then some .campanile else none

/-- swr: the writable bits are stored; W1C registers clear the bits that are 1 (R99). -/
def State.setSpecial (s : State) (g : GKey) (n : Nat) (v : DWord) : State :=
  match n with
  | 0x13 => s.updGroup g fun x => { x with joinwin := v.setWidth 16 }
  | 0x18 => s.histNow g (.pfdist v)
  | 0x19 => s.histNow g (.lmpthr v)
  | 0x20 => s.updGroup g fun x => { x with vstat := x.vstat &&& ~~~(v.setWidth 2) }
  | 0x21 => s.updGroup g fun x => { x with olbase := v.extractLsb' 3 53 }
  | 0x22 => s.updGroup g fun x => { x with ollen := v.setWidth 32 }
  | 0x23 => s.updGroup g fun x => { x with olcnt := v.setWidth 32 }
  | 0x29 => s.updGroup g fun x => { x with tstat := x.tstat &&& ~~~(v.setWidth 3 &&& 3) }
  | _ => s

def execSrd (d : BitVec 7) (r : BitVec 14) : State → Host.Outcome State Fault Refusal :=
  scalarOp (WellFormed (.srd d r)) { priv := r.toNat == 0x0F } fun s g e =>
    let k := Ends.next (s.setS g e d.toNat (s.special g e r.toNat))
    match specialWait r.toNat with
    | some w => s.awaitLanes g e w k
    | none => k
def execSwr (a : BitVec 7) (r : BitVec 14) : State → Host.Outcome State Fault Refusal :=
  scalarOp (WellFormed (.swr a r)) { stalls := true } fun s g e =>
    let k := Ends.next (s.setSpecial g r.toNat (s.getS g e a.toNat))
    match specialWait r.toNat with
    | some w => s.awaitLanes g e w k
    | none => k

end Sys2Proof.Machine
end

