-- ==== Sys2Proof/Machine/Copies.lean ====
section
/-! DEFINITION. Banks and their modes, retention ranges, the copy engine and its batches (R169 to R189, R224,
R312, R360). -/

namespace Sys2Proof.Machine

/-! ## Banks -/

/-- A bank mode's code (R173). -/
def BankMode.code : BankMode → Nat
  | .cache => 0 | .scratch => 1 | .fifo => 2
def BankMode.ofCode (n : Nat) : BankMode := if n = 0 then .cache else if n = 1 then .scratch else .fifo

/-- The lines of a bank leave the cluster cache (R171). -/
def State.dropWay (s : State) (cl w : Nat) : State :=
  s.updCluster cl fun x => { x with cache := x.cache.filter fun p => p.1 / 1024 != w }

/-- A bank in its new mode: scratch and FIFO banks start empty, filled with zeros (R171, R181). -/
def Bank.enter (k : Bank) (m : BankMode) : Bank := { num := k.num, mode := m }

/-- The switches of a block's banks made: those named take their new mode. -/
def State.switchBanks (s : State) (b : BKey) : State :=
  let x := s.block b
  let s := x.banks.foldl (fun s k => if k.switching.isSome then s.dropWay x.cluster k.num else s) s
  let enter (k : Bank) : Bank :=
    match k.switching with
    | some m => k.enter m
    | none => k
  s.updBlock b fun x => { x with banks := x.banks.map enter, switched := x.switched + 1, switchMask := 0 }

/-- Whether a copy command touches a bank of its block: by local address, in a destination or a source row. -/
def CopyCmd.touches (c : CopyCmd) (mask : Word) : Bool :=
  let hits (a : Nat) : Bool := c.len != 0 &&
    (List.range ((a % 2 ^ 32 + c.len - 1) / 131072 - a % 2 ^ 32 / 131072 + 1)).any fun i =>
      mask.getLsbD (a % 2 ^ 32 / 131072 + i)
  (List.range c.rows).any fun j =>
    (isLocal c.dst.toNat && hits (c.dstRow j)) || (isLocal c.src.toNat && decide (c.kind ≠ .cpyg) && hits (c.srcRow j))
/-- Whether copies of a block touch banks (R173). For cpyg any local source counts. -/
def State.copiesTouch (s : State) (b : BKey) (mask : Word) : Bool :=
  (s.cluster (s.block b).cluster).copyQ.any fun c => decide (c.g.b = b) &&
    (c.touches mask || (decide (c.kind = .cpyg) && isLocal c.src.toNat))

/-- The switches of a block begun, once no copy touches a named bank (R173, R175); the banks switch in parallel (R174), and where every
named bank has the mode already nothing is left to do. -/
def State.startSwitch (s : State) (b : BKey) : State :=
  let x := s.block b
  if x.switchMask = 0 || s.copiesTouch b x.switchMask then s
  else if x.banks.all (·.switching.isNone) then s.switchBanks b
  else
    let t := 64 + x.banks.foldl (fun n k => if k.switching.isSome then max n k.need else n) 0
    let start (k : Bank) : Bank := if k.switching.isSome && k.doneAt.isNone then { k with doneAt := some (s.cycle + t) } else k
    s.updBlock b fun x => { x with banks := x.banks.map start }
/-- Whether a bankcfg is accepted now: no switch of its block is under way, and no bankcfg that has issued earlier waits (R175). -/
def State.cfgTurn (s : State) (g : GKey) (e : Nat) : Bool :=
  let waits (w : GKey × Nat) : Bool := decide ((s.split w.1 w.2).st = .parked .bankTurn) && !(s.split w.1 w.2).susp
  (s.block g.b).switchMask == 0 && ((s.block g.b).cfgQ.find? waits).all (· == (g, e))
/-- The banks that a bankcfg switches: the named ones with another mode; none where one in FIFO mode with entries would leave it, which
is status 1 (R173). -/
def Block.cfgDiff (x : Block) (mask : Word) (dest : BankMode) : Option (List Nat) :=
  let named := (List.range x.banks.length).filter fun i => mask.getLsbD i
  let diff := named.filter fun i => decide ((x.banks.getD i {}).mode ≠ dest)
  if diff.any fun i => decide ((x.banks.getD i {}).mode = .fifo) && !(x.banks.getD i {}).fifo.isEmpty then none else some diff
/-- Banks of a block set to switch, of those that a bankcfg names. -/
def State.setSwitch (s : State) (b : BKey) (mask : Word) (diff : List Nat) (dest : BankMode) : State :=
  s.updBlock b fun y => { y with
    switchMask := mask
    banks := diff.foldl (fun bs i => bs.modify i fun k => { k with switching := some dest, need := switchTime k.mode dest, doneAt := none }) y.banks }
/-- A bankcfg accepted (R173, R175): it is done at once where no named bank switches and no copy touches one. -/
def State.acceptCfg (s : State) (g : GKey) (e : Nat) (a : BitVec 7) (mask : Word) (dest : BankMode) : Ends :=
  let s := s.updBlock g.b fun x => { x with cfgQ := x.cfgQ.filter (· != (g, e)) }
  match (s.block g.b).cfgDiff mask dest with
  | none => .next (s.setS g e a.toNat 1)
  | some diff =>
    let s := s.flush fun p => decide (p.g.b = g.b) && p.cells.any fun w => match w.1 with
      | .scr _ _ => true
      | _ => false
    if diff.isEmpty && !s.copiesTouch g.b mask then .next (s.setS g e a.toNat 0)
    else .park ((s.setSwitch g.b mask diff dest).startSwitch g.b) (.bankSwitch (s.block g.b).switched)
/-- bankcfg (R173, R175): it waits for its turn, is accepted, and parks until BANK_SWITCH_COMPLETE. In ordered mode it parks too, and is
accepted at the commit, where its banks switch (DEDUCED, log entry 31). -/
def execBankcfg (a b : BitVec 7) : State → Host.Outcome State Fault Refusal :=
  scalarOp true { stalls := true } fun s g e =>
    let m := s.getS g e a.toNat
    let mode := s.getS g e b.toNat
    let mask : Word := m.setWidth 32
    let dest := BankMode.ofCode mode.toNat
    match (s.split g e).st with
    | .parked (.bankSwitch n) => if (s.block g.b).switched > n then .next (s.setS g e a.toNat 0) else .park s (.bankSwitch n)
    | _ =>
      if m.toNat ≥ 2 ^ 32 || (lanesOf mask).any (· ≥ (s.block g.b).banks.length) || mode.toNat > 2 then .next (s.setS g e a.toNat 2)
      else if s.ordered g then
        .park ((s.count g e).updGroup g fun x => { x with q := { x.q with ops := x.q.ops ++ [.bankcfg e a.toNat mask dest] } }) .commit
      else if s.cfgTurn g e then s.acceptCfg g e a mask dest
      else .park (s.updBlock g.b fun x => { x with cfgQ := x.cfgQ.filter (· != (g, e)) ++ [(g, e)] }) .bankTurn

/-- Whether the switches of a block can be made: they have begun, and their time has passed. -/
def State.bankSwitchReady (s : State) (b : BKey) : Bool :=
  let x := s.block b
  x.switchMask != 0 && x.banks.any (·.switching.isSome) && x.banks.all fun k => k.switching.isNone || k.doneAt.any (· ≤ s.cycle)
/-- BANK_SWITCH_COMPLETE (R174): the switches of a block are made; the bankcfg that parks on them then
completes. -/
def execBankSwitchComplete (s : State) : Host.Outcome State Fault Refusal :=
  .next <| match s.turn with
  | .event (.bankSwitchComplete b) => if s.bankSwitchReady b then s.switchBanks b else s
  | _ => s

def execBankst (d a : BitVec 7) : State → Host.Outcome State Fault Refusal :=
  scalarOp true {} fun s g e =>
    let i := (s.getS g e a.toNat).toNat
    let x := s.block g.b
    match x.banks[i]? with
    | some k =>
      if i ≥ 32 then .next (s.setS g e d.toNat 0)
      else if k.switching.isSome then .park s (.bankIdle (maskOf [i]))
      else .next (s.setS g e d.toNat
        (BitVec.ofNat 64 ((if k.mode = .fifo then k.fifo.length else 0) * 2 ^ 32 + k.num * 256 + 4 + k.mode.code)))
    | none => .next (s.setS g e d.toNat 0)

/-- rret (R178, R282). -/
def execRret (a b c : BitVec 7) : State → Host.Outcome State Fault Refusal :=
  scalarOp true { stalls := true } fun s g e =>
    let base := s.getS g e a.toNat
    let len := s.getS g e b.toNat
    if base.toNat ≥ 2 ^ 56 then .fault s { kind := 5, addr := base.toNat }
    else if len.toNat ≥ 2 ^ 48 then .fault s { kind := 5, addr := len.toNat }
    else if base.toNat % 128 != 0 then .fault s { kind := 4, addr := base.toNat }
    else if len.toNat % 128 != 0 then .fault s { kind := 4, addr := len.toNat }
    else .next (s.histNow g (.rret base len (s.getS g e c.toNat)))

/-! ## Issue of copy commands -/

/-- Whether a register value is a copy address (R183). -/
def copyAddrOk (x : Nat) : Bool := if isLocal x then x < 2 ^ 63 + 2 ^ 32 else x < 2 ^ 56

/-- The first operand that fails check 2 of R186: an invalid address, a local range that is not valid scratch,
or a source in a peer window (R360). -/
def State.copyBad (s : State) (c : CopyCmd) : Option Nat :=
  let x := s.block c.g.b
  let bad (a : Nat) : Bool := !copyAddrOk a
  let localBad (a : Nat) : Bool := !x.scratchOk (a - 2 ^ 63) c.len
  let peer (a : Nat) : Bool := match findPage (s.pagesFor c.g) a with
    | some p => p.peer.isSome
    | none => false
  let srcBad (a : Nat) : Bool := if isLocal c.src.toNat then localBad a else (lineStarts a c.len).any fun l => peer (max l a)
  if bad c.dst.toNat then some c.dst.toNat
  else if bad c.src.toNat then some c.src.toNat
  else if c.kind = .cpyg ∧ c.idx.toNat ≥ 2 ^ 56 then some c.idx.toNat
  else
    let rows := List.range c.rows
    match rows.find? fun j => isLocal c.dst.toNat && localBad (c.dstRow j) with
    | some j => some (c.dstRow j)
    | none =>
      if c.kind = .cpyg then none
      else (rows.find? fun j => srcBad (c.srcRow j)).map c.srcRow

/-- Whether a command touches a bank that switches (R175). -/
def State.copiesSwitch (s : State) (c : CopyCmd) : Bool :=
  let m := (s.block c.g.b).switchMask
  m != 0 && (c.touches m || (decide (c.kind = CopyKind.cpyg) && isLocal c.src.toNat))

/-- A copy command issued (R182, R186, R187). -/
def State.issueCopy (s : State) (g : GKey) (c : CopyCmd) (sizeBad : Bool) : Ends :=
  let cl := s.clusterOf g
  if sizeBad then .fault s { kind := 0x13 }
  else if s.copiesSwitch c then .park s (.bankIdle (s.block g.b).switchMask)
  else match s.copyBad c with
    | some a => .fault s { kind := 5, addr := a }
    | none =>
      let odd := [c.dst.toNat, c.src.toNat] ++ (if c.kind = .cpyg then [c.idx.toNat] else [])
      match odd.find? (· % 4 != 0) with
      | some a => .fault s { kind := 4, addr := a }
      | none =>
        if c.len = 0 || c.rows = 0 then .next (s.updGroup g fun x => { x with openAny := true })
        else if (s.cluster cl).copyQ.length ≥ 256 then .park s .copyRoom
        else
          let s := s.updCluster cl fun x => { x with copyQ := x.copyQ ++ [{ c with id := s.nextId, quantum := (s.region g.b.r).quantum }] }
          let s := s.updGroup g fun x => { x with openAny := true, openBatch := x.openBatch ++ [s.nextId] }
          .next { s with nextId := s.nextId + 1 }

/-- cpy, cpy2d and cpyg (R184 to R186). -/
def execCpy (a b c : BitVec 7) : State → Host.Outcome State Fault Refusal :=
  scalarOp true { copy := true, stalls := true } fun s g e =>
    let l := (s.getS g e c.toNat).toNat
    s.issueCopy g { g, dst := s.getS g e a.toNat, src := s.getS g e b.toNat, len := l } (l ≥ 2 ^ 32 || l % 4 != 0)
def execCpy2d (a b c : BitVec 7) : State → Host.Outcome State Fault Refusal :=
  scalarOp (WellFormed (.cpy2d a b c)) { copy := true, stalls := true } fun s g e =>
    let x := (s.getS g e c.toNat).toNat
    let p := (s.getS g e (c.toNat + 1)).toNat
    let l := x % 2 ^ 32
    s.issueCopy g
      { g, kind := .cpy2d, dst := s.getS g e a.toNat, src := s.getS g e b.toNat, len := l, rows := x / 2 ^ 32
        ps := p % 2 ^ 32, pd := p / 2 ^ 32 }
      (l % 4 != 0 || p % 2 ^ 32 % 4 != 0 || p / 2 ^ 32 % 4 != 0)
def execCpyg (a b c : BitVec 7) : State → Host.Outcome State Fault Refusal :=
  scalarOp (WellFormed (.cpyg a b c)) { copy := true, stalls := true } fun s g e =>
    let p := (s.getS g e (c.toNat + 1)).toNat
    let l := p % 2 ^ 32
    s.issueCopy g
      { g, kind := .cpyg, dst := s.getS g e a.toNat, src := s.getS g e b.toNat, idx := s.getS g e c.toNat
        len := l, rows := p / 2 ^ 32 } (l % 4 != 0)

/-! ## Batches (R187 to R189) -/

/-- The open batch closed: it takes the next number. -/
def State.closeBatch (s : State) (g : GKey) : State :=
  s.updGroup g fun x =>
    let b : Batch := { num := x.batchNext, cmds := x.openBatch, fault := x.openFault }
    { x with
      batches := x.batches ++ [b]
      batchNext := x.batchNext + 1
      openBatch := []
      openAny := false
      openFault := none }

def execCbatch (d : BitVec 7) : State → Host.Outcome State Fault Refusal :=
  scalarOp true { copy := true, stalls := true } fun s g e =>
    if ((s.group g).batches.filter fun b => !b.cmds.isEmpty).length ≥ 16 then .park s .batchRoom
    else
      let n := (s.group g).batchNext
      .next ((s.closeBatch g).setS g e d.toNat (BitVec.ofNat 64 n))

/-- The batches that a cwait covers. -/
def Group.covered (x : Group) (n : Nat) : List Batch := x.batches.filter fun b => b.num ≤ n
/-- The first fault of batches that has not been raised, as a fault of the waiting instruction (R188, R323). -/
def batchFault (bs : List Batch) : Option (Nat × FaultInfo) :=
  (bs.find? fun b => b.fault.isSome && !b.told).map fun b =>
    (b.num, { (b.fault.getD {}) with extra := b.num % 2 ^ 32, batch := true })
/-- A batch's fault marked as raised; batches with nothing left to do or tell are forgotten. -/
def State.tellBatch (s : State) (g : GKey) (n : Nat) : State :=
  s.updGroup g fun x => { x with batches := x.batches.map fun b =>
    { b with told := b.told || b.num == n } }
def State.pruneBatches (s : State) (g : GKey) : State :=
  s.updGroup g fun x => { x with batches := x.batches.filter fun b => !b.cmds.isEmpty || (b.fault.isSome && !b.told) }

/-- The end of a wait for batches that are complete: a fault is raised once, precisely at the instruction. -/
def State.batchesDone (s : State) (g : GKey) (n : Nat) (k : State → Ends) : Ends :=
  match batchFault ((s.group g).covered n) with
  | some (b, f) => .fault ((s.tellBatch g b).pruneBatches g) f
  | none => k (s.pruneBatches g)

/-- cwait (R188): it covers the batches closed when it issues. In ordered mode it ends the quantum, its
batches' copies are written at the commits, and it completes at the commit that finds them complete (R307,
R312). -/
def execCwait (a : BitVec 7) : State → Host.Outcome State Fault Refusal :=
  scalarOp true { copy := true, stalls := true } fun s g e =>
    let n := match (s.split g e).st with
      | .parked (.batch n) => n
      | _ => min (s.getS g e a.toNat).toNat ((s.group g).batchNext - 1)
    if s.ordered g then
      let s := s.updGroup g fun x => { x with batches := x.batches.map fun b =>
        { b with covered := b.covered || b.num ≤ n } }
      .park ((s.count g e).endsQuantum g) (.batch n)
    else if ((s.group g).covered n).all (·.cmds.isEmpty) then s.batchesDone g n .next
    else .park s (.batch n)

/-- The wait of a copy group's exit for its copies (R189): the open batch is closed first. -/
def State.exitBatches (s : State) (g : GKey) (k : State → Ends) : Ends :=
  let s := if (s.group g).openAny then s.closeBatch g else s
  if (s.group g).batches.all (·.cmds.isEmpty) then s.batchesDone g ((s.group g).batchNext) k
  else .park (s.updGroup g fun x => { x with batches := x.batches.map fun b => { b with covered := true } }) .exitBatches

/-! ## The transfer -/

/-- What a line of a copy's source or destination stops the engine with (R189): a fault kind; `loc` says that it is local. Local ranges
are checked at issue, but for the sources of cpyg (R186): a row of it that is no valid scratch is an access fault (DESIGN CHOICE, log
entry 82). -/
def State.lineFault (s : State) (c : CopyCmd) (loc : Bool) (a : Nat) (wr : Bool) : Option Nat :=
  if loc then
    if wr || decide (c.kind ≠ .cpyg) || (a < 2 ^ 63 + 2 ^ 32 && (s.block c.g.b).scratchOk (a - 2 ^ 63) 4) then none else some 5
  else if a ≥ 2 ^ 56 then some 5
  else match findPage (s.ctx c.g.b.r.c).pages a with
    | none => some 5
    | some p =>
      if wr then (if p.peer.isSome || p.w then none else some 5)
      else if p.peer.isSome || !p.r then some 5
      else none
/-- Whether a source line holds poison (R189, R199). -/
def State.linePoison (s : State) (c : CopyCmd) (a : Nat) : Bool :=
  match s.placeOf c.g.b a with
  | some l => (List.range 4).any fun i => s.poisoned (l.lineBase.add (32 * i))
  | none => false
/-- Whether the page of an address, if it is mapped, is resident or a peer window. -/
def State.copyHere (s : State) (c : CopyCmd) (a : Nat) : Bool :=
  isLocal a || match findPage (s.ctx c.g.b.r.c).pages a with
    | some p => p.res || p.peer.isSome
    | none => true

/-- A word that the engine reads; the copy engine sees memory itself (R224) (DEDUCED, log entry 53). -/
def State.copyWord (s : State) (c : CopyCmd) (a : Nat) : List Byte :=
  match s.placeOf c.g.b a with
  | some l => (Loc.span l 4).map s.rawByte
  | none => [0, 0, 0, 0]

/-- The source of a row: its address, none for zero fill, or the fault of its index line. -/
def State.rowSrc (s : State) (c : CopyCmd) (j : Nat) : Except (Nat × Nat) (Option Nat) :=
  match c.kind with
  | .cpyg =>
    let a := c.idx.toNat + 4 * j
    match s.lineFault c false a false with
    | some k => .error (a, k)
    | none =>
      if s.linePoison c a then .error (a, 0x0B)
      else
        let n := leNat (s.copyWord c a)
        .ok (if n = 2 ^ 32 - 1 then none else some (c.src.toNat + n * c.len))
  | _ => .ok (some (c.srcRow j))

/-- What a command moves: destination addresses with their words, and the faults it meets, at sources also where the destination line
faults; a local source meets no data error, and its poison goes with its words (R185, R189, R199). -/
structure Moves where
  words : List (Nat × List Byte) := []
  faults : List (Nat × Nat) := []
  bad : List Nat := []
def State.copyMoves (s : State) (c : CopyCmd) : Moves :=
  let from_ (m : Moves) (dest : Option Nat) (a : Nat) : Moves :=
    match s.lineFault c (isLocal c.src.toNat) a false with
    | some k => { m with faults := m.faults ++ [(a, k)] }
    | none =>
      if !isLocal c.src.toNat && s.linePoison c a then { m with faults := m.faults ++ [(a, 0x0B)] }
      else match dest with
        | none => m
        | some d =>
          let bad := (s.placeOf c.g.b a).any s.poisoned
          { m with words := m.words ++ [(d, s.copyWord c a)], bad := if bad then d :: m.bad else m.bad }
  (List.range c.rows).foldl (fun m j =>
    match s.rowSrc c j with
    | .error f => { m with faults := m.faults ++ [f] }
    | .ok src => (List.range (c.len / 4)).foldl (fun m i =>
        let d := c.dstRow j + 4 * i
        let bad := s.lineFault c (isLocal c.dst.toNat) d true
        let m := match bad with
          | some k => { m with faults := m.faults ++ [(d, k)] }
          | none => m
        match src with
        | none => if bad.isSome then m else { m with words := m.words ++ [(d, [0, 0, 0, 0])] }
        | some a => from_ m (if bad.isSome then none else some d) (a + 4 * i)) m) {}

/-- Whether every page that a command uses is resident (R189). -/
def State.copyResident (s : State) (c : CopyCmd) : Bool :=
  (List.range c.rows).all fun j =>
    ((lineStarts (c.dstRow j) c.len).all fun a => s.copyHere c a) &&
      (decide (c.kind ≠ .cpyg) || s.copyHere c (c.idx.toNat + 4 * j)) &&
      match s.rowSrc c j with
      | .ok (some a) => (lineStarts a c.len).all fun a => s.copyHere c a
      | _ => true

/-- A command's fault: the lowest faulting address (R189); `extra` holds the command until the batch's number
replaces it. -/
def lowestFault (c : CopyCmd) (fs : List (Nat × Nat)) : Option FaultInfo :=
  (fs.foldl (fun (m : Option (Nat × Nat)) f => match m with
    | some x => if f.1 < x.1 then some f else some x
    | none => some f) none).map fun f => { kind := f.2, addr := f.1, extra := c.id }

/-- The bytes that a command writes in this device, without the lines of memory whose poisoned sectors it covers only in part, and the
faults of those lines (R199). A local destination meets no fault (R189): a poisoned sector that is covered only in part takes the bytes
and stays poisoned (DESIGN CHOICE, log entry 82). -/
def State.copyCells (s : State) (c : CopyCmd) (ms : List (Nat × List Byte)) : List (Loc × Byte) × List (Nat × Nat) :=
  let cells := ms.flatMap fun m => match s.placeOf c.g.b m.1 with
    | some l => (Loc.span l 4).zip m.2
    | none => []
  let bad := cells.filter fun w => !isLocal c.dst.toNat && !s.storeOk cells w.1
  let isBad (l : Loc) : Bool := bad.any fun w => decide (w.1.lineBase = l.lineBase)
  (cells.filter fun w => !isBad w.1,
    ms.filterMap fun m => match s.placeOf c.g.b m.1 with
      | some l => if isBad l then some (m.1, 0x0B) else none
      | none => none)

/-- A command has completed: its entry is freed, and its batch notes it with its fault. -/
def State.copyFinish (s : State) (cl : Nat) (c : CopyCmd) (f : Option FaultInfo) : State :=
  let worse (a : Option FaultInfo) : Option FaultInfo :=
    match a, f with
    | some x, some y => if y.extra < x.extra then some y else some x
    | none, y => y
    | x, none => x
  let s := (s.updCluster cl fun x => { x with copyQ := x.copyQ.filter fun k => k.id != c.id }).startSwitch c.g.b
  s.updGroup c.g fun x =>
    { x with
      openFault := if x.openBatch.contains c.id then worse x.openFault else x.openFault
      openBatch := x.openBatch.filter (· != c.id)
      batches := x.batches.map fun b =>
        if b.cmds.contains c.id then { b with cmds := b.cmds.filter (· != c.id), fault := worse b.fault } else b }

/-- The words of a command that go to peer windows: address, window, offset in it, bytes. -/
def State.peerWords (s : State) (c : CopyCmd) (ms : List (Nat × List Byte)) : List (Nat × PeerWin × Nat × List Byte) :=
  ms.filterMap fun m =>
    if isLocal m.1 then none
    else match findPage (s.ctx c.g.b.r.c).pages m.1 with
    | some p => p.peer.map fun w => (m.1, w, w.off + (m.1 - p.va), m.2)
    | none => none
/-- Words put together as packets: those of one line that follow each other, up to a 4 KiB boundary of the destination (R358, R360). -/
def packetsOf (ws : List (Nat × PeerWin × Nat × List Byte)) : List (Nat × PeerWin × Nat × List Byte) :=
  ws.foldl (fun t m =>
    match t.reverse with
    | x :: r =>
      let off := x.2.2.1 + x.2.2.2.length
      if x.1 / 128 = m.1 / 128 && x.1 + x.2.2.2.length = m.1 && x.2.1.dev == m.2.1.dev && x.2.1.win == m.2.1.win && off == m.2.2.1 &&
          off % 4096 != 0 then
        (((x.1, x.2.1, x.2.2.1, x.2.2.2 ++ m.2.2.2) :: r).reverse)
      else t ++ [m]
    | [] => [m]) []
/-- The flow of a context to a window (R359). -/
def flowTo (c : CKey) (w : PeerWin) : FlowId := ⟨Config.deviceId, c, w.dev, w.win⟩
/-- The packets of the words that go to peer windows, in order (R359, R360): what was sent, and the addresses of those whose flow has
ended, which are refused (DESIGN CHOICE, log entry 95). -/
def State.emitPackets (s : State) (cl : Nat) (c : CopyCmd) (ms : List (Nat × List Byte)) :
    State × List (FlowId × BitVec 32) × List Nat :=
  (packetsOf (s.peerWords c ms)).foldl (fun (r : State × List (FlowId × BitVec 32) × List Nat) x =>
    let s := r.1
    let f := flowTo c.g.b.r.c x.2.1
    let fl := s.sflows.get {} f
    if fl.dead then (s, r.2.1, r.2.2 ++ [x.1])
    else
      let p : Packet := { flow := f, seq := fl.next, off := x.2.2.1, data := x.2.2.2 }
      let new : SFlow := { fl with next := fl.next + 1, sent := fl.sent ++ [(p, cl, c.id, x.1)] }
      ({ s with
          sflows := s.sflows.put f new
          outs := s.outs ++ [.packet (Config.portOf x.2.1.dev) p] }, r.2.1 ++ [(f, fl.next)], r.2.2)) (s, [], [])

/-- The flows that a command writes into. -/
def State.copyFlows (s : State) (c : CopyCmd) : List FlowId :=
  if isLocal c.dst.toNat then []
  else (List.range c.rows).flatMap fun j => (lineStarts (c.dstRow j) c.len).filterMap fun a =>
    match findPage (s.ctx c.g.b.r.c).pages (max a (c.dstRow j)) with
    | some p => p.peer.map (flowTo c.g.b.r.c)
    | none => none
/-- Whether a command may send: the earlier remote commands of its group to its flows have (R360). -/
def State.copyTurn (s : State) (c : CopyCmd) : Bool :=
  (s.cluster (s.clusterOf c.g)).copyQ.all fun k =>
    k.id ≥ c.id || k.sent || decide (k.g ≠ c.g) || !(s.copyFlows k).any (s.copyFlows c).contains

/-- Whether a command uses a line that another owns. -/
def State.copyMeets (s : State) (c k : CopyCmd) : Bool :=
  let owned (a : Nat) : Bool := match s.placeOf c.g.b a with
    | some l => s.ownsLine k l
    | none => false
  (List.range c.rows).any fun j =>
    ((lineStarts (c.dstRow j) c.len).any owned) || (decide (c.kind = .cpyg) && owned (c.idx.toNat + 4 * j)) ||
      match s.rowSrc c j with
      | .ok (some a) => (lineStarts a c.len).any owned
      | _ => false

/-- Whether a command may complete: its packets are acknowledged; or its pages are resident, no earlier
command of the device owns a line it uses, and the remote commands of its group go out in order (R189, R224, R360). -/
def State.copyReady (s : State) (c : CopyCmd) : Bool :=
  if c.sent then c.packets.isEmpty
  else
    !s.ordered c.g && s.copyResident c && s.copyTurn c &&
      s.clusters.all fun p => p.2.copyQ.all fun k => k.id ≥ c.id || s.ordered k.g ||
        !s.copyMeets c k

/-- The lines of memory at addresses of a command, accessed in the L2. -/
def State.copyLinesAt (s : State) (c : CopyCmd) (as : List Nat) : State :=
  s.l2Lines c.g.b.r.c (as.filterMap fun a => match s.placeOf c.g.b a with
    | some (.mem m) => some (m / 128)
    | _ => none)
/-- The lines that a command reads, accessed in the L2. -/
def State.copyReads (s : State) (c : CopyCmd) : State :=
  s.copyLinesAt c ((List.range c.rows).flatMap fun j =>
    (if c.kind = .cpyg then [c.idx.toNat + 4 * j] else []) ++
    match s.rowSrc c j with
    | .ok (some a) => lineStarts a c.len
    | _ => [])
/-- A command writes what it has read: its bytes in this device, and its packets to peers; it completes at once
unless packets wait for their acknowledgement. -/
def State.copyWrite (s : State) (cl : Nat) (c : CopyCmd) (ms : List (Nat × List Byte)) (f : Option FaultInfo) : State :=
  let (cells, fs) := s.copyCells c ms
  let worse (f g : Option FaultInfo) : Option FaultInfo := match f, g with
    | some x, some y => if y.addr < x.addr then some y else some x
    | none, y => y
    | x, none => x
  let f := worse f (lowestFault c fs)
  let poison := (ms.filter fun m => c.bad.contains m.1).filterMap fun m => s.placeOf c.g.b m.1
  let s := poison.foldl State.spoil ((s.perform cells).bump c.g.b.r.c 8 (cells.length + 4 * (ms.filter fun m => (s.placeOf c.g.b m.1).isNone).length))
  let s := s.copyLinesAt c ((List.range c.rows).flatMap fun j => lineStarts (c.dstRow j) c.len)
  let (s, ps, dead) := s.emitPackets cl c ms
  let f := worse f (lowestFault c (dead.map fun a => (a, 5)))
  if ps.isEmpty then s.copyFinish cl c f
  else s.updCluster cl fun x => { x with copyQ := x.copyQ.map fun k =>
    if k.id = c.id then { k with sent := true, packets := ps, fault := f } else k }

/-- COPY_COMMAND_COMPLETE (R182, R185, R189, R360): the command reads its sources and writes its
destinations; one with bytes for a peer completes when the peer has acknowledged every packet. -/
def execCopyCommandComplete (s : State) : Host.Outcome State Fault Refusal :=
  .next <| match s.turn with
  | .event (.copyCommandComplete cl id) =>
    match (s.cluster cl).copyQ.find? fun c => c.id == id with
    | none => s
    | some c =>
      if !s.copyReady c then s
      else if c.sent then s.copyFinish cl c c.fault
      else
        let m := s.copyMoves c
        ((s.copyReads c).copyWrite cl { c with bad := m.bad } m.words (lowestFault c m.faults)).olRetryAll
  | _ => s

/-- The copies of a group at a commit (R312): those with data and a covering wait write, in issue order. -/
def State.commitCopies (s : State) (g : GKey) : State :=
  let cl := s.clusterOf g
  ((s.cluster cl).copyQ.filter fun c => decide (c.g = g)).foldl (fun s c =>
    let cov := (s.group g).batches.any fun b => b.covered && b.cmds.contains c.id
    match c.data with
    | some ms =>
      if c.sent then (if c.packets.isEmpty then s.copyFinish cl c c.fault else s)
      else if cov && s.copyTurn c then s.copyWrite cl c ms c.fault else s
    | none => s) s
/-- Those that have not read yet read, once their pages are resident. -/
def State.readCopies (s : State) (g : GKey) : State :=
  let cl := s.clusterOf g
  ((s.cluster cl).copyQ.filter fun c => decide (c.g = g)).foldl (fun s c =>
    if c.data.isSome || !s.copyResident c then s
    else
      let m := s.copyMoves c
      let new : CopyCmd := { c with data := some m.words, bad := m.bad, fault := lowestFault c m.faults }
      (s.copyReads c).updCluster cl fun x => { x with copyQ := x.copyQ.map fun k => if k.id = c.id then new else k }) s

end Sys2Proof.Machine
end

