-- ==== Sys2Proof/Machine/Control.lean ====
section
/-! DEFINITION. Splits, reconvergence, the ends of lanes and splits, naps, the split table, returns and
forkable calls, with the events that belong to them (R114 to R141, R354, R392). -/

namespace Sys2Proof.Machine

/-! ## New splits and ends -/

/-- A shadow discarded with the forks it has begun (R135). -/
def State.dropShadow (s : State) (g : GKey) (k : Nat) : Nat → State
  | 0 => s
  | n + 1 =>
    let inner := (s.shadows (baseKey g)).filter fun x => ((s.group x).fork.elim false fun f => f.parent == k)
    let s := inner.foldl (fun s x => s.dropShadow g x.sh n) s
    let key := shadowKey g k
    if k != 0 && (s.groups.get? key).isSome then
      ({ s with groups := s.groups.del key }).updGroup (baseKey g) fun x => { x with squashed := x.squashed + 1 }
    else s

/-- Open call records that are left without a ret: their forks resolve as failed (R392). A continuation's own forks go
at once, the others at its commit. -/
def State.abandonCalls (s : State) (g : GKey) (cs : List CallRec) : State :=
  cs.foldl (fun s r => match r.fork with
    | some k =>
      if !r.closed && ((s.group (shadowKey g k)).fork).any (fun f => f.parent == g.sh) then s.dropShadow g k 4 else s
    | none => s) s
/-- The open records of a split that no other entry of its group holds. -/
def State.lastCalls (s : State) (g : GKey) (e : Nat) : List CallRec :=
  (s.split g e).calls.filter fun r => (s.group g).ents.all fun p => p.1 == e || p.2.calls.all fun q => q.id != r.id

/-- The lowest-numbered free entry of a group's split table. -/
def State.freeEntry (s : State) (g : GKey) : Option Nat :=
  (List.range 4).find? fun i => decide ((s.split g i).st = .free)

/-- A split created by another (R119, R120, R392). -/
def State.newSplit (s : State) (g : GKey) (e i : Nat) (mask : Word) (pc j : DWord) : State :=
  let p := s.split g e
  let sp := (s.group g).stackBase + BitVec.ofNat 64 ((i + 1) * (s.rcb g).stack)
  let new : Split :=
    { st := .running, pc := pc, mask := mask, level := p.level, join := some (j, p.level)
      s := p.s.put 15 sp, calls := p.calls, ready := s.cycle }
  (s.updSplit g i fun _ => new).unarrive g i

/-- The end of a split whose stack is empty (R129): its claim of the array is given up, its entry is freed when its lanes are done (R115); the calls that no
other split is in are left without a ret (DEDUCED, log entry 66). -/
def State.endSplit (s : State) (g : GKey) (e : Nat) : State :=
  let calls := s.lastCalls g e
  let s := s.updSplit g e fun p => { p with st := .draining, join := none, stack := [], calls := [] }
  let s := s.updCore (s.coreOf g) fun x => { x with campQ := x.campQ.filter (· != (g, e)) }
  let s := if s.ordered g then s else (s.abandonCalls g calls).barRecheck g.b
  s.groupCheck g

/-- exit, after it has counted (R129) (DEDUCED, log entry 51). -/
def State.exitSplit (s : State) (g : GKey) (e : Nat) : Nat → State
  | 0 => s.endSplit g e
  | n + 1 =>
    let p := s.split g e
    match p.stack with
    | [] => s.endSplit g e
    | t :: r =>
      if !t.swapped then
        let t' := { t with held := 0, regs := p.s, swapped := true }
        (s.updSplit g e fun p => { p with mask := t.mask, s := t.regs, stack := t' :: r }).goTo g e t.pc
      else if t.held != 0 then
        (s.updSplit g e fun p => { p with mask := t.held, s := t.regs, stack := r }).goTo g e t.j
      else (s.updSplit g e fun p => { p with stack := r }).exitSplit g e n

/-! ## split and switch -/

/-- split (R119). -/
def execSplit (m : BitVec 4) (t j : BitVec 11) : State → Host.Outcome State Fault Refusal :=
  scalarOp true { vec := true, stalls := true, trapOk := false } fun s g e =>
    let p := s.split g e
    let taken := p.pc + 4 * t.signExtend 64
    let join := p.pc + 4 * j.signExtend 64
    let k : Ends :=
      let on := s.getM g p.mask m.toNat &&& p.mask
      let off := p.mask &&& ~~~on
      if on = 0 then .next s
      else if off = 0 then .goto s taken
      else match s.freeEntry g with
        | some i =>
          let s := s.newSplit g e i on taken join
          let s := s.count g e
          let s := s.updSplit g e fun p => { p with st := .running, mask := off, pc := p.pc + 4 }
          let s := s.goTo g i taken
          let s := if (s.split g e).st = .running then s.goTo g e (p.pc + 4) else s
          .done (s.stepDone g e)
        | none =>
          if p.stack.length ≥ 8 then .fault s { kind := 9 }
          else
            let ent : StackEnt := { pc := p.pc + 4, mask := off, j := join, level := p.level, regs := p.s }
            .goto (s.updSplit g e fun p => { p with stack := ent :: p.stack, mask := on }) taken
    if m = 0 then k else s.awaitLanes g e (.mask m.toNat) k

/-- Doublewords of a table that a split reads as plain scalar loads, up to the first that cannot be read. -/
def State.readDwords (s : State) (g : GKey) (e a : Nat) : Nat → State × Except (Nat × Acc) (List Nat)
  | 0 => (s, .ok [])
  | n + 1 =>
    match s.access g a 8 true false with
    | (s, .ok cell) =>
      let v := s.load g e (.mem cell) 8
      match s.readDwords g e (a + 8) n with
      | (s, .ok vs) => (s, .ok (v :: vs))
      | r => r
    | (s, x) => (s, .error (a, x))

/-- How an instruction ends whose load could not be made: it parks or faults. -/
def Acc.ends (s : State) (va : Nat) : Acc → Ends
  | .fault f => .fault s f
  | .nonres => .park s (.page va)
  | .owned => .park s (.owned va)
  | .ok _ => .next s

/-- The lane sets of a switch with their targets: the non-empty ones, in case order, the default last (R122). -/
def caseSets (mask : Word) (val : Nat → Nat) (cases : List (Nat × Nat)) (dflt : Nat) : List (Word × Nat) :=
  let pick (l : Nat) : Nat := ((List.range cases.length).find? fun i => (cases.getD i (0, 0)).1 == val l).getD cases.length
  let set (i : Nat) : Word := maskOf ((lanesOf mask).filter fun l => pick l == i)
  ((List.range (cases.length + 1)).map fun i => (set i, (cases.getD i (0, dflt)).2)).filter fun p => p.1 != 0

/-- switch (R121, R122). -/
def execSwitch (v : BitVec 11) (a : BitVec 7) : State → Host.Outcome State Fault Refusal :=
  scalarOp true { vec := true, stalls := true, trapOk := false, vregs := [v.toNat] } fun s g e =>
    let t := (s.getS g e a.toNat).toNat
    if s.laneBusy g e (.vreg v.toNat) (s.laneMark g e) then .park s (.lanes (.vreg v.toNat) (s.laneMark g e))
    else if t % 8 != 0 then .fault s { kind := 4, addr := t }
    else match s.readDwords g e t 2 with
      | (s, .error x) => x.2.ends s x.1
      | (s, .ok hd) =>
        let n := hd.getD 0 0 % 2 ^ 32
        if hd.getD 0 0 / 2 ^ 32 != 0 || n = 0 || n > 8 then .fault s { kind := 1 }
        else match s.readDwords g e (t + 16) (2 * n) with
          | (s, .error x) => x.2.ends s x.1
          | (s, .ok tb) =>
            let cases := (List.range n).map fun i => (tb.getD (2 * i) 0, tb.getD (2 * i + 1) 0)
            if cases.any fun c => c.1 ≥ 2 ^ 32 then .fault s { kind := 1 }
            else
              let p := s.split g e
              let sets := caseSets p.mask (fun l => (s.getVL g v.toNat l).toNat) cases (hd.getD 1 0)
              let free := (List.range 4).filter fun i => decide ((s.split g i).st = .free)
              let later := sets.drop 1
              let j := p.pc + 4
              match sets.find? fun c => c.2 % 4 != 0 with
              | some c => .fault s { kind := 4, addr := c.2 }
              | none =>
                if p.stack.length + (later.length - free.length) > 8 then .fault s { kind := 9 }
                else
                  let first := sets.headD (p.mask, 0)
                  let made := free.zip later
                  let ents := (later.drop free.length).map fun c =>
                    ({ pc := BitVec.ofNat 64 c.2, mask := c.1, j, level := p.level, regs := p.s } : StackEnt)
                  let s := s.count g e
                  let s := made.foldl (fun s c => s.newSplit g e c.1 c.2.1 (BitVec.ofNat 64 c.2.2) j) s
                  let s := s.updSplit g e fun p =>
                    { p with st := .running, stack := ents ++ p.stack, mask := first.1, pc := BitVec.ofNat 64 first.2 }
                  let s := made.foldl (fun s c =>
                    if (s.split g c.1).st = .running then s.goTo g c.1 (BitVec.ofNat 64 c.2.2) else s) s
                  let s := if (s.split g e).st = .running then s.goTo g e (BitVec.ofNat 64 first.2) else s
                  .done (s.stepDone g e)

/-! ## kill, exit, yield, nap, splrd -/

/-- exit (R129); a copy group's waits for its copies (R189). -/
def execExit (s : State) : Host.Outcome State Fault Refusal :=
  scalarOp true { stalls := true } (fun s g e =>
    let k (s : State) : Ends := .done (((s.count g e).exitSplit g e 9).stepDone g e)
    if (s.group g).vec then k s else s.exitBatches g k) s

/-- kill (R128). -/
def execKill (n : BitVec 4) : State → Host.Outcome State Fault Refusal :=
  scalarOp true { vec := true, stalls := true } fun s g e =>
    let p := s.split g e
    let k : Ends :=
      let dead := s.getM g p.mask n.toNat &&& p.mask
      if dead = p.mask then .done (((s.count g e).exitSplit g e 9).stepDone g e)
      else .next (s.updSplit g e fun p => { p with mask := p.mask &&& ~~~dead })
    if n = 0 then k else s.awaitLanes g e (.mask n.toNat) k

/-- yield (R130): the split is not eligible in the next issue cycle of its quadrant, and its age is the youngest there. -/
def execYield (s : State) : Host.Outcome State Fault Refusal :=
  scalarOp true {} (fun s g e =>
    .done ((s.retire g e ((s.split g e).pc + 4)).updSplit g e fun p =>
      if s.ordered g then p else { p with busy := max p.busy (s.cycle + 2), age := some (s.cycle, s.free) })) s

/-- nap (R130); in ordered mode it ends the quantum and the split goes on after the commit. -/
def execNap (a : BitVec 7) : State → Host.Outcome State Fault Refusal :=
  scalarOp true { stalls := true } fun s g e =>
    let n := min (s.getS g e a.toNat).toNat (2 ^ 20)
    if s.ordered g then .park (((s.count g e).endsQuantum g).updGroup g fun x => { x with q := { x.q with ops := x.q.ops ++ [.resume e] } }) .commit
    else if n = 0 then .next s
    else .park s (.nap (s.cycle + n))
def execNapExpiry (s : State) : Host.Outcome State Fault Refusal :=
  .next <| match s.turn with
  | .event (.napExpiry g e) =>
    match (s.split g e).st with
    | .parked (.nap t) => if t ≤ s.cycle then s.retire g e ((s.split g e).pc + 4) else s
    | _ => s
  | _ => s

/-- The state code of an entry as another reads it (R131); one that has ended and has not drained reads as free (DEDUCED, log
entry 73). -/
def splitCode (own : Bool) (p : Split) : Nat :=
  match p.st with
  | .free | .draining => 0
  | _ =>
    if own then 1 else if p.susp then 4
    else match p.st with
      | .running => if p.constHeld then 3 else 1
      | .waitJoin _ | .fusing _ => 2
      | .waitFork => 5
      | _ => 3

/-- An item of an entry (R131). -/
def splitItem (own : Bool) (p : Split) (k : Nat) : DWord :=
  let st := splitCode own p
  let ent (i : Nat) : Option StackEnt := if i < p.stack.length then p.stack[p.stack.length - 1 - i]? else none
  if st = 0 then 0
  else if k = 0 then
    0#16 ++ p.level ++ BitVec.ofBool p.join.isSome ++ BitVec.ofNat 4 p.stack.length ++ BitVec.ofNat 3 st ++ p.mask
  else if k = 1 then p.pc
  else if k = 2 then p.join.elim 0 (·.1)
  else if k ≤ 10 then (ent (k - 3)).elim 0 (·.pc)
  else if k ≤ 18 then (ent (k - 11)).elim 0 fun t => 0#16 ++ t.level ++ 0#7 ++ BitVec.ofBool t.swapped ++ t.mask
  else (ent (k - 19)).elim 0 (·.j)

/-- splrd (R130, R131); a trap split reads the table as it stood when the trap was taken (R343). -/
def execSplrd (d x : BitVec 7) : State → Host.Outcome State Fault Refusal :=
  scalarOp (WellFormed (.splrd d x)) {} fun s g e =>
    let n := (x.extractLsb' 5 2).toNat
    let own := n == e
    let p := if own then s.split g e else if e == 4 then (s.group g).snap.get {} n else s.split (baseKey g) n
    .next (s.setS g e d.toNat (splitItem own p (x.extractLsb' 0 5).toNat))

/-! ## Events of reconvergence and issue -/

def execFusion (s : State) : Host.Outcome State Fault Refusal :=
  .next <| match s.turn with
  | .event (.fusion g lo _) =>
    match (s.split g lo).st with
    | .fusing k => s.fuseAll g k 4
    | _ => s
  | _ => s

/-- Whether the join window of a waiting split has run out (R124). -/
def State.windowOut (s : State) (g : GKey) (e : Nat) : Bool :=
  match (s.split g e).st with
  | .waitJoin start => (s.split g e).expired || s.windowNow g e ≥ start + (s.group g).joinwin.toNat || !s.mayWait g e
  | _ => false
/-- JOIN_WINDOW_EXPIRY (R124): every window of the group that has run out by now has expired. -/
def execJoinWindowExpiry (s : State) : Host.Outcome State Fault Refusal :=
  .next <| match s.turn with
  | .event (.joinWindowExpiry g _) =>
    let expired (p : Nat × Split) : Nat × Split :=
      if s.windowOut g p.1 then (p.1, { p.2 with st := .running, ready := s.cycle }) else p
    s.updGroup g fun x => { x with ents := x.ents.map expired }
  | _ => s

/-- FRONT_LIST_PROMOTION (R139): a split whose next scalar instruction, or a lane head (named by its entry + 5), that has been
ready and passed over for 64 cycles. -/
def State.passedOver (s : State) (g : GKey) (e : Nat) : Bool :=
  let p := s.split g (if e < 5 then e else e - 5)
  if e < 5 then p.front.isNone && p.since.any fun t => s.cycle ≥ t + 64
  else p.lfront.isNone && p.lsince.any fun t => s.cycle ≥ t + 64
def execFrontListPromotion (s : State) : Host.Outcome State Fault Refusal :=
  .next <| match s.turn with
  | .event (.frontListPromotion g e) =>
    if !s.passedOver g e then s
    else if e < 5 then s.updSplit g e fun p => { p with front := some s.cycle }
    else s.updSplit g (e - 5) fun p => { p with lfront := some s.cycle }
  | _ => s

/-! ## Call records (R392) -/

/-- A record closed in every split of a group, and of its continuations, that holds it; a continuation's ret closes
its own copy until it commits. -/
def State.closeCall (s : State) (g : GKey) (id : Nat) : State :=
  { s with
    groups := s.groups.map fun p =>
      if decide (p.1.b = g.b) && p.1.gid == g.gid && (g.sh == 0 || p.1.sh == g.sh) then
        (p.1, { p.2 with ents := p.2.ents.map fun q => (q.1, { q.2 with calls := q.2.calls.map fun r =>
          if r.id = id then { r with closed := true } else r }) })
      else p }

/-- Call records without the older closed ones that a newer record of their level hides. -/
def pruneCalls : List CallRec → List CallRec
  | [] => []
  | r :: rs => r :: (pruneCalls rs).filter fun q => !(q.closed && q.level == r.level)

/-- A record made by a callf; the 17th open one abandons the oldest. -/
def State.pushCall (s : State) (g : GKey) (e : Nat) (pc : DWord) (two : Bool) (fork : Option Nat) : State :=
  let id := (s.group (baseKey g)).nextId
  let s := s.updGroup (baseKey g) fun x => { x with nextId := x.nextId + 1 }
  let p := s.split g e
  let new : CallRec := { id, pc, two, level := p.level, fork }
  let calls := pruneCalls (new :: p.calls)
  let openN := (calls.filter fun r => !r.closed).length
  match if openN > 16 then (calls.reverse.find? fun r => !r.closed) else none with
  | some old =>
    (s.updSplit g e fun p => { p with calls := calls.filter fun r => r.id != old.id }).abandonCalls g [old]
  | none => s.updSplit g e fun p => { p with calls := calls }

/-! ## Live values and stale returns (R353, R354) -/

/-- The value of a register class as 64-bit words, from a register or a spill slot. -/
def State.liveGet (s : State) (g : GKey) (e : Nat) (v : LiveVal) : List Nat :=
  let n := v.loc.toNat
  if v.spill then
    let a := ((s.getS g e 15).toInt + v.loc).toNat
    let rd (a k : Nat) : Nat := match findPage (s.pagesFor g) a with
      | some p => s.load g e (.mem (cellOf (Page.pa p a))) k
      | none => 0
    match v.cls with
    | 1 => (List.range 32).map fun l => rd (a + 4 * l) 4
    | 2 => [rd a 4]
    | 0 => [rd a 8]
    | _ => [rd a 8, rd (a + 8) 8]
  else match v.cls with
    | 0 => [(s.getS g e n).toNat]
    | 1 => (s.getV g n).map (·.toNat)
    | 2 => [((s.group g).masks.get 0 n).toNat]
    | 3 => [((s.group g).bregs.get {} n).base.toNat, if ((s.group g).bregs.get {} n).valid then 1 else 0]
    | _ => [((s.group g).wins.get {} n).base.toNat, ((s.group g).wins.get {} n).len.toNat]
/-- A value put at its new place; a translation register keeps base and valid, with limit 0 (R353). -/
def State.livePut (s : State) (g : GKey) (e : Nat) (v : LiveVal) (sp : DWord) (x : List Nat) : State :=
  let n := v.loc.toNat
  let a := (sp.toInt + v.loc).toNat
  if v.spill then
    let size := match v.cls with | 1 => 4 | 2 => 4 | _ => 8
    let put (i : Nat) : List (Loc × Byte) := match findPage (s.pagesFor g) (a + size * i) with
      | some p => cellsOf (.mem (cellOf (Page.pa p (a + size * i)))) size (x.getD i 0)
      | none => []
    s.store g e { cells := (List.range x.length).flatMap put, e } false
  else match v.cls with
    | 0 => s.setS g e n (BitVec.ofNat 64 (x.getD 0 0))
    | 1 => s.setVLs g n ((List.range 32).map fun l => (l, BitVec.ofNat 32 (x.getD l 0)))
    | 2 => s.setM g n 0xFFFFFFFF (BitVec.ofNat 32 (x.getD 0 0))
    | 3 => s.updGroup g fun y => { y with bregs := y.bregs.put n { base := BitVec.ofNat 56 (x.getD 0 0), valid := x.getD 1 0 == 1 } }
    | _ => s.updGroup g fun y => { y with wins := y.wins.put n { base := BitVec.ofNat 64 (x.getD 0 0), len := BitVec.ofNat 64 (x.getD 1 0) } }

/-- The live values of a return site moved to those of the new one; every other register becomes zero (R353,
R354) (DEDUCED, log entry 35). -/
def State.moveLive (s : State) (g : GKey) (e : Nat) (old new : RetSite) : State :=
  let vals := old.live.map fun v => ((v.cls, v.vreg), s.liveGet g e v)
  let sp := s.getS g e 15
  let s := (s.updSplit g e fun p => { p with s := [] }).updGroup g fun x =>
    { x with sregs := [], vregs := [], masks := [], bregs := [], wins := [] }
  new.live.foldl (fun s v => match (vals.find? fun p => p.1 == (v.cls, v.vreg)) with
    | some p => s.livePut g e v sp p.2
    | none => s) s

/-- The superseded return site that an address names, with the current one of its id. -/
def State.staleSite (s : State) (c : CKey) (t : Nat) : Option (RetSite × RetSite) :=
  (s.ctx c).gens.findSome? fun x =>
    if x.lo ≤ t && t < x.hi then
      match x.old.find? fun r => r.addr == t with
      | some r => (x.new.find? fun q => q.id == r.id).map fun q => (r, q)
      | none => none
    else none

/-- The live split of a group, with the safe point at which it stands: one live split, nothing on its stack or in its
queue, no result outstanding, no trap (R351, R352). -/
def Group.standsAt (x : Group) (sites : List RetSite) : Option (Nat × RetSite) :=
  match x.ents.filter fun p => Split.live p.2 with
  | [(e, p)] =>
    if p.stack.isEmpty && p.queue.isEmpty && x.outst.isEmpty && x.trap.isNone then
      (sites.find? fun r => r.addr == p.pc.toNat).map fun r => (e, r)
    else none
  | _ => none

/-! ## ret and callf -/

/-- Whether a split's reconvergence is pending (R118). -/
def Split.pendingRc (p : Split) : Bool :=
  (match p.join with | some (_, l) => l == p.level | none => false) || p.stack.any fun t => t.level == p.level

/-- The call level of a split lowered (R117). -/
def State.shallower (s : State) (g : GKey) (e : Nat) : State := s.updSplit g e fun p => { p with level := p.level - 1 }

/-- The update of the RVP at a return; a shadow holds it (R136). -/
def State.rvpReturn (s : State) (g : GKey) (e : Nat) (r : CallRec) : State :=
  let v : HEvent := .rvp r.pc.toNat r.two (s.getS g e 2) (s.getS g e 3)
  if (s.group g).fork.isSome then
    s.updGroup g fun x => { x with fork := x.fork.map fun f => { f with rvp := f.rvp ++ [v] } }
  else s.histNow g v

/-- ret (R113, R117, R126, R135, R136, R354, R392). A continuation stops at one into superseded code, whose fault waits for its commit (R134). -/
def execRet (s : State) : Host.Outcome State Fault Refusal :=
  scalarOp true {} (fun s g e =>
    let p := s.split g e
    let t := s.getS g e 1
    if p.pendingRc then .fault s { kind := 8 }
    else if t.toNat % 4 != 0 then .fault s { kind := 4, addr := t.toNat }
    else if (s.group g).fork.isSome && (s.staleSite g.b.r.c t.toNat).isSome then .fault s { kind := 0x11, addr := t.toNat }
    else
      let (s, t) := match s.staleSite g.b.r.c t.toNat with
        | some (o, n) => ((s.squash g).moveLive g e o n, BitVec.ofNat 64 n.addr)
        | none => (s, t)
      let p := s.split g e
      match p.calls.find? fun r => r.level == p.level - 1 with
      | none => .goto (s.shallower g e) t
      | some r =>
        if r.closed then .goto (s.shallower g e) t
        else
          let later := p.calls.takeWhile fun q => q.id != r.id
          let fk := match r.fork with
            | some k => ((s.group (shadowKey g k)).fork).map fun f => (k, f)
            | none => none
          match fk with
          | some (k, f) =>
            if f.parent != g.sh then .park s .fork
            else
              let s := s.abandonCalls g later
              let s := (s.rvpReturn g e r).closeCall g r.id
              let s := s.updSplit g e fun p => { p with calls := p.calls.drop later.length, st := .waitFork }
              .done (s.updGroup (shadowKey g k) fun x => { x with fork := x.fork.map fun f =>
                { f with ret := e, atRet := some (s.getS g e 2, s.getS g e 3, (s.split g e).mask) } })
          | none =>
            let s := s.abandonCalls g later
            let s := (s.rvpReturn g e r).closeCall g r.id
            .goto ((s.updSplit g e fun p => { p with calls := pruneCalls (p.calls.drop later.length) }).shallower g e) t) s

/-- The conditions of a fork at a callf (R132): the prediction, if there are all of them. -/
def State.mayFork (s : State) (g : GKey) (two : Bool) : Option RvpEnt :=
  let k := s.coreOf g
  match s.bankOf g with
  | none => none
  | some b =>
    let pc := (s.split g (s.actor.2)).pc.toNat
    let x := rvpOf b pc
    if rvpMatch b pc && x.conf2.toNat ≥ 2 && (!two || x.conf3.toNat ≥ 2) &&
        (freeSlot (s.slotsUsed k)).isSome && s.slotsHeld g.b.r < (s.rcb g).slots &&
        s.regsUsed k + 64 ≤ 16384 && (s.shadows (baseKey g)).length < 3 && !s.ordered g &&
        !(g.sh != 0 && decide ((s.split g (s.actor.2)).lpark = some .fork))
    then some x else none

/-- The shadow that a fork starts (R133), in a slot chosen as the dispatcher's (DESIGN CHOICE, log entry 72); its registers are
the group's as at the callf, and what its lanes add to sr.vstat and to the outlier list is its own until it commits. A continuation that would start
where its split reconverges stops there (R123, log entry 21). -/
def State.forkShadow (s : State) (g : GKey) (e : Nat) (two : Bool) (x : RvpEnt) : State :=
  let grp := s.group g
  let p := s.split g e
  let k := (s.group (baseKey g)).forks + 1
  let s2 := rvpPred2 x
  let regs := (p.s.put 1 (p.pc + 4)).put 2 s2
  let regs := if two then regs.put 3 x.last3 else regs
  let f : Fork :=
    { e, own := e, parent := g.sh, callPc := p.pc, two, level := p.level, mask := p.mask, pred2 := s2, pred3 := x.last3
      sBase := grp.sregs, vBase := grp.vregs, retired0 := grp.retired, id0 := s.nextId }
  let sp : Split :=
    { st := .running, pc := p.pc + 4, mask := p.mask, level := p.level, join := p.join, stack := p.stack, s := regs, calls := p.calls
      retired := p.retired, ready := s.cycle }
  let new : Group :=
    { grp with
      slot := (freeSlot (s.slotsUsed (s.coreOf g))).getD 0
      ents := [(e, sp)]
      outst := []
      ol := []
      vstat := 0
      fork := some f }
  let s := s.setGroup (shadowKey g k) new
  (s.updGroup (baseKey g) fun y => { y with forks := k }).goTo (shadowKey g k) e (p.pc + 4)

/-- callf.1 and callf.2 (R132). -/
def callf (two : Bool) (i : BitVec 19) : State → Host.Outcome State Fault Refusal :=
  scalarOp true { trapOk := false } fun s g e =>
    let pc := (s.split g e).pc
    let k := (s.group (baseKey g)).forks + 1
    let (s, fork) := match s.mayFork g two with
      | some x => (s.forkShadow g e two x, some k)
      | none => (s, none)
    let s := ((s.pushCall g e pc two fork).setS g e 1 (pc + 4)).deeper g e
    .goto s (pc + 4 * i.signExtend 64)
def execCallf1 (i : BitVec 19) (s : State) : Host.Outcome State Fault Refusal := callf false i s
def execCallf2 (i : BitVec 19) (s : State) : Host.Outcome State Fault Refusal := callf true i s

/-! ## The resolution of a fork (R135) -/

/-- Whether a vector register, a scalar register of a group differs from its value at a fork. -/
def Fork.kept (f : Fork) (x : Group) (rng : Option (Nat × Nat)) : Bool :=
  ((List.range 32).all fun i => decide (x.sregs.get 0 (32 + i) = f.sBase.get 0 (32 + i))) &&
    match rng with
    | some (lo, hi) => (List.range (hi + 1 - lo)).all fun i => decide (x.vregs.get zeroV (lo + i) = f.vBase.get zeroV (lo + i))
    | none => true

/-- The checks of step 2. -/
def State.forkHolds (s : State) (g : GKey) (f : Fork) : Bool :=
  match f.atRet with
  | some (a2, a3, m) =>
    decide (a2 = f.pred2) && (!f.two || decide (a3 = f.pred3)) && !f.conflict &&
      f.kept (s.group (shadowKey g f.parent)) (s.region g.b.r).kd.fork && decide (m = f.mask)
  | none => false

/-- Whether a fork can resolve: its ret has run, inner forks are resolved (step 1), and, if it commits, every
lane instruction that the continuation has issued has completed (step 3). -/
def State.forkReady (s : State) (g : GKey) (k : Nat) : Bool :=
  match (s.group (shadowKey g k)).fork with
  | none => false
  | some f =>
    f.atRet.isSome &&
      ((s.shadows (baseKey g)).all fun x => match (s.group x).fork with
        | some y => y.parent != k && !(y.parent == f.parent && y.own == f.own && x.sh > k)
        | none => true) &&
      (!s.forkHolds g f || ((s.group (shadowKey g k)).outst.isEmpty && (s.group (shadowKey g k)).ol.isEmpty))

/-- A trap that a continuation deferred, delivered at its commit as the split's (R135, R323, R378); the fault of a ret into superseded code is
the Keep's, who repairs it when the split issues the ret again (R354). -/
def State.deliverDeferred (s : State) (g : GKey) (t : PendTrap) : State :=
  let t := { t with recs := t.recs.map fun r => { r with flags := r.flags ||| 4 } }
  let r := t.recs.headD {}
  if r.kind = 0x10 then s.watch g t t.wpt r.lanePc r.addr
  else if r.kind = 0x0F then
    (if (s.ctx g.b.r.c).attached.isSome then s.halt g t.e 2 0 0 r.extra.toNat else s.bump g.b.r.c 13 1)
  else if r.kind = 0x11 then s
  else s.takeTrap g t

/-- The commit of a continuation into its split (step 3). Its blocks, stores and outlier records follow those that the split has
enqueued and issued so far (R216). -/
def State.commitFork (s : State) (g : GKey) (k : Nat) (f : Fork) : State :=
  let key := shadowKey g k
  let pk := shadowKey g f.parent
  let y := s.group key
  let q := y.ents.get {} f.e
  let lost := (s.split pk f.ret).calls.filter fun r => q.calls.all fun x => x.id != r.id
  let s := { s with groups := s.groups.del key }
  let n := y.retired - f.retired0
  let later (i : Nat) : Nat := i + (s.nextId - f.id0)
  let ends := later s.nextId
  let regs : Group → Group := fun x =>
    { x with
      sregs := f.wroteS.foldl (fun m i => m.put i (y.sregs.get 0 i)) x.sregs
      vregs := f.wroteV.foldl (fun m i => (List.range 8).foldl (fun m j => m.put (8 * i + j) (y.vregs.get zeroV (8 * i + j))) m) x.vregs
      masks := f.wroteM.foldl (fun m i => m.put i (y.masks.get 0 i)) x.masks
      fork := x.fork.map fun o =>
        { o with
          wroteS := f.wroteS ++ o.wroteS, wroteV := f.wroteV ++ o.wroteV, wroteM := f.wroteM ++ o.wroteM
          tracked := (f.tracked ++ o.tracked).eraseDups
          conflict := o.conflict || f.owed.contains f.parent
          owed := ((f.owed.filter (· != f.parent)) ++ o.owed).eraseDups }
      vstat := x.vstat ||| y.vstat
      retired := x.retired + n }
  let s := s.updGroup pk regs
  let s := if f.parent = 0 then s.bump g.b.r.c 0 n else s
  let s := s.updSplit pk f.ret fun p =>
    { p with
      s := q.s, mask := q.mask, level := q.level, stack := q.stack, join := q.join, calls := q.calls
      queue := p.queue ++ (q.queue.map fun b => { b with id := later b.id }), hold := p.hold || q.hold, st := .running, pc := q.pc }
  let s := (q.calls.filter (·.closed)).foldl (fun s r => s.closeCall pk r.id) s
  let s := s.abandonCalls pk lost
  let s := f.buf.foldl (fun s x => s.storeAs pk f.ret x false (later x.id)) s
  let recs := f.ol.map fun r => { r with e := f.ret, blk := { r.blk with id := later r.blk.id } }
  let s := ({ s with nextId := ends }).updGroup pk fun x =>
    match x.fork with
    | some o => { x with fork := some { o with ol := insOl recs o.ol } }
    | none => { x with ol := insOl recs x.ol }
  let s := f.rvp.foldl (fun s v =>
    if f.parent = 0 then s.histNow pk v
    else s.updGroup pk fun x =>
      { x with
        fork := x.fork.map fun o =>
          { o with
            rvp := o.rvp ++ [v] } }) s
  let s := f.traces.foldl (fun s t => s.record pk { t with e := f.ret }) s
  let s := (s.count pk f.ret).goTo pk f.ret q.pc
  let trained := match q.st with | .parked (.load _) => true | _ => false
  let s := s.updSplit pk f.ret fun p => if trained && decide (p.st = .running ∧ p.pc = q.pc) then { p with st := q.st } else p
  match f.deferred with
  | some t =>
    let t := t.asOf f.ret
    if (s.group pk).fork.isSome then s.takeTrap pk t else s.deliverDeferred pk t
  | none => s
/-- FORK_RESOLVE (R135). -/
def execForkResolve (s : State) : Host.Outcome State Fault Refusal :=
  .next <| match s.turn with
  | .event (.forkResolve g k) =>
    if !s.forkReady g k then s
    else match (s.group (shadowKey g k)).fork with
      | none => s
      | some f =>
        if s.forkHolds g f then s.commitFork g k f
        else
          let pk := shadowKey g f.parent
          ((s.dropShadow g k 4).shallower pk f.ret).retire pk f.ret (f.callPc + 4)
  | _ => s

end Sys2Proof.Machine
end

