-- ==== Sys2Proof/Machine/Sync.lean ====
section
/-! DEFINITION. Scalar atomics, waits on an address and fences; stage rings and barriers; the performing of
stores (R206 to R208, R214 to R235, R307). -/

namespace Sys2Proof.Machine

/-! ## Atomics -/

/-- The new value of an atomic by op, with operand and comparand (R204). -/
def atomNew (op : Nat) (t : Ty) (cur v c : Nat) : Nat :=
  match op with
  | 0 => (cur + v) % 2 ^ t.width
  | 1 => roundTo fmtF32 .rne false (addNum .rne (readFloat fmtF32 cur) (readFloat fmtF32 v))
  | 2 => if elInt t v < elInt t cur then v else cur
  | 3 => if elInt t cur < elInt t v then v else cur
  | 4 => cur &&& v
  | 5 => cur ||| v
  | 6 => cur ^^^ v
  | 7 => v
  | _ => if cur = c then v else cur

/-- A combined request executed at the home of its location: the value of each lane before its turn, and the
final value, stored (R204). -/
def State.atomic (s : State) (r : AtomReq) : State × List (Nat × Nat) :=
  let l : Loc := .mem r.loc
  let cur := leNat ((Loc.span l r.size).map s.rawByte)
  let (v, rets) := r.lanes.foldl (fun (p : Nat × List (Nat × Nat)) x =>
    (atomNew r.op (Ty.ofCode (BitVec.ofNat 4 r.ty)) p.1 x.2.1.toNat x.2.2.toNat % 2 ^ (8 * r.size), p.2 ++ [(x.1, p.1)])) (cur, [])
  (s.perform (cellsOf l r.size v), rets)

/-- A request of an ordered group kept for its commit; 256 of them end the quantum (R307, R309). -/
def State.listAtomic (s : State) (g : GKey) (r : AtomReq) : State :=
  s.updGroup g fun x => { x with q := { x.q with
    atoms := x.q.atoms ++ [{ r with seq := x.retired }]
    due := x.q.due || x.q.atoms.length + 1 ≥ 256 } }

/-- What an ordered group holds back for its commit beside its stores; it ends the quantum (R307). -/
def State.listOp (s : State) (g : GKey) (op : QOp) : State :=
  (s.updGroup g fun x => { x with q := { x.q with ops := x.q.ops ++ [op] } }).endsQuantum g
/-- A scalar instruction of an ordered group that ends the quantum and takes effect at the commit. -/
def State.atCommit (s : State) (g : GKey) (e : Nat) (op : QOp) : Ends :=
  .park ((s.count g e).listOp g op) .commit

/-- A scalar atomic (R207, R218): acquire and release at its scope. -/
def scalarAtomic (legal : Bool) (sc : BitVec 2) (op : Nat) (d a b : BitVec 7) : State → Host.Outcome State Fault Refusal :=
  scalarOp legal { stalls := true } fun s g e =>
    let va := (s.getS g e a.toNat).toNat
    let scope := if sc = 0 then 3 else if sc = 1 then 6 else 7
    match s.access g va 8 true true with
    | (s, .nonres) => s.keepScalar g e va
    | (s, .owned) => .park s (.owned va)
    | (s, .fault f) => .fault s f
    | (s, .ok cell) =>
      let r : AtomReq :=
        { loc := cell, op, scalar := true, cas := op == 8, size := 8, ty := 6
          lanes := [(0, s.getS g e b.toNat, s.getS g e d.toNat)], ret := some (e, d.toNat), scope, va
          pc := (s.split g e).pc, e }
      if s.ordered g then .park (((s.count g e).listAtomic g r).endsQuantum g) .commit
      else
        let s := ((s.flushScalar g e).flushLines g e [cell / 128]).conflicts g e [cell / 128]
        match s.syncOf g e (s.split g e).pc.toNat scope false true true false cell with
        | (s, some rec) => .fault s { kind := 7, addr := va, extra := rec, write := true }
        | (s, none) =>
          let (s, rets) := s.atomic r
          (s.setS g e d.toNat (BitVec.ofNat 64 ((rets.headD (0, 0)).2))).afterAccess g e va 8 true true

/-- The ops of satom as those of vatom (R206). -/
def satomOp (o : BitVec 3) : Nat :=
  match o.toNat with | 0 => 0 | 1 => 4 | 2 => 5 | 3 => 6 | 4 => 7 | 5 => 2 | _ => 3
def execSatom (sc : BitVec 2) (o : BitVec 3) (d a b : BitVec 7) (s : State) : Host.Outcome State Fault Refusal :=
  scalarAtomic (WellFormed (.satom sc o d a b)) sc (satomOp o) d a b s
def execScas (sc : BitVec 2) (d a b : BitVec 7) (s : State) : Host.Outcome State Fault Refusal :=
  scalarAtomic (WellFormed (.scas sc d a b)) sc 8 d a b s

/-! ## Waits (R208) -/

/-- Whether a wait's condition holds for what its split reads. -/
def State.waitHolds (s : State) (g : GKey) (e cell : Nat) (dbl eq : Bool) (v : DWord) : Bool :=
  let n := if dbl then 8 else 4
  let x := s.load g e (.mem cell) n
  (x == v.toNat % 2 ^ (8 * n)) == eq

/-- The end of a wait: it is an acquire at its scope (R208, R222, R223). -/
def State.waitDone (s : State) (g : GKey) (e va cell scope : Nat) (rmt commit : Bool) : State × Option FaultInfo :=
  match s.syncOf g e (s.split g e).pc.toNat scope rmt false true commit cell with
  | (s, some rec) => (s, some { kind := 7, addr := va, extra := rec })
  | (s, none) => (s, none)

/-- waiteq and waitne: in ordered mode they read at the commit (R307). -/
def waitOn (eq : Bool) (a b : BitVec 7) (m : BitVec 5) : State → Host.Outcome State Fault Refusal :=
  scalarOp true { stalls := true } fun s g e =>
    let va := (s.getS g e a.toNat).toNat
    let dbl := m.getLsbD 3
    let v := s.getS g e b.toNat
    let scope := (m.extractLsb' 0 3).toNat
    match s.access g va (if dbl then 8 else 4) true false with
    | (s, .nonres) => .park s (.page va)
    | (s, .owned) => .park s (.owned va)
    | (s, .fault f) => .fault s f
    | (s, .ok cell) =>
      if s.ordered g then .park ((s.count g e).endsQuantum g) (.wait va cell dbl eq v scope (m.getLsbD 4))
      else
        let s := s.settleLoads g e [cell] (if dbl then 8 else 4)
        if s.waitHolds g e cell dbl eq v then
          match s.waitDone g e va cell scope (m.getLsbD 4) false with
          | (s, some f) => .fault s f
          | (s, none) => .next s
        else .park s (.wait va cell dbl eq v scope (m.getLsbD 4))
def execWaiteq (a b : BitVec 7) (m : BitVec 5) (s : State) : Host.Outcome State Fault Refusal := waitOn true a b m s
def execWaitne (a b : BitVec 7) (m : BitVec 5) (s : State) : Host.Outcome State Fault Refusal := waitOn false a b m s

/-- How the re-read of a parked wait goes: the wait stays, faults, or its condition holds (R208). -/
inductive Reread where
  | stays
  | fault (f : FaultInfo)
  | holds (cell : Nat)
deriving DecidableEq, Repr
/-- The re-read of a wait at an address: its page may have gone, or its line have been taken or poisoned meanwhile (R199, R224). -/
def State.reread (s : State) (g : GKey) (e va : Nat) (dbl eq : Bool) (v : DWord) : State × Reread :=
  match s.accessAs g e va (if dbl then 8 else 4) true false with
  | (s, .ok cell) =>
    let s := s.settleLoads g e [cell] (if dbl then 8 else 4)
    (s, if s.waitHolds g e cell dbl eq v then .holds cell else .stays)
  | (s, .fault f) => (s, .fault f)
  | (s, _) => (s, .stays)
/-- Whether the re-read of a parked wait would end it. -/
def State.rereadReady (s : State) (g : GKey) (e : Nat) : Bool :=
  match (s.split g e).st with
  | .parked (.wait va _ dbl eq v _ _) => decide ((s.reread g e va dbl eq v).2 ≠ .stays)
  | _ => false
/-- A parked wait reads again, and completes if its condition holds (R208). -/
def State.readAgain (s : State) (g : GKey) (e : Nat) : State :=
  match (s.split g e).st with
  | .parked (.wait va _ dbl eq v scope rmt) =>
    match s.reread g e va dbl eq v with
    | (s, .holds cell) =>
      (match s.waitDone g e va cell scope rmt false with
      | (s, some f) => s.scalarFault g e f
      | (s, none) => s.retire g e ((s.split g e).pc + 4))
    | (s, .fault f) => s.scalarFault g e f
    | (s, .stays) => s
  | _ => s
/-- WAIT_REREAD (R208). -/
def execWaitReread (s : State) : Host.Outcome State Fault Refusal :=
  .next <| match s.turn with
  | .event (.waitReread g e) => s.readAgain g e
  | _ => s

/-! ## Fences (R219 to R221) -/

/-- Whether memory accesses of the lane instructions that a split has enqueued have still to be performed (R220): of queued
blocks, outlier records that wait, results that have not returned. -/
def State.lanesPending (s : State) (g : GKey) (e : Nat) : Bool :=
  ((s.group g).ol.any fun o => o.e == e) || ((s.group g).outst.any fun o => o.e == e && o.mem) ||
    (s.split g e).queue.any fun b => s.blockHas g e lanesMemory b
/-- Whether accesses of a split have still to be performed at device scope; in ordered mode those are performed at its commits
(R221, R227). -/
def State.engPending (s : State) (g : GKey) (e : Nat) : Bool :=
  let q := (s.group g).q
  s.lanesPending g e || (s.ordered g && (q.buf.any (fun x => x.e == e) || q.atoms.any fun x => x.e == e))

/-- A fence of either kind: every access of the split, in both streams, is performed. -/
def fence (s : State) : Host.Outcome State Fault Refusal :=
  scalarOp true { stalls := true } (fun s g e =>
    if s.ordered g then .park ((s.count g e).endsQuantum g) .fence
    else if s.lanesPending g e then .park s .fence
    else .next (s.flushSplit g e)) s
def execFence (_c : BitVec 3) (s : State) : Host.Outcome State Fault Refusal := fence s
/-- fence.eng (R221, R227). -/
def execFenceEng (s : State) : Host.Outcome State Fault Refusal :=
  scalarOp true { stalls := true } (fun s g e =>
    if s.engPending g e then .park s .fenceEng else .next (s.flushSplit g e)) s

/-- Whether a store may be performed: the earlier stores of its split to a unit of its own go first (R106, R214, R215). -/
def State.performReady (s : State) (id : Nat) : Bool :=
  match s.pend.find? fun p => p.id == id with
  | none => false
  | some p => s.pend.all fun q => q.id ≥ id || !decide (q.g = p.g) || q.e != p.e ||
      !(q.cells.any fun w => p.cells.any fun v => decide (w.1.unit = v.1.unit))
/-- ACCESS_PERFORMED (R214): a store is performed at every scope. -/
def execAccessPerformed (s : State) : Host.Outcome State Fault Refusal :=
  .next <| match s.turn with
  | .event (.accessPerformed id) => if s.performReady id then s.flush fun p => p.id == id else s
  | _ => s

/-! ## Stage rings (R228, R229, R235) -/

def State.ring (s : State) (b : BKey) (n : Nat) : Ring := (s.block b).rings.get {} n
def State.updRing (s : State) (b : BKey) (n : Nat) (f : Ring → Ring) : State :=
  s.updBlock b fun x => { x with rings := x.rings.put n (f (x.rings.get {} n)) }
/-- The depth of a ring, fixed by its first operation. -/
def Ring.fix (r : Ring) (d : Nat) : Ring := { r with depth := some (r.depth.getD d) }
def Ring.d (r : Ring) : Nat := r.depth.getD 1
/-- Whether the next give, the next take can proceed. -/
def Ring.canGive (r : Ring) : Bool := !r.full.getLsbD r.gi
def Ring.canTake (r : Ring) : Bool := r.full.getLsbD r.ti
def Ring.give (r : Ring) : Ring := { r with full := r.full ||| BitVec.ofNat 8 (2 ^ r.gi), gi := (r.gi + 1) % r.d }
def Ring.take (r : Ring) : Ring := { r with full := r.full &&& ~~~(BitVec.ofNat 8 (2 ^ r.ti)), ti := (r.ti + 1) % r.d }

def execRingGive (d : BitVec 3) (n : BitVec 4) : State → Host.Outcome State Fault Refusal :=
  scalarOp true { stalls := true } fun s g e =>
    if s.ordered g then s.atCommit g e (.give n.toNat e (d.toNat + 1))
    else
      let s := s.updRing g.b n.toNat fun r => r.fix (d.toNat + 1)
      let r := s.ring g.b n.toNat
      if r.givers.isEmpty && r.canGive then .next ((s.flushScalar g e).updRing g.b n.toNat Ring.give)
      else .park (s.updRing g.b n.toNat fun r => { r with givers := r.givers ++ [.split g e] }) (.ring true n.toNat)
def execRingTake (d : BitVec 3) (n : BitVec 4) : State → Host.Outcome State Fault Refusal :=
  scalarOp true { stalls := true } fun s g e =>
    if s.ordered g then s.atCommit g e (.take n.toNat e (d.toNat + 1))
    else
      let s := s.updRing g.b n.toNat fun r => r.fix (d.toNat + 1)
      let r := s.ring g.b n.toNat
      if r.takers.isEmpty && r.canTake then .next (s.updRing g.b n.toNat Ring.take)
      else .park (s.updRing g.b n.toNat fun r => { r with takers := r.takers ++ [.split g e] }) (.ring false n.toNat)
def execRingPeek (d : BitVec 7) (n : BitVec 4) : State → Host.Outcome State Fault Refusal :=
  scalarOp true { stalls := true } fun s g e =>
    let r := s.ring g.b n.toNat
    .next (s.setS g e d.toNat (BitVec.ofNat 64
      ((if r.depth.isSome then 2 ^ 31 + (r.d - 1) * 2 ^ 24 else 0) + r.ti * 2 ^ 16 + r.gi * 256 + r.full.toNat)))

/-- Whether a waiter at a ring can go on: its agent is neither suspended nor halted. -/
def State.waiterFree (s : State) (b : BKey) : RWait → Bool
  | .split g e => !(s.split g e).susp && !(s.group g).halted
  | .seq => !(s.seq b).halted
/-- A waiter's operation completed: its instruction retires. -/
def State.wakeRing (s : State) (b : BKey) : RWait → State
  | .split g e => (s.flushScalar g e).retire g e ((s.split g e).pc + 4)
  | .seq => (s.flushSeq b).seqRetire b ((s.seq b).pc + 8)

def State.giveReady (s : State) (b : BKey) (n : Nat) : Bool :=
  match (s.ring b n).givers with
  | w :: _ => (s.ring b n).canGive && s.waiterFree b w
  | [] => false
def State.takeReady (s : State) (b : BKey) (n : Nat) : Bool :=
  match (s.ring b n).takers with
  | w :: _ => (s.ring b n).canTake && s.waiterFree b w
  | [] => false
/-- PARKED_GIVE_WAKE and PARKED_TAKE_WAKE (R229): the oldest waiter goes. -/
def execParkedGiveWake (s : State) : Host.Outcome State Fault Refusal :=
  .next <| match s.turn with
  | .event (.parkedGiveWake b n) =>
    if s.giveReady b n then
      match (s.ring b n).givers with
      | w :: r => (s.updRing b n fun x => { x.give with givers := r }).wakeRing b w
      | [] => s
    else s
  | _ => s
def execParkedTakeWake (s : State) : Host.Outcome State Fault Refusal :=
  .next <| match s.turn with
  | .event (.parkedTakeWake b n) =>
    if s.takeReady b n then
      match (s.ring b n).takers with
      | w :: r => (s.updRing b n fun x => { x.take with takers := r }).wakeRing b w
      | [] => s
    else s
  | _ => s

/-! ## Barriers (R230 to R233) -/

/-- A split has executed a barrier's instruction (R230). -/
def State.barExec (s : State) (g : GKey) (e : Nat) (t : Option Nat) (arrive : Bool) : State :=
  (s.updBar g.b t fun k =>
    { k with
      execd := if k.execd.contains (g, e) then k.execd else (g, e) :: k.execd
      named := k.named || t.isSome
      last := if arrive then k.last.put g k.inst else k.last }).barCheck g.b t

/-- A tag instruction is legal below the region's tags (R234). -/
def State.tagOk (s : State) (t : BitVec 3) : Bool := t.toNat < (s.rcb s.actor.1).tags

/-- bar.blk, and bar.route on a tag: an arrival followed by a wait. A second arrival waits for the open
instance first (R233). -/
def barMeet (legal : State → Bool) (t : Option Nat) (s : State) : Host.Outcome State Fault Refusal :=
  scalarOp (legal s) { stalls := true } (fun s g e =>
    if s.ordered g then .park ((s.count g e).listOp g (.barrier t e true)) .commit
    else
      let k := s.bar g.b t
      if k.next g e then .park s (.rearrive (t.getD 8) k.inst)
      else
        let s := s.flushScalar g e
        .done ((s.park g e (.barrier t k.inst)).barExec g e t false)) s
def execBarBlk (s : State) : Host.Outcome State Fault Refusal := barMeet (fun _ => true) none s
def execBarRoute (t : BitVec 3) (s : State) : Host.Outcome State Fault Refusal := barMeet (·.tagOk t) (some t.toNat) s
def execBarArrive (t : BitVec 3) (s : State) : Host.Outcome State Fault Refusal :=
  scalarOp (s.tagOk t) { stalls := true } (fun s g e =>
    if s.ordered g then .park ((s.count g e).listOp g (.barrier (some t.toNat) e false)) .commit
    else
      let k := s.bar g.b (some t.toNat)
      if k.next g e then .park s (.rearrive t.toNat k.inst)
      else .done (((s.flushScalar g e).retire g e ((s.split g e).pc + 4)).barExec g e (some t.toNat) true)) s
def execBarWait (t : BitVec 3) (s : State) : Host.Outcome State Fault Refusal :=
  scalarOp (s.tagOk t) { stalls := true } (fun s g e =>
    if s.ordered g then .park ((s.count g e).listOp g (.barWait t.toNat e)) .commit
    else
      let k := s.bar g.b (some t.toNat)
      match k.last.get? g with
      | some i => if i < k.inst then .next s else .park s (.barrier (some t.toNat) i)
      | none => .next s) s

/-- The entries of a group that wait at a barrier for instances up to one; `tag` is what its block claims. -/
def barParked (t tag : Option Nat) (inst : Nat) (x : Group) : List Nat :=
  x.ents.filterMap fun q => match q.2.st with
    | .parked (.barrier t' i) => if i ≤ inst && (t'.orElse fun _ => tag) == t then some q.1 else none
    | _ => none
/-- The splits that wait at a barrier for instances up to one. -/
def State.barWaiters (s : State) (b : BKey) (t : Option Nat) (inst : Nat) : List (GKey × Nat) :=
  let key := s.barKey b t
  s.groups.flatMap fun p =>
    if p.1.sh != 0 || p.1.b.r != b.r || (key.isNone && p.1.b != b) then []
    else (barParked key (s.block p.1.b).tag inst p.2).map fun e => (p.1, e)
/-- Whether a saved block has such waiters: they go on when it is restored (R233, R334). -/
def State.savedWaiters (s : State) (b : BKey) (t : Option Nat) (inst : Nat) : Bool :=
  let key := s.barKey b t
  key.isSome && (s.region b.r).saved.any fun x => x.groups.any fun p => !(barParked key x.blk.tag inst p.2).isEmpty
/-- The waiters of a completed instance that can go on, which a trap or a halt has not stopped. -/
def State.released (s : State) (b : BKey) (t : Option Nat) (inst : Nat) : List (GKey × Nat) :=
  (s.barWaiters b t inst).filter fun w => !(s.split w.1 w.2).susp && !(s.group w.1).halted
/-- The release to make: it is due, and a waiter of it can go on, or it has none left (R231). -/
def State.releaseDue (s : State) (b : BKey) (t : Option Nat) : Option (Nat × Nat) :=
  (s.bar b t).releases.find? fun p => p.2 ≤ s.cycle &&
    (!(s.released b t p.1).isEmpty || ((s.barWaiters b t p.1).isEmpty && !s.savedWaiters b t p.1))
def State.releaseReady (s : State) (b : BKey) (t : Option Nat) : Bool := (s.releaseDue b t).isSome
/-- BARRIER_RELEASE (R231): the waiters of a completed instance go on; the release stands until it has none left. -/
def execBarrierRelease (s : State) : Host.Outcome State Fault Refusal :=
  .next <| match s.turn with
  | .event (.barrierRelease b t) =>
    match s.releaseDue b t with
    | some p =>
      let s := (s.released b t p.1).foldl (fun s w => s.retire w.1 w.2 ((s.split w.1 w.2).pc + 4)) s
      if (s.barWaiters b t p.1).isEmpty && !s.savedWaiters b t p.1 then
        s.updBar b t fun k => { k with releases := k.releases.filter (· != p) }
      else s
    | none => s
  | _ => s

end Sys2Proof.Machine
end

