-- ==== Sys2Proof/Machine/LaneMem.lean ====
section
/-! DEFINITION. Lane accesses to memory, scratch and FIFO banks, the return of results, line fills, and the
Finial sample of a lane memory instruction (R147, R180, R181, R193 to R205, R290, R302, R379 to R381). -/

namespace Sys2Proof.Machine

/-! ## Addresses of lanes -/

/-- One lane's access through a translation register (R193, R194), poison apart. -/
def State.laneAcc (s : State) (c : LCtx) (breg d z : Nat) (rd wr : Bool) : State × Acc :=
  let b := c.blk.snapB.get {} breg
  let va := b.base.toNat + d
  let flt (k : Nat) : Acc := .fault { kind := k, addr := va, write := wr }
  if !b.valid then (s, flt 5)
  else if va % z != 0 then (s, flt 4)
  else
    let direct := d + z ≤ b.limit.toNat && (!rd || b.r) && (!wr || b.w)
    let (s, r) :=
      if direct then (s, Xl.ok (cellOf (b.frame.toNat * 4096 + b.base.toNat % pageBytes b.psize.toNat + d)))
      else if va ≥ 2 ^ 56 then (s, Xl.fault 5)
      else s.xlate c.g va rd wr
    match r with
    | .fault k => (s, flt k)
    | .nonres => (s, .nonres)
    | .ok cell => if s.ownedAt (.mem cell) then (s, .owned) else (s, .ok cell)

/-- What the lanes of an access meet: lane, address and cell of those that go ahead; lane and address of those
whose page is not resident; faults; and whether a line is owned by a copy. -/
structure LaneAccs where
  oks : List (Nat × Nat × Nat) := []
  away : List (Nat × Nat) := []
  faults : List (Nat × FaultInfo) := []
  owned : Option Nat := none
deriving DecidableEq, Repr

def State.laneAccs (s : State) (c : LCtx) (breg z : Nat) (rd wr : Bool) (disp : Nat → Nat) : State × LaneAccs :=
  (lanesOf c.act).foldl (fun (p : State × LaneAccs) l =>
    let va := (c.blk.snapB.get {} breg).base.toNat + disp l
    match p.1.laneAcc c breg (disp l) z rd wr with
    | (s, .ok cell) => (s, { p.2 with oks := p.2.oks ++ [(l, va, cell)] })
    | (s, .nonres) => (s, { p.2 with away := p.2.away ++ [(l, va)] })
    | (s, .fault f) => (s, { p.2 with faults := p.2.faults ++ [(l, f)] })
    | (s, .owned) => (s, { p.2 with owned := some va })) (s, {})

/-- The size of a lane's access (R200). -/
def LArgs.z (x : LArgs) : Nat := if x.ty.is64 then 8 else 4
/-- The displacement of a lane with an offset register (R200). -/
def State.dispV (s : State) (c : LCtx) (x : LArgs) (l : Nat) : Nat := (s.getVL c.g x.va.toNat l).toNat * x.scale
/-- The displacement of a lane with a uniform offset. -/
def dispU (x : LArgs) (u l : Nat) : Nat := u % 2 ^ 32 * x.scale + LArgs.z x * l

/-- Lanes that read or update a poisoned place take the data-error fault (R199). -/
def State.poisonFaults (s : State) (c : LCtx) (a : LaneAccs) (wr : Bool) : LaneAccs :=
  let bad := a.oks.filter fun p => s.poisonFor c.g c.e (.mem p.2.2)
  { a with
    oks := a.oks.filter fun p => !s.poisonFor c.g c.e (.mem p.2.2)
    faults := a.faults ++ bad.map fun p => (p.1, { kind := 0x0B, addr := p.2.1, write := wr }) }

/-- The scope checks of lanes in ascending order (R223): those that fail take the fault (DEDUCED, log entry 55). -/
def State.scopeFaults (s : State) (c : LCtx) (x : LArgs) (release acquire wr : Bool) (a : LaneAccs) : State × LaneAccs :=
  a.oks.foldl (fun (p : State × LaneAccs) q =>
    match p.1.syncOf c.g c.e c.blk.pc.toNat x.scope x.sat release acquire false q.2.2 with
    | (s, none) => (s, { p.2 with oks := p.2.oks ++ [q] })
    | (s, some rec) => (s, { p.2 with faults := p.2.faults ++ [(q.1, { kind := 7, addr := q.2.1, extra := rec, write := wr })] }))
    (s, { a with oks := [] })

/-- One line request per line, in the order of the lowest lane that touches it (R179, R205). -/
def lanesLines (a : LaneAccs) : List (Nat × Nat) :=
  a.oks.foldl (fun ls q => if ls.any fun m => m.2 / 128 == q.2.2 / 128 then ls else ls ++ [(q.2.1, q.2.2)]) []
def State.requestLines (s : State) (c : LCtx) (a : LaneAccs) (nt : Bool) (kind : ReqKind) : State :=
  (lanesLines a).foldl (fun s m => s.lineReq c.g c.blk.pc.toNat m.1 m.2 nt kind) s
/-- The lanes whose line is in flight to the cluster cache (R302). -/
def State.inFlight (s : State) (c : LCtx) (a : LaneAccs) : List (Nat × Nat) :=
  (a.oks.map fun q => (q.1, q.2.2 / 128)).filter fun q => (s.cluster (s.clusterOf c.g)).fills.any fun f => f.line == q.2

/-! ## Finial (R379 to R381) -/

/-- The little-endian bytes of free values, one for each timing field. -/
def State.freeBytes (s : State) (n cnt : Nat) : Nat → State × List Byte
  | 0 => (s, [])
  | k + 1 =>
    let (v, s) := s.choose n
    let (s, r) := s.freeBytes n cnt k
    (s, leBytes cnt v ++ r)

/-- The sample record of a lane memory instruction, empty when it is not sampled (DESIGN CHOICE, log entry 15). -/
def State.sample (s : State) (c : LCtx) (kind : Nat) (nt returns : Bool) (a : LaneAccs) : State × List Byte :=
  let x := s.group c.g
  let i := (s.group (baseKey c.g)).finial
  let s := (s.updGroup (baseKey c.g) fun x => { x with finial := x.finial + 1 }).bump c.g.b.r.c 1 1
  let r := (s.ctx c.g.b.r.c).fin
  if r.base = 0 || (i + 1) % 2 ^ r.n != 0 then (s, [])
  else
    let o := s.ordered c.g
    let free := !o || r.timed
    let bad := !a.faults.isEmpty || !a.away.isEmpty || c.act != c.active
    let flags := (if o then 1 else 0) + (if free then 2 else 0) + (if bad then 4 else 0) + (if nt then 8 else 0)
    let sectors := (a.oks.map fun q => q.2.2 / 32).eraseDups.length
    let done := a.oks.map (·.1)
    let (replays, s) := if free then s.choose 256 else (0, s)
    let (k, s) := if free && returns && !done.isEmpty then s.choose done.length else (0, s)
    let last := if free && returns && !done.isEmpty then done.getD k 255 else 255
    let (s, times) := if free then s.freeBytes (2 ^ 32) 4 5 else (s, List.replicate 20 0)
    let (level, s) := if free then s.choose 4 else (0, s)
    (s, leBytes 1 kind ++ leBytes 1 flags ++ leBytes 1 sectors ++ leBytes 1 (lanesLines a).length ++
      leBytes 4 c.active.toNat ++ leBytes 1 replays ++ leBytes 1 last ++ leBytes 2 x.mark.toNat ++ times ++
      leBytes 7 c.blk.pc.toNat ++ leBytes 1 level ++ leBytes 8 (groupName c.g c.e).toNat ++ leBytes 4 c.g.b.n ++
      leBytes 4 0 ++ leBytes 8 (s.recTime c.g))
/-- A sample stored, if there is one. -/
def State.putSample (s : State) (g : GKey) (e : Nat) (b : List Byte) : State := if b.isEmpty then s else s.record g { e, bytes := b }
/-- A lane memory instruction whose constant b cannot be read has issued and accesses nothing: it is counted, and every
Active lane faults in its sample (R379, R385). It names no address (DESIGN CHOICE, log entry 99). -/
def State.missed (s : State) (c : LCtx) (kind : Nat) (nt returns : Bool) : State :=
  let r := s.sample c kind nt returns { faults := (lanesOf c.act).map fun l => (l, { kind := 5 }) }
  r.1.putSample c.g c.e r.2

/-! ## Watchpoints of lanes (R378) -/

/-- How an access of lanes ends that a watchpoint may match: one record for each lane that has matched. What a commit performs, it
watches after it has. -/
def LCtx.watched (c : LCtx) (s : State) (x : LArgs) (rd wr : Bool) (a : LaneAccs) (later : Bool) : LEnds :=
  let hits := a.oks.filterMap fun q => (s.wptHit c.g q.2.1 (LArgs.z x) rd wr).map fun n => (n, q.1, q.2.1)
  match hits with
  | [] => .ok s a.faults
  | h :: _ =>
    let recs := hits.map fun k =>
      State.frec { kind := 0x10, addr := k.2.2, write := wr } k.2.1 c.e true c.blk.pc c.blk.lrunPc
    let t : PendTrap := { recs, e := c.e, lanei := true, done := c.active, src := .between }
    let va := BitVec.ofNat 64 h.2.2
    if later then
      .ok (s.updGroup c.g fun y => { y with q := { y.q with ops := y.q.ops ++ [.watched t h.1 c.blk.pc va] } }) a.faults
    else .seen s a.faults fun s => s.watch c.g t h.1 c.blk.pc va

/-! ## Loads (R196, R201) -/

/-- The counter of the LMP that an instruction trains (R290). -/
def lmpIndex (pc : Nat) : Nat := pc / 4 % 64

/-- A load's counter moved at its completion (R290, R295). -/
def State.lmpTrain (s : State) (g : GKey) (i latency : Nat) : State :=
  match s.histIdx g.b.r (s.coreOf g) with
  | some h =>
    if s.ordered g then s
    else s.updHbank (s.coreOf g) h fun b =>
      { b with lmp := b.lmp.put i (if latency > b.lmpthr then min 3 (b.lmp.get 0 i + 1) else b.lmp.get 0 i - 1) }
  | none => s
/-- A load predicted long demotes its split until it returns (R139, R290). -/
def State.demote (s : State) (g : GKey) (e i id : Nat) : State :=
  match s.bankOf g with
  | some b => if !s.ordered g && b.lmp.get 0 i ≥ 2 then s.updSplit g e fun p => { p with demoted := some id } else s
  | none => s

/-- The value that a lane reads. -/
def State.laneLoad (s : State) (c : LCtx) (cell n : Nat) : Nat := s.load c.g c.e (.mem cell) n

/-- vld and vldu from the displacements of their lanes. -/
def loadLanes (i : Instr) (x : LArgs) (s0 : State) (c : LCtx) (disp : Nat → Nat) : LEnds :=
  let z := LArgs.z x
  let acq := x.order == 1
  let s := if c.active = 0 then s0
    else s0.train c.g true c.blk.pc.toNat ((c.blk.snapB.get {} x.breg).base.toNat + disp (lowLane c.active))
  let (s1, a) := s.laneAccs c x.breg z true false disp
  match a.owned with
  | some va => .wait s0 (.owned va)
  | none =>
    if s1.trackFull c.g (a.oks.map fun q => q.2.2 / 128) then .wait s0 .fork
    else
      let a := s1.poisonFaults c a false
      let o := s1.ordered c.g
      let s := (s1.requestLines c a x.nt .demand).track c.g (a.oks.map fun q => q.2.2 / 128)
      let (s, a) := if acq && !o then s.scopeFaults c x false true false a else (s, a)
      let s := s.settleLoads c.g c.e (a.oks.map (·.2.2)) z
      let (s, smp) := s.sample c 1 x.nt true a
      let good := maskOf (a.oks.map (·.1) ++ a.away.map (·.1))
      let vals := a.oks.map (fun q => (q.1, if acq && o then 0 else s.laneLoad c q.2.2 z)) ++ a.away.map fun q => (q.1, 0)
      let bits := maskOf (a.away.map (·.1))
      let m := if x.resmask = 0 then [] else [(x.resmask, bits)]
      let n := lmpIndex c.blk.pc.toNat
      let id := (s.group c.g).nextId
      let out : Outst :=
        { e := c.e, lanes := good, mem := true, v := laneWrite x.ty x.vd.toNat vals, m, lmp := some n, held := acq && o, fills := if acq && o then [] else s.inFlight c a
          sample := if o then [] else smp }
      let s := if good = 0 then (if c.active = 0 then s else s.lmpTrain c.g n 0).putSample c.g c.e smp
        else
          let s := (s.demote c.g c.e n id).addOutst c.g out
          if o then s.putSample c.g c.e smp else s
      let s := if acq && o && good != 0 then
          s.listOp c.g (.acquire c.e id z x.scope x.sat (a.oks.map fun q => (q.1, q.2.1, q.2.2)) x.vd.toNat c.blk (laneWord i))
        else if acq && o then s.endsQuantum c.g else s
      c.watched s x true false a (acq && o)

def execVld (x : LArgs) (s : State) : Host.Outcome State Fault Refusal :=
  laneIssue (.vld x) x (x.order != 0) (fun s c => loadLanes (.vld x) x s c (s.dispV c x)) s
def execVldu (x : LArgs) (s : State) : Host.Outcome State Fault Refusal :=
  laneIssue (.vldu x) x (x.order != 0) (fun s c =>
    withB s c x .n32 false (fun s b => loadLanes (.vldu x) x s c (dispU x (b 0)))
      fun s => (s.lmpTrain c.g (lmpIndex c.blk.pc.toNat) 0).missed c 1 x.nt true) s

/-! ## Stores (R202) -/

/-- Whether a store of lanes may write a place: it covers the sector, or the sector is not poisoned (R199). -/
def State.storeFits (s : State) (c : LCtx) (cells : List (Loc × Byte)) (l : Loc) : Bool :=
  !s.poisonFor c.g c.e l || coversSector cells l
/-- The cells of a store of lanes: a later lane's bytes lie over an earlier one's. -/
def State.storeCells (s : State) (c : LCtx) (x : LArgs) (a : LaneAccs) : List (Loc × Byte) :=
  a.oks.flatMap fun q => cellsOf (.mem q.2.2) (LArgs.z x) (s.laneVal c.g x.ty x.vc.toNat q.1)

/-- vst and vstu from the displacements of their lanes. -/
def storeLanes (i : Instr) (x : LArgs) (s : State) (c : LCtx) (disp : Nat → Nat) : LEnds :=
  let z := LArgs.z x
  let rel := x.order == 2
  let (s1, a) := s.laneAccs c x.breg z false true disp
  match a.owned with
  | some va => .wait s (.owned va)
  | none =>
    let cells := s1.storeCells c x a
    let bad := a.oks.filter fun q => !s1.storeFits c cells (.mem q.2.2)
    let a : LaneAccs :=
      { a with
        oks := a.oks.filter fun q => s1.storeFits c cells (.mem q.2.2)
        faults := a.faults ++ (bad.map fun q => (q.1, { kind := 0x0B, addr := q.2.1, write := true })) ++
          a.away.map fun q => (q.1, { kind := 6, addr := q.2, write := true }) }
    let o := s1.ordered c.g
    let s2 := if rel && !o then s1.flushLane c.g c.e c.blk else s1
    let (s3, a) := if rel && !o then s2.scopeFaults c x true false true a else (s2, a)
    let q : QStore := { cells := s3.storeCells c x a, e := c.e, lanei := true, pc := c.blk.pc }
    if s3.bufferFull c.g q then .wait s .fork
    else
      let s := s3.requestLines c a x.nt .demand
      let (s, smp) := s.sample c 2 x.nt false a
      let s := s.putSample c.g c.e smp
      let s :=
        if a.oks.isEmpty then s
        else if rel && o then
          let one (l : Nat × Nat × Nat) : RelLane := ⟨l.1, l.2.1, cellsOf (.mem l.2.2) z (s.laneVal c.g x.ty x.vc.toNat l.1)⟩
          s.store c.g c.e { q with sync := some x.scope, rel := a.oks.map one, blk := c.blk, word := laneWord i, active := c.active } true
        else s.store c.g c.e q rel
      c.watched s x false true a false

def execVst (x : LArgs) (s : State) : Host.Outcome State Fault Refusal :=
  laneIssue (.vst x) x (x.order != 0) (fun s c => storeLanes (.vst x) x s c (s.dispV c x)) s
def execVstu (x : LArgs) (s : State) : Host.Outcome State Fault Refusal :=
  laneIssue (.vstu x) x (x.order != 0) (fun s c =>
    withB s c x .n32 false (fun s b => storeLanes (.vstu x) x s c (dispU x (b 0))) fun s => s.missed c 2 x.nt false) s

/-- vprf (R203): lanes that could not load are dropped. -/
def execVprf (x : LArgs) (s : State) : Host.Outcome State Fault Refusal :=
  laneIssue (.vprf x) x false (fun s c =>
    let (s1, a) := s.laneAccs c x.breg (LArgs.z x) true false (s.dispV c x)
    match a.owned with
    | some va => .wait s (.owned va)
    | none =>
      let a : LaneAccs := { a with oks := a.oks.filter fun q => !(findPage (s1.pagesFor c.g) q.2.1).any s1.pagePoisoned }
      let (s, smp) := (s1.requestLines c a x.nt (if x.nt then .l2 else .vprf)).sample c 4 x.nt false a
      .ok (s.putSample c.g c.e smp) []) s

/-! ## Atomics (R204) -/

/-- The lanes of an atomic by the location they address, in the order of their lowest lane. -/
def byCell (oks : List (Nat × Nat × Nat)) : List (Nat × List (Nat × Nat)) :=
  oks.foldl (fun (gs : List (Nat × List (Nat × Nat))) q =>
    if gs.any fun k => k.1 == q.2.2 then gs.map fun k => if k.1 == q.2.2 then (k.1, k.2 ++ [(q.1, q.2.1)]) else k
    else gs ++ [(q.2.2, [(q.1, q.2.1)])]) []

/-- vatom, with or without return. -/
def atomLanes (i : Instr) (op : Nat) (returns : Bool) (x : LArgs) (s : State) (c : LCtx) (cmp : Nat → Nat) : LEnds :=
  let z := LArgs.z x
  let (s1, a) := s.laneAccs c x.breg z true true (s.dispV c x)
  match a.owned with
  | some va => .wait s (.owned va)
  | none =>
    let a := s1.poisonFaults c a true
    let a : LaneAccs := { a with faults := a.faults ++ a.away.map fun q => (q.1, { kind := 6, addr := q.2, write := true }) }
    let o := s1.ordered c.g
    let lines := a.oks.map fun q => q.2.2 / 128
    let s := s1.conflicts c.g c.e lines
    let s := if o then s
      else if x.order == 2 then s.flushLane c.g c.e c.blk
      else s.flushLines c.g c.e lines
    let (s, a) := if o then (s, a) else s.scopeFaults c x (x.order == 2) (x.order == 1) true a
    let s := s.requestLines c a x.nt .demand
    let (s, smp) := s.sample c 3 x.nt returns a
    let id := (s.group c.g).nextId
    let reqs : List AtomReq := (byCell a.oks).map fun k =>
      { loc := k.1, op, size := z, ty := x.ty.code.toNat
        lanes := k.2.map fun l => (l.1, BitVec.ofNat 64 (s.laneVal c.g x.ty x.vc.toNat l.1), BitVec.ofNat 64 (cmp l.1))
        outst := if returns then some id else none, scope := x.scope, rmt := x.sat, rel := x.order == 2, acq := x.order == 1
        va := (k.2.headD (0, 0)).2, pc := c.blk.pc, e := c.e, blk := c.blk, word := laneWord i, active := c.active }
    let good := maskOf (a.oks.map (·.1))
    let base : Outst := { e := c.e, lanes := good, mem := true, sample := if o then [] else smp }
    let s :=
      if o then
        let s := s.putSample c.g c.e smp
        let s := if returns && good != 0 then
            s.addOutst c.g { base with held := true, v := laneWrite x.ty x.vd.toNat (a.oks.map fun q => (q.1, 0)) }
          else s
        let s := reqs.foldl (fun s r => s.listAtomic c.g r) s
        if returns || x.order != 0 then s.endsQuantum c.g else s
      else
        let (s, rets) := reqs.foldl (fun (p : State × List (Nat × Nat)) r =>
          let (s, rs) := p.1.atomic r
          (s, p.2 ++ rs)) (s, [])
        if returns && good != 0 then s.addOutst c.g { base with v := laneWrite x.ty x.vd.toNat rets }
        else s.putSample c.g c.e smp
    c.watched s x true true a o

def atomIssue (i : Instr) (op : Nat) (returns : Bool) (x : LArgs) : State → Host.Outcome State Fault Refusal :=
  laneIssue i x true fun s c =>
    if op = 8 then withB s c x x.ty true (fun s b => atomLanes i op returns x s c b) fun s => s.missed c 3 x.nt returns
    else atomLanes i op returns x s c fun _ => 0
def execVatom (op : BitVec 6) (x : LArgs) (s : State) : Host.Outcome State Fault Refusal := atomIssue (.vatom op x) op.toNat true x s
def execVatomNr (op : BitVec 6) (x : LArgs) (s : State) : Host.Outcome State Fault Refusal := atomIssue (.vatomNr op x) op.toNat false x s

/-! ## Scratch (R180) -/

/-- The local address of each lane. -/
def State.localAddr (s : State) (c : LCtx) (x : LArgs) (b l : Nat) : Nat :=
  (b + (s.getVL c.g x.va.toNat l).toNat * 2 ^ (x.ext.extractLsb' 10 2).toNat) % 2 ^ 32

/-- The lanes that may access scratch, and the faults of the others. -/
def State.scratchAccs (s : State) (c : LCtx) (x : LArgs) (b : Nat → Nat) (rd : Bool) : LaneAccs :=
  let z := LArgs.z x
  (lanesOf c.act).foldl (fun (r : LaneAccs) l =>
    let a := s.localAddr c x (b l) l
    let flt (k : Nat) : LaneAccs := { r with faults := r.faults ++ [(l, { kind := k, addr := a, write := !rd })] }
    if a % z != 0 then flt 4
    else if !(s.block c.g.b).scratchOk a z then flt 5
    else if rd && s.poisonFor c.g c.e (.scr c.g.b a) then flt 0x0B
    else { r with
      oks := r.oks ++ [(l, a, a)]
      owned := if s.ownedAt (.scr c.g.b a) then some a else r.owned }) {}

/-- The banks that lanes address and that switch their mode (R173). -/
def State.scratchSwitch (s : State) (c : LCtx) (x : LArgs) (b : Nat → Nat) : Word :=
  maskOf ((lanesOf c.act).map fun l => s.localAddr c x (b l) l / 131072 % 32) &&& (s.block c.g.b).switchMask

/-- b as the offset of a scratch access. -/
def withOffset (s : State) (c : LCtx) (x : LArgs) (k : State → (Nat → Nat) → LEnds) : LEnds :=
  withB s c x .n32 false fun s b =>
    if s.scratchSwitch c x b != 0 then .wait s (.bank (s.scratchSwitch c x b))
    else k s b

def execVlds (x : LArgs) (s : State) : Host.Outcome State Fault Refusal :=
  laneIssue (.vlds x) x true (fun s c => withOffset s c x fun s b =>
    let a := s.scratchAccs c x b true
    match a.owned with
    | some l => .wait s (.owned l)
    | none =>
      let s := s.settleUnits c.g c.e (a.oks.flatMap fun q => Loc.span (.scr c.g.b q.2.2) (LArgs.z x))
      let vals := a.oks.map fun q => (q.1, s.load c.g c.e (.scr c.g.b q.2.2) (LArgs.z x))
      .ok (s.laneLater c (maskOf (a.oks.map (·.1))) (laneWrite x.ty x.vd.toNat vals) []) a.faults) s
def execVsts (x : LArgs) (s : State) : Host.Outcome State Fault Refusal :=
  laneIssue (.vsts x) x true (fun s c => withOffset s c x fun s b =>
    let a := s.scratchAccs c x b false
    match a.owned with
    | some l => .wait s (.owned l)
    | none =>
      let cells (qs : List (Nat × Nat × Nat)) : List (Loc × Byte) :=
        qs.flatMap fun q => cellsOf (.scr c.g.b q.2.2) (LArgs.z x) (s.laneVal c.g x.ty x.vc.toNat q.1)
      let bad := a.oks.filter fun q => !s.storeFits c (cells a.oks) (.scr c.g.b q.2.2)
      let ok := a.oks.filter fun q => s.storeFits c (cells a.oks) (.scr c.g.b q.2.2)
      let fs := a.faults ++ bad.map fun q => (q.1, { kind := 0x0B, addr := q.2.1, write := true })
      if ok.isEmpty then .ok s fs
      else .ok (s.store c.g c.e { cells := cells ok, e := c.e, lanei := true, pc := c.blk.pc } false) fs) s

/-! ## FIFO banks (R181) -/

/-- The bank of a FIFO instruction, or its fault in every Active lane. -/
def fifoOp (i : Instr) (x : LArgs) (f : State → LCtx → Nat → Bank → LEnds) : State → Host.Outcome State Fault Refusal :=
  laneIssue i x true fun s c => withB s c x .n32 false fun s b =>
    let n := b 0 % 32
    if c.act = 0 then .ok (if c.active = 0 then s.endsQuantum c.g else s) []
    else match (s.block c.g.b).banks[n]? with
      | none => .ok s ((lanesOf c.act).map fun l => (l, { kind := 5 }))
      | some k =>
        if k.switching.isSome then .wait s (.bank (maskOf [n]))
        else if k.mode ≠ .fifo then .ok s ((lanesOf c.act).map fun l => (l, { kind := 5 }))
        else f s c n k

/-- The entries of a bank changed. -/
def State.setFifo (s : State) (b : BKey) (n : Nat) (q : List (List Word)) : State :=
  s.updBlock b fun x => { x with banks := x.banks.modify n fun k => { k with fifo := q } }
/-- The registers that popped entries go to: register `vd + i` of the lanes, ascending. -/
def popWrites (vd : Nat) (lanes : Word) (ents : List (List Word)) : List (Nat × List (Nat × Word)) :=
  (List.range 4).map fun i => (vd + i, ((lanesOf lanes).zip ents).map fun p => (p.1, p.2.getD i 0))

def execVfpush (x : LArgs) (s : State) : Host.Outcome State Fault Refusal :=
  fifoOp (.vfpush x) x (fun s c n k =>
    let ents := (lanesOf c.act).map fun l => (List.range 4).map fun i => s.getVL c.g (x.va.toNat + i) l
    if s.ordered c.g then .ok (s.listOp c.g (.push n c.e ents c.act c.blk (laneWord (.vfpush x)))) []
    else if k.fifo.length + ents.length > 8192 then .wait s (.fifo n ents.length true)
    else .ok (s.setFifo c.g.b n (k.fifo ++ ents)) []) s
def execVfpop (x : LArgs) (s : State) : Host.Outcome State Fault Refusal :=
  fifoOp (.vfpop x) x (fun s c n k =>
    let cnt := (lanesOf c.act).length
    let id := (s.group c.g).nextId
    if s.ordered c.g then
      let s := s.addOutst c.g { e := c.e, lanes := c.act, held := true, v := popWrites x.vd.toNat c.act [] }
      .ok (s.listOp c.g (.pop n c.e x.vd.toNat id c.act c.blk (laneWord (.vfpop x)))) []
    else if k.fifo.length < cnt then .wait s (.fifo n cnt false)
    else .ok ((s.setFifo c.g.b n (k.fifo.drop cnt)).laneLater c c.act (popWrites x.vd.toNat c.act k.fifo) []) []) s

/-- Whether a waiting push or pop may go on (R181). -/
def State.fifoReady (s : State) (g : GKey) (e : Nat) : Bool :=
  match (s.split g e).lpark with
  | some (.fifo n need push) =>
    match (s.block g.b).banks[n]? with
    | some k => decide (k.mode ≠ .fifo) || (if push then k.fifo.length + need ≤ 8192 else k.fifo.length ≥ need)
    | none => true
  | _ => false
/-- FIFO_WAIT_END (R181): the head of the queue issues again. -/
def execFifoWaitEnd (s : State) : Host.Outcome State Fault Refusal :=
  .next <| match s.turn with
  | .event (.fifoWaitEnd g e) => if s.fifoReady g e then
      (s.updSplit g e fun p => { p with lpark := none }).updGroup g fun x => { x with passBp := (e + 5) :: x.passBp }
    else s
  | _ => s

/-! ## The return of results (R147, R148) -/

/-- Whether something of a split waits for its results: within a quantum of ordered mode they return then and only then
(DEDUCED, log entry 22). -/
def State.waitsResults (s : State) (g : GKey) (e : Nat) : Bool :=
  let x := s.group g
  (s.split g e).hold || (match (s.split g e).st with
    | .fusing _ | .draining => true
    | _ => false) ||
    x.ents.any fun p => match p.2.st with
      | .parked (.lanes _ _) | .parked .lsync | .parked .fence | .parked .fenceEng => true
      | _ => false
/-- The lanes whose value may be written: those whose line is not in flight (R302). -/
def Outst.arrived (o : Outst) : Word := o.lanes &&& ~~~maskOf (o.fills.map (·.1))
def State.returnReady (s : State) (g : GKey) (id : Nat) : Bool :=
  match (s.group g).outst.find? fun o => o.id == id with
  | none => false
  | some o => !o.held && (if s.ordered g then s.waitsResults g o.e && o.arrived == o.lanes else o.lanes == 0 || o.arrived != 0) &&
      s.cowRoom g (o.v.map (·.1))
/-- The lanes whose values are written now: all in ordered mode, else a free part of those that may be (R147, R381). -/
def State.returnLanes (s : State) (g : GKey) (o : Outst) : Word :=
  if s.ordered g then o.lanes
  else
    let part := o.arrived &&& BitVec.ofNat 32 (Config.choice s.free)
    if part = 0 then o.arrived else part

/-- The values of lanes of a result written. -/
def State.writeResult (s : State) (g : GKey) (o : Outst) (part : Word) : State :=
  let s := s.writeLanes g (o.v.map fun w => (w.1, w.2.filter fun q => part.getLsbD q.1))
  o.m.foldl (fun s p => s.setM g p.1 (o.lanes &&& part) p.2) s
/-- Values of lanes of a result written; with the last of them the result is over: its load trains the LMP (R290), the hold of its
split is released when it was the last (R148), and its sample is stored. -/
def State.returnResult (s : State) (g : GKey) (o : Outst) (part : Word) : State :=
  let s := s.writeResult g o part
  let left := o.lanes &&& ~~~part
  if left ≠ 0 then
    s.updGroup g fun x => { x with outst := x.outst.map fun y => if y.id == o.id then { y with lanes := left } else y }
  else
    let s := s.updGroup g fun x => { x with outst := x.outst.filter fun y => y.id != o.id }
    let s := match o.lmp with
      | some i => s.lmpTrain g i (s.cycle - o.issued)
      | none => s
    let more := (s.group g).outst.any fun y => y.e == o.e
    let s := s.updSplit g o.e fun p =>
      { p with
        hold := p.hold && more
        demoted := if p.demoted = some o.id then none else p.demoted }
    (s.putSample g o.e o.sample).groupCheck g
/-- RESULT_RETURN (R147). -/
def execResultReturn (s : State) : Host.Outcome State Fault Refusal :=
  .next <| match s.turn with
  | .event (.resultReturn g id) =>
    if s.returnReady g id then
      match (s.group g).outst.find? fun o => o.id == id with
      | some o => ({ s with free := s.free + 1 }).returnResult g o (s.returnLanes g o)
      | none => s
    else s
  | _ => s

/-- LINE_FILL_COMPLETE (R302) (DEDUCED, log entry 49). -/
def execLineFillComplete (s : State) : Host.Outcome State Fault Refusal :=
  .next <| match s.turn with
  | .event (.lineFillComplete cl line) => s.fillDone cl line
  | _ => s

end Sys2Proof.Machine
end

