-- ==== Sys2Proof/Machine/Objects.lean ====
section
/-! DEFINITION. Code objects: their header and image table, safe-point maps, containers of the portable instruction set, and the image
that the Keep selects (R32, R251, R347 to R352). -/

namespace Sys2Proof.Machine

/-! ## Bytes (R347) -/

/-- A little-endian field of a record. -/
def fieldAt (b : List Byte) (o n : Nat) : Nat := leNat ((b.drop o).take n)
/-- A revision key AZ9.Xn, zero-padded: its major and its minor. -/
def revKey (k : List Byte) : Option (Nat × Nat) :=
  let digit (n : Nat) : Bool := 48 ≤ n && n ≤ 57
  match k.map (·.toNat) with
  | 0x41 :: 0x5A :: 0x39 :: 0x2E :: x :: d :: r =>
    if !(65 ≤ x && x ≤ 90 && digit d) then none
    else if r.all (· == 0) then some (x, d - 48)
    else match r with
      | e :: r => if d != 48 && digit e && r.all (· == 0) then some (x, 10 * (d - 48) + (e - 48)) else none
      | [] => none
  | _ => none
/-- The device's own revision, AZ9.A0. -/
def deviceRev : Nat × Nat := (65, 0)

/-! ## Safe-point maps (R351) -/

/-- An entry of a map: where a live value stands. -/
def liveOf (n : Nat) : Option LiveVal :=
  let spill := n / 2 ^ 38 % 4 == 1
  let loc := n % 2 ^ 32
  if n / 2 ^ 61 > 4 || n / 2 ^ 40 % 8 != 0 || n / 2 ^ 38 % 4 > 1 || n / 2 ^ 32 % 64 != 0 then none
  else some { cls := n / 2 ^ 61, vreg := n / 2 ^ 43 % 2 ^ 18, spill, loc := if spill then (BitVec.ofNat 32 loc).toInt else loc }
/-- The first safe point of a map of an image whose scalar section starts at an address, and the bytes after it. -/
def siteOf (base : Nat) (b : List Byte) : Option (RetSite × List Byte) :=
  let f := fieldAt b
  let n := f 10 2
  let live := (List.range n).map fun i => liveOf (f (16 + 8 * i) 8)
  if b.length < 16 + 8 * n || f 8 1 > 3 || f 9 1 != 0 || f 12 4 != 0 || live.any Option.isNone then none
  else some ({ addr := base + f 4 4, id := f 0 4, kind := f 8 1, live := live.filterMap id }, b.drop (16 + 8 * n))
/-- The safe points of a map, read with a bound on their number. -/
def sitesOf (base : Nat) : Nat → List Byte → Option (List RetSite)
  | _, [] => some []
  | 0, _ => none
  | k + 1, b => match siteOf base b with
    | some (x, r) => (sitesOf base k r).map (x :: ·)
    | none => none
/-- The safe points of a maps section. -/
def mapSites (base : Nat) (b : List Byte) : Option (List RetSite) := sitesOf base (b.length / 16 + 1) b

/-! ## Containers (R349, R350) -/

/-- A container of the portable instruction set. The number of a register is virtual, 0 to 262,143; a mask register that masks an
instruction is one of m0 to m4095. -/
structure Hvi where
  kind : Nat
  major : Nat
  sub : Nat
  d : Nat
  a : Nat
  b : Nat
  c : Nat
  ty : Nat
  rm : Nat
  sat : Nat
  bk : Nat
  m : Nat
  ext : Nat
  imm28 : Nat
  /-- Bits [63:0], the word of a matrix container, and bits [123:64]. -/
  low : Nat
  high : Nat
deriving DecidableEq, Repr
/-- The fields of a container. -/
def hviOf (w : Nat) : Hvi :=
  let f (lo n : Nat) : Nat := w / 2 ^ lo % 2 ^ n
  { kind := f 124 4, major := f 117 7, sub := f 111 6, d := f 93 18, a := f 75 18, b := f 55 20, c := f 37 18, ty := f 33 4, rm := f 31 2
    sat := f 30 1, bk := f 28 2, m := f 16 12, ext := f 0 16, imm28 := f 0 28, low := f 0 64, high := f 64 60 }
/-- The instruction whose mnemonic a scalar container has: that of the word of its major, with sub as fn, sub or size, and no operand. -/
def Hvi.scalar (x : Hvi) : Instr :=
  let word (n : Nat) : Instr := decodeScalar (BitVec.ofNat 32 (x.major * 2 ^ 26 + n))
  let alone (b : Bool) (i : Instr) : Instr := if b then i else .unassignedEncoding
  match x.major with
  | 0x01 | 0x0F => word x.sub
  | 0x08 => word (x.sub * 64)
  | 0x10 | 0x11 => alone (x.sub < 8) (word (x.sub * 512))
  | n =>
    if (0x22 ≤ n && n ≤ 0x34 && n != 0x26) || (0x3C ≤ n && n ≤ 0x3E) then word (x.sub * 2 ^ 21)
    else alone (x.sub == 0) (word 0)
/-- How many register operands the assembly form of a scalar instruction has, and whether it has another operand, which a container
carries in imm28; none for what is no scalar instruction of the portable set (R349) (DEDUCED, log entry 45). -/
def hviForm : Instr → Option (Nat × Bool)
  | .add .. | .sub .. | .and .. | .or .. | .xor .. | .andn .. | .shl .. | .shr .. | .sar .. | .mul .. | .mulh .. | .mulhn .. | .div .. | .divn ..
  | .rem .. | .remn .. | .min .. | .max .. | .minn .. | .maxn .. | .slt .. | .sltn .. | .seq .. | .cmov .. | .cwset .. | .launchv .. | .cpy ..
  | .cpy2d .. | .cpyg .. | .rret .. | .satom .. | .scas .. => some (3, false)
  | .addi .. | .andi .. | .ori .. | .xori .. | .slti .. | .sltni .. | .shli .. | .shri .. | .sari .. | .bfx .. | .bfi .. | .sld .. | .sst ..
  | .beq .. | .bne .. | .blt .. | .bge .. | .bltn .. | .bgen .. | .jalr .. | .sget .. | .waiteq .. | .waitne .. => some (2, true)
  | .popc .. | .clz .. | .ctz .. | .bind .. | .bstat .. | .mtestAny .. | .mtestAll .. | .mtestNone .. | .mcnt .. | .launch ..
  | .rstat .. | .bankcfg .. | .bankst .. | .twin .. | .hrd .. | .hwr .. | .pgq .. | .fltrd .. => some (2, false)
  | .ldi .. | .ldh1 .. | .ldh2 .. | .ldh3 .. | .srd .. | .swr .. | .ringPeek .. | .cntRd .. | .splrd .. => some (1, true)
  | .kill _ | .nap _ | .unbind _ | .cwinv _ | .rwait _ | .cbatch _ | .cwait _ | .hsave _ | .hload _ | .hclr _ | .pgreq _ | .rteRe _ => some (1, false)
  | .illegal _ | .illegal3f _ | .jmp _ | .jal _ | .fence _ | .ringGive .. | .ringTake .. | .barArrive _ | .barWait _ | .barRoute _ | .tmode _
  | .tchain _ | .trap _ | .sysc _ => some (0, true)
  | .exit | .yield | .lsync | .fenceEng | .barBlk | .tacq | .trel | .treset | .qend | .rte | .rteSkip => some (0, false)
  | _ => none
/-- Whether a container keeps the rules of R349 and R350: no split, switch or callf, no lrun or lend, no major 0x3D or 0x3E. -/
def Hvi.legal (x : Hvi) : Bool :=
  match x.kind with
  | 0 => x.major < 64 && x.sub < 32 && x.ty == 0 && x.rm == 0 && x.sat == 0 && x.bk == 0 && match hviForm x.scalar with
    | some (n, imm) => [x.d, x.a, x.b, x.c].zipIdx.all (fun p => p.1 == 0 || (p.2 < n && p.1 < 2 ^ 18)) && (imm || x.imm28 == 0)
    | none => false
  | 1 => (x.bk > 1 || x.b < 2 ^ 18) && match laneOf (BitVec.ofNat 7 x.major) (BitVec.ofNat 6 x.sub) (laneArgs 0) with
    | some (.lend _) | none => false
    | some _ => true
  | 2 => x.high == 0 && (matOf (BitVec.ofNat 6 (x.low / 2 ^ 58)) (BitVec.ofNat 6 (x.low / 2 ^ 52)) (matArgs 0)).isSome
  | _ => false
/-- The containers of a stream. -/
def hviStream (b : List Byte) : List Hvi := (List.range (b.length / 16)).map fun i => hviOf (fieldAt b (16 * i) 16)
/-- Whether fsd-xl takes a container stream. -/
def hviLegal (b : List Byte) : Bool := b.length % 16 == 0 && (hviStream b).all Hvi.legal
/-- The container that a branch or jump at an index names. -/
def Hvi.target (x : Hvi) (i : Nat) : Int := i + (BitVec.ofNat 28 x.imm28).toInt
/-- The scalar virtual register that a lane container of b-kind 01 reads, and the scalar container as of which it reads it: the last one
before the lane container in stream order, if there is one (R349). -/
def hviWindow (cs : List Hvi) (i : Nat) : Option (Nat × Option Nat) :=
  match cs[i]? with
  | none => none
  | some x =>
    if x.kind == 1 && x.bk == 1 then some (x.b % 2 ^ 18, (List.range i).reverse.find? fun j => (cs[j]?).any (·.kind == 0)) else none

/-! ## The image table (R347) -/

/-- An entry of an image table. -/
structure ImgEnt where
  kind : Nat
  flags : Nat
  rev : List Byte
  scal : Nat × Nat
  lane : Nat × Nat
  mat : Nat × Nat
  maps : Nat × Nat
  zero : Bool
deriving DecidableEq, Repr
def imgEnt (b : List Byte) (i : Nat) : ImgEnt :=
  let o := 64 + 64 * i
  let f (k n : Nat) : Nat := fieldAt b (o + k) n
  { kind := f 0 1, flags := f 1 1, rev := (b.drop (o + 8)).take 16, scal := (f 0x18 4, f 0x1C 4), lane := (f 0x20 4, f 0x24 4)
    mat := (f 0x28 4, f 0x2C 4), maps := (f 0x30 4, f 0x34 4), zero := f 2 6 == 0 && f 0x38 8 == 0 }
/-- The bytes of a section. -/
def sectBytes (b : List Byte) (x : Nat × Nat) : List Byte := (b.drop x.1).take x.2
/-- Whether an entry keeps its layout in an object of a length. -/
def ImgEnt.ok (x : ImgEnt) (len : Nat) : Bool :=
  x.zero && x.flags < 4 && [x.scal, x.lane, x.mat, x.maps].all (fun p => p.1 + p.2 ≤ len) &&
    if x.kind = 2 then x.rev.all (· == 0) && decide (x.lane = (0, 0)) && decide (x.mat = (0, 0)) && decide (x.maps = (0, 0))
    else x.kind == 1 && (revKey x.rev).isSome
/-- A native image where the object that holds it is loaded. -/
def ImgEnt.native (x : ImgEnt) (b : List Byte) (base : Nat) : Option ((Nat × Nat) × Bool × CodeImg) :=
  match revKey x.rev, mapSites (base + x.scal.1) (sectBytes b x.maps) with
  | some k, some points =>
    some (k, x.flags.testBit 0,
      { scal := [⟨base + x.scal.1, x.scal.2⟩], lane := ⟨base + x.lane.1, x.lane.2⟩, mat := ⟨base + x.mat.1, x.mat.2⟩
        mapped := x.flags.testBit 1, points })
  | _, _ => none
/-- A code object read from its bytes, loaded at an address with its kernels at theirs; none where the Keep refuses it: it holds one
portable image, at most one native image for a revision key, and no field that must be zero is not. -/
def parseObject (base : Nat) (b : List Byte) (kernels : List Nat) (xlAt : Nat) : Option CodeObj :=
  let n := fieldAt b 6 2
  let es := (List.range n).map (imgEnt b)
  let nat := (es.filter (·.kind == 1)).map fun x => x.native b base
  if !(64 + 64 * n ≤ b.length && fieldAt b 0 4 == 0x4F435A41 && fieldAt b 4 2 == 1 && 1 ≤ n && n ≤ 16 && fieldAt b 8 8 == b.length &&
    fieldAt b 0x10 8 + fieldAt b 0x18 8 ≤ b.length && fieldAt b 0x20 8 + fieldAt b 0x28 8 ≤ b.length && fieldAt b 0x30 16 == 0 &&
    es.all (·.ok b.length) && nat.all Option.isSome && decide ((nat.filterMap id).map (·.1)).Nodup) then none
  else match es.filter (·.kind == 2) with
    | [h] =>
      let stream := sectBytes b h.scal
      some { base, kernels, natives := nat.filterMap id, hvi := Config.sha512 stream, hviOk := hviLegal stream, xlAt }
    | _ => none

/-! ## The image that the Keep selects (R348) -/

/-- The native candidate for a revision: that of its own key, else the compatible one of its major with the highest minor below its
own. -/
def CodeObj.nativeFor (o : CodeObj) (k : Nat × Nat) : Option CodeImg :=
  match o.natives.find? fun x => decide (x.1 = k) with
  | some x => some x.2.2
  | none =>
    let older := o.natives.filter fun x => x.2.1 && x.1.1 == k.1 && x.1.2 < k.2
    (older.foldl (fun (m : Option ((Nat × Nat) × Bool × CodeImg)) x => match m with
      | some y => if y.1.2 < x.1.2 then some x else some y
      | none => some x) none).map (·.2.2)
/-- A translation at an address: its scalar section, then its lane and its matrix section, aligned. -/
def placeXl (x : XlImg) (a : Nat) : CodeImg :=
  let l := (a + x.scallen + 3) / 4 * 4
  let m := (l + x.lanelen + 7) / 8 * 8
  { scal := [⟨a, x.scallen⟩], lane := ⟨l, x.lanelen⟩, mat := ⟨m, x.matlen⟩, mapped := true, points := (mapSites a x.maps).getD [] }
/-- What a launch of a kernel finds: no code object with it, its image, one to be translated, or one refused. -/
inductive Pick where
  | none
  | use (m : CodeImg)
  | translate
  | refused
deriving DecidableEq, Repr
/-- The code object of a kernel. -/
def Context.object (x : Context) (k : Nat) : Option CodeObj := x.objects.find? (·.kernels.contains k)
/-- The candidates of a kernel in their order. -/
def State.candidate (s : State) (c : CKey) (k : Nat) : Pick :=
  match (s.ctx c).object k with
  | Option.none => .none
  | some o => match o.use.orElse fun _ => o.nativeFor deviceRev with
    | some m => .use m
    | Option.none => match s.translated.find? fun x => decide (x.1 = o.hvi) with
      | some x => .use (placeXl x.2 o.xlAt)
      | Option.none => if o.refused then .refused else .translate
/-- The code object of a kernel changed. -/
def State.updObject (s : State) (c : CKey) (k : Nat) (f : CodeObj → CodeObj) : State :=
  s.updCtx c fun x => { x with objects := x.objects.map fun o => if o.kernels.contains k then f o else o }
/-- The image of a kernel selected at its first launch: it holds until the object is unloaded. -/
def State.selectImage (s : State) (c : CKey) (k : Nat) : State :=
  match s.candidate c k with
  | .use m => s.updObject c k fun o => { o with use := some m }
  | _ => s
/-- Whether the translation of a kernel's object is under way. -/
def State.translating (s : State) (c : CKey) (k : Nat) : Bool := ((s.ctx c).object k).any (·.busy)
/-- The translation of a kernel's object begun. -/
def State.translate (s : State) (c : CKey) (k : Nat) : State := s.updObject c k fun o => { o with busy := true }

/-! ## The image of a region -/

/-- The image that a region runs, where the Keep has selected one. -/
def State.imageOf (s : State) (r : RKey) : Option CodeImg := ((s.ctx r.c).object (s.region r).rcb.entry).bind (·.use)
/-- Whether bytes lie in a section. -/
def Sect.holds (x : Sect) (a n : Nat) : Bool := x.lo ≤ a && a + n ≤ x.lo + x.len
/-- Whether a word lies in the scalar section, in the matrix section of a region's image (R32, R251). -/
def State.inScalar (s : State) (r : RKey) (a : Nat) : Bool := (s.imageOf r).all fun m => m.scal.any (·.holds a 4)
def State.inMatrix (s : State) (r : RKey) (a : Nat) : Bool := (s.imageOf r).all fun m => m.mat.holds a 8
/-- The mapped safe points of a region's image with those of later generations; none where its image does not map every one (R347,
R352). -/
def State.pointsOf (s : State) (r : RKey) : Option (List RetSite) :=
  let later := (s.ctx r.c).points
  match s.imageOf r with
  | some m => if m.mapped then some (m.points ++ later) else none
  | none => if later.isEmpty then none else some later

end Sys2Proof.Machine
end

