-- ==== Sys2Proof/Machine/Regions.lean ====
section
/-! DEFINITION. Regions: their records, launch, dispatch and placement, relaunch, completion, and the waits on
them (R75 to R96). -/

namespace Sys2Proof.Machine

/-! ## Records (R75 to R79) -/

/-- The vector groups of a block, and its groups (R75, R89). -/
def Rcb.vec (c : Rcb) : Nat := if c.persistent && c.vector == 0 then c.pgroups else c.vector
def Rcb.groups (c : Rcb) : Nat := c.copy + c.vec
/-- The blocks of a region: of its grid, or its logical cores (R80, R89). -/
def Rcb.blocks (c : Rcb) : Nat := if c.persistent then c.lcores else c.gridx * c.gridy * c.gridz
/-- The registers of a role (R142). -/
def Rcb.budget (c : Rcb) (vec : Bool) : Nat := 16 * if vec then c.vvec else c.vcopy

/-- The effective record of a launch with the parent's effective record, if it has one (R75, R76). -/
def effectiveRcb (b : List Byte) (parent : Option Rcb) : Rcb :=
  let f := fieldAt b
  let p := parent.getD {}
  let inh (o n : Nat) (v : Rcb → Nat) : Nat := if f o n = 0 then v p else f o n
  let bud (o n : Nat) (v : Rcb → Nat) : Nat := if parent.isSome then min (inh o n v) (v p) else inh o n v
  let shape := f 0x34 4
  let cores := bud 0x38 2 (·.cores)
  { ordered := (f 4 2).testBit 0 || (parent.isSome && p.ordered)
    persistent := (f 4 2).testBit 1
    relaunchable := (f 4 2).testBit 2
    coresident := (f 4 2).testBit 3
    detached := (f 4 2).testBit 4
    spread := (f 4 2).testBit 5
    prio := if f 6 1 = 0 then p.prio else f 6 1 - 1
    entry := inh 0x10 8 (·.entry)
    lanebase := inh 0x18 8 (·.lanebase)
    matbase := inh 0x20 8 (·.matbase)
    gridx := inh 0x28 4 (·.gridx)
    gridy := inh 0x2C 4 (·.gridy)
    gridz := inh 0x30 4 (·.gridz)
    copy := if shape = 0 then p.copy else shape % 256
    vector := if shape = 0 then (if parent.isSome then p.vector else 0) else shape / 256 % 256
    seq := if shape = 0 then p.seq else shape.testBit 16
    cores
    slots := bud 0x3A 2 (·.slots)
    vcopy := bud 0x3C 1 (·.vcopy)
    vvec := bud 0x3D 1 (·.vvec)
    banks := bud 0x3E 1 (·.banks)
    tags := bud 0x3F 1 (·.tags)
    adways := bud 0x40 1 (·.adways)
    hist := bud 0x41 1 (·.hist)
    stack := bud 0x44 4 (·.stack)
    domain := inh 0x48 2 (·.domain)
    quantum := inh 0x4C 4 (·.quantum)
    handler := inh 0x50 8 (·.handler)
    pgroups := inh 0x58 2 (·.pgroups)
    lcores := if parent.isSome then inh 0x5A 2 (·.lcores) else if f 0x5A 2 = 0 then cores else f 0x5A 2
    arg := BitVec.ofNat 64 (f 0x60 8)
    done := BitVec.ofNat 64 (f 0x68 8)
    preds := ((List.range 4).map fun i => f (0x70 + 2 * i) 2).filter (· != 0)
    kdesc := inh 0x78 8 (·.kdesc)
    stackva := f 0x80 8 }

/-- The ranges of R75 and the refusals of R77 that the record alone decides. -/
def rcbOk (b : List Byte) (parent : Option Rcb) (c : Rcb) : Bool :=
  let f := fieldAt b
  let zero (o n : Nat) : Bool := f o n == 0
  f 0 2 == 1 && f 2 2 == 1 && f 4 2 < 64 && zero 7 1 && zero 0x0A 6 && f 0x34 4 < 2 ^ 17 && zero 0x42 2 &&
    zero 0x4A 2 && zero 0x5C 4 && zero 0x88 0x78 &&
    c.prio < 8 && c.entry != 0 && c.entry % 4 == 0 && c.lanebase != 0 && c.lanebase % 4 == 0 && c.matbase % 8 == 0 &&
    (!c.seq || c.matbase != 0) && c.gridx * c.gridy * c.gridz < 2 ^ 32 &&
    !(f 0x34 4 == 0 && parent.isNone) && c.copy ≤ 8 &&
    (if c.persistent then c.vector == 0 || c.vector == c.pgroups else 1 ≤ c.vector) && c.vec ≤ 64 && c.groups ≤ 64 &&
    c.cores ≤ 192 && c.slots ≤ 49152 && c.vcopy ≤ 4 && c.vvec ≤ 96 && c.banks ≤ 32 && c.tags ≤ 8 && c.adways ≤ 16 &&
    c.hist ≤ 1 && c.stack % 16 == 0 && (c.stack == 0 || c.stackva != 0) && c.stackva % 16 == 0 &&
    c.pgroups ≤ 64 && c.lcores ≤ 49152 && c.done.toNat % 8 == 0 && c.kdesc % 32 == 0 &&
    (!c.ordered || (c.tags ≤ 7 && 16 ≤ c.quantum && c.quantum ≤ 2 ^ 20))

/-- A kernel descriptor, if it passes R79. -/
def parseKdesc (b : List Byte) (c : Rcb) : Option KDesc :=
  let f := fieldAt b
  let flags := f 2 2
  let lo := f 4 2
  let hi := f 6 2
  let wins := f 8 1
  let base (n : Nat) : Nat := f (0x20 + 16 * n) 8
  let len (n : Nat) : Nat := f (0x28 + 16 * n) 4
  let winOk (n : Nat) : Bool := f (0x2C + 16 * n) 4 == 0 &&
    (if wins.testBit n then base n % 4 == 0 && base n < 2 ^ 56 else base n == 0 && len n == 0)
  let forkOk := !flags.testBit 0 || (lo % 8 == 0 && (hi + 1) % 8 == 0 && lo ≤ hi && hi < c.vvec * 16)
  if f 0 2 == 1 && flags < 2 && f 9 23 == 0 && forkOk && (List.range 8).all winOk then
    some
      { fork := if flags.testBit 0 then some (lo, hi) else none
        wins := ((List.range 8).filter fun n => wins.testBit n).foldl
          (fun m n => m.put n { base := BitVec.ofNat 64 (base n), len := BitVec.ofNat 64 (len n) }) [] }
  else none

/-! ## Room and placement (R80, R88) -/

/-- A core as placement sees it: free slots and registers, whether it has a free accumulator set, whether it
is new to the region. -/
structure CoreRoom where
  num : Nat := 0
  slots : Nat := 0
  regs : Nat := 0
  acc : Bool := false
  fresh : Bool := false
deriving DecidableEq, Repr

/-- A group to place: its index, its registers, and whether the sequencer runs on its core. -/
structure ToPlace where
  gid : Nat := 0
  regs : Nat := 0
  seq : Bool := false
deriving DecidableEq, Repr

/-- The blocks of a region that stand. -/
def State.standing (s : State) (r : RKey) : List (BKey × Block) := s.blocks.filter fun p => decide (p.1.r = r) && !p.2.ended

/-- The cores that a region's blocks hold. -/
def State.coresHeld (s : State) (r : RKey) : List Nat := ((s.standing r).flatMap fun p => p.2.cores).eraseDups

/-- A core's room for a region's block, none where the region holds no history bank and none is free (R281), or while a save vacates the core
(R338). -/
def State.coreRoom (s : State) (r : RKey) (k : Nat) : Option CoreRoom :=
  let free := (List.range 4).any fun h => (((s.core k).hist.get {} h).owner).isNone
  if ((s.region r).rcb.hist != 0 && (s.histIdx r k).isNone && !free) || (s.ctx r.c).closed.contains k then none
  else
    let sets := (s.blocks.filter fun p => !p.2.ended && p.2.seq.isSome && p.2.seqCore == k).length
    some
      { num := k, slots := 256 - (s.slotsUsed k).length, regs := 16384 - s.regsUsed k, acc := sets < 4
        fresh := !(s.coresHeld r).contains k }

/-- All the groups on one core. -/
def fitOne (gs : List ToPlace) (left : Nat) (seq : Bool) (k : CoreRoom) : Bool :=
  gs.length ≤ k.slots && gs.foldl (fun n g => n + g.regs) 0 ≤ k.regs && (!seq || k.acc) && (!k.fresh || left > 0)
/-- The groups spread in ascending index, each core taking as many as fit; `used` says that the first core of the
list has taken one. -/
def fitSpread : Nat → List ToPlace → List CoreRoom → Bool → Nat → Option (List (Nat × Nat))
  | _, [], _, _, _ => some []
  | 0, _, _, _, _ => none
  | _, _, [], _, _ => none
  | n + 1, g :: gs, k :: ks, used, left =>
    if k.slots > 0 && g.regs ≤ k.regs && (!g.seq || k.acc) && (used || !k.fresh || left > 0) then
      (fitSpread n gs ({ k with slots := k.slots - 1, regs := k.regs - g.regs } :: ks) true
        (if !used && k.fresh then left - 1 else left)).map fun r => (g.gid, k.num) :: r
    else fitSpread n (g :: gs) ks false left

/-- The pool entry that a spread block claims; a saved block keeps its own (R232). -/
def State.spreadTag (s : State) (r : RKey) : Option Nat :=
  ((List.range (s.region r).rcb.tags).reverse).find? fun t => (s.tagBlock r t).isNone

/-- The banks of a cluster that no block holds (R169). -/
def State.freeBanks (s : State) (cl : Nat) : List Nat :=
  let held := (s.blocks.filter fun p => p.2.cluster == cl && !p.2.ended).flatMap fun p => p.2.banks.map (·.num)
  (List.range 32).filter fun n => !held.contains n
/-- The adapter ways of a cluster that no region holds (R254). -/
def State.freeAdways (s : State) (cl : Nat) : List Nat :=
  (List.range 16).filter fun w => ((s.cluster cl).adways.get? w).isNone

/-- Where the groups of a block go in a cluster: group and core, and the core of the sequencer (R80, R88); `tagged` says that the block has
claimed a pool entry already. -/
def State.fitCluster (s : State) (r : RKey) (gs : List ToPlace) (seq tagged : Bool) (cl : Nat) : Option (List (Nat × Nat) × Nat) :=
  let c := (s.region r).rcb
  let left := c.cores - (s.coresHeld r).length
  let ways := c.adways == 0 || ((s.cluster cl).adways.any fun p => decide (p.2 = r)) || c.adways ≤ (s.freeAdways cl).length
  if (s.cluster cl).fenced || s.platform.fencedDies.contains (cl / 6) || s.platform.down.contains (.die (cl / 6)) || (s.freeBanks cl).length < c.banks || !ways ||
      c.slots < s.slotsHeld r + gs.length then none
  else
    let ks := (List.range 4).filterMap fun i => s.coreRoom r (cl * 4 + i)
    match ks.find? (fitOne gs left seq) with
    | some k => some (gs.map fun g => (g.gid, k.num), k.num)
    | none =>
      if !tagged && (s.spreadTag r).isNone then none
      else (fitSpread (gs.length + 5) gs ks false left).map fun m =>
        (m, ((m.find? fun p => gs.any fun g => g.gid == p.1 && g.seq).map (·.2)).getD ((m.headD (0, cl * 4)).2))

/-- The clusters of a die in the order in which they are tried (R88). -/
def State.clusterOrder (s : State) (r : RKey) (die : Nat) : List Nat :=
  let all := (List.range 6).map fun i => die * 6 + i
  if (s.region r).rcb.spread then
    let n := (s.region r).nextCluster.get 0 die
    all.drop n ++ all.take n
  else (all.filter fun cl => s.regionOnCluster r cl) ++ all.filter fun cl => !s.regionOnCluster r cl

/-- The place of a block on a die. -/
def State.fitDie (s : State) (r : RKey) (gs : List ToPlace) (seq tagged : Bool) (die : Nat) : Option (Nat × List (Nat × Nat) × Nat) :=
  (s.clusterOrder r die).findSome? fun cl => (s.fitCluster r gs seq tagged cl).map fun p => (cl, p.1, p.2)

/-- The groups of a new block. -/
def Rcb.toPlace (c : Rcb) : List ToPlace :=
  (List.range c.groups).map fun i => { gid := i, regs := c.budget (i ≥ c.copy), seq := c.seq && i == c.copy }

/-- A history bank granted to a region: it is cleared, and the cluster's lines and fills of its owner have none from now
on (R281, R292). -/
def State.grantBank (s : State) (r : RKey) (k h : Nat) : State :=
  let free (o : Option Nat) : Option Nat := if o = some (k % 4 * 4 + h) then none else o
  (s.updHbank k h fun _ => { owner := some r }).updCluster (k / 4) fun x =>
    { x with
      cache := x.cache.map fun p => (p.1, { p.2 with owner := free p.2.owner })
      fills := x.fills.map fun f => { f with owner := free f.owner } }
/-- A number put in its place in ascending order. -/
def insNat (n : Nat) : List Nat → List Nat
  | [] => [n]
  | m :: r => if n < m then n :: m :: r else m :: insNat n r
/-- The image for a core that a region has just taken: the k-th core of its placement takes the k-th image; where that one is taken, the
first that waits (R296). -/
def Region.imageFor (x : Region) (held : List Nat) (k : Nat) : Option (Nat × List Byte) :=
  let all := (x.spare.map (·.1)).foldl (fun l n => insNat n l) x.taken
  let n := (held.filter (· < k)).length
  match x.spare.find? fun p => all[n]? == some p.1 with
  | some p => some p
  | none => x.spare.head?
/-- An image that waits for a core loaded into a bank that the region has been granted (R296, R297). -/
def State.takeImage (s : State) (r : RKey) (held : List Nat) (k h : Nat) : State :=
  match (s.region r).imageFor held k with
  | some (n, img) => (s.updHbank k h fun x => applyImage x img).updRegion r fun x =>
      let rest := x.spare.filter fun p => p.1 != n
      { x with spare := rest, taken := if rest.isEmpty then [] else insNat n x.taken }
  | none => s
/-- What a block takes of its cluster and its cores beside slots and registers: history banks, adapter ways
(R281, R254). -/
def State.takeShares (s : State) (r : RKey) (cl : Nat) (cores : List Nat) : State :=
  let c := (s.region r).rcb
  let held := (s.coresHeld r ++ cores).eraseDups
  let s := (cores.foldl (fun l k => insNat k l) []).foldl (fun s k =>
    if c.hist = 0 || (s.histIdx r k).isSome then s
    else match (List.range 4).find? fun h => (((s.core k).hist.get {} h).owner).isNone with
      | some h => (s.grantBank r k h).takeImage r held k h
      | none => s) s
  if c.adways = 0 || ((s.cluster cl).adways.any fun p => decide (p.2 = r)) then s
  else
    let ways := (s.freeAdways cl).take c.adways
    s.updCluster cl fun x => { x with adways := ways.foldl (fun m w => m.put w r) x.adways }

/-- A group at its launch (R78, R79, R98, R116); sr.pidx of a copy group of a persistent region is 0 (DESIGN CHOICE, log entry 80). -/
def State.newGroup (s : State) (b : BKey) (gid core slot : Nat) : Group :=
  let rg := s.region b.r
  let c := rg.rcb
  let vec := decide (gid ≥ c.copy)
  let base := BitVec.ofNat 64 (c.stackva + (b.n * c.groups + gid) * 5 * c.stack + c.stack)
  let first : Split := { st := .running, pc := BitVec.ofNat 64 c.entry, mask := 0xFFFFFFFF, s := [(15, base)], ready := s.cycle }
  { vec, die := core / 24, core := core % 24, slot, die0 := core / 24, core0 := core % 24, slot0 := slot
    budget := c.budget vec, pidx := if c.persistent then gid - c.copy else gid, stackBase := base
    ents := [(0, first)], wins := rg.kd.wins, since := s.clusterCycle (core / 4) }

/-- Groups placed on their cores, each in its slot (R114). -/
def State.putGroups (s : State) (b : BKey) (place : List (Nat × Nat)) (mk : State → Nat → Nat → Nat → Group) : State :=
  place.foldl (fun s p => s.setGroup ⟨b, p.1, 0⟩ (mk s p.1 p.2 ((freeSlot (s.slotsUsed p.2)).getD 0))) s

/-- The cycles in which banks out of the cluster cache enter their modes (R174). -/
def enterTime (ms : List BankMode) : Nat := ms.foldl (fun n m => max n (if m = .cache then 0 else switchTime .cache m)) 0
/-- The cycle from which banks of a cluster can be used, when those given back have switched (R174). -/
def State.bankStart (s : State) (cl : Nat) (ns : List Nat) : Nat := ns.foldl (fun m n => max m ((s.cluster cl).bankFree.get 0 n)) s.cycle
/-- The cluster of a region's last placement, after which the spread flag goes on (R88). -/
def State.usedCluster (s : State) (r : RKey) (cl : Nat) : State :=
  s.updRegion r fun x => { x with nextCluster := x.nextCluster.put (cl / 6) ((cl + 1) % 6) }
/-- A block placed: its banks enter SCRATCH mode in the time of R174. -/
def State.putBlock (s : State) (b : BKey) (cl : Nat) (place : List (Nat × Nat)) (seqCore relaunches : Nat) : State :=
  let c := (s.region b.r).rcb
  let cores := (place.map (·.2)).eraseDups
  let banks := (s.freeBanks cl).take c.banks
  let tag := if cores.length > 1 then s.spreadTag b.r else none
  let s := s.takeShares b.r cl cores
  let s := banks.foldl (fun s n => s.dropWay cl n) s
  let new : Block :=
    { relaunches, cluster := cl, cores, placedAt := s.bankStart cl banks + enterTime (banks.map fun _ => .scratch)
      banks := banks.map fun n => { num := n }
      tag, seqCore, lcore := if c.persistent then b.n else 0
      seq := if c.seq then some { pc := BitVec.ofNat 64 c.matbase } else none }
  let s := { s with blocks := s.blocks.put b new }
  let s := s.putGroups b place fun s gid k slot => s.newGroup b gid k slot
  (s.joinBars b).usedCluster b.r cl

/-- The next block of a region placed on a die, if it fits there. -/
def State.placeNext (s : State) (r : RKey) (die : Nat) : Option State :=
  let rg := s.region r
  (s.fitDie r rg.rcb.toPlace rg.rcb.seq false die).map fun p =>
    (s.putBlock ⟨r, rg.next⟩ p.1 p.2.1 p.2.2 0).updRegion r fun x => { x with next := x.next + 1 }

/-- Every block of a region placed, each on the first die with room (R89) (DEDUCED, log entry 11). -/
def State.placeAll (s : State) (r : RKey) : Nat → Option State
  | 0 => some s
  | n + 1 => match (s.region r).dies.findSome? fun d => s.placeNext r d with
    | some s => s.placeAll r n
    | none => none

/-- A device that holds nothing but one region, with every part in service, for the tests of R77 and R82: a region that only a fence
keeps out waits in its queues (R390). -/
def aloneWith (r : RKey) (x : Region) : State := { State.reset with platform := {}, regions := [(r, x)] }

/-! ## Launch (R82 to R86) -/

/-- The id of a region is in use: reserved (R93), or of a region that still runs. -/
def Region.ended (x : Region) : Bool :=
  match x.st with
  | .done | .faulted | .cancelled => true
  | _ => false
def State.idUsed (s : State) (c : CKey) (id : Nat) : Bool :=
  match s.regions.get? ⟨c, id⟩ with
  | some x => !x.gone || !x.ended
  | none => false
/-- A region that an id names. -/
def State.named (s : State) (c : CKey) (id : Nat) : Option Region :=
  match s.regions.get? ⟨c, id⟩ with
  | some x => if x.gone then none else some x
  | none => none

/-- The ids of a run of launches: the first free one after the last assigned, and those after it; none if one is
still reserved. -/
def State.freeIds (s : State) (c : CKey) (n : Nat) : Option (List Nat) :=
  let start := (s.ctx c).nextRid
  let wrap (i : Nat) : Nat := (start - 1 + i) % 65535 + 1
  match (List.range 65535).find? fun i => !s.idUsed c (wrap i) with
  | none => none
  | some i =>
    let ids := (List.range n).map fun j => wrap (i + j)
    if ids.any fun x => s.idUsed c x then none else some ids

/-- The regions in a die's queue: each holds its entry until its last block is placed, whatever its priority (DESIGN CHOICE, log entry
75). -/
def State.queueLen (s : State) (die : Nat) : Nat :=
  (s.regions.filter fun p => !p.2.ended && !p.2.completing && p.2.dies.contains die && p.2.next < p.2.rcb.blocks).length

/-- What a launch reads: bytes of memory, a page to wait for, or a fault. -/
inductive RecRead where
  | ok (b : List Byte)
  | nonres (va : Nat)
  | fault (f : FaultInfo)
deriving DecidableEq, Repr

/-- How the checks of a launch end. -/
inductive Prep where
  | ok (x : Region)
  | refused (n : Int)
  | nonres (va : Nat)
  /-- The translation of its kernel is under way (R348). -/
  | image (k : Nat)
  | fault (f : FaultInfo)
deriving DecidableEq, Repr

/-- The parent of a record: the issuing region, whose id may be released while it runs, or the region that the record names. -/
def State.parentOf (s : State) (c : CKey) (issuer : Option Nat) (b : List Byte) : Option (Nat × Option Region) :=
  if fieldAt b 8 2 = 0 then issuer.map fun p => (p, s.regions.get? ⟨c, p⟩)
  else some (fieldAt b 8 2, s.named c (fieldAt b 8 2))
/-- The effective record of a launch. -/
def State.launchRcb (s : State) (c : CKey) (issuer : Option Nat) (b : List Byte) : Rcb :=
  effectiveRcb b ((s.parentOf c issuer b).bind fun p => p.2.map (·.rcb))
/-- The checks of R82 for a record at an address, in the order given there; the kernel descriptor is read together with the record
(R79). -/
def State.prepare (s : State) (c : CKey) (issuer : Option Nat) (die : Nat) (rd : Nat → Nat → RecRead) (va : Nat) : Prep :=
  if va % 256 != 0 then .fault { kind := 4, addr := va }
  else match rd va 256 with
    | .fault f => .fault f
    | .nonres a => .nonres a
    | .ok b =>
      let up := s.parentOf c issuer b
      let running := fieldAt b 8 2 = 0 || up.any fun p => p.2.any fun x => decide (x.st = .running) && !x.completing
      let e := s.launchRcb c issuer b
      match (if e.kdesc = 0 then RecRead.ok [] else rd e.kdesc 160) with
      | .fault f => .fault f
      | .nonres a => .nonres a
      | .ok kb =>
        if !running then .refused (-4)
        else if !rcbOk b (up.map fun p => (s.region ⟨c, p.1⟩).rcb) e || decide (s.candidate c e.entry = .refused) then .refused (-1)
        else match (if e.kdesc = 0 then some {} else parseKdesc kb e) with
        | none => .refused (-1)
        | some kd =>
          let dies := if e.cores ≤ 24 then [die] else List.range 8
          let x : Region := { rcb := e, kd, parent := up.map (·.1), dies }
          let key : RKey := ⟨c, 0⟩
          let empty := aloneWith key x
          if (empty.fitCluster key e.toPlace e.seq false (dies.headD 0 * 6)).isNone then .refused (-1)
          else if s.candidate c e.entry = .translate then .image e.entry
          else if (e.coresident || e.persistent) &&
              (e.blocks * e.groups > e.slots || (empty.placeAll key e.blocks).isNone) then .refused (-2)
          else .ok x

/-- A prepared region entered in its queues with its id. -/
def State.enter (s : State) (c : CKey) (id : Nat) (x : Region) : State :=
  let r : RKey := ⟨c, id⟩
  let waits := x.rcb.preds.filter fun p => (s.named c p).any fun y => decide (y.st ≠ .done)
  let doomed := waits.any fun p => (s.named c p).any Region.ended
  let new : Region := { x with st := if waits.isEmpty then .queued else .waiting, seq := s.launchSeq, waits, doomed }
  ({ s with
    regions := s.regions.put r new
    blocks := s.blocks.filter fun p => decide (p.1.r ≠ r)
    groups := s.groups.filter fun p => decide (p.1.b.r ≠ r)
    launchSeq := s.launchSeq + 1 }.updCtx c fun y => { y with nextRid := id % 65535 + 1 }).selectImage c x.rcb.entry

/-- Prepared regions launched together (R82, R84): the first id, or −3. -/
def State.launchAll (s : State) (c : CKey) (xs : List Region) : State × Int :=
  let room := (List.range 8).all fun d => s.queueLen d + (xs.filter fun x => x.dies.contains d).length ≤ 4096
  match s.freeIds c xs.length with
  | none => (s, -3)
  | some ids =>
    if !room then (s, -3)
    else ((ids.zip xs).foldl (fun s p => s.enter c p.1 p.2) s, (ids.headD 0 : Nat))

/-- Bytes that a split's launch reads as plain loads: the first line that stops it, which a copy may own (R224). -/
def State.readRec (s : State) (g : GKey) (e va n : Nat) : RecRead :=
  let stop := (lineStarts va n).findSome? fun a => match (s.access g (max va a) 1 true false).2 with
    | .ok _ => none
    | .nonres | .owned => some (RecRead.nonres (max va a))
    | .fault f => some (.fault f)
  let place (a : Nat) : Loc := match (s.xlate g a true false).2 with
    | .ok cell => .mem cell
    | _ => .mem 0
  match stop with
  | some x => x
  | none =>
    let locs := (List.range n).map fun i => place (va + i)
    match (List.range n).find? fun i => s.poisonFor g e (locs.getD i (.mem 0)) with
    | some i => .fault { kind := 0x0B, addr := va + i }
    | none => .ok (locs.map fun l => s.readByte g e l)

/-- The walks that the reads of a range make (R192). -/
def State.walkRange (s : State) (g : GKey) (va n : Nat) : State := (lineStarts va n).foldl (fun s a => (s.access g (max va a) 1 true false).1) s
/-- The walks of a launch: for its record, and for the kernel descriptor of one that can be read. -/
def State.walkRecs (s : State) (g : GKey) (e : Nat) (vas : List Nat) : State :=
  vas.foldl (fun s va =>
    let t := s.walkRange g va 256
    match s.readRec g e va 256 with
    | .ok b =>
      let k := (s.launchRcb g.b.r.c (some g.b.r.id) b).kdesc
      if va % 256 != 0 || k = 0 then t else t.walkRange g k 160
    | _ => t) s
/-- The preparation of a split's records, in order: all of them, or the first page, fault or refusal; a page or
a fault of any record goes before a refusal (R84). -/
def State.prepareAll (s : State) (g : GKey) (e : Nat) (vas : List Nat) : Except Prep (List Region) :=
  let die := if s.ordered g then (s.group g).die0 else (s.group g).die
  let ps := vas.map fun va =>
    if va ≥ 2 ^ 56 && va % 256 == 0 then Prep.fault { kind := 5, addr := va }
    else s.prepare g.b.r.c (some g.b.r.id) die (fun a n => if a + n > 2 ^ 56 then .fault { kind := 5, addr := a } else s.readRec g e a n) va
  match ps.find? fun p => match p with
      | .nonres _ | .fault _ | .image _ => true
      | _ => false with
  | some p => .error p
  | none =>
    match ps.find? fun p => match p with
        | .refused _ => true
        | _ => false with
    | some p => .error p
    | none => .ok (ps.filterMap fun p => match p with
        | .ok x => some x
        | _ => none)

/-- A launch carried out: its status, or why it cannot be. -/
def State.launchNow (s : State) (g : GKey) (e : Nat) (vas : List Nat) : Except Prep (State × Int) :=
  match s.prepareAll g e vas with
  | .error (.refused n) => .ok (s, n)
  | .error p => .error p
  | .ok xs => .ok (if xs.isEmpty then (s, 0) else (s.flushSplit g e).launchAll g.b.r.c xs)

/-- A launch instruction (R82 to R85): in ordered mode checked as it issues and again at its commit (DESIGN CHOICE, log entry 101). -/
def State.launchOp (s : State) (g : GKey) (e : Nat) (d : BitVec 7) (vas : List Nat) (vec : Bool) : Ends :=
  let s := s.walkRecs g e vas
  if s.ordered g then
    match s.prepareAll g e vas with
    | .error (.nonres a) => .park s (.page a)
    | .error (.fault f) => .fault s f
    | .error (.image k) => .park (s.translate g.b.r.c k) (.image k)
    | _ => s.atCommit g e (.launch e d.toNat vas vec)
  else match s.launchNow g e vas with
    | .ok (s, n) => .next (s.setS g e d.toNat (BitVec.ofInt 64 n))
    | .error (.nonres a) => .park s (.page a)
    | .error (.fault f) => .fault s f
    | .error (.image k) => .park (s.translate g.b.r.c k) (.image k)
    | .error _ => .next s

def execLaunch (d a : BitVec 7) : State → Host.Outcome State Fault Refusal :=
  scalarOp true { stalls := true } fun s g e => s.launchOp g e d [(s.getS g e a.toNat).toNat] false
def execLaunchv (d a v : BitVec 7) : State → Host.Outcome State Fault Refusal :=
  scalarOp true { vec := true, stalls := true, vregs := [v.toNat] } fun s g e =>
    s.awaitLanes g e (.vreg v.toNat) <|
      let base := s.getS g e a.toNat
      s.launchOp g e d ((lanesOf (s.split g e).mask).map fun l => (base + (s.getVL g v.toNat l).setWidth 64).toNat) true

/-- The launch of a root region by a Keep thread, at virtual die 0 (R82); it waits for a page, for a line that a
copy owns (R224), for a translation (R348). A record that
would fault a split gives status −1 (DESIGN CHOICE, log entry 74). -/
def State.keepLaunch (s : State) (c : CKey) (va : Nat) : State :=
  let byte (a : Nat) : Except RecRead Byte :=
    let flt (k : Nat) : Except RecRead Byte := .error (.fault { kind := k, addr := a })
    if a ≥ 2 ^ 56 then flt 5
    else match findPage (s.ctx c).pages a with
      | none => flt 5
      | some p =>
        if !p.r || p.peer.isSome then flt 5
        else if !p.res || s.ownedAt (.mem (cellOf (Page.pa p a))) then .error (.nonres a)
        else if s.poisoned (.mem (cellOf (Page.pa p a))) then flt 0x0B
        else .ok (s.rawByte (.mem (cellOf (Page.pa p a))))
  let rd (a n : Nat) : RecRead :=
    let bs := (List.range n).map fun i => byte (a + i)
    match bs.findSome? fun x => match x with
      | .error r => some r
      | .ok _ => none with
    | some r => r
    | none => .ok (bs.filterMap fun x => x.toOption)
  let told (s : State) (n : Int) : State := { s with outs := s.outs ++ [Out.launched c va (BitVec.ofInt 64 n)] }
  match s.prepare c none 0 rd va with
  | .ok x => told (s.launchAll c [x]).1 (s.launchAll c [x]).2
  | .refused n => told s n
  | .image k => { s.translate c k with inputs := s.inputs ++ [.registerWrite (.launch c va)] }
  | .nonres _ => { s with inputs := s.inputs ++ [.registerWrite (.launch c va)] }
  | _ => told s (-1)

/-! ## Waits and status (R94, R95) -/

/-- Whether a region or one above it is that of an id. -/
def State.isAncestor (s : State) (r : RKey) (id : Nat) : Nat → Bool
  | 0 => false
  | n + 1 => r.id == id || match (s.region r).parent with
    | some p => s.isAncestor ⟨r.c, p⟩ id n
    | none => false
/-- Whether rwait on a value returns: at once, or when the region has ended. -/
def State.waitOver (s : State) (g : GKey) (v : Nat) : Bool :=
  match (if v < 2 ^ 16 then s.named g.b.r.c v else none) with
  | none => true
  | some x => s.isAncestor g.b.r v (s.regions.length + 1) || x.ended
/-- Whether the region that an rwait has parked for, by its id and the number of its launch, has ended; its id may have been released
before, while it runs on. -/
def State.regionOver (s : State) (g : GKey) (v n : Nat) : Bool := (s.regions.get? ⟨g.b.r.c, v⟩).all fun x => x.seq != n || x.ended
/-- rwait (R94): woken, it goes on; in ordered mode it waits for a commit. -/
def execRwait (a : BitVec 7) : State → Host.Outcome State Fault Refusal :=
  scalarOp true { stalls := true } fun s g e =>
    let v := (s.getS g e a.toNat).toNat
    let n := ((s.named g.b.r.c v).map (·.seq)).getD 0
    match (s.split g e).st with
    | .parked (.region v n) => if s.regionOver g v n then .next s else .park s (.region v n)
    | _ =>
      if s.ordered g then .park ((s.count g e).endsQuantum g) (.region v n)
      else if s.waitOver g v then .next s else .park s (.region v n)

/-- The state code of a region (R95). -/
def RState.code : RState → Nat
  | .waiting => 1 | .queued => 2 | .running => 3 | .done => 4 | .faulted => 5 | .cancelled => 6
/-- What rstat reads of a region; an ordered region sees it as of the last commit (R315). -/
def State.rstat (s : State) (g : GKey) (v : Nat) : Nat :=
  if v ≥ 2 ^ 16 then 0
  else if s.ordered g then
    let p := (s.region g.b.r).seen.get (0, 0) v
    p.2 % 2 ^ 32 * 2 ^ 32 + p.1
  else match s.named g.b.r.c v with
    | none => 0
    | some x => x.doneBlocks % 2 ^ 32 * 2 ^ 32 + x.st.code
/-- The states and counts of a context's regions as rstat reads them. -/
def State.regionCodes (s : State) (c : CKey) : SMap (Nat × Nat) :=
  s.regions.foldl (fun m p => if decide (p.1.c = c) && !p.2.gone then m.put p.1.id (p.2.st.code, p.2.doneBlocks) else m) []
def execRstat (d a : BitVec 7) : State → Host.Outcome State Fault Refusal :=
  scalarOp true {} fun s g e =>
    .next (s.setS g e d.toNat (BitVec.ofNat 64 (s.rstat g (s.getS g e a.toNat).toNat)))

/-! ## Dispatch (R87 to R89, R232, R308, R334) -/

/-- The route tags of the device that no region holds. -/
def State.freeTags (s : State) : List Nat :=
  let held := s.regions.flatMap fun p => p.2.tags ++ p.2.qtag.toList
  (List.range 8).filter fun t => !held.contains t

/-- Whether a region has a block to place: a saved one, or one not started. -/
def State.hasWork (s : State) (p : RKey × Region) : Bool :=
  (s.ctx p.1.c).scheduled && !(s.ctx p.1.c).absent && !s.allStopped p.1.c && !p.2.completing &&
    (decide (p.2.st = .queued) || decide (p.2.st = .running)) &&
    (!p.2.saved.isEmpty || p.2.next < p.2.rcb.blocks)

/-- Insertion by priority, the higher first, and by age. -/
def insRegion (p : RKey × Region) : List (RKey × Region) → List (RKey × Region)
  | [] => [p]
  | q :: r =>
    if p.2.rcb.prio > q.2.rcb.prio || (p.2.rcb.prio == q.2.rcb.prio && p.2.seq < q.2.seq) then p :: q :: r
    else q :: insRegion p r
/-- Whether a region has been passed over on a die for 100,000 cycles (R87). -/
def State.starvationReady (s : State) (die : Nat) (r : RKey) : Bool :=
  let x := s.region r
  (match x.passed.get? die with
   | some t => s.cycle ≥ t + 100000
   | none => false) && !x.starved.contains die && s.hasWork (r, x)
/-- The regions that a die's dispatcher tries, in order; those below a starved one's priority are stopped
(DEDUCED, log entry 7). -/
def State.dispatchOrder (s : State) (die : Nat) : List RKey :=
  let told := (s.starving.get [] die).foldl (fun m p => max m p.2) 0
  let floor := s.regions.foldl (fun m p => if s.starvationReady die p.1 then max m p.2.rcb.prio else m) told
  ((s.regions.filter fun p => p.2.dies.contains die && s.hasWork p && p.2.rcb.prio ≥ floor).foldr insRegion []).map (·.1)

/-- A region that starves no die any more. -/
def State.unstarve (s : State) (r : RKey) : State :=
  { s with starving := s.starving.map fun p => (p.1, p.2.filter fun q => decide (q.1 ≠ r)) }
/-- The route tags of a region's first block taken, if they are free. -/
def State.takeTags (s : State) (r : RKey) : Option State :=
  let x := s.region r
  if x.st ≠ .queued then some s
  else
    let need := x.rcb.tags + (if x.rcb.ordered then 1 else 0)
    let free := s.freeTags
    if free.length < need then none
    else some <| s.updRegion r fun x => { x with tags := free.take x.rcb.tags, qtag := if x.rcb.ordered then free[x.rcb.tags]? else none }

/-- The groups of a saved block that are to be placed. -/
def SavedBlock.toPlace (b : SavedBlock) (c : Rcb) : List ToPlace :=
  let live := b.groups.filter fun p => !p.2.ended || c.relaunchable
  let firstVec := (live.filter fun p => p.2.vec).foldl (fun m p => min m p.1.gid) 64
  live.map fun p => { gid := p.1.gid, regs := c.budget p.2.vec, seq := b.blk.seq.isSome && p.1.gid == firstVec }

/-- Two barriers made one: a block's own, and that of the pool entry which it claims when it is restored to several cores (R232). The
block's instances take numbers that come after the other's. -/
def Bar.merge (own other : Bar) : Bar :=
  let inst := max own.inst other.inst
  let shift (m : Nat) (n : Nat) : Nat := n + (inst - m)
  { inst, execd := own.execd ++ other.execd, here := own.here ++ other.here, late := other.late, named := other.named
    last := other.last.map fun p => (p.1, if p.2 = other.inst then inst else p.2)
    releases := (own.releases.map fun p => (shift own.inst p.1, p.2)) ++ other.releases }
/-- The waits of a split at its block's barrier under new numbers. -/
def Split.shiftBar (n : Nat) (p : Split) : Split :=
  match p.st with
  | .parked (.barrier none i) => { p with st := .parked (.barrier none (i + n)) }
  | .parked (.rearrive 8 i) => { p with st := .parked (.rearrive 8 (i + n)) }
  | _ => p
/-- A restored block's barrier, when it claims a pool entry anew: the open instance moves to that entry. -/
def State.claimBar (s : State) (b : BKey) : State :=
  match (s.block b).tag with
  | none => s
  | some t =>
    let own := (s.block b).bar
    let other := (s.region b.r).bars.get {} t
    let n := other.inst - own.inst
    let s := s.updRegion b.r fun x => { x with bars := x.bars.put t (own.merge other) }
    let s := s.updBlock b fun x => { x with bar := {} }
    (s.groupsOf b).foldl (fun s g => s.updGroup g fun x => { x with ents := x.ents.map fun p => (p.1, p.2.shiftBar n) }) s
/-- An entry of a port's translation table (R361). -/
structure WinEnt where
  base : Nat
  pages : Nat
  c : CKey
  scr : Bool
  bounce : Bool
  w : Bool
  valid : Bool
deriving DecidableEq, Repr
def winEnt (v : BitVec 128) : WinEnt where
  base := (v.extractLsb' 72 56).toNat
  pages := (v.extractLsb' 52 20).toNat
  c := ⟨(v.extractLsb' 30 6).toNat, (v.extractLsb' 36 16).toNat⟩
  scr := v.getLsbD 28
  bounce := v.getLsbD 27
  w := v.getLsbD 26
  valid := v.getLsbD 25
/-- The block of a scratch window. -/
def WinEnt.block (e : WinEnt) : BKey := ⟨⟨e.c, e.base / 2 ^ 40⟩, e.base / 256 % 2 ^ 32⟩
/-- The bounce bit of some window entries set or cleared by the Keep (R361). -/
def State.setBounce (s : State) (sel : WinEnt → Bool) (on : Bool) : State :=
  let bit : BitVec 128 := BitVec.ofNat 128 (2 ^ 27)
  { s with ports := s.ports.map fun p =>
      if (winEnt p.2).valid && sel (winEnt p.2) then (p.1, if on then p.2 ||| bit else p.2 &&& ~~~bit) else p }
/-- Whether an entry is a scratch window of a block. -/
def WinEnt.aimsAt (e : WinEnt) (b : BKey) : Bool := e.scr && decide (e.block = b)
/-- A write from outside into a block's scratch: held for an ordered region until its commit. -/
def State.extScratch (s : State) (b : BKey) (target : Nat) (cells : List (Loc × Byte)) : State :=
  if (s.region b.r).listens then
    s.updRegion b.r fun x => { x with inputs := x.inputs ++ [{ kind := 1, target, cells }] }
  else s.perform cells
/-- The held writes to a block's scratch replayed in arrival order at its restore (R340). -/
def State.replayScratch (s : State) (b : BKey) : State :=
  let (own, rest) := (s.ctx b.r.c).bounce.partition fun w => decide (w.scr = some b)
  let s := own.foldl (fun s w => s.extScratch b w.va ((Loc.span (.scr b w.va) w.data.length).zip w.data)) s
  (s.updCtx b.r.c fun x => { x with bounce := rest }).setBounce (·.aimsAt b) false
/-- A saved block placed again (R334, R263, R278, R296). -/
def State.placeSaved (s : State) (b : SavedBlock) (cl : Nat) (place : List (Nat × Nat)) (seqCore : Nat) : State :=
  let r := b.b.r
  let cores := (if place.isEmpty then [seqCore] else (place.map (·.2)).eraseDups)
  let nums := (s.freeBanks cl).take (s.region r).rcb.banks
  let s := s.takeShares r cl cores
  let s := nums.foldl (fun s n => s.dropWay cl n) s
  let s := s.usedCluster r cl
  let tag := if b.blk.tag.isSome then b.blk.tag else if cores.length > 1 then s.spreadTag r else none
  let blk : Block :=
    { b.blk with
      cluster := cl, cores, seqCore, tag, placedAt := s.bankStart cl nums + enterTime ((b.blk.banks.zip nums).map (·.1.mode)), vacating := false
      banks := (b.blk.banks.zip nums).map fun p => { p.1 with num := p.2 } }
  let s := { s with blocks := s.blocks.put b.b blk }
  let s := s.updCluster cl fun y => { y with copyQ := y.copyQ ++ b.copies }
  let s := (b.groups.filter fun p => place.all fun q => q.1 != p.1.gid).foldl (fun s p => s.setGroup p.1 p.2) s
  let s := s.putGroups b.b place fun s gid k slot =>
    let x := (b.groups.find? fun p => p.1.gid == gid).elim {} (·.2)
    { x with die := k / 24, core := k % 24, slot, since := s.clusterCycle (k / 4) }
  let s := (if b.blk.tag.isNone then s.claimBar b.b else s).replayScratch b.b
  let s := b.camp.foldl (fun s p =>
    let k := s.coreOf p.1
    let s := s.updCore k fun x => { x with campSaved := p :: x.campSaved }
    if (s.core k).camp.isNone then s.grantArray k else s) s
  match blk.seq with
  | some q =>
    let again (f : Option Nat) (r : Replay) : Replay := if f = some r.id then r else { r with fault := none }
    let faulted : Option Nat := match q.st, q.cause with
      | .faulted, .fill id => some id
      | _, _ => none
    let fill (r : Replay) : AFill := { id := r.id, aid := r.aid, tag := r.tag, dir := r.dir }
    let s := s.updSeq b.b fun q =>
      { q with
        replays := q.replays.map (again faulted)
        fills := ((q.replays.filter fun r => some r.id != faulted).map fill).eraseDups }
    if q.held then
      let s := s.updSeq b.b fun q => { q with held := false, relatch := q.tile, tile := none, reclaims := true }
      let s := s.updCore seqCore fun x => { x with engQ := x.engQ ++ [b.b] }
      if (s.core seqCore).eng.isNone then s.grantEngine seqCore else s
    else s
  | none => s
/-- A saved block restored to a place; of its groups that are not halted the pending traps are taken (R372). -/
def State.restoreBlock (s : State) (b : SavedBlock) (cl : Nat) (place : List (Nat × Nat)) (seqCore : Nat) : State :=
  b.groups.foldl (fun s p => if (s.groups.get? p.1).isSome then s.nextTrap p.1 else s) (s.placeSaved b cl place seqCore)

/-- A region's next placement on a die, if it can be made: a saved block, all blocks, or the next one. -/
def State.admitOn (s : State) (r : RKey) (die : Nat) : Option State :=
  let x := s.region r
  match x.saved with
  | b :: rest =>
    let gs := b.toPlace x.rcb
    (s.fitDie r gs b.blk.seq.isSome b.blk.tag.isSome die).map fun p =>
      (s.restoreBlock b p.1 p.2.1 p.2.2).updRegion r fun x => { x with saved := rest }
  | [] =>
    match s.takeTags r with
    | none => none
    | some s => if (x.rcb.coresident || x.rcb.persistent) && x.next == 0 then s.placeAll r x.rcb.blocks else s.placeNext r die

/-- The first region of a die's order whose next placement can be made, with the regions passed over for it. -/
def State.nextAdmit (s : State) (die : Nat) : List RKey → Option (RKey × List RKey)
  | [] => none
  | r :: rs =>
    if (s.admitOn r die).isSome then some (r, [])
    else match s.nextAdmit die rs with
      | some (k, passed) => some (k, r :: passed)
      | none => none
def State.admitReady (s : State) (die : Nat) (r : RKey) : Bool :=
  match s.nextAdmit die (s.dispatchOrder die) with
  | some (k, _) => decide (k = r)
  | none => false

/-- BLOCK_ADMIT (R87): a die's dispatcher places the next block of a region. What rstat reads in an ordered region's first quantum stands
just before its admission, its own region queued still (DESIGN CHOICE, log entry 79). -/
def execBlockAdmit (s : State) : Host.Outcome State Fault Refusal :=
  .next <| match s.turn with
  | .event (.blockAdmit die r) =>
    match s.nextAdmit die (s.dispatchOrder die) with
    | some (k, passed) =>
      if k ≠ r then s
      else match s.admitOn r die with
        | some t =>
          let t := passed.foldl (fun t p => t.updRegion p fun x =>
            { x with passed := if (x.passed.get? die).isSome then x.passed else x.passed.put die s.cycle }) t
          let t := t.updRegion r fun x =>
            { x with
              st := .running
              quantum := if x.rcb.ordered && x.quantum == 0 then 1 else x.quantum
              seen := if x.st = .queued then s.regionCodes r.c else x.seen
              passed := []
              starved := [] }
          t.unstarve r
        | none => s
    | none => s
  | _ => s

/-- REGION_STARVATION (R87): a region passed over for 100,000 cycles stops lower priorities. -/
def execRegionStarvation (s : State) : Host.Outcome State Fault Refusal :=
  .next <| match s.turn with
  | .event (.regionStarvation die r) =>
    if s.starvationReady die r then
      let new := (r, (s.region r).rcb.prio) :: s.starving.get [] die
      { s with starving := s.starving.put die new }.updRegion r fun x => { x with starved := die :: x.starved }
    else s
  | _ => s

/-! ## Relaunch (R92, R261) -/

/-- A block restarted from its task record on its cores: groups stopped and launched anew, banks zeroed, rings,
barrier and sequencer fresh. In ordered mode the stores already made stay in the quantum (DEDUCED, log entry 19). -/
def State.relaunch (s : State) (b : BKey) : State :=
  let gs := s.groupsOf b
  let place := gs.map fun g => (g.gid, s.coreOf g)
  let olds := gs.map fun g => (g.gid, s.group g)
  let s := gs.foldl (fun s g => ((s.squash g).flushGroup g).dropArray g) s
  let s := s.freeEngine b
  let x := s.block b
  let c := (s.region b.r).rcb
  let s := s.updBlock b fun x =>
    { x with
      relaunches := x.relaunches + 1
      rings := []
      bar := {}
      cfgQ := []
      switchMask := maskOf ((List.range x.banks.length).filter fun i => (x.banks.getD i {}).switching.isSome)
      seq := if c.seq then some { pc := BitVec.ofNat 64 c.matbase, quant := { (x.seq.getD {}).quant with ops := [] } } else none }
  let s := (s.updCluster x.cluster fun y => { y with copyQ := y.copyQ.filter fun k => decide (k.g.b ≠ b) }).startSwitch b
  let s := { s with groups := s.groups.filter fun p => decide (p.1.b ≠ b) }
  let stop (k : Bar) : Bar :=
    { k with
      execd := k.execd.filter fun p => decide (p.1.b ≠ b)
      here := k.here.filter fun g => decide (g.b ≠ b)
      late := k.late.filter fun g => decide (g.b ≠ b)
      last := k.last.filter fun p => decide (p.1.b ≠ b) }
  let s := s.updRegion b.r fun x => { x with bars := x.bars.map fun p => (p.1, stop p.2) }
  let s := s.putGroups b place fun s gid k slot =>
    let old := (olds.find? fun p => p.1 == gid).elim {} (·.2)
    { s.newGroup b gid k slot with
      die0 := old.die0, core0 := old.core0, slot0 := old.slot0, q := { old.q with ops := [], vsnap := [], olsnap := 0 } }
  (s.joinBars b).barRecheck b

/-- A block scrubbed after a matrix operand fault: its groups are stopped, and their vector registers, the accumulators, the q registers and
the scratch and FIFO banks hold zeros; replays and the latched tile are discarded, and the engine is released (R261). -/
def State.scrub (s : State) (b : BKey) : State :=
  let s := (s.groupsOf b).foldl (fun s g => ((s.squash g).flushGroup g).updGroup g fun x => { x with vregs := [] }) s
  (s.freeEngine b).updBlock b fun x =>
    { x with
      banks := x.banks.map fun k => if k.mode = .cache then k else { k with bytes := [], fifo := [], poison := [] }
      seq := x.seq.map fun q => { q with accs := [], q := [], tile := none, relatch := none, replays := [], fills := [] } }
/-- A matrix operand fault in a block (R92, R261): its record is left for the Keep, and the block is relaunched, or
the region fault is raised. -/
def State.matrixFault (s : State) (b : BKey) (addr : Nat) : State :=
  let r := State.frec { kind := 0x0C, addr } 255 4 false 0 (s.seq b).pc
  let s := { s with outs := s.outs ++ [Out.keepRecord b r] }.scrub b
  if (s.region b.r).rcb.relaunchable && (s.block b).relaunches < 3 then s.relaunch b
  else s.endDomain b.r 0x0C

/-! ## Completion (R86, R91, R93) -/

/-- Whether the non-detached children of a region have ended. -/
def State.childrenEnded (s : State) (r : RKey) : Bool :=
  s.regions.all fun p => decide (p.1.c ≠ r.c) || p.2.parent != some r.id || p.2.rcb.detached || p.2.ended
/-- The outcome that a region can reach now: 1 done, 2 faulted, 3 cancelled. Of the regions that a domain has ended its root alone
waits for non-detached descendants (R91, R93). -/
def State.outcome (s : State) (r : RKey) : Option Nat :=
  match s.regions.get? r with
  | none => none
  | some x =>
    if x.ended then none
    else if x.completing then (if s.domainRoot r ≠ r || s.childrenEnded r then some 2 else none)
    else match x.st with
      | .waiting => if x.doomed then some 3 else none
      | .running => if x.doneBlocks ≥ x.rcb.blocks && x.saved.isEmpty && s.childrenEnded r then some 1 else none
      | _ => none

/-- Where the completion word goes; none when its page is not resident yet, or the fault (DEDUCED, log entry 10). -/
def State.doneWord (s : State) (r : RKey) : Option (Except FaultInfo (Option Nat)) :=
  let va := (s.region r).rcb.done.toNat
  if va = 0 then some (.ok none)
  else if va ≥ 2 ^ 56 then some (.error { kind := 5, addr := va, write := true })
  else match findPage (s.ctx r.c).pages va with
    | none => some (.error { kind := 5, addr := va, write := true })
    | some p =>
      if !p.w || p.peer.isSome then some (.error { kind := 5, addr := va, write := true })
      else if !p.res then none
      else
        let cell := cellOf (Page.pa p va)
        if s.poisoned (.mem cell) then some (.error { kind := 0x0B, addr := va, write := true }) else some (.ok (some cell))

/-- Waiting regions whose predecessors have all ended well are queued (R86). -/
def State.settle (s : State) (c : CKey) : State :=
  { s with regions := s.regions.map fun p =>
      if decide (p.1.c = c) && decide (p.2.st = .waiting) && !p.2.completing && p.2.waits.isEmpty then (p.1, { p.2 with st := .queued })
      else p }
/-- The end of a region told to those that wait for it: one that has ended ill dooms them (R86). -/
def State.tellWaiters (s : State) (r : RKey) (well : Bool) : State :=
  { s with regions := s.regions.map fun p =>
      if decide (p.1.c = r.c) && decide (p.2.st = .waiting) && p.2.waits.contains r.id then
        (p.1, if well then { p.2 with waits := p.2.waits.filter (· != r.id) } else { p.2 with doomed := true })
      else p }

/-- Cells that memory held before an input writes them, beside those kept already. -/
def keepOld (s : State) (undo : List (Loc × Byte)) (cells : List (Loc × Byte)) : List (Loc × Byte) :=
  cells.foldl (fun u w => if u.any fun x => decide (x.1 = w.1) then u else u ++ [(w.1, s.rawByte w.1)]) undo
/-- An input to the running ordered regions of a context but one (R318): they see the old bytes of what it writes until their commits. In a
replay the logged inputs stand for it (R382). -/
def State.tellOrdered (s : State) (c : CKey) (but : Option RKey) (x : ExtIn) : State :=
  { s with regions := s.regions.map fun p =>
      if decide (p.1.c = c) && p.2.listens && decide (some p.1 ≠ but) then
        (p.1, { p.2 with
          undo := keepOld s p.2.undo x.cells
          inputs := if (s.ctx c).replay.isSome then p.2.inputs else p.2.inputs ++ [x] })
      else p }

/-- A region's end: the completion word, a device-scope release (R93, R223), the ids of its children, the regions that wait for it. Children that run on after a region
that its domain has ended pass to its parent, for whose root they are descendants still (R91). -/
def State.complete (s : State) (r : RKey) (out : Nat) : State :=
  let told (cells : List (Loc × Byte)) (s : State) : State :=
    (s.tellOrdered r.c (some r) { kind := 3, target := r.id, region := some r, cells }).perform cells
  let fails (f : FaultInfo) (s : State) : State := told [] { s with outs := s.outs ++ [Out.keepRecord ⟨r, 0⟩ (State.frec f 255 0 false 0 0)] }
  let s := match (s.doneWord r).getD (.ok none) with
    | .ok none => told [] s
    | .error f => fails f s
    | .ok (some cell) =>
      match s.syncAccess r.c .dispatch 192 6 false true false (if (s.region r).rcb.ordered then some r else none) none cell with
      | (s, none) => told (cellsOf (.mem cell) 8 (r.id + out * 65536)) s
      | (s, some rx) => fails { kind := 7, addr := (s.region r).rcb.done.toNat, extra := rx, write := true } s
  let st : RState := if out = 1 then .done else if out = 2 then .faulted else .cancelled
  let s := s.updRegion r fun x => { x with st, tags := [], qtag := none, undo := [], inputs := [], pages := none, saved := [] }
  let up := (s.region r).parent
  let orphan (x : Region) : Region :=
    { x with gone := true, parent := if x.ended then x.parent else if x.rcb.detached then none else up }
  let left (p : RKey × Region) : RKey × Region :=
    if decide (p.1.c = r.c) && p.2.parent == some r.id then (p.1, orphan p.2) else p
  let s : State := { s with regions := s.regions.map left }
  let s := s.tellWaiters r (out == 1)
  (s.unstarve r).settle r.c

/-- Whether the completion word can be written: its page is resident, and no copy owns its line (R224). -/
def State.wordFree (s : State) (r : RKey) : Bool :=
  match s.doneWord r with
  | none => false
  | some (.ok (some cell)) => !s.ownedAt (.mem cell)
  | some _ => true
/-- Whether REGION_COMPLETE can take place: the completion word's page is resident, and in ordered mode the last
block has ended at a commit. -/
def State.completeReady (s : State) (r : RKey) : Bool := (s.outcome r).isSome && s.wordFree r
/-- REGION_COMPLETE (R93). -/
def execRegionComplete (s : State) : Host.Outcome State Fault Refusal :=
  .next <| match s.turn with
  | .event (.regionComplete r) =>
    match s.outcome r with
    | some o => if s.wordFree r then s.complete r o else s
    | none => s
  | _ => s

end Sys2Proof.Machine
end

