-- ==== Sys2Proof/Machine/Matrix.lean ====
section
/-! DEFINITION. The block sequencer, the matrix engine, adapters and audits (R71 to R74, R236 to R263). -/

namespace Sys2Proof.Machine

/-! ## The sequencer whose turn it is -/

def State.seqActor (s : State) : BKey :=
  match s.turn with
  | .seq b => b
  | _ => ⟨⟨⟨0, 0⟩, 0⟩, 0⟩
def State.seqOrdered (s : State) (b : BKey) : Bool := (s.region b.r).rcb.ordered
def State.seqPark (s : State) (b : BKey) (p : SPark) : State := s.updSeq b fun q => { q with st := .parked p }

/-- A sequencer fault at a word (R238). In ordered mode it ends the sequencer's quantum and is delivered after the
commit (DEDUCED, log entry 32). -/
def State.seqRaise (s : State) (b : BKey) (pc : DWord) (f : FaultInfo) (c : SeqCause) : State :=
  let s := s.updSeq b fun q => { q with pc := pc, cause := c }
  if s.seqOrdered b then
    s.updSeq b fun q => { q with st := .parked .commit, olFault := some f, quant := { q.quant with due := true } }
  else s.seqFault b f
/-- A matrix operand fault at the present word (R261). -/
def State.operandFault (s : State) (b : BKey) : State :=
  if s.seqOrdered b then
    s.updSeq b fun q => { q with st := .parked .commit, olFault := some { kind := 0x0C }, quant := { q.quant with due := true } }
  else s.matrixFault b 0

/-- How a matrix word ends: it retires at once, it stays in execution, it faults, it waits, or it has settled the
sequencer itself. -/
inductive MEnds where
  | next (s : State)
  | goto (s : State) (pc : DWord)
  | exec (s : State) (w : ExecWord) (busy : Nat)
  | fault (s : State) (k : Nat)
  | data (s : State) (f : FaultInfo)
  | operand
  | park (s : State) (p : SPark)
  | done (s : State)

/-- A word that retires behind the words in execution, in program order (R238). -/
def State.seqGo (s : State) (b : BKey) (pc : DWord) : State :=
  let q := s.seq b
  if q.exec.isEmpty then s.seqRetire b pc
  else s.updSeq b fun q => { q with st := .running, pc := pc, exec := q.exec ++ [{ pc := q.pc, ready := s.cycle }] }

def State.seqFinish (b : BKey) : MEnds → State → State
  | .next s, _ => s.seqGo b ((s.seq b).pc + 8)
  | .goto s pc, _ => s.seqGo b pc
  | .exec s w busy, _ => s.updSeq b fun q =>
      { q with st := .running, pc := q.pc + 8, exec := q.exec ++ [{ w with pc := q.pc }], busy := s.cycle + busy }
  | .fault s k, _ => s.seqRaise b (s.seq b).pc { kind := k } .word
  | .data s f, _ => s.seqRaise b (s.seq b).pc f .word
  | .operand, s => s.operandFault b
  | .park s p, _ => s.seqPark b p
  | .done s, _ => s

/-- Accumulators and q registers that a word names beyond 7 raise the illegal-register fault (R45). -/
def mRegsOk : Instr → Bool
  | .mmul x | .mmulScr x | .mmula x | .mstore _ x | .mzero x | .mloop x | .mset x | .msetHi x | .msetV x | .madd x => x.a.toNat < 8
  | _ => true

/-- In ordered mode a word waits for the words in execution, so that quanta do not depend on time. -/
def Seq.gated (q : Seq) : Bool := !q.exec.isEmpty
/-- Whether register writes or outlier records of earlier words are pending. -/
def Seq.writing (q : Seq) : Bool := q.exec.any fun w => (!w.writes.isEmpty && !w.made) || !w.recs.isEmpty

/-- A matrix word issued by the sequencer whose turn it is: the decoding checks (R29, R46), then its effect. A
word waits for the outlier records of an mstore before it, whose fault is taken at that mstore (R248). -/
def matOp (i : Instr) (f : State → BKey → MEnds) (s : State) : Host.Outcome State Fault Refusal :=
  let b := s.seqActor
  .next <|
    if s.seqOrdered b && (s.seq b).gated then s.seqPark b .gate
    else if (s.seq b).exec.any fun w => !w.recs.isEmpty then s.seqPark b .writes
    else if !WellFormed i then s.seqRaise b (s.seq b).pc { kind := 1 } .word
    else if !mRegsOk i then s.seqRaise b (s.seq b).pc { kind := 2 } .word
    else State.seqFinish b (f s b) s

/-! ## Interlocks (R238, R256) -/

/-- Whether earlier words write accumulators still, or replays of them are pending. -/
def Seq.busyAccs (q : Seq) (js : List Nat) : Bool :=
  (q.exec.any fun w => w.accs.any js.contains) || q.replays.any fun r => js.contains r.acc
/-- Whether nothing of the sequencer is under way. -/
def Seq.drained (q : Seq) : Bool := q.exec.isEmpty && q.replays.isEmpty && q.audits.isEmpty && q.ol.isEmpty

/-- The fault of a fill that a word now waits for, by the accumulators it names (R256). -/
def Seq.fillFault (q : Seq) (js : List Nat) : Option (Nat × FaultInfo) :=
  (q.replays.find? fun r => js.contains r.acc && r.fault.isSome).bind fun r => r.fault.map fun f => (r.id, f)
def allAccs : List Nat := List.range 8

/-- A word that reads or writes accumulators waits for them; a faulted fill among their replays raises its
fault at the word. -/
def State.awaitAccs (s : State) (b : BKey) (js : List Nat) (k : MEnds) : MEnds :=
  let q := s.seq b
  match q.fillFault js with
  | some (id, f) => .done (s.seqRaise b q.pc f (.fill id))
  | none => if q.busyAccs js then .park s (.accs js) else k
/-- A word that waits for everything earlier. -/
def State.awaitAll (s : State) (b : BKey) (k : MEnds) : MEnds :=
  let q := s.seq b
  match q.fillFault allAccs with
  | some (id, f) => .done (s.seqRaise b q.pc f (.fill id))
  | none => if q.drained then k else .park s .drain

/-! ## The engine (R236, R238, R239) -/

/-- The engine claimed: held now, or waited for in the core's queue. -/
def State.claimEngine (s : State) (b : BKey) : State :=
  let k := (s.block b).seqCore
  if (s.seq b).held || (s.core k).engQ.contains b then s
  else if (s.core k).eng.isNone then
    (s.updCore k fun x => { x with eng := some b }).updSeq b fun q =>
      { q with held := true, heldSince := s.cycle, tile := q.relatch, relatch := none, reclaims := false }
  else s.updCore k fun x => { x with engQ := x.engQ ++ [b] }
def State.withEngine (s : State) (b : BKey) (k : State → MEnds) : MEnds :=
  let s := s.claimEngine b
  if (s.seq b).held then k s else .park s .engine

def execMacq (x : MArgs) : State → Host.Outcome State Fault Refusal :=
  matOp (.macq x) fun s b => s.withEngine b .next
def execMrel (x : MArgs) : State → Host.Outcome State Fault Refusal :=
  matOp (.mrel x) fun s b =>
    if !(s.seq b).held then .next s
    else
      let q := s.seq b
      match q.fillFault allAccs with
      | some (id, f) => .done (s.seqRaise b q.pc f (.fill id))
      | none => if q.exec.isEmpty && q.replays.isEmpty then .next (s.freeEngine b) else .park s .idle

/-! ## Group registers and scratch (R47, R226, R241, R242) -/

/-- Whether an index names a group of the block, and whether registers up to one lie within its budget (R47). A
group of an ordered region that ends in this quantum still names one. -/
def State.grpOk (s : State) (b : BKey) (grp top : Nat) : Bool :=
  match s.groups.get? ⟨b, grp, 0⟩ with
  | some x => (!x.ended || (s.seqOrdered b && x.q.ops.contains .release)) && top < x.budget
  | none => false
/-- A register of a group as the sequencer reads it: in ordered mode as of the last commit (R309). -/
def State.seqV (s : State) (b : BKey) (grp n l : Nat) : Nat :=
  let x := s.group ⟨b, grp, 0⟩
  let v := if s.seqOrdered b then x.q.vsnap.get zeroV n else x.vregs.get zeroV n
  (v.getD l 0).toNat

/-- The columns of a tile of a format, its weight registers and its scale registers (R241). -/
def tileCols (t : Ty) : Nat := match t.width with | 16 => 64 | 8 => 128 | _ => 256
def tileRegs (t : Ty) : Nat := if t == .tr then 32 else 64
/-- Element (k, n) of a weight fragment. -/
def State.weight (s : State) (b : BKey) (grp vx : Nat) (t : Ty) (k n : Nat) : Nat :=
  match t.width with
  | 16 => elGet 16 (s.seqV b grp (vx + k) (n / 2)) (n % 2)
  | 8 => elGet 8 (s.seqV b grp (vx + k) (n / 4)) (n % 4)
  | _ => elGet 2 (s.seqV b grp (vx + k / 2) (16 * (k % 2) + n / 16)) (n % 16)

/-- mwload (R245). -/
def execMwload (sc : Bool) (x : MArgs) : State → Host.Outcome State Fault Refusal :=
  matOp (.mwload sc x) fun s b => s.withEngine b fun s =>
    let q := s.seq b
    let grp := x.grp.toNat
    let vx := x.v.toNat
    let cols := tileCols x.ty
    let regs := tileRegs x.ty + (if sc then cols / 32 else 0)
    if q.writing then .park s .writes
    else if !s.grpOk b grp (vx + regs - 1) then .operand
    else
      let elems : SMap Nat := (List.range 64).foldl (fun m k => (List.range cols).foldl (fun m n =>
        let w := s.weight b grp vx x.ty k n
        if w = 0 then m else (k * 256 + n, w) :: m) m) []
      let scales : SMap Word := if sc then
          (List.range cols).map fun n => (n, BitVec.ofNat 32 (s.seqV b grp (vx + tileRegs x.ty + n / 32) (n % 32)))
        else []
      let ten := x.ty == .tr && (List.range 32).any fun r => (List.range 32).any fun l => hasTen (s.seqV b grp (vx + r) l)
      let tile : Tile := { ty := x.ty, elems := elems.reverse, scales }
      .exec (s.updSeq b fun q => { q with tile := some tile }) { ready := s.cycle + regs, trit := if ten then some grp else none } regs

/-! ## Multiplying (R71, R246, R253) -/

/-- The accumulators that a latched format and an activation format write (R246); 0 for no pair. -/
def mmulAccs (w a : Ty) : Nat :=
  match w, a with
  | .f16, .f16 | .f16, .bf16 | .bf16, .f16 | .bf16, .bf16 => 1
  | .e4, .e4 | .e4, .e5 | .e5, .e4 | .e5, .e5 => 2
  | .i8, .i8 | .i8, .n8 | .n8, .i8 | .n8, .n8 => 2
  | .tr, .i8 | .tr, .n8 => 4
  | _, _ => 0
/-- The scale of a tile's column, of an accumulator's column: 1.0 where none is held. -/
def oneF : Word := 0x3F800000
def Tile.scale (t : Tile) (n : Nat) : Word := t.scales.get oneF n

/-- The new value of an element (R71), with its products' values. -/
def accStep (isInt : Bool) (old : Word) (ps : List Num) : Word :=
  if isInt then
    let sum : Int := ps.foldl (fun a p => a + scaled 0 p) 0
    old + BitVec.ofInt 32 sum
  else BitVec.ofNat 32 (roundTo fmtF32 .rne false (sumNum (readFloat fmtF32 old.toNat :: ps)))
/-- The audit of an element: rounded product by product (R74). -/
def auditStep (a : Word) (ps : List Num) : Word :=
  ps.foldl (fun a p => BitVec.ofNat 32 (roundTo fmtF32 .rne false (addNum .rne (readFloat fmtF32 a.toNat) p))) a
/-- The starting value of an audit: the accumulator's value, of INT32 rounded with the first product. -/
def auditFrom (isInt : Bool) (old : Word) (ps : List Num) : Word :=
  if isInt then
    match ps with
    | p :: r => auditStep (BitVec.ofNat 32 (roundTo fmtF32 .rne false (addNum .rne (readEl .i32 old.toNat) p))) r
    | [] => BitVec.ofNat 32 (roundTo fmtF32 .rne false (readEl .i32 old.toNat))
  else auditStep old ps

/-- The products of a row with a column of the tile. -/
def Tile.products (t : Tile) (ty : Ty) (row : List Nat) (n : Nat) : List Num :=
  (List.range 64).map fun k => mulNum (readEl t.ty (t.elems.get 0 (k * 256 + n))) (readEl ty (row.getD k 0))

/-- The base step of R246 for rows of activations: accumulators from `n0`, and for an audited candidate its
outputs. -/
def State.mmulBase (s : State) (b : BKey) (t : Tile) (ty : Ty) (n0 : Nat) (rows : List (List Nat)) (cand : Option AuditRec) : State :=
  let isInt := !Ty.isFloat t.ty
  let accs := mmulAccs t.ty ty
  let mrows := (List.range rows.length).zip rows
  let upd (q : Seq) : Seq := (List.range accs).foldl (fun q j =>
    let old := q.accs.get {} (n0 + j)
    let elems := mrows.foldl (fun (m : SMap Word) r => (List.range 64).foldl (fun m n =>
      m.put (r.1 * 64 + n) (accStep isInt (old.elems.get 0 (r.1 * 64 + n)) (t.products ty r.2 (64 * j + n)))) m) old.elems
    let new : AccReg := { isInt, elems, scales := (List.range 64).map fun n => (n, t.scale (64 * j + n)) }
    { q with accs := q.accs.put (n0 + j) new }) q
  let outs (q q' : Seq) : SMap (Word × Word) := (List.range accs).flatMap fun j => mrows.flatMap fun r => (List.range 64).map fun n =>
    let old := (q.accs.get {} (n0 + j)).elems.get 0 (r.1 * 64 + n)
    let new := (q'.accs.get {} (n0 + j)).elems.get 0 (r.1 * 64 + n)
    (((n0 + j) * 64 + r.1) * 64 + n, (new, auditFrom isInt old (t.products ty r.2 (64 * j + n))))
  s.updSeq b fun q =>
    let q' := upd q
    match cand with
    | some a => { q' with audits := q'.audits ++ [{ a with isInt, outs := outs q q' }] }
    | none => q'

/-- The next audited candidate, if auditing is on and takes it (R259); the count goes on. -/
def State.nextCand (s : State) (b : BKey) (acc fmt : Nat) : State × Option AuditRec :=
  let q := s.seq b
  if !q.auditOn then (s, none)
  else
    let a : AuditRec :=
      { cand := q.auditT, acc, fmt, retired := q.retired + q.exec.length
        pc := (q.pc.toNat + 2 ^ 64 - (s.region b.r).rcb.matbase) % 2 ^ 64 }
    (s.updSeq b fun q => { q with auditT := q.auditT + 1 }, if q.auditT % 2 ^ q.auditN = 0 then some a else none)

/-- A row of activations from registers (R242). -/
def State.regRow (s : State) (b : BKey) (grp vy : Nat) (ty : Ty) (m : Nat) : List Nat :=
  (List.range 64).map fun k =>
    if ty.width = 16 then elGet 16 (s.seqV b grp (vy + m) (k / 2)) (k % 2) else elGet 8 (s.seqV b grp (vy + m) (k / 4)) (k % 4)

/-- What mmul, mmul.scr and mmula share: the engine, the pair of formats, the accumulators, then the operands. -/
def State.mmulCheck (s : State) (b : BKey) (x : MArgs) (k : State → Tile → List Nat → MEnds) : MEnds :=
  s.withEngine b fun s =>
    match (s.seq b).tile with
    | none => .fault s 1
    | some t =>
      let accs := mmulAccs t.ty x.ty
      let n := x.a.toNat
      if accs = 0 || n % accs != 0 then .fault s 1
      else
        let js := (List.range accs).map (n + ·)
        s.awaitAccs b js (if (s.seq b).writing then .park s .writes else k s t js)

def execMmul (x : MArgs) : State → Host.Outcome State Fault Refusal :=
  matOp (.mmul x) fun s b => s.mmulCheck b x fun s t js =>
    let m := x.immF 0 6 + 1
    let grp := x.grp.toNat
    if !s.grpOk b grp (x.v.toNat + m - 1) then .operand
    else
      let rows := (List.range m).map fun r => s.regRow b grp x.v.toNat x.ty r
      let (s, cand) := s.nextCand b x.a.toNat x.ty.code.toNat
      .exec (s.mmulBase b t x.ty x.a.toNat rows cand) { ready := s.cycle + m + 24, accs := js } m

/-- mmul.scr: the activations lie in scratch (R242). -/
def execMmulScr (x : MArgs) : State → Host.Outcome State Fault Refusal :=
  matOp (.mmulScr x) fun s b => s.mmulCheck b x fun s t js =>
    let m := x.immF 0 6 + 1
    let a := ((s.seq b).q.get 0 x.qb.toNat).toNat + 64 * x.immF 6 18
    let w := x.ty.width
    let rb := 8 * w
    if a % 64 != 0 || !(s.block b).scratchOk a (m * rb) then .operand
    else
      let loc (i : Nat) : Loc := .scr b (a + i)
      match (List.range (m * rb / 32)).find? fun i => s.ownedAt (loc (32 * i)) with
      | some i => .park s (.owned (a + 32 * i))
      | none => match (List.range (m * rb / 32)).find? fun i => s.poisoned (loc (32 * i)) with
      | some i => .data s { kind := 0x0B, addr := a + 32 * i }
      | none =>
        let rows := (List.range m).map fun r => (List.range 64).map fun k =>
          leNat ((Loc.span (loc (r * rb + k * w / 8)) (w / 8)).map s.rawByte)
        let (s, cand) := s.nextCand b x.a.toNat x.ty.code.toNat
        .exec (s.mmulBase b t x.ty x.a.toNat rows cand) { ready := s.cycle + m + 24, accs := js } m

/-! ## The adapter cache (R254, R255) -/

/-- The set of an adapter entry. -/
def adSet (aid : Nat) (tag : Word) : Nat :=
  (aid ^^^ tag.toNat / 65536 ^^^ tag.toNat / 256 % 256 ^^^ tag.toNat % 256) % 8
/-- The ways of a cluster that a region holds. -/
def State.adWaysOf (s : State) (cl : Nat) (r : RKey) : List Nat :=
  (List.range 16).filter fun w => (s.cluster cl).adways.get? w == some r
/-- The row of the cache that holds an adapter of a region. -/
def State.adFind (s : State) (cl : Nat) (r : RKey) (aid : Nat) (tag : Word) : Option Nat :=
  ((s.adWaysOf cl r).map fun w => adSet aid tag * 16 + w).find? fun i => match (s.cluster cl).adEnts.get? i with
    | some e => decide (e.r = r) && e.aid == aid && e.tag == tag
    | none => false
/-- An entry made most recently used. -/
def State.adUse (s : State) (cl i : Nat) : State :=
  s.updCluster cl fun x =>
    let top := x.adEnts.foldl (fun m p => max m p.2.used) 0
    { x with adEnts := x.adEnts.upd i fun e => { e with used := top + 1 } }
/-- A filled entry put into the lowest invalid way of its set, else in place of the least recently used. -/
def State.adInsert (s : State) (cl : Nat) (e : AdEnt) : State :=
  let rows := (s.adWaysOf cl e.r).map fun w => adSet e.aid e.tag * 16 + w
  let used (i : Nat) : Nat := ((s.cluster cl).adEnts.get? i).elim 0 (·.used)
  let pick := match rows.find? fun i => ((s.cluster cl).adEnts.get? i).isNone with
    | some i => some i
    | none => match rows with
      | [] => none
      | i :: r => some (r.foldl (fun m j => if used j < used m then j else m) i)
  match pick with
  | some i => (s.updCluster cl fun x => { x with adEnts := x.adEnts.put i e }).adUse cl i
  | none => s

/-- The adapter term of R72: the rounded intermediate row. -/
def AdEnt.mid (e : AdEnt) (ty : Ty) (row : List Nat) : List Nat :=
  (List.range 64).map fun j =>
    roundTo (Ty.fmt .bf16) .rne false (sumNum ((List.range 64).map fun k =>
      mulNum (readEl ty (row.getD k 0)) (readFloat (Ty.fmt .bf16) (e.la.get 0 (64 * k + j)))))
def AdEnt.products (e : AdEnt) (mid : List Nat) (n : Nat) : List Num :=
  (List.range 64).map fun j => mulNum (readFloat (Ty.fmt .bf16) (mid.getD j 0)) (readFloat (Ty.fmt .bf16) (e.ra.get 0 (64 * j + n)))
/-- The term of an adapter added to a row of an accumulator, and to its audit. -/
def State.addTerm (s : State) (b : BKey) (e : AdEnt) (acc row : Nat) (ty : Ty) (x : List Nat) (cand : Option Nat) : State :=
  let mid := e.mid ty x
  s.updSeq b fun q =>
    let old := q.accs.get {} acc
    let elems := (List.range 64).foldl (fun (m : SMap Word) n => m.put (row * 64 + n)
      (BitVec.ofNat 32 (roundTo fmtF32 .rne false (addNum .rne (readFloat fmtF32 (old.elems.get 0 (row * 64 + n)).toNat) (sumNum (e.products mid n)))))) old.elems
    let audits := q.audits.map fun a =>
      if some a.cand = cand then
        { a with outs := (List.range 64).foldl (fun (o : SMap (Word × Word)) n =>
            let k := (acc * 64 + row) * 64 + n
            o.put k (elems.get 0 (row * 64 + n), auditStep (o.get (0, 0) k).2 (e.products mid n))) a.outs }
      else a
    { q with accs := q.accs.put acc { old with elems := elems }, audits := audits }

/-- The cluster of a block. -/
def State.clOf (s : State) (b : BKey) : Nat := (s.block b).cluster

/-- A fill for an adapter: one already under way, or a new one; with no ways each row has its own (R254). -/
def State.startFill (s : State) (b : BKey) (aid : Nat) (tag : Word) (dir : Nat) : State × Nat :=
  let q := s.seq b
  match (if (s.region b.r).rcb.adways = 0 then none else q.fills.find? fun f => f.aid == aid && f.tag == tag && !f.drop) with
  | some f => (s, f.id)
  | none => (s.updSeq b fun q => { q with fills := q.fills ++ [{ id := q.nextId, aid, tag, dir }], nextId := q.nextId + 1 }, q.nextId)

/-- The entry that an mmula hits. In ordered mode no row hits: each reads its chunks as memory stands at the last commit, so that no
result depends on what the cache holds (R11, R12) (DEDUCED, log entry 97). -/
def State.adHit (s : State) (b : BKey) (aid : Nat) (tag : Word) : Option Nat :=
  if s.seqOrdered b then none else s.adFind (s.clOf b) b.r aid tag
/-- mmula (R253). -/
def execMmula (x : MArgs) : State → Host.Outcome State Fault Refusal :=
  matOp (.mmula x) fun s b => s.mmulCheck b x fun s t js =>
    let m := x.immF 0 6 + 1
    let grp := x.grp.toNat
    let vi := x.immF 6 11
    let q := s.seq b
    let tag := q.q.get 0 (x.immF 17 3)
    let dir := ((q.q.get 0 x.qb.toNat).toNat + (q.q.get 0 (x.qb.toNat + 1)).toNat * 2 ^ 32) % 2 ^ 56
    if !s.grpOk b grp (x.v.toNat + m - 1) || !s.grpOk b grp vi then .operand
    else
      let rows := (List.range m).map fun r => s.regRow b grp x.v.toNat x.ty r
      let ids := (List.range m).map fun r => elGet 16 (s.seqV b grp vi (r / 2)) (r % 2)
      let cl := s.clOf b
      let misses := (ids.filter fun i => i != 0 && (s.adHit b i tag).isNone).length
      if q.replays.length + misses > 256 then .park s (.room misses)
      else
        let (s, cand) := s.nextCand b x.a.toNat (x.ty.code.toNat + 16)
        let s := s.mmulBase b t x.ty x.a.toNat rows cand
        let s := ((List.range m).zip (ids.zip rows)).foldl (fun s r =>
          let aid := r.2.1
          if aid = 0 then s
          else match s.adHit b aid tag with
            | some i =>
              let s := s.adUse cl i
              match (s.cluster cl).adEnts.get? i with
              | some e => s.addTerm b e x.a.toNat r.1 x.ty r.2.2 (cand.map (·.cand))
              | none => s
            | none =>
              let (s, id) := s.startFill b aid tag dir
              s.updSeq b fun q => { q with replays := q.replays ++
                [{ id, acc := x.a.toNat, row := r.1, x := r.2.2, ty := x.ty, aid, tag, dir, cand := cand.map (·.cand) }] }) s
        .exec s { ready := s.cycle + 2 * m + 24, accs := js } (2 * m)

/-- A page of a context as fills see it: in ordered mode as of the last commit. -/
def State.fillPages (s : State) (b : BKey) : List Page :=
  if s.seqOrdered b then ((s.region b.r).pages).getD (s.ctx b.r.c).pages else (s.ctx b.r.c).pages
/-- Bytes that a fill reads: committed memory in ordered mode (R309). -/
def State.fillByte (s : State) (b : BKey) (l : Loc) : Byte :=
  match (if s.seqOrdered b then (s.region b.r).undo.find? fun w => decide (w.1 = l) else none) with
  | some w => w.2
  | none => s.rawByte l
/-- How a read of a fill ends. -/
inductive FRead where
  | ok (b : List Byte)
  | nonres (va : Nat)
  | fault (f : FaultInfo)
deriving DecidableEq, Repr
def State.fillRead (s : State) (b : BKey) (va n : Nat) : FRead :=
  let ps := s.fillPages b
  let starts := (List.range ((va + n - 1) / 32 - va / 32 + 1)).map fun i => max va ((va / 32 + i) * 32)
  let stop := starts.findSome? fun a =>
    if a ≥ 2 ^ 56 then some (FRead.fault { kind := 5, addr := a })
    else match findPage ps a with
      | none => some (FRead.fault { kind := 5, addr := a })
      | some p =>
        if !p.r || p.peer.isSome then some (.fault { kind := 5, addr := a })
        else if !p.res || s.ownedAt (.mem (cellOf (Page.pa p a))) then some (.nonres a)
        else if s.poisoned (.mem (cellOf (Page.pa p a))) then some (.fault { kind := 0x0B, addr := a / 128 * 128 })
        else none
  match stop with
  | some x => x
  | none => .ok ((List.range n).map fun i => match findPage ps (va + i) with
    | some p => s.fillByte b (.mem (cellOf (Page.pa p (va + i))))
    | none => 0)

/-- The chunks of a fill as elements by 64 × row + column, with zero beyond the rank (R255). -/
def chunk (b : List Byte) (keep : Nat → Nat → Bool) : SMap Nat :=
  (List.range 64).flatMap fun r => (List.range 64).filterMap fun c =>
    let v := leNat ((b.drop (128 * r + 2 * c)).take 2)
    if v != 0 && keep r c then some (64 * r + c, v) else none

/-- The reads of a fill in their order. -/
def State.fillEntry (s : State) (b : BKey) (f : AFill) : Except FRead AdEnt :=
  let layer := f.tag.toNat / 65536
  let a0 := f.dir + 8 * layer
  let dw (va : Nat) (bad : Nat → Bool) (k : Nat → Except FRead AdEnt) : Except FRead AdEnt :=
    if va % 8 != 0 then .error (.fault { kind := 4, addr := va })
    else match s.fillRead b va 8 with
      | .ok bs => if bad (leNat bs) then .error (.fault { kind := 5, addr := va }) else k (leNat bs)
      | r => .error r
  dw a0 (· ≥ 2 ^ 56) fun p =>
  dw (p + 16 * f.aid) (· ≥ 2 ^ 62) fun d0 =>
  dw (p + 16 * f.aid + 8) (· ≥ 2 ^ 56) fun ra =>
    let la := d0 % 2 ^ 56
    let r := d0 / 2 ^ 56 % 64 + 1
    if la % 128 != 0 then .error (.fault { kind := 4, addr := la })
    else if ra % 128 != 0 then .error (.fault { kind := 4, addr := ra })
    else match s.fillRead b (la + 8192 * (f.tag.toNat / 256 % 256)) 8192 with
      | .ok lb => match s.fillRead b (ra + 8192 * (f.tag.toNat % 256)) 8192 with
        | .ok rb => .ok { r := b.r, aid := f.aid, tag := f.tag, la := chunk lb fun _ c => c < r, ra := chunk rb fun j _ => j < r }
        | x => .error x
      | x => .error x

/-- Whether a fill can complete: with no ways the fills go in order; its pages are resident. -/
def State.fillReady (s : State) (b : BKey) (id : Nat) : Bool :=
  let q := s.seq b
  match (if (s.region b.r).rcb.adways = 0 then q.fills.head? else q.fills.find? fun f => f.id == id) with
  | some f => f.id == id && match s.fillEntry b f with
    | .error (.nonres _) => false
    | _ => true
  | none => false

/-- ADAPTER_FILL_COMPLETE (R255 to R257): the entry is kept, and the rows that wait for it are replayed; a fill
that faults leaves them pending, and one for no row is dropped. -/
def execAdapterFillComplete (s : State) : Host.Outcome State Fault Refusal :=
  .next <| match s.turn with
  | .event (.adapterFillComplete b id) =>
    match (s.seq b).fills.find? fun f => f.id == id with
    | none => s
    | some f =>
      if !s.fillReady b id then s
      else
        let s := s.updSeq b fun q => { q with fills := q.fills.filter fun y => y.id != id }
        match s.fillEntry b f with
        | .error (.fault k) => s.updSeq b fun q =>
            { q with replays := q.replays.map fun r => if r.id == id then { r with fault := some k } else r }
        | .error _ => s
        | .ok e =>
          let cl := s.clOf b
          let s := if (s.region b.r).rcb.adways = 0 || f.drop then s
            else match s.adFind cl b.r f.aid f.tag with
              | some i => s.adUse cl i
              | none => s.adInsert cl e
          let rows := (s.seq b).replays.filter fun r => r.id == id
          let s := rows.foldl (fun s r => s.addTerm b e r.acc r.row r.ty r.x r.cand) s
          s.updSeq b fun q => { q with replays := q.replays.filter fun r => r.id != id }
  | _ => s

/-- Whether a block of the region on the cluster has a fill of an entry in flight (R257). -/
def State.fillsHere (s : State) (b : BKey) (aid : Nat) (tag : Word) : Bool :=
  (s.standing b.r).any fun p => p.2.cluster == s.clOf b && p.2.seq.any fun q => q.fills.any fun f => f.aid == aid && f.tag == tag && !f.drop
/-- adpf (R257); of an entry that is present it leaves the order of use as it was (DESIGN CHOICE, log entry 104). -/
def execAdpf (x : MArgs) : State → Host.Outcome State Fault Refusal :=
  matOp (.adpf x) fun s b =>
    let q := s.seq b
    let aid := x.immF 0 16
    let tag := q.q.get 0 (x.immF 16 3)
    let dir := ((q.q.get 0 x.qb.toNat).toNat + (q.q.get 0 (x.qb.toNat + 1)).toNat * 2 ^ 32) % 2 ^ 56
    if aid = 0 || (s.region b.r).rcb.adways = 0 || (s.adFind (s.clOf b) b.r aid tag).isSome || s.fillsHere b aid tag then .next s
    else .next (s.startFill b aid tag dir).1

/-- Whether a replay of a region's standing blocks names an id (any id) (DESIGN CHOICE, log entry 105). -/
def State.replayNames (s : State) (r : RKey) (id : Option Nat) : Bool :=
  (s.standing r).any fun p => (p.2.seq.getD {}).replays.any fun y => id.all (· == y.aid)
/-- The entries of a region with an id (any id) invalidated; their fills in flight are not inserted. -/
def State.invalidate (s : State) (r : RKey) (id : Option Nat) : State :=
  { s with
    clusters := s.clusters.map fun p => (p.1, { p.2 with adEnts := p.2.adEnts.filter fun e => !(decide (e.2.r = r) && id.all (· == e.2.aid)) })
    blocks := s.blocks.map fun p => if p.1.r = r then (p.1, { p.2 with seq := p.2.seq.map fun q =>
        { q with fills := q.fills.map fun f => if id.all (· == f.aid) then { f with drop := true } else f } }) else p }
def adinv (i : Instr) (id : Option Nat) : State → Host.Outcome State Fault Refusal :=
  matOp i fun s b => if s.replayNames b.r id then .park s (.invalidate id) else .next (s.invalidate b.r id)
def execAdinv (x : MArgs) (s : State) : Host.Outcome State Fault Refusal := adinv (.adinv x) (some (x.immF 0 16)) s
def execAdinvAll (x : MArgs) (s : State) : Host.Outcome State Fault Refusal := adinv (.adinvAll x) none s

/-! ## Storing results (R73, R243, R247, R248) -/

/-- The value of an accumulator's element after the scale and bias steps. -/
def storeValue (isInt : Bool) (v scale bias : Option Word) : Num :=
  let f (w : Word) : Num := readFloat fmtF32 w.toNat
  let round (x : Num) : Num := readFloat fmtF32 (roundTo fmtF32 .rne false x)
  let x := readEl (if isInt then .i32 else .f32) (v.getD 0).toNat
  let x := match scale with | some k => round (mulNum x (f k)) | none => x
  match bias with | some k => round (addNum .rne x (f k)) | none => x

/-- mstore: rounding, saturation, outliers, scale and bias in its sub. -/
def execMstore (f : BitVec 6) (x : MArgs) : State → Host.Outcome State Fault Refusal :=
  matOp (.mstore f x) fun s b => s.withEngine b fun s => s.awaitAccs b [x.a.toNat] <|
    let q := s.seq b
    let m := x.immF 0 6 + 1
    let grp := x.grp.toNat
    let vx := x.v.toNat
    let vb := x.immF 6 11
    let w := x.ty.width
    let per := if w = 32 then 2 else 1
    let bias := f.getLsbD 5
    if q.writing then .park s .writes
    else if !s.grpOk b grp (vx + per * m - 1) || (bias && !s.grpOk b grp (vb + 1)) then .operand
    else
      let rm : Rm := match (f.extractLsb' 0 2).toNat with | 0 => .rne | 1 => .rtz | 2 => .rup | _ => .rdn
      let a := q.accs.get {} x.a.toNat
      let val (r n : Nat) : Num := storeValue a.isInt (some (a.elems.get 0 (64 * r + n)))
        (if f.getLsbD 4 then some (a.scales.get oneF n) else none)
        (if bias then some (BitVec.ofNat 32 (s.seqV b grp (vb + n / 32) (n % 32))) else none)
      let out (r n : Nat) : Bool := f.getLsbD 3 && isOutlier x.ty rm (val r n)
      let el (r n : Nat) : Nat := if out r n then 0 else convEl x.ty rm (f.getLsbD 2) (val r n)
      let lanes (r c cnt : Nat) : List (Nat × Word) := (List.range cnt).map fun l =>
        (l, BitVec.ofNat 32 (elMap w (32 / w) fun i => el r (c + l * (32 / w) + i)))
      let writes : List VWrite := (List.range m).flatMap fun r =>
        if w = 32 then [⟨grp, vx + 2 * r, lanes r 0 32⟩, ⟨grp, vx + 2 * r + 1, lanes r 32 32⟩]
        else if w = 16 then [⟨grp, vx + r, lanes r 0 32⟩]
        else [⟨grp, vx + r, lanes r 0 16⟩]
      let base := q.q.get 0 x.qb.toNat
      let recs : List (Nat × OlRec) := (List.range m).flatMap fun r => ((List.range 64).filter (out r)).map fun n =>
        (grp, { index := base + BitVec.ofNat 32 (64 * r + n), value := outlierValue (val r n), e := 4 })
      .exec s { ready := s.cycle + per * m + 8, writes, recs } (per * m + 8)

/-- The outlier records of an mstore appended to their group's list in order, up to the first that waits for its
page; the first fault is kept (R66, R248). -/
def State.seqDrain (s : State) (b : BKey) : List (Nat × OlRec) → State × List (Nat × OlRec) × Option FaultInfo
  | [] => (s, [], none)
  | r :: rs =>
    let g : GKey := ⟨b, r.1, 0⟩
    match s.olAppend g 4 true r.2.index r.2.value r.2.at_ with
    | (s, .wait) => (s, (if s.ordered g then r else (r.1, { r.2 with at_ := some (r.2.at_.getD (s.group g).olPlace) })) :: rs, none)
    | (s, .done) => s.seqDrain b rs
    | (s, .fault f) =>
      let (s, left, _) := s.seqDrain b rs
      (s, left, some f)

/-- Register writes of an mstore made. -/
def State.seqWrites (s : State) (b : BKey) (ws : List VWrite) : State :=
  ws.foldl (fun s w => s.setVLs ⟨b, w.grp, 0⟩ w.reg w.lanes) s

/-- How the check of an ordered mstore's records at its retirement ends (R248): the tables as of the last commit,
at the places from the count of that commit; a fault comes before a wait. -/
def State.olCheck (s : State) (b : BKey) (recs : List (Nat × OlRec)) : Option OlEnd :=
  let ends := ((List.range recs.length).zip recs).map fun r =>
    let x := s.group ⟨b, r.2.1, 0⟩
    let before := ((s.seq b).quant.ol.filter fun y => y.1 == r.2.1).length
    let c := x.q.olsnap.toNat % 2 ^ 31 + before + r.1
    if c ≥ x.ollen.toNat then OlEnd.done
    else match (s.access ⟨b, r.2.1, 0⟩ (x.olbase.toNat * 8 + 8 * c) 8 false true).2 with
      | .fault f => .fault f
      | .nonres | .owned => .wait
      | .ok _ => .done
  match ends.find? fun x => match x with
    | .fault _ => true
    | _ => false with
  | some x => some x
  | none => if ends.contains .wait then some .wait else none

/-! ## Audit records (R259, R260) -/

/-- The deviation of an output (R74). That of two equal infinities is not stated: a free value. -/
def deviation (isInt : Bool) (eng aud : Word) : Word :=
  let x := readEl (if isInt then .i32 else .f32) eng.toNat
  let y := readFloat fmtF32 aud.toNat
  match x, y with
  | .nan, .nan => 0
  | .nan, _ | _, .nan => 0x7F800000
  | .inf s, .inf s' => if s == s' then Config.infDeviation else 0x7F800000
  | _, _ => BitVec.ofNat 32 (roundTo fmtF32 .rne false (addNum .rne x y.negate) % 2 ^ 31)

/-- The largest deviation of an audit with the row and column of the first output, in row order, that reaches it. -/
def AuditRec.worst (a : AuditRec) : Word × Nat × Nat :=
  let order (p : Nat × (Word × Word)) : Nat × Nat := (p.1 / 64 % 64, (p.1 / 4096 - a.acc) * 64 + p.1 % 64)
  let before (x y : Nat × Nat) : Bool := x.1 < y.1 || (x.1 == y.1 && x.2 < y.2)
  match a.outs with
  | [] => (0, 0, 0)
  | p :: r =>
    let start := (deviation a.isInt p.2.1 p.2.2, order p)
    let best := r.foldl (fun (m : Word × (Nat × Nat)) p =>
      let d := deviation a.isInt p.2.1 p.2.2
      let gt := ltNum false (readFloat fmtF32 m.1.toNat) (readFloat fmtF32 d.toNat)
      if gt || (d == m.1 && before (order p) m.2) then (d, order p) else m) start
    (best.1, best.2.1, best.2.2)

def auditBytes (b : BKey) (a : AuditRec) : List Byte :=
  let w := a.worst
  leBytes 2 b.r.id ++ leBytes 1 a.acc ++ leBytes 1 a.fmt ++ leBytes 4 b.n ++ leBytes 8 a.retired ++ leBytes 4 a.pc ++
    leBytes 4 w.1.toNat ++ leBytes 1 w.2.1 ++ leBytes 1 w.2.2 ++ leBytes 2 0 ++ leBytes 4 a.cand

/-- A store by a sequencer's audit unit: the cell of an aligned range, a page or a copy to wait for, or a fault; `whole` says that it
writes the sector whole, whose poison then goes (R199). -/
def State.auditPlace (s : State) (b : BKey) (va : Nat) (whole : Bool) : Except FRead Nat :=
  if va ≥ 2 ^ 56 then .error (.fault { kind := 5, addr := va, write := true })
  else match findPage (s.fillPages b) va with
    | none => .error (.fault { kind := 5, addr := va, write := true })
    | some p =>
      let cell := cellOf (Page.pa p va)
      if !p.w || p.peer.isSome then .error (.fault { kind := 5, addr := va, write := true })
      else if !p.res || s.ownedAt (.mem cell) then .error (.nonres va)
      else if !whole && s.poisoned (.mem cell) then .error (.fault { kind := 0x0B, addr := va, write := true })
      else .ok cell
/-- A sequencer as the records of lines name it; in an ordered region by the first placement of its group (R98, R394). -/
def State.seqAgent (s : State) (b : BKey) : Agent :=
  let x := s.group ⟨b, s.firstVec b, 0⟩
  if s.seqOrdered b then .seq b x.die0 x.core0 else .seq b x.die x.core
/-- The check of an audit index, a device-scope release (R223, R260). -/
def State.auditSync (s : State) (b : BKey) (cell : Nat) : State × Option Nat :=
  s.syncAccess b.r.c (s.seqAgent b) (s.block b).seqCore 6 false true false (if s.seqOrdered b then some b.r else none) none cell

/-- The first audit whose engine values are final. -/
def Seq.auditDue (q : Seq) : Option AuditRec :=
  match q.audits with
  | a :: _ => if q.replays.any fun r => r.cand == some a.cand then none else some a
  | [] => none
/-- Whether the next audit record can be written or faults now; its fault comes behind that of an earlier mstore (R238, R248). -/
def State.auditReady (s : State) (b : BKey) : Bool :=
  let q := s.seq b
  let earlier := q.exec.any fun w => !w.recs.isEmpty
  q.auditDue.isSome && decide (q.st ≠ .faulted) && q.olFault.isNone &&
    match s.auditPlace b (q.auditBase + 32 + 32 * (q.auditW % 2 ^ q.auditCap)) true, s.auditPlace b q.auditBase false with
    | .error (.nonres _), _ | _, .error (.nonres _) => false
    | .error _, _ | _, .error _ => !earlier
    | _, _ => true
/-- The distinct lines of a sequencer's buffer, its outlier records counted by the line (R307). -/
def Quantum.lines (q : Quantum) : Nat :=
  (linesOf q.buf).length + ((q.ol.map (·.1)).eraseDups.foldl (fun n g => n + ((q.ol.filter (·.1 == g)).length + 15) / 16) 0)
/-- The next audit record written, with the index (R260); a store that faults is a sequencer fault
(DEDUCED, log entry 13). -/
def State.writeAudit (s : State) (b : BKey) : State :=
  let q := s.seq b
  match q.auditDue with
  | none => s
  | some a =>
    match s.auditPlace b (q.auditBase + 32 + 32 * (q.auditW % 2 ^ q.auditCap)) true, s.auditPlace b q.auditBase false with
    | .error (.fault f), _ | _, .error (.fault f) => s.seqRaise b q.pc f .audit
    | .ok c, .ok h =>
      let rec_ := (Loc.span (.mem c) 32).zip (auditBytes b a)
      let index := cellsOf (.mem h) 8 (q.auditW + 1)
      let written (s : State) : State := s.updSeq b fun q => { q with auditW := q.auditW + 1, audits := q.audits.drop 1 }
      if s.seqOrdered b then
        let new : List QStore := [{ cells := rec_ }, { cells := index, sync := some h, va := q.auditBase }]
        (written s).updSeq b fun q => { q with quant :=
          { q.quant with buf := q.quant.buf ++ new, due := q.quant.due || decide (q.quant.lines + (linesOf new).length ≥ 512) } }
      else match ((s.flushSeq b).perform rec_).auditSync b h with
        | (s, none) => written (s.perform index)
        | (s, some rx) => s.seqRaise b q.pc { kind := 7, addr := q.auditBase, extra := rx, write := true } .audit
    | _, _ => s
/-- AUDIT_RECORD (R260). -/
def execAuditRecord (s : State) : Host.Outcome State Fault Refusal :=
  .next <| match s.turn with
  | .event (.auditRecord b) => if s.auditReady b then s.writeAudit b else s
  | _ => s

/-- maudit (R259); a base that is not aligned faults (DEDUCED, log entry 69). It waits for the records of the auditing before it (DESIGN
CHOICE, log entry 106), and so does maudit.off. -/
def execMaudit (x : MArgs) : State → Host.Outcome State Fault Refusal :=
  matOp (.maudit x) fun s b =>
    let q := s.seq b
    let r := x.qb.toNat
    let base := ((q.q.get 0 r).toNat + (q.q.get 0 (r + 1)).toNat * 2 ^ 32) % 2 ^ 56
    if base % 32 != 0 then .data s { kind := 4, addr := base }
    else if !q.audits.isEmpty then .park s .audits
    else .next (s.updSeq b fun q =>
      { q with auditOn := true, auditN := x.immF 0 5, auditBase := base, auditCap := x.immF 10 5, auditW := 0, auditT := 0 })
def execMauditOff (x : MArgs) : State → Host.Outcome State Fault Refusal :=
  matOp (.mauditOff x) fun s b =>
    if !(s.seq b).audits.isEmpty then .park s .audits else .next (s.updSeq b fun q => { q with auditOn := false, auditN := 0 })

/-! ## The end of words in execution -/

/-- Whether the oldest word in execution can end: its time has passed, its records can be stored or the first of them still waits (R238,
R262). Its replays go on behind it (R256), but for ordered mode, where they belong to its quantum. -/
def State.wordReady (s : State) (b : BKey) : Bool :=
  let q := s.seq b
  match q.exec with
  | [] => false
  | w :: _ =>
    w.ready ≤ s.cycle && (decide (q.st ≠ .faulted) || w.recs.isEmpty) && (q.olFault.isNone || !s.seqOrdered b) &&
      !(s.seqOrdered b && q.replays.any fun r => w.accs.contains r.acc && r.fault.isNone) &&
      (s.seqOrdered b || (if w.made then (match q.ol with
        | r :: _ => decide ((s.olAppend ⟨b, r.1, 0⟩ 4 true r.2.index r.2.value r.2.at_).2 ≠ .wait)
        | [] => true)
        else (w.recs.all fun r => (s.group ⟨b, r.1, 0⟩).ol.isEmpty) &&
          (w.writes.map (·.grp)).eraseDups.all fun g => s.cowRoom ⟨b, g, 0⟩ ((w.writes.filter (·.grp == g)).map (·.reg))))

/-- The trit flags of groups set (R63, R245). -/
def State.setTrits (s : State) (b : BKey) (gs : List Nat) : State := gs.foldl (fun s g => s.formatErr ⟨b, g, 0⟩ true false) s
/-- The oldest word retired (R305) with the flag it sets, in ordered mode at the commit, and with the audit records that
are then due there. -/
def State.wordRetire (s : State) (b : BKey) : State :=
  let trits := ((s.seq b).exec.head?.bind (·.trit)).toList
  let s := if s.seqOrdered b then s.updSeq b fun q => { q with quant := { q.quant with trits := q.quant.trits ++ trits } }
    else s.setTrits b trits
  let s := (s.updSeq b fun q =>
    { q with exec := q.exec.drop 1, retired := q.retired + 1, quant := { q.quant with count := q.quant.count + 1 } }).bump b.r.c 0 1
  if s.seqOrdered b then (List.range (s.seq b).audits.length).foldl (fun s _ => if s.auditReady b then s.writeAudit b else s) s else s

/-- MATRIX_WORD_COMPLETE (R238, R247, R248, R262). -/
def execMatrixWordComplete (s : State) : Host.Outcome State Fault Refusal :=
  .next <| match s.turn with
  | .event (.matrixWordComplete b) =>
    State.seqStops (b := b) <| if !s.wordReady b then s
    else match (s.seq b).exec with
      | [] => s
      | w :: rest =>
        if s.seqOrdered b then
          let due (s : State) : State := s.updSeq b fun q => { q with quant := { q.quant with due := true } }
          let keep (s : State) : State := s.updSeq b fun q =>
            let new : Quantum := { q.quant with regs := q.quant.regs ++ w.writes, ol := q.quant.ol ++ w.recs }
            { q with quant := { new with due := new.due || decide (new.lines ≥ 512) } }
          match s.olCheck b w.recs with
          | none => (keep s).wordRetire b
          | some (.fault f) =>
            due ((keep s).updSeq b fun q =>
              { q with exec := rest, pc := w.pc, cause := .word, st := .parked .commit, olFault := some { f with write := true } })
          | some _ => due ((s.wordRetire b).updSeq b fun q =>
              { q with st := .parked .record, quant := { q.quant with lateRegs := w.writes, lateOl := w.recs } })
        else
          let s := if w.made then s else
            (s.seqWrites b w.writes).updSeq b fun q => { q with ol := w.recs, exec := { w with made := true } :: rest }
          let (s, left, f) := s.seqDrain b (s.seq b).ol
          let s := s.updSeq b fun q => { q with ol := left, olFault := if q.olFault.isSome then q.olFault else f }
          if !left.isEmpty then s
          else match (s.seq b).olFault with
            | some f => (s.updSeq b fun q => { q with exec := rest, olFault := none }).seqRaise b w.pc { f with write := true } .word
            | none => (s.wordRetire b).olRetryAll
  | _ => s

/-! ## Other words (R249 to R252) -/

def execMzero (x : MArgs) : State → Host.Outcome State Fault Refusal :=
  matOp (.mzero x) fun s b => s.withEngine b fun s => s.awaitAccs b [x.a.toNat] <|
    .next (s.updSeq b fun q => { q with accs := q.accs.put x.a.toNat { isInt := x.ty == .i32 } })

/-- mgive and mtake (R229, R250): mgive waits for the register writes and appends of earlier words. -/
def execMgive (x : MArgs) : State → Host.Outcome State Fault Refusal :=
  matOp (.mgive x) fun s b =>
    let n := x.a.toNat
    let d := x.immF 0 3 + 1
    let q := s.seq b
    if q.writing then .park s .writes
    else if s.seqOrdered b then
      .done (s.updSeq b fun q => { q with
        st := .parked .commit
        retired := q.retired + 1
        quant := { q.quant with ops := q.quant.ops ++ [.seqGive n d], due := true, count := q.quant.count + 1 } })
    else
      let s := s.updRing b n fun r => r.fix d
      let r := s.ring b n
      if r.givers.isEmpty && r.canGive then .next ((s.flushSeq b).updRing b n Ring.give)
      else .park (s.updRing b n fun r => { r with givers := r.givers ++ [.seq] }) (.ring true n)
def execMtake (x : MArgs) : State → Host.Outcome State Fault Refusal :=
  matOp (.mtake x) fun s b =>
    let n := x.a.toNat
    let d := x.immF 0 3 + 1
    if s.seqOrdered b then
      .done (s.updSeq b fun q => { q with
        st := .parked .commit
        retired := q.retired + 1
        quant := { q.quant with ops := q.quant.ops ++ [.seqTake n d], due := true, count := q.quant.count + 1 } })
    else
      let s := s.updRing b n fun r => r.fix d
      let r := s.ring b n
      if r.takers.isEmpty && r.canTake then .next (s.updRing b n Ring.take)
      else .park (s.updRing b n fun r => { r with takers := r.takers ++ [.seq] }) (.ring false n)

/-- A q register (R251). -/
def State.setQ (s : State) (b : BKey) (n : Nat) (v : Word) : State := s.updSeq b fun q => { q with q := q.q.put n v }
def execMloop (x : MArgs) : State → Host.Outcome State Fault Refusal :=
  matOp (.mloop x) fun s b =>
    let v := (s.seq b).q.get 0 x.a.toNat - 1
    let s := s.setQ b x.a.toNat v
    if v = 0 then .next s else .goto s ((s.seq b).pc + 8 * x.imm.signExtend 64)
def execMset (x : MArgs) : State → Host.Outcome State Fault Refusal :=
  matOp (.mset x) fun s b => .next (s.setQ b x.a.toNat (x.imm.signExtend 32))
def execMsetHi (x : MArgs) : State → Host.Outcome State Fault Refusal :=
  matOp (.msetHi x) fun s b =>
    let old := (s.seq b).q.get 0 x.a.toNat
    .next (s.setQ b x.a.toNat (x.imm.extractLsb' 0 16 ++ old.extractLsb' 0 16 : BitVec 32))
def execMsetV (x : MArgs) : State → Host.Outcome State Fault Refusal :=
  matOp (.msetV x) fun s b =>
    if (s.seq b).writing then .park s .writes
    else if !s.grpOk b x.grp.toNat x.v.toNat then .operand
    else .next (s.setQ b x.a.toNat (BitVec.ofNat 32 (s.seqV b x.grp.toNat x.v.toNat (x.immF 0 5))))
def execMadd (x : MArgs) : State → Host.Outcome State Fault Refusal :=
  matOp (.madd x) fun s b => .next (s.setQ b x.a.toNat ((s.seq b).q.get 0 x.qb.toNat + x.imm.signExtend 32))

/-- mend (R252). -/
def execMend (x : MArgs) : State → Host.Outcome State Fault Refusal :=
  matOp (.mend x) fun s b => s.awaitAll b <|
    let s := (s.seqRetire b ((s.seq b).pc + 8)).freeEngine b
    let s := s.updSeq b fun q => { q with st := .ended }
    .done (if s.seqOrdered b then s.updSeq b fun q => { q with quant := { q.quant with ops := q.quant.ops ++ [.release], due := true } }
      else s.blockCheck b)

/-- Whether what a sequencer waits for has come (R238, R239, R250, R252, R256, R257). -/
def State.seqWaitOver (s : State) (b : BKey) : SPark → Bool
  | .engine => (s.seq b).held
  | .accs js => !(s.seq b).busyAccs js || ((s.seq b).fillFault js).isSome
  | .writes => !(s.seq b).writing
  | .room n => (s.seq b).replays.length + n ≤ 256
  | .invalidate id => !s.replayNames b.r id
  | .drain => (s.seq b).drained || ((s.seq b).fillFault allAccs).isSome
  | .idle => ((s.seq b).exec.isEmpty && (s.seq b).replays.isEmpty) || ((s.seq b).fillFault allAccs).isSome
  | .audits => (s.seq b).audits.isEmpty
  | .gate => !(s.seq b).gated
  | .page va => decide (s.fillRead b va 1 ≠ .nonres va)
  | .owned a => !s.ownedAt (.scr b a)
  | .ring _ _ | .commit | .record => false

/-- The resumption of a sequencer after a fault (R330, R256): `skip` passes its word, discards the rows of the fill,
or discards the audit record. -/
def State.seqResume (s : State) (b : BKey) (skip : Bool) : State :=
  let s := s.updSeq b fun q => { q with st := .running, frec := none }
  match (s.seq b).cause with
  | .word => if skip then s.updSeq b fun q => { q with pc := q.pc + 8 } else s
  | .audit => if skip then s.updSeq b fun q => { q with audits := q.audits.drop 1 } else s
  | .fill id =>
    match (s.seq b).replays.find? fun r => r.id == id with
    | none => s
    | some r =>
      if skip then s.updSeq b fun q => { q with replays := q.replays.filter fun y => y.id != r.id }
      else s.updSeq b fun q =>
        { q with
          replays := q.replays.map fun y => if y.id = r.id then { y with fault := none } else y
          fills := q.fills ++ [{ id := r.id, aid := r.aid, tag := r.tag, dir := r.dir }] }

end Sys2Proof.Machine
end

