-- ==== Sys2Proof/Machine/Campanile.lean ====
section
/-! DEFINITION. Campanile: the claim, the array, launches and captures (R265 to R279). -/

namespace Sys2Proof.Machine

/-! ## The array -/

/-- Delays, latch values: 255 where nothing is listed (R266). -/
def Core.delay (k : Core) (i j : Nat) : Nat := (k.delays.get 255 (64 * i + j)).toNat
def Core.captured (k : Core) (j : Nat) : Nat := (k.latch.get 255 j).toNat

/-- The rise tick of an output, none for never (R269). -/
def riseTick (k : Core) (x : Nat → Nat) (j : Nat) : Option Nat :=
  let cs := (List.range 64).filter fun i => k.delay i j != 255
  if k.maxMode then
    if cs.isEmpty || cs.any fun i => x i == 255 then none
    else some (cs.foldl (fun m i => max m (x i + k.delay i j)) 0)
  else
    match cs.filter fun i => x i != 255 with
    | [] => none
    | i :: r => some (r.foldl (fun m i => min m (x i + k.delay i j)) (x i + k.delay i j))

/-- The capture of a rise tick: the value, and whether it was early, over (R270). -/
def capture (tw : BitVec 16) (t : Option Nat) : Nat × Bool × Bool :=
  let span := (tw.extractLsb' 0 8).toNat
  let bias := (tw.extractLsb' 8 8).toNat
  match t with
  | none => (255, false, false)
  | some t =>
    if span = 0 then (255, false, false)
    else if t < bias then (0, true, false)
    else if t < bias + span then (t - bias, false, false)
    else (255, false, true)

/-- A launch with its capture into the latch and the flags of the group (R269, R270). -/
def State.launchArray (s : State) (g : GKey) (x : Nat → Nat) : State :=
  let k := s.core (s.coreOf g)
  let tw := (s.group g).tw
  let cs := (List.range 64).map fun j => (j, capture tw (riseTick k x j))
  let early := cs.any fun c => c.2.2.1
  let passed := cs.any fun c => c.2.2.2
  let latch : SMap Byte := cs.map fun c => (c.1, BitVec.ofNat 8 c.2.1)
  (s.updCore (s.coreOf g) fun y => { y with latch := latch }).updGroup g fun y =>
    { y with tstat := y.tstat ||| (0#1 ++ BitVec.ofBool passed ++ BitVec.ofBool early) }

/-- The cycles of a launch (R277). -/
def launchTime (tw : BitVec 16) : Nat :=
  let span := (tw.extractLsb' 0 8).toNat
  if span = 0 then 8 else (tw.extractLsb' 8 8).toNat + span + 8
/-- The array busy for some cycles; in ordered mode no time reaches a result. -/
def State.arrayTime (s : State) (g : GKey) (n : Nat) : State :=
  if s.ordered g then s else s.updCore (s.coreOf g) fun k => { k with campBusy := some (s.cycle + n) }

/-- Whether a group holds the array of its core. -/
def State.holdsArray (s : State) (g : GKey) : Bool := decide ((s.core (s.coreOf g)).camp = some (baseKey g))

/-! ## Scalar side (R271 to R273, R279) -/

/-- A scalar-side instruction: it waits for the group's Campanile lane instructions (R272), and in a restored group for the array that the
group held (R278). -/
def campOp (legal : Bool) (f : State → GKey → Nat → Ends) : State → Host.Outcome State Fault Refusal :=
  scalarOp legal { vec := true, stalls := true } fun s g e =>
    s.awaitLanes g e .campanile (if s.arrayDue g then .park s .array else f s g e)
/-- One that needs the claim: fault 0x12 without it. -/
def campHeld (legal : Bool) (f : State → GKey → Nat → Ends) : State → Host.Outcome State Fault Refusal :=
  campOp legal fun s g e => if s.holdsArray g then f s g e else .fault s { kind := 0x12 }

/-- tacq: each split's claim waits in the core's queue; in ordered mode for a commit. -/
def execTacq (s : State) : Host.Outcome State Fault Refusal :=
  campOp true (fun s g e =>
    if s.holdsArray g then .next (s.updCore (s.coreOf g) fun x => { x with campQ := x.campQ.filter (· != (g, e)) })
    else if s.ordered g then s.atCommit g e (.claim e)
    else
      let k := s.coreOf g
      let s := if (s.core k).campQ.contains (g, e) then s else s.updCore k fun x => { x with campQ := x.campQ ++ [(g, e)] }
      let s := if (s.core k).camp.isNone then s.grantArray k else s
      if s.holdsArray g then .next s else .park s .array) s
/-- trel; in ordered mode at the commit. -/
def execTrel (s : State) : Host.Outcome State Fault Refusal :=
  campHeld true (fun s g _ =>
    if s.ordered g then .next (s.updGroup g fun x => { x with q := { x.q with ops := x.q.ops ++ [.release] } })
    else .next (s.freeArray g)) s
def execTwin (a b : BitVec 7) : State → Host.Outcome State Fault Refusal :=
  campOp true fun s g e =>
    let span := min (max (s.getS g e a.toNat).toNat 1) 255
    let bias := min (s.getS g e b.toNat).toNat 255
    .next (s.updGroup g fun x => { x with tw := BitVec.ofNat 16 (bias * 256 + span) })
def execTmode (m : BitVec 1) : State → Host.Outcome State Fault Refusal :=
  campHeld true fun s g _ => .next (s.updCore (s.coreOf g) fun k => { k with maxMode := m == 1 })
def execTreset (s : State) : Host.Outcome State Fault Refusal :=
  campHeld true (fun s g _ => .next (s.updCore (s.coreOf g) fun k => { k with latch := [] })) s

/-- The steps of a tchain (R273). -/
def State.chainSteps (s : State) (g : GKey) : Nat → State
  | 0 => s
  | n + 1 => (s.launchArray g (s.core (s.coreOf g)).captured).chainSteps g n
def execTchain (n : BitVec 7) : State → Host.Outcome State Fault Refusal :=
  campHeld (WellFormed (.tchain n)) fun s g _ =>
    let s := (s.chainSteps g n.toNat).arrayTime g (n.toNat * launchTime (s.group g).tw)
    if s.ordered g then .next s else .park s .arrayBusy

/-- The splits of a core's holder that stand in a tchain; a suspended one stays there (R325, R343). -/
def State.chained (s : State) (k : Nat) : List (GKey × Nat) :=
  match (s.core k).camp with
  | some g => ((s.group g).ents.filter fun p => decide (p.2.st = .parked .arrayBusy) && !p.2.susp).map fun p => (g, p.1)
  | none => []
/-- CAMPANILE_OPERATION_COMPLETE (R276, R277): the operation under way ends; a tchain retires, or one whose operation has ended while its
split was suspended. -/
def State.arrayReady (s : State) (k : Nat) : Bool :=
  match (s.core k).campBusy with
  | some t => t ≤ s.cycle
  | none => !(s.chained k).isEmpty
def execCampanileOperationComplete (s : State) : Host.Outcome State Fault Refusal :=
  .next <| match s.turn with
  | .event (.campanileOperationComplete k) =>
    if !s.arrayReady k then s
    else
      let s := s.updCore k fun x => { x with campBusy := none }
      (s.chained k).foldl (fun s q => s.retire q.1 q.2 ((s.split q.1 q.2).pc + 4)) s
  | _ => s

/-! ## Lane side (R274, R275) -/

/-- A Campanile lane instruction: the claim is checked at issue, and the array's operation under way ends first
(R276). -/
def campLane (i : Instr) (x : LArgs) (f : State → LCtx → LEnds) : State → Host.Outcome State Fault Refusal :=
  laneIssue i x true fun s c =>
    if s.arrayDue c.g then .wait s .array
    else if !s.holdsArray c.g then .whole { kind := 0x12 }
    else if (s.core (s.coreOf c.g)).campBusy.isSome then .wait s .array
    else f s c

def execTdly (x : LArgs) : State → Host.Outcome State Fault Refusal :=
  campLane (.tdly x) x fun s c =>
    let row := x.ext.toNat
    let ws := (lanesOf c.act).flatMap fun l => (List.range 4).map fun j =>
      (64 * (row + l / 16) + 4 * (l % 16) + j, BitVec.ofNat 8 (elGet 8 (s.getVL c.g x.va.toNat l).toNat j))
    .ok ((s.updCore (s.coreOf c.g) fun k => { k with delays := ws.foldl (fun m w => m.put w.1 w.2) k.delays }).arrayTime c.g 2) []
def execTlaunch (x : LArgs) : State → Host.Outcome State Fault Refusal :=
  campLane (.tlaunch x) x fun s c =>
    if (c.active &&& ~~~c.act).toNat % 65536 != 0 then .idle s
    else
      let inp (i : Nat) : Nat := if c.act.getLsbD (i / 4) then elGet 8 (s.getVL c.g x.va.toNat (i / 4)).toNat (i % 4) else 255
      .ok ((s.launchArray c.g inp).arrayTime c.g (launchTime (s.group c.g).tw)) []

/-- 64 bytes in the layout of tcap. -/
def tickLanes (f : Nat → Nat) (l : Nat) : Word := if l < 16 then BitVec.ofNat 32 (elMap 8 4 fun j => f (4 * l + j)) else 0xFFFFFFFF
/-- The ranks of trank. -/
def rankOf (c : Nat → Nat) (k : Nat) : List Nat :=
  let idx := (List.range 64).filter fun j => c j != 255
  let ins (j : Nat) (l : List Nat) : List Nat := (l.takeWhile fun i => c i ≤ c j) ++ j :: l.dropWhile fun i => c i ≤ c j
  (idx.foldl (fun l j => ins j l) []).take k
def State.laneTicks (s : State) (c : LCtx) (vd : Nat) (f : Nat → Nat) : State :=
  if c.act = 0 then s
  else s.addOutst c.g { e := c.e, lanes := c.act, camp := true, v := [(vd, (lanesOf c.act).map fun l => (l, tickLanes f l))] }
def execTcap (x : LArgs) : State → Host.Outcome State Fault Refusal :=
  campLane (.tcap x) x fun s c => .ok (s.laneTicks c x.vd.toNat (s.core (s.coreOf c.g)).captured) []
def execTrank (x : LArgs) : State → Host.Outcome State Fault Refusal :=
  campLane (.trank x) x fun s c =>
    let r := rankOf (s.core (s.coreOf c.g)).captured x.ext.toNat
    .ok (s.laneTicks c x.vd.toNat fun i => r.getD i 255) []

end Sys2Proof.Machine
end

