-- ==== Sys2Proof/Machine/History.lean ====
section
/-! DEFINITION. The instructions of the history banks, of counters and of page requests (R198, R299 to R301,
R313, R345). -/

namespace Sys2Proof.Machine

/-! ## Images (R282, R300) -/

/-- The range of an image: its cell, or how its instruction ends. The 4,096 bytes lie in one page. -/
def State.imagePlace (s : State) (g : GKey) (e va : Nat) (wr : Bool) (k : State → Nat → Ends) : Ends :=
  if va ≥ 2 ^ 56 then .fault s { kind := 5, addr := va, write := wr }
  else if va % 4096 != 0 then .fault s { kind := 4, addr := va, write := wr }
  else match s.xlate g va (!wr) wr with
    | (s, .fault n) => .fault s { kind := n, addr := va, write := wr }
    | (s, .nonres) => if wr then s.keepScalar g e va else .park s (.page va)
    | (s, .ok cell) =>
      match (List.range 32).find? fun i => s.ownedAt (.mem (cell + 128 * i)) with
      | some i => .park s (.owned (va + 128 * i))
      | none => k s cell

/-- hsave: the bank as of its issue, in ordered mode as of the last commit, goes out as one store, for which the split parks; in ordered
mode it goes to the quantum's buffer. -/
def execHsave (a : BitVec 7) : State → Host.Outcome State Fault Refusal :=
  scalarOp true { stalls := true } fun s g e =>
    let va := (s.getS g e a.toNat).toNat
    let pc := (s.split g e).pc
    match (s.split g e).st with
    | .parked (.written _) => .next s
    | _ => s.imagePlace g e va true fun s cell =>
      let img := (s.bankOf g).elim histEmpty histImage
      let t := s.store g e { cells := (Loc.span (.mem cell) 4096).zip img, e, pc, va } false
      if s.ordered g then .next t else .park t (.written s.nextId)
/-- hload: the image is read as the split sees memory, and applied as one event. -/
def execHload (a : BitVec 7) : State → Host.Outcome State Fault Refusal :=
  scalarOp true { stalls := true } fun s g e =>
    let va := (s.getS g e a.toNat).toNat
    s.imagePlace g e va false fun s cell =>
      match (List.range 128).find? fun i => s.poisonFor g e (.mem (cell + 32 * i)) with
      | some i => .fault s { kind := 0x0B, addr := va + 32 * i }
      | none => .next (s.histNow g (.hload ((Loc.span (.mem cell) 4096).map fun l => s.readByte g e l)))

/-! ## Tables (R301) -/

def execHclr (a : BitVec 7) : State → Host.Outcome State Fault Refusal :=
  scalarOp true { stalls := true } fun s g e => .next (s.histNow g (.hclr (s.getS g e a.toNat)))
def execHrd (d a : BitVec 7) : State → Host.Outcome State Fault Refusal :=
  scalarOp true {} fun s g e =>
    let v : DWord := match s.bankOf g, hsel (s.getS g e a.toNat) with
      | some b, some (t, i, w) => hdword b t i w
      | _, _ => 0
    .next (s.setS g e d.toNat v)
def execHwr (a b : BitVec 7) : State → Host.Outcome State Fault Refusal :=
  scalarOp true { stalls := true } fun s g e => .next (s.histNow g (.hwr (s.getS g e a.toNat) (s.getS g e b.toNat)))

/-! ## Counters and quanta (R313, R345) -/

/-- What cnt.rd reads. -/
def State.counter (s : State) (g : GKey) (sel : Nat) : Nat :=
  match sel with
  | 0 => s.cycles g
  | 1 => s.retiredOf g 4
  | 2 => s.quantum g
  | _ => if s.ordered g then 0 else s.deviceNs
def execCntRd (d : BitVec 7) (sel : BitVec 3) : State → Host.Outcome State Fault Refusal :=
  scalarOp (WellFormed (.cntRd d sel)) {} fun s g e =>
    .next (s.setS g e d.toNat (BitVec.ofNat 64 (s.counter g sel.toNat)))
def execQend (s : State) : Host.Outcome State Fault Refusal :=
  scalarOp true {} (fun s g _ => .next (s.endsQuantum g)) s

/-! ## Page requests (R198, R315) -/

/-- The request mark of a page that is not resident. -/
def request (va : Nat) (p : Page) : Page := if Page.holds p va && !p.res then { p with req := true } else p
def State.pageRequest (s : State) (c : CKey) (va : Nat) : State :=
  s.setPages c fun ps => ps.map (request va)
/-- pgreq; in ordered mode at the commit. -/
def execPgreq (a : BitVec 7) : State → Host.Outcome State Fault Refusal :=
  scalarOp true { stalls := true } fun s g e =>
    let va := (s.getS g e a.toNat).toNat
    .next (if s.ordered g then s.updGroup g fun x => { x with q := { x.q with ops := x.q.ops ++ [.pgreq va] } }
      else s.pageRequest g.b.r.c va)
/-- What pgq reads of a mapping. -/
def pageStatus (p : Page) : DWord :=
  0#57 ++ BitVec.ofNat 2 p.psize ++ BitVec.ofBool p.w ++ BitVec.ofBool p.r ++ BitVec.ofBool (p.req && !p.res) ++
    BitVec.ofBool p.res ++ 1#1
def execPgq (d a : BitVec 7) : State → Host.Outcome State Fault Refusal :=
  scalarOp true {} fun s g e =>
    .next (s.setS g e d.toNat ((findPage (s.pagesFor g) (s.getS g e a.toNat).toNat).elim 0 pageStatus))

end Sys2Proof.Machine
end

