-- ==== Sys2Proof/Machine/Traps.lean ====
section
/-! DEFINITION. trap, the system call and its reply, the returns from a trap, and reads of the record area (R326
to R332). -/

namespace Sys2Proof.Machine

/-- trap (R329): it retires, and then its fault is taken. -/
def execTrap (i : BitVec 14) : State → Host.Outcome State Fault Refusal :=
  scalarOp true { stalls := true } fun s g e =>
    let pc := (s.split g e).pc
    let regs := (s.split g e).s
    let s := (((s.count g e).goTo g e (pc + 4)).endsQuantum g).stepDone g e
    .done (s.takeTrap g
      { recs := [State.frec { kind := 0x0E, extra := i.toNat } 255 e false 0 pc], e, src := .scalar e pc (pc + 4) false, regs })

/-! ## System calls (R331) -/

/-- What a call hands to the Keep: s4 to s11, and for the bind call, sysc 1, the slot address in s14 (R356). -/
def State.callArgs (s : State) (g : GKey) (e imm : Nat) : List DWord :=
  ((List.range 8).map fun i => s.getS g e (4 + i)) ++ if imm = 1 then [s.getS g e 14] else []
/-- A call handed to the Keep. -/
def State.callKeep (s : State) (g : GKey) (e imm : Nat) : State :=
  { s with outs := s.outs ++ [Out.syscall g e imm (s.callArgs g e imm)] }.park g e (.sysc imm)
/-- sysc, an acquire and a release at system scope; in ordered mode the Keep sees it after the commit. -/
def execSysc (i : BitVec 14) : State → Host.Outcome State Fault Refusal :=
  scalarOp true { stalls := true } fun s g e =>
    if s.ordered g then s.atCommit g e (.sysc e i.toNat)
    else .done ((s.flushSplit g e).callKeep g e i.toNat)

/-- The Keep's reply written: the split goes on, or takes the fault that the Keep met. That of a suspended split waits for the
return (R343). -/
def State.reply (s : State) (g : GKey) (e : Nat) (r : SysReply) : State :=
  match (s.split g e).st with
  | .parked (.sysc imm) =>
    if (s.split g e).susp then s.updSplit g e fun p => { p with reply := some r }
    else
      let s := s.updSplit g e fun p => { p with reply := none }
      match r.fault with
      | some k => s.scalarFault g e { kind := k, extra := imm }
      | none =>
        let s := (s.setS g e 2 r.r2).setS g e 3 r.r3
        let next := (s.split g e).pc + 4
        if r.counted then (s.goTo g e next).stepDone g e else s.retire g e next
  | _ => s
/-- The replies that have come during a trap, once no other trap follows it. -/
def State.replies (s : State) (g : GKey) : State :=
  (s.group g).ents.foldl (fun s p => match p.2.reply with
    | some r => if (s.group g).trap.isSome then s else s.reply g p.1 r
    | none => s) s
/-- The kinds that a fault has (R48). -/
def faultKind (k : Nat) : Bool := 1 ≤ k && k ≤ 0x14 && k != 0x0A
/-- Whether a group stands in a saved block. -/
def State.savedAway (s : State) (g : GKey) : Bool :=
  (s.groups.get? g).isNone && (s.region g.b.r).saved.any fun k => (k.groups.map (·.1)).contains g
/-- The Keep's reply to the call of a split, for an ordered region an external input (R318, R331). -/
def State.takeReply (s : State) (g : GKey) (e : Nat) (r2 r3 : DWord) (fault : Option Nat) : State :=
  if s.ordered g then
    s.updRegion g.b.r fun x => { x with inputs := x.inputs ++ [{ kind := 2, sysc := some (g, e, ⟨r2, r3, fault, true⟩) }] }
  else s.reply g e ⟨r2, r3, fault, false⟩
/-- SYSC_REPLY (R331). No reply names a fault of no kind (R48); one to a group that is saved waits for its restore. -/
def execSyscReply (s : State) : Host.Outcome State Fault Refusal :=
  .next <| match s.turn with
  | .event (.syscReply g e r2 r3 fault) =>
    if s.savedAway g then { s with inputs := s.inputs ++ [.syscReply g e r2 r3 fault] }
    else match (s.split g e).st with
    | .parked (.sysc _) => if !fault.all faultKind || (s.split g e).reply.isSome then s else s.takeReply g e r2 r3 fault
    | _ => s
  | _ => s

/-! ## Returns (R330) -/

/-- What a return does to the place that the trap interrupted: `skip` for rte.skip, `lanes` for the lanes that
rte.re names. -/
def State.resumeTrap (s : State) (g : GKey) (src : Option TrapFrom) (skip : Bool) (lanes : Option Word) : State :=
  match src with
  | some (.scalar e _ next again) => if skip && again then s.goTo g e next else s
  | some (.lane e blk word active) =>
    match lanes with
    | none => s
    | some m =>
      let a : Again := { word, lanes := m &&& active, active := m &&& active }
      s.updSplit g e fun p => { p with queue := { blk with again := some a } :: p.queue }
  | some .seq => s.seqResume g.b skip
  | _ => s

/-- A return: only of the trap split, whose lanes have finished. -/
def trapReturn (legal : Bool) (skip : Bool) (n : Option (BitVec 4)) (s : State) : Host.Outcome State Fault Refusal :=
  scalarOp (legal && s.actor.2 == 4) {} (fun s g e =>
    if !s.lanesDone g e then .park s .lsync
    else
      let lanes := n.map fun n => s.getM g (s.split g e).mask n.toNat
      let src := (s.group g).trap
      .done ((((s.count g e).endTrap g fun t => t.resumeTrap g src skip lanes).replies g).stepDone g e)) s
def execRte (s : State) : Host.Outcome State Fault Refusal := trapReturn true false none s
def execRteSkip (s : State) : Host.Outcome State Fault Refusal := trapReturn true true none s
def execRteRe (n : BitVec 4) (s : State) : Host.Outcome State Fault Refusal := trapReturn true false (some n) s

/-! ## Reads of the record area (R332) -/

/-- A doubleword of a record, and the header. -/
def FRec.dword (r : FRec) (i : Nat) : DWord :=
  match i with
  | 0 => r.extra ++ r.flags ++ r.split ++ r.lane ++ r.kind
  | 1 => r.lanePc
  | 2 => r.scalarPc
  | _ => r.addr
def FHdr.dword (h : FHdr) : DWord := 0#22 ++ BitVec.ofBool h.lanei ++ h.split ++ h.count ++ h.done
def Group.recordWord (x : Group) (v : DWord) : DWord :=
  if v.toNat ≥ 2048 then 0
  else if v.getLsbD 10 then x.hdr.dword
  else if v.extractLsb' 2 3 != 0 || (v.extractLsb' 5 5).toNat ≥ x.hdr.count.toNat then 0
  else (x.recs.getD (v.extractLsb' 5 5).toNat {}).dword (v.extractLsb' 0 2).toNat
def execFltrd (d a : BitVec 7) : State → Host.Outcome State Fault Refusal :=
  scalarOp true {} fun s g e => .next (s.setS g e d.toNat ((s.group g).recordWord (s.getS g e a.toNat)))

end Sys2Proof.Machine
end

