-- ==== Sys2Proof/Machine/Inputs.lean ====
section
/-! DEFINITION. What reaches a context from outside its agents: writes to its memory, changes of its pages and
the shootdown of old translations (R195, R211, R225, R315, R318). -/

namespace Sys2Proof.Machine

/-! ## Ordered regions and their inputs (R315, R318) -/

/-- The input log's entry of an input (R382). -/
def logEntry (r q : Nat) (seq : Nat) (i : ExtIn) : LogEnt :=
  { region := r, quantum := q, kind := i.kind, target := i.target, seq
    payload := match i.sysc with
      | some (_, _, r) => leBytes 8 r.r2.toNat ++ leBytes 8 r.r3.toNat
      | none => i.cells.map (·.2) ++ i.data }

/-- The place of a further entry among those of a region's commit (R382). -/
def State.nextSeq (s : State) (r : RKey) (q : Nat) : Nat := ((s.ctx r.c).log.filter fun y => y.region == r.id && y.quantum == q).length
/-- A write from outside into a context's memory (R318): performed now, and an input of the ordered regions,
which see the old bytes until their commits. A replay holds it back (R382). -/
def State.extWrite (s : State) (c : CKey) (kind target : Nat) (cells : List (Loc × Byte)) : State :=
  if (s.ctx c).replay.isSome then s.updCtx c fun x => { x with heldIn := x.heldIn ++ [{ kind, target, cells }] }
  else (s.tellOrdered c none { kind, target, cells }).perform cells
/-- The cells of bytes at a context's addresses; none where one is not resident or not mapped. -/
def State.cellsAt (s : State) (c : CKey) (va : Nat) (data : List Byte) : Option (List (Loc × Byte)) :=
  ((List.range data.length).zip data).mapM fun p =>
    match findPage (s.ctx c).pages (va + p.1) with
    | some q => if q.res && q.peer.isNone then some (.mem (cellOf (Page.pa q (va + p.1))), p.2) else none
    | none => none

/-! ## Shootdown (R101, R195) -/

/-- A translation register whose page meets a range has limit 0. -/
def BReg.shoot (lo hi : Nat) (b : BReg) : BReg :=
  let n := pageBytes b.psize.toNat
  let base := b.base.toNat / n * n
  if base < hi && lo < base + n then { b with limit := 0 } else b
/-- A translation register of a page that has moved to a frame: it maps the frame from now on (R211). -/
def BReg.follow (lo hi frame : Nat) (b : BReg) : BReg :=
  if b.limit != 0 && lo ≤ b.base.toNat && b.base.toNat < hi then { b with frame := BitVec.ofNat 40 frame } else b

/-! The translation registers of a group changed, wherever a snapshot of them stands: in lane queues, in what waits for a commit or a trap,
in what a fork holds. -/

def QBlk.mapB (f : BReg → BReg) (b : QBlk) : QBlk := { b with snapB := b.snapB.map fun p => (p.1, f p.2) }
def TrapFrom.mapB (f : BReg → BReg) : TrapFrom → TrapFrom
  | .lane e b w a => .lane e (b.mapB f) w a
  | x => x
def QOp.mapB (f : BReg → BReg) : QOp → QOp
  | .push n e ents lanes b w => .push n e ents lanes (b.mapB f) w
  | .pop n e vd o lanes b w => .pop n e vd o lanes (b.mapB f) w
  | .acquire e o z sc rmt lanes vd b w => .acquire e o z sc rmt lanes vd (b.mapB f) w
  | x => x
def QStore.mapB (f : BReg → BReg) (x : QStore) : QStore := { x with blk := x.blk.mapB f }
def OlRec.mapB (f : BReg → BReg) (x : OlRec) : OlRec := { x with blk := x.blk.mapB f }
def PendTrap.mapB (f : BReg → BReg) (t : PendTrap) : PendTrap := { t with src := t.src.mapB f }
def Quantum.mapB (f : BReg → BReg) (q : Quantum) : Quantum :=
  { q with
    buf := q.buf.map (QStore.mapB f)
    atoms := q.atoms.map fun r => { r with blk := r.blk.mapB f }
    ops := q.ops.map (QOp.mapB f)
    fails := q.fails.map fun x => { x with blk := x.blk.mapB f }
    ol := q.ol.map fun p => (p.1, p.2.mapB f)
    lateOl := q.lateOl.map fun p => (p.1, p.2.mapB f) }
def Fork.mapB (f : BReg → BReg) (k : Fork) : Fork :=
  { k with buf := k.buf.map (QStore.mapB f), ol := k.ol.map (OlRec.mapB f), deferred := k.deferred.map (PendTrap.mapB f) }
def Group.mapB (f : BReg → BReg) (x : Group) : Group :=
  { x with
    bregs := x.bregs.map fun p => (p.1, f p.2)
    ents := x.ents.map fun p => (p.1, { p.2 with queue := p.2.queue.map (QBlk.mapB f) })
    fix := x.fix.map fun k => { k with blk := k.blk.mapB f }
    trap := x.trap.map (TrapFrom.mapB f)
    traps := x.traps.map (PendTrap.mapB f)
    ol := x.ol.map (OlRec.mapB f)
    q := x.q.mapB f
    fork := x.fork.map (Fork.mapB f) }
/-- A shootdown in a group (R195). A continuation that holds stores is discarded at its ret, as by a failed check (DESIGN CHOICE, log entry
84). -/
def Group.shoot (lo hi : Nat) (x : Group) : Group :=
  let y := x.mapB (BReg.shoot lo hi)
  { y with fork := y.fork.map fun f => { f with conflict := f.conflict || !f.buf.isEmpty } }
/-- The groups that a region holds in saved blocks changed. -/
def Region.mapSaved (f : Group → Group) (x : Region) : Region :=
  { x with saved := x.saved.map fun b => { b with groups := b.groups.map fun q => (q.1, f q.2) } }
/-- The regions of a context changed, those of its save images too. -/
def State.mapRegions (s : State) (c : CKey) (f : Region → Region) : State :=
  let on (p : RKey × Region) : RKey × Region := if p.1.c = c then (p.1, f p.2) else p
  { s with regions := s.regions.map on, images := s.images.map fun i => { i with regions := i.regions.map on } }
/-- Every group of a context changed, also in saved blocks and save images. -/
def State.mapGroups (s : State) (c : CKey) (f : Group → Group) : State :=
  let s := s.mapRegions c (Region.mapSaved f)
  { s with groups := s.groups.map fun p => if p.1.b.r.c = c then (p.1, f p.2) else p }
/-- A TLB without the entries of a range of a context. -/
def shootTlb (c : CKey) (lo hi : Nat) (t : List TlbEnt) : List TlbEnt :=
  t.filter fun e => !(decide (e.c = c) && e.va < hi && lo < e.va + pageBytes e.psize)

/-- The TLB entries of a range of a context dropped. -/
def State.dropTlb (s : State) (c : CKey) (lo hi : Nat) : State :=
  { s with
    cores := s.cores.map fun p => (p.1, { p.2 with tlb := shootTlb c lo hi p.2.tlb })
    clusters := s.clusters.map fun p => (p.1, { p.2 with tlb := shootTlb c lo hi p.2.tlb }) }
/-- The translations of a range of a context's addresses shot down: the accesses that used them are performed,
the TLB entries dropped, the limits of the translation registers zeroed (R195). -/
def State.shootdown (s : State) (c : CKey) (lo hi : Nat) : State :=
  ((s.flush fun p => decide (p.g.b.r.c = c)).dropTlb c lo hi).mapGroups c (Group.shoot lo hi)

/-- tlbinv (R339) (DEDUCED, log entry 23). -/
def execTlbinv (a b : BitVec 7) : State → Host.Outcome State Fault Refusal :=
  scalarOp true { priv := true, stalls := true } fun s g e =>
    let v := s.getS g e b.toNat
    let va := (s.getS g e a.toNat).toNat
    let c : CKey := ⟨g.b.r.c.vf, v.toNat % 65536⟩
    let ps := v.toNat / 65536 % 4
    let n := pageBytes ps
    if ps = 3 || v.extractLsb' 18 14 != 0 || v.extractLsb' 48 15 != 0 then .next s
    else if v.getLsbD 63 then .next (s.shootdown c 0 (2 ^ 64))
    else
      let lo := va / n * n
      .next (s.shootdown c lo (lo + n * (v.toNat / 2 ^ 32 % 65536 + 1)))

/-! ## Pages (R196 to R198, R211, R315) -/

/-- A page without its frame: its contents and its poison stay with it. -/
def State.keepPage (s : State) (p : Page) : Page :=
  let cell (i : Nat) : Nat := cellOf (p.frame * 4096 + i)
  let byte (i : Nat) : Option (Nat × Byte) :=
    if Memory.read s.mem (cell i) = 0 then none else some (i, Memory.read s.mem (cell i))
  { p with
    res := false
    acc := false
    away := (List.range (Page.size p)).filterMap byte
    bad := (List.range (Page.size p / 32)).filter fun i => s.poison.contains (cell (32 * i) / 32) }
/-- A page that the migrations of its context send again (R363). -/
def State.sendAgain (s : State) (c : CKey) (va : Nat) : State :=
  { s with migrations := s.migrations.map fun m => if m.2.c = c then (m.1, { m.2 with again := va :: m.2.again }) else m }
/-- A page reclaimed by the Keep: its translations are shot down, its contents kept. -/
def State.takePage (s : State) (c : CKey) (p : Page) : State :=
  let s := s.shootdown c p.va (p.va + Page.size p)
  let q := s.keepPage p
  let s := if (Page.frames p).any s.dirty.contains then s.sendAgain c p.va else s
  { s with
    ctxs := s.ctxs.upd c fun x => { x with pages := x.pages.map fun y => if y.va = p.va then q else y }
    moves := s.moves.filter fun m => !(decide (m.c = c) && m.va == p.va) }

/-! ### Frames of virtual functions (R209) -/

/-- A die out of service: it is fenced, or its controller does not run (R386, R388, R390). -/
def State.dieOut (s : State) (d : Nat) : Bool := s.platform.fencedDies.contains d || s.platform.down.contains (.die d)
/-- The frames in service, those that a virtual function holds, and those held. -/
def State.frames (s : State) : Nat := 2 ^ 24 * ((List.range 8).filter fun d => !s.dieOut d).length
def Page.framesHeld (p : Page) : Nat := if p.res && p.peer.isNone then Page.size p / 4096 else 0
/-- The frames of the tenants, all or one. -/
def State.framesOf (s : State) (vf : Option Nat) (sel : CKey → Context → Page → Bool) : Nat :=
  s.ctxs.foldl (fun n x => if vf.all (· == x.1.vf) then
    (x.2.pages.filter (sel x.1 x.2)).foldl (fun n p => n + Page.framesHeld p) n else n) 0
def State.allFrames (s : State) : Nat := s.framesOf none fun _ _ _ => true
def State.vfFrames (s : State) (vf : Nat) : Nat := s.framesOf (some vf) fun _ _ _ => true
/-- Whether a page is given up at the next commit of its context's ordered regions (R315). -/
def Context.gives (c : CKey) (x : Context) (p : Page) : Bool := x.later.contains (.reclaim c p.va)
/-- The frames that stay held. -/
def State.stayFrames (s : State) (vf : Option Nat) : Nat := s.framesOf vf fun c x p => !x.gives c p
/-- Whether a context runs an ordered region. -/
def State.runsOrdered (s : State) (c : CKey) : Bool := s.regions.any fun p => decide (p.1.c = c) && p.2.listens
/-- The tenant that gives a frame: of those above their guarantee the one with the largest ratio of frames held to
guaranteed ones; with none, the tenant that asks. -/
def State.victimTenant (s : State) (vf : Nat) : Nat :=
  let held (v : Nat) : Nat := s.stayFrames (some v)
  let above := ((s.ctxs.map (·.1.vf)).eraseDups).filter fun v => held v > (s.vf v).guaranteed
  (above.foldl (fun (m : Option Nat) v => match m with
    | some w => if held v * (s.vf w).guaranteed > held w * (s.vf v).guaranteed then some v else some w
    | none => some v) none).getD vf
/-- A tenant's page given up, by a clock sweep over accessed bits: at once, or, where its context runs an ordered region, at the next
commit (R315). -/
def State.sweepPage (s : State) (vf : Nat) : Option State :=
  let ps := (s.ctxs.filter fun x => x.1.vf == vf).flatMap fun x => x.2.pages.map fun p => (x, p)
  let n := ps.length
  let start := (s.vf vf).sweep
  let order := (List.range n).map fun i => (start + i) % n
  let free (i : Nat) : Bool := ps[i]?.any fun x => Page.framesHeld x.2 > 0 && !x.1.2.gives x.1.1 x.2
  let cold (i : Nat) : Bool := free i && ps[i]?.any fun x => !x.2.acc
  match (match order.find? cold with | some i => some i | none => order.find? free) with
  | none => none
  | some v =>
    let swept := if (order.find? cold).isSome then order.takeWhile (· != v) else order
    let s := swept.foldl (fun s i => match ps[i]? with
      | some (c, p) => s.updCtx c.1 fun x => { x with pages := x.pages.map fun q => if q.va = p.va then { q with acc := false } else q }
      | none => s) s
    let s := s.updVf vf fun x => { x with sweep := (v + 1) % n }
    ps[v]?.map fun x =>
      if s.runsOrdered x.1.1 then s.updCtx x.1.1 fun y => { y with later := y.later ++ [.reclaim x.1.1 x.2.va] }
      else s.takePage x.1.1 x.2
/-- Room made for frames of a tenant, and whether there is room now: it never holds more than its burstable count, once the Keep has set
one, and pages go while no frame is free (DESIGN CHOICE, log entry 41). -/
def State.makeRoom (s : State) (vf n : Nat) : Nat → State × Bool
  | 0 => (s, false)
  | k + 1 =>
    let past (held : Nat) : Bool := (s.vf vf).burst.any (held + n > ·)
    let own := past (s.stayFrames (some vf))
    if own || s.stayFrames none + n > s.frames then
      match s.sweepPage (if own then vf else s.victimTenant vf) with
      | some s => s.makeRoom vf n k
      | none => (s, false)
    else (s, !past (s.vfFrames vf) && s.allFrames + n ≤ s.frames)

/-- Room for frames of a tenant. -/
def State.roomFor (s : State) (vf n : Nat) : State × Bool := s.makeRoom vf n (s.ctxs.foldl (fun n x => n + x.2.pages.length) 1)
/-- The frames that pages and moves use, of the pages with the die-local attribute or without it. -/
def State.usedFrames (s : State) (sel : Page → Bool) : List Nat := s.ctxs.flatMap fun c => (c.2.pages.filter sel).flatMap Page.frames
def State.moveFrames (s : State) : List Nat :=
  s.moves.flatMap fun m => (findPage (s.ctx m.c).pages m.va).elim [] fun p => framesAt m.dest (Page.size p)
/-- Whether a page can lie in frames: DRAM of dies in service backs them, in the window that the page's attribute says, no page uses them
through the other window (R191), and no page moves to them (R225). -/
def State.frameFits (s : State) (p : Page) (frame : Nat) : Bool :=
  let fs := framesAt frame (Page.size p)
  backed (frame * 4096) (Page.size p) && decide (2 ^ 39 ≤ frame) == p.dieLocal &&
    fs.all (fun x => !s.dieOut (x / 2 ^ 24) && !s.moveFrames.contains x) && (s.usedFrames (·.dieLocal != p.dieLocal)).all fun x => !fs.contains x
/-- A page that has become resident in a frame. -/
def arrive (va frame : Nat) (p : Page) : Page :=
  if Page.holds p va then { p with res := true, req := false, frame := frame, away := [], bad := [] } else p
/-- PAGE_MADE_RESIDENT: the Keep puts a page into a frame with its contents, once one is free (R209); for the ordered regions it is an
input. A page that it cannot make resident ends the domain of every group parked for it (R197). -/
def execPageMadeResident (s : State) : Host.Outcome State Fault Refusal :=
  .next <| match s.turn with
  | .event (.pageMadeResident c va frame ok) =>
    match findPage (s.ctx c).pages va with
    | none => s
    | some p =>
      if p.res || p.peer.isSome then s
      else if !ok then
        let gs := (s.groups.filter fun q => decide (q.1.b.r.c = c) && q.2.fix.any fun f => f.vas.any (Page.holds p)).map (·.1)
        gs.foldl (fun s g => if (s.group g).ended then s else s.endDomain g.b.r 6) s
      else if !s.frameFits p frame then s
      else
        match s.roomFor c.vf (Page.size p / 4096) with
        | (s, false) => { s with inputs := s.inputs ++ [.pageMadeResident c va frame ok] }
        | (s, true) =>
        let cellAt (i : Nat) : Nat := cellOf (frame * 4096 + i)
        let frames := framesAt frame (Page.size p)
        let s : State :=
          { s with
            mem := Memory.writeAll (s.mem.filter fun w => !frames.contains (w.1 / 4096)) (p.away.map fun w => (cellAt w.1, w.2))
            poison := (p.bad.map fun i => cellAt (32 * i) / 32) ++ s.poison.filter fun x => !frames.contains (x / 128)
            dirty := frames.foldl (fun d x => if d.contains x then d else x :: d) s.dirty }
        let s := s.setPages c fun ps => ps.map (arrive va frame)
        (s.tellOrdered c none { kind := 4, target := va, page := some (c, va) }).olRetryAll
  | _ => s

/-- A place after its frame has moved. -/
def Loc.moveTo (f : Nat → Nat) : Loc → Loc
  | .mem a => .mem (f a)
  | x => x
def moveCells (f : Nat → Nat) (ws : List (Loc × Byte)) : List (Loc × Byte) := ws.map fun w => (w.1.moveTo f, w.2)
def QStore.moveTo (f : Nat → Nat) (x : QStore) : QStore :=
  { x with cells := moveCells f x.cells, rel := x.rel.map fun l => { l with cells := moveCells f l.cells } }
def QOp.moveTo (f : Nat → Nat) : QOp → QOp
  | .acquire e o z sc rmt lanes vd blk w => .acquire e o z sc rmt (lanes.map fun l => (l.1, l.2.1, f l.2.2)) vd blk w
  | x => x
def Quantum.moveTo (f : Nat → Nat) (q : Quantum) : Quantum :=
  { q with
    buf := q.buf.map (QStore.moveTo f)
    atoms := q.atoms.map fun r => { r with loc := f r.loc }
    ops := q.ops.map (QOp.moveTo f) }
def Group.moveTo (f : Nat → Nat) (x : Group) : Group :=
  { x with
    q := x.q.moveTo f
    ents := x.ents.map fun p => (p.1, match p.2.st with
      | .parked (.wait va cell dbl eq v scope rmt) => { p.2 with st := .parked (.wait va (f cell) dbl eq v scope rmt) }
      | _ => p.2)
    fork := x.fork.map fun k => { k with
      buf := k.buf.map (QStore.moveTo f)
      tracked := k.tracked.map fun l => f (l * 128) / 128 } }

def Region.moveTo (f : Nat → Nat) (mv : List Page → List Page) (x : Region) : Region :=
  { x with
    pages := x.pages.map mv
    undo := moveCells f x.undo
    inputs := x.inputs.map fun i => { i with cells := moveCells f i.cells } }

/-- The frame of a page switched (R211, step 3): the mapping, the translation registers and what is held back for its bytes follow, and
the TLB entries go. -/
def State.switchFrame (s : State) (m : Move) (p : Page) : State :=
  let n := Page.size p
  let old (i : Nat) : Nat := cellOf (p.frame * 4096 + i)
  let new (i : Nat) : Nat := cellOf (m.dest * 4096 + i)
  let f (a : Nat) : Nat := match (List.range (n / 4096)).find? fun k => old (4096 * k) ≤ a && a < old (4096 * k) + 4096 with
    | some k => new (4096 * k) + (a - old (4096 * k))
    | none => a
  let s := s.dropTlb m.c p.va (p.va + n)
  let mv (ps : List Page) : List Page := ps.map fun q => if q.va = p.va then { q with frame := m.dest } else q
  let s := (s.mapRegions m.c (Region.moveTo f mv)).mapGroups m.c fun x => (x.moveTo f).mapB (BReg.follow p.va (p.va + n) m.dest)
  let bad := s.poison.filter fun x => f (32 * x) != 32 * x
  let frames := framesAt m.dest n
  { s with
    ctxs := s.ctxs.upd m.c fun x => { x with pages := mv x.pages }
    poison := bad.map (fun x => f (32 * x) / 32) ++ s.poison.filter fun x => !frames.contains (x / 128)
    dirty := frames.foldl (fun d x => if d.contains x then d else x :: d) s.dirty
    blocks := s.blocks.map fun q => if q.1.r.c = m.c then
      (q.1, { q.2 with seq := q.2.seq.map fun k => { k with quant := k.quant.moveTo f } }) else q
    clusters := s.clusters.map fun q => (q.1, { q.2 with cache := q.2.cache.filter fun w => f (w.2.line * 128) == w.2.line * 128 })
    moves := s.moves.filter fun x => decide (x ≠ m) }

/-- Lines of a page copied from its frame to the new one, through the L2, where their fills have no owner (R293). -/
def State.copyLines (s : State) (c : CKey) (p : Page) (dest : Nat) (lines : List Nat) : State :=
  let s := s.l2Lines c (lines.flatMap fun l => [cellOf (p.frame * 4096 + 128 * l) / 128, cellOf (dest * 4096 + 128 * l) / 128])
  lines.foldl (fun s l => (List.range 128).foldl (fun (s : State) i =>
    let a := cellOf (dest * 4096 + 128 * l + i)
    let v := Memory.read s.mem (cellOf (p.frame * 4096 + 128 * l + i))
    { s with mem := Memory.write s.mem a v, dirty := if s.dirty.contains (a / 4096) then s.dirty else (a / 4096) :: s.dirty }) s) s
/-- The lines of a page that a move has marked. -/
def Move.marked (m : Move) (p : Page) : List Nat :=
  (List.range (Page.size p / 128)).filter fun l => m.rewritten.contains (cellOf (p.frame * 4096 + 128 * l) / 128)

/-- The end of a page's move (R211, step 3): its accesses are performed, the lines still marked copied, its frame switched. -/
def State.endMove (s : State) (c : CKey) (va : Nat) : State :=
  let s := s.flush fun q => decide (q.g.b.r.c = c)
  match findPage (s.ctx c).pages va, s.moves.find? fun m => decide (m.c = c) && m.va == va with
  | some p, some m => (s.copyLines c p m.dest (m.marked p)).switchFrame m p
  | _, _ => s

/-- PAGE_MOVE (R211) to frames of the page's kind that no page lies on (R191, R225): the first step copies every line; each later one
is a round over the lines rewritten since; after a round of at most 2 lines, or the 8th, the page freezes and is switched; a page of a
context that runs an ordered region at its next commit (R315). -/
def execPageMove (s : State) : Host.Outcome State Fault Refusal :=
  .next <| match s.turn with
  | .event (.pageMove c va dest) =>
    match findPage (s.ctx c).pages va with
    | none => s
    | some p =>
      if !p.res || p.peer.isSome then { s with moves := s.moves.filter fun m => !(decide (m.c = c) && m.va == p.va) }
      else match s.moves.find? fun m => decide (m.c = c) && m.va == p.va with
        | none =>
          if !s.frameFits p dest || (framesAt dest (Page.size p)).any (s.usedFrames fun _ => true).contains then s
          else
          let s := s.copyLines c p dest (List.range (Page.size p / 128))
          { s with moves := s.moves ++ [{ c, va := p.va, dest }] }
        | some m =>
          if m.ready then s
          else
          let ls := m.marked p
          let s := s.copyLines c p m.dest ls
          let last := ls.length ≤ 2 || m.round + 1 ≥ 8
          let wait := last && s.runsOrdered c
          let m' : Move := { m with rewritten := [], round := m.round + 1, ready := wait }
          let s : State := { s with moves := s.moves.map fun x => if decide (x = m) then m' else x }
          if wait then s.updCtx c fun x => { x with later := x.later ++ [.moved c p.va] }
          else if last then s.endMove c p.va
          else s
  | _ => s

end Sys2Proof.Machine
end

