-- ==== Sys2Proof/Machine/Contexts.lean ====
section
/-! DEFINITION. Spatial pre-emption: saving and restoring blocks and contexts, save images, the bounce ring, slices
and gangs (R321, R333 to R342, R352). -/

namespace Sys2Proof.Machine

/-! ## Stopping a block (R317, R333, R352) -/

/-- Whether a group stands at a mapped safe point (R351, R352). One whose image does not map every safe point may stop anywhere. -/
def State.atSafePoint (s : State) (g : GKey) : Bool :=
  (s.group g).ended || match s.pointsOf g.b.r with
    | some pts => ((s.group g).standsAt pts).isSome
    | none => true
/-- Whether a quantum has only begun. -/
def Quantum.fresh (q : Quantum) : Bool := q.count == 0 && !q.due && q.buf.isEmpty
/-- Whether an ordered region stands between a commit and the first instruction after it. -/
def State.atBoundary (s : State) (r : RKey) : Bool :=
  (s.groups.all fun p => decide (p.1.b.r ≠ r) || p.1.sh != 0 || p.2.ended || p.2.q.fresh) &&
    s.blocks.all fun p => decide (p.1.r ≠ r) || p.2.seq.all fun q => q.quant.fresh
/-- Whether the groups of a block that are to stop at safe points stand at one. -/
def State.safeBlock (s : State) (b : BKey) : Bool := (s.groupsOf b).all fun g => !(s.group g).stopping || s.atSafePoint g
/-- Whether an ordered region holds for a save: at a commit, with the blocks to be vacated at safe points if these
are asked for. -/
def State.holdsForSave (s : State) (r : RKey) : Bool :=
  (s.region r).rcb.ordered && s.atBoundary r &&
    (s.standing r).any (fun p => p.2.vacating) && (s.standing r).all fun p => !p.2.vacating || s.safeBlock p.1
/-- Whether a group, a sequencer of a block is stopped by a save. -/
def State.stopped (s : State) (b : BKey) (g : Option GKey) : Bool :=
  if (s.region b.r).rcb.ordered then s.holdsForSave b.r || !(s.region b.r).saved.isEmpty
  else (s.block b).vacating && match g with
    | some g => !(s.group g).stopping || s.atSafePoint g
    | none => s.safeBlock b

/-- Whether what a stopped block has under way has drained: copies, matrix words, the array's operation, bank
switches (R263, R278, R333). -/
def State.drained (s : State) (b : BKey) : Bool :=
  if (s.region b.r).rcb.ordered then s.holdsForSave b.r
  else
    let x := s.block b
    x.switchMask = 0 && s.safeBlock b && ((s.cluster x.cluster).copyQ.all fun c => decide (c.g.b ≠ b)) &&
      (x.seq.all fun q => match q.exec with
        | [] => true
        | w :: _ => w.ready ≤ s.cycle && !s.wordReady b) &&
      (s.groupsOf b).all fun g => !s.holdsArray g || (s.core (s.coreOf g)).campBusy.isNone

/-- Blocks told to stop. -/
def State.stopBlocks (s : State) (bs : List BKey) (safe : Bool) : State :=
  bs.foldl (fun s b =>
    let s := s.updBlock b fun x => { x with vacating := true }
    if safe then (s.groupsOf b).foldl (fun s g => s.updGroup g fun x => { x with stopping := true }) s else s) s

/-- Blocks that go on: a save of them is given up, or their context is scheduled again. -/
def State.resumeBlocks (s : State) (bs : List BKey) : State :=
  bs.foldl (fun s b =>
    if (s.blocks.get? b).isNone || !(s.ctx b.r.c).scheduled then s
    else (s.groupsOf b).foldl (fun s g => s.updGroup g fun x => { x with stopping := false })
      (s.updBlock b fun x => { x with vacating := false })) s

/-! ## Saving a block (R263, R278, R292, R296, R333) -/

/-- A group as its save record keeps it: a claim of the array is made again, its cycles are summed up. -/
def Group.parkedAway (now : Nat) (x : Group) : Group :=
  { x with
    cycles := x.cycles + (now - x.since)
    outst := x.outst.map fun o => { o with fills := [] }
    stopping := false
    ents := x.ents.map fun p => (p.1, { p.2 with
      st := if decide (p.2.st = .parked .array) then .running else p.2.st
      demoted := none }) }
/-- A saved block among others, in ascending block number. -/
def insSaved (b : SavedBlock) : List SavedBlock → List SavedBlock
  | [] => [b]
  | x :: r => if b.b.n < x.b.n then b :: x :: r else x :: insSaved b r
/-- A history image among others, in ascending core number. -/
def insImage (x : Nat × List Byte) : List (Nat × List Byte) → List (Nat × List Byte)
  | [] => [x]
  | y :: r => if x.1 < y.1 then x :: y :: r else y :: insImage x r
/-- The history banks that a region gives up with a block: their images go with the region in ascending core
number, and the lines they own are dropped. -/
def State.saveBanks (s : State) (b : BKey) : State :=
  let others := (s.standing b.r).filter fun p => decide (p.1 ≠ b)
  let cores := ((List.range 192).filter fun k => (s.block b).cores.contains k && !others.any fun p => p.2.cores.contains k)
  cores.foldl (fun s k => match s.histIdx b.r k with
    | none => s
    | some h =>
      let img := histImage (s.hbank k h)
      let s := s.updCluster (k / 4) fun x => { x with cache := x.cache.filter fun w => w.2.owner != some (k % 4 * 4 + h) }
      s.updRegion b.r fun x => { x with spare := insImage (k, img) x.spare }) s
/-- A block as its save record keeps it. -/
def State.savedForm (s : State) (b : BKey) : SavedBlock :=
  let x := s.block b
  let gs := s.groupsOf b
  { b, savedAt := s.cycle
    blk := { x with
      vacating := false
      seq := x.seq.map fun q => { q with st := if q.st = .parked .engine then .running else q.st } }
    groups := gs.map fun g => (g, (s.group g).parkedAway (s.clusterCycle (s.clusterOf g)))
    camp := gs.filterMap fun g =>
      let k := s.core (s.coreOf g)
      if s.holdsArray g then some (g, k.delays, k.maxMode, k.latch) else (k.campSaved.get? g).map fun v => (g, v)
    copies := (s.cluster x.cluster).copyQ.filter fun c => decide (c.g.b = b) }
/-- What cores and their clusters cache for a context dropped: constant lines and translations (R103, R192, R333). -/
def State.forget (s : State) (c : CKey) (on : Nat → Bool) : State :=
  { s with
    cores := s.cores.map fun p => if on p.1 then
      (p.1, { p.2 with consts := p.2.consts.filter fun l => decide (l.c ≠ c), tlb := p.2.tlb.filter fun t => decide (t.c ≠ c) }) else p
    clusters := s.clusters.map fun p => if (List.range 4).any fun i => on (4 * p.1 + i) then
      (p.1, { p.2 with tlb := p.2.tlb.filter fun t => decide (t.c ≠ c) }) else p }
/-- A stopped and drained block saved: its accesses performed, its record kept with its region, its resources
reclaimed. -/
def State.vacate (s : State) (b : BKey) : State :=
  let ord := (s.region b.r).rcb.ordered
  let s := (s.groupsOf b).foldl (fun s g =>
    let s := (s.squash g).flushGroup g
    if ord then s else (s.group g).outst.foldl (fun s o => s.returnResult g o o.lanes) s) s
  if (s.block b).ended then s
  else
    let cores := (s.block b).cores
    let new := s.savedForm b
    let s := (((s.saveBanks b).reclaim b).forget b.r.c cores.contains).setBounce (·.aimsAt b) true
    { s with
      blocks := s.blocks.del b
      groups := s.groups.filter fun p => decide (p.1.b ≠ b) }.updRegion b.r fun r => { r with saved := insSaved new r.saved }
/-- Whether a block has drained, or is there no more. -/
def State.offCores (s : State) (b : BKey) : Bool := (s.blocks.get? b).isNone || (s.block b).ended || s.drained b
/-- Blocks vacated, when all of them have drained. -/
def State.vacateAll (s : State) (bs : List BKey) : Option State :=
  if bs.all s.drained then some (bs.foldl (fun s b => s.vacate b) s) else none

/-- The blocks of a context that a save vacates. -/
def State.blocksOn (s : State) (c : CKey) (whole : Bool) (cores : List Nat) : List BKey :=
  (s.blocks.filter fun p => decide (p.1.r.c = c) && !p.2.ended && (whole || p.2.cores.any cores.contains)).map (·.1)

/-! ## Requests (R338) -/

/-- A request of 64 bytes. -/
structure SysReq where
  ctx : Nat := 0
  whole : Bool := false
  safe : Bool := false
  cores : List Nat := []
  image : Nat := 0
  length : Nat := 0
  ok : Bool := true
deriving DecidableEq, Repr
def sysReq (b : List Byte) : SysReq :=
  let f := fieldAt b
  let bits := f 8 24
  { ctx := f 0 2, whole := (f 2 2).testBit 0, safe := (f 2 2).testBit 1, cores := (List.range 192).filter bits.testBit
    image := f 0x20 8, length := f 0x28 8
    ok := f 2 2 < 4 && f 4 4 == 0 && f 0x38 8 == 0 && f 0x20 8 % 4096 == 0 }

/-! ## Save images (R335, R336) -/

/-- A record: its type, its owner, the number of parts that its contents have, and the contents. -/
structure SaveRec where
  ty : Nat
  own : Nat := 0
  rcb : Rcb := {}
  parts : Nat := 1
  body : SaveBody
deriving DecidableEq, Repr
/-- History and fork records are not critical. -/
def SaveRec.crit (x : SaveRec) : Bool := x.ty != 7 && x.ty != 0x0B && x.ty != 0x0C
/-- The length of a record, its header included: a history record is the index and the bank image that R283 lays out (R296); where the others'
contents stand no rule says (DESIGN CHOICE, log entry 12). -/
def SaveRec.len (x : SaveRec) : Nat :=
  if x.ty = 0xFFFF then 16
  else if let .history _ img := x.body then 24 + (img.length + 7) / 8 * 8
  else 16 + 8 * (Config.recordLen x.ty x.rcb x.parts % (if 7 ≤ x.ty && x.ty ≤ 9 then 2 ^ 20 else 2 ^ 16))
/-- The bytes of a record. -/
def recordBytes (x : SaveRec) : List Byte :=
  leBytes 2 x.ty ++ leBytes 2 1 ++ leBytes 1 (if x.crit then 1 else 0) ++ leBytes 3 0 ++ leBytes 4 x.len ++ leBytes 4 x.own ++
    match x.body with
    | .history i img => (leBytes 8 i ++ img ++ List.replicate 7 0).take (x.len - 16)
    | body => (List.range (x.len - 16)).map (Config.recordByte body)
/-- The records of a block: the block, its groups, its scratch, its sequencer. -/
def blockRecs (c : Rcb) (k : SavedBlock) : List SaveRec :=
  let rec_ (ty own : Nat) (body : SaveBody) : SaveRec := { ty, own, rcb := c, body }
  rec_ 3 k.b.n (.block { k.blk with banks := [], seq := none }) ::
    (k.groups.flatMap fun p =>
      let g := p.1.gid
      [rec_ 4 g (.group { p.2 with ents := [] }), rec_ 5 g (.splits (p.2.ents.map fun q => (q.1, { q.2 with queue := [] }))),
        rec_ 6 g (.lanes (p.2.ents.map fun q => (q.1, q.2.queue)))] ++
      ((k.camp.filter fun q => decide (q.1 = p.1)).map fun q => rec_ 0x0A g (.campanile q.2.1 q.2.2.1 q.2.2.2)) ++
      [rec_ 0x0B g (.forks p.2.forks p.2.squashed)]) ++
    [{ rec_ 8 k.b.n (.scratch k.blk.banks) with parts := k.blk.banks.length }] ++
    (if k.blk.seq.isSome then [rec_ 9 k.b.n (.sequencer k.blk.seq)] else [])
/-- The history records of a region's images, each with its core's index in the placement, in ascending core number (R296). -/
def State.histRecs (s : State) (r : RKey) (imgs : List (Nat × List Byte)) : List SaveRec :=
  let cores := (s.coresHeld r ++ (s.region r).spare.map (·.1)).eraseDups
  imgs.map fun p => { ty := 7, own := r.id, body := .history (cores.filter (· < p.1)).length p.2 }
/-- The records of a save of a context, with the blocks and the history images that it takes of each region. -/
def State.saveRecs (s : State) (c : CKey) (q : SysReq) (blocks : RKey → List SavedBlock) (hist : RKey → List (Nat × List Byte)) : List SaveRec :=
  let rs := s.regions.filter fun p => decide (p.1.c = c) && !p.2.gone && (q.whole || !(blocks p.1).isEmpty)
  { ty := 1, own := c.id, body := .context c.vf (s.ctx c).sys (s.ctx c).pages revisionBytes q.whole q.safe q.cores } ::
    (rs.flatMap fun p =>
      let x := p.2
      { ty := 2, own := p.1.id, rcb := x.rcb, body := .region x.rcb x.st x.doneBlocks x.quantum x.tags x.qtag : SaveRec } ::
        s.histRecs p.1 (hist p.1) ++
        (blocks p.1).flatMap (blockRecs x.rcb)) ++
    [{ ty := 0xFFFF, body := .forks 0 0 }]
/-- The cores on which a region holds a history bank, and which no block of it keeps once some are vacated. -/
def State.bankCores (s : State) (r : RKey) (bs : List BKey) : List Nat :=
  let keep := (s.standing r).filter fun p => !bs.contains p.1
  (List.range 192).filter fun k => (s.histIdx r k).isSome && !keep.any fun p => p.2.cores.contains k
/-- The size of the image of a save, before any block is vacated. -/
def State.saveSize (s : State) (c : CKey) (q : SysReq) (bs : List BKey) : Nat :=
  let blocks (r : RKey) : List SavedBlock :=
    ((bs.filter fun b => decide (b.r = r)).map s.savedForm).foldl (fun l k => insSaved k l) (if q.whole then (s.region r).saved else [])
  let hist (r : RKey) : List (Nat × List Byte) :=
    (if q.whole then (s.region r).spare else []) ++
      if bs.any fun b => decide (b.r = r) then (s.bankCores r bs).map fun k => (k, histImage (s.hbank k ((s.histIdx r k).getD 0))) else []
  ((s.saveRecs c q blocks hist).map SaveRec.len).sum
/-- The image of a save, once its blocks are vacated; a whole context's image holds the blocks that were saved before. -/
def State.saveImage (s : State) (c : CKey) (q : SysReq) (bs : List BKey) : List Byte :=
  let blocks (r : RKey) : List SavedBlock := (s.region r).saved.filter fun k => q.whole || bs.contains k.b
  let hist (r : RKey) : List (Nat × List Byte) :=
    (s.region r).spare.filter fun p => q.whole || (blocks r).any fun k => k.blk.cores.contains p.1
  (s.saveRecs c q blocks hist).flatMap recordBytes

/-- How the reading of an image's records ends: with the bytes of the records that this device knows. -/
inductive ImgEnd where
  | ok (known : List Byte)
  | bad (status : Int)
  | nonres (va : Nat)
  | fault (f : FaultInfo)
deriving DecidableEq, Repr
def parseImage (rd : Nat → Nat → RecRead) (len : Nat) : Nat → Nat → List Byte → ImgEnd
  | 0, _, _ => .bad (-6)
  | k + 1, off, known =>
    if off + 16 > len then .bad (-6)
    else match rd off 16 with
      | .nonres va => .nonres va
      | .fault f => .fault f
      | .ok h =>
        let ty := fieldAt h 0 2
        let n := fieldAt h 8 4
        if n < 16 || n % 8 != 0 || off + n > len then .bad (-6)
        else if !((1 ≤ ty && ty ≤ 0x0B) || ty == 0xFFFF) || fieldAt h 2 2 > 1 then
          if (fieldAt h 4 1).testBit 0 then .bad (-5) else parseImage rd len k (off + n) known
        else match rd off n with
          | .nonres va => .nonres va
          | .fault f => .fault f
          | .ok b => if ty = 0xFFFF then .ok (known ++ b) else parseImage rd len k (off + n) (known ++ b)

/-- The reading of an image that stands in a list of bytes. -/
def readIn (bytes : List Byte) (off n : Nat) : RecRead := .ok ((bytes.drop off).take n)

/-- A whole context saved: it is absent, its image says what a restore puts back, and nothing is cached for it. -/
def State.putAway (s : State) (c : CKey) (bytes : List Byte) : State :=
  let im : Image := { c, bytes, regions := s.regions.filter fun p => decide (p.1.c = c) && !p.2.gone }
  ((({ s with images := im :: s.images }.updCtx c fun x => { x with absent := true }).forget c fun _ => true).setBounce
    fun e => decide (e.c = c)) true

/-! ## The bounce ring and restores (R340) -/

/-- Where a held write to memory goes; none while its page is not resident. Writes to scratch wait for the restore of their block. -/
def State.bouncePlace (s : State) (c : CKey) (w : Bounce) : Option (List (Loc × Byte)) :=
  if w.scr.isSome then some [] else s.cellsAt c w.va w.data
/-- The held writes to memory replayed in arrival order (R340). -/
def State.replayBounce (s : State) (c : CKey) : State :=
  let (scr, mem) := (s.ctx c).bounce.partition (·.scr.isSome)
  let s := mem.foldl (fun s w => match s.bouncePlace c w with
    | none => s
    | some cells => s.extWrite c 1 w.va cells) s
  s.updCtx c fun x => { x with bounce := scr }
/-- A context put back from its image: its regions re-enter their queues, and their saved blocks wait (R334); the scratch windows of
these still bounce (R361). -/
def State.putBack (s : State) (c : CKey) (im : Option Image) : State :=
  let s := match im with
    | some im => im.regions.foldl (fun (s : State) (p : RKey × Region) => { s with regions := s.regions.put p.1 p.2 }) s
    | none => s
  let s := (s.updCtx c fun x => { x with absent := false }).replayBounce c
  let waits (b : BKey) : Bool := (s.region b.r).saved.any fun k => decide (k.b = b)
  s.setBounce (fun e => decide (e.c = c) && !(e.scr && waits e.block)) false

/-! ## Saved groups at safe points, and images of another device (R353, R355) -/

/-- The saved groups of a region changed one by one, by a function that may also write memory. -/
def State.mapSaved (s : State) (r : RKey) (f : State → GKey → Group → State × Group) : State :=
  let block (a : State × List SavedBlock) (k : SavedBlock) : State × List SavedBlock :=
    let (t, gs) := k.groups.foldl (fun (b : State × List (GKey × Group)) p =>
      let (t, y) := f b.1 p.1 p.2
      (t, b.2 ++ [(p.1, y)])) (a.1, [])
    (t, a.2 ++ [{ k with groups := gs }])
  let (t, ks) := (s.region r).saved.foldl block (s, [])
  t.updRegion r fun x => { x with saved := ks }
/-- A saved group changed as a placed one would be; the stores made for it are performed at once. -/
def State.editSaved (s : State) (g : GKey) (x : Group) (f : State → State) : State × Group :=
  let t := f { s with groups := s.groups.put g x }
  let y := t.group g
  let t := (t.flushGroup g).perform ((y.q.buf.drop x.q.buf.length).flatMap (·.cells))
  ({ t with groups := t.groups.del g }, { y with q := x.q })

/-- The saved groups of a context, by region. -/
def State.savedGroups (s : State) (c : CKey) : List (RKey × List (GKey × Group)) :=
  (s.regions.filter fun p => decide (p.1.c = c) && !p.2.gone).map fun p => (p.1, p.2.saved.flatMap (·.groups))
/-- A quiescent point of a context: every group stands stopped at a safe point, as in a save (R355) (DEDUCED, log
entry 35). -/
def State.quiescent (s : State) (c : CKey) : Bool :=
  (s.blocksOn c true []).isEmpty &&
    (s.savedGroups c).all fun p => p.2.all fun q => q.2.ended || (q.2.standsAt ((s.pointsOf p.1).getD [])).isSome
/-- The live return addresses of a group that point into superseded code, rewritten (R355) (DEDUCED, log entry 35). -/
def State.freshReturns (s : State) (c : CKey) (g : GKey) (x : Group) : State × Group :=
  match x.standsAt ((s.pointsOf g.b.r).getD []) with
  | none => (s, x)
  | some (e, site) => s.editSaved g x fun s =>
    let sp := s.getS g e 15
    (site.live.filter fun v => v.cls == 0).foldl (fun s v =>
      match s.staleSite c ((s.liveGet g e v).getD 0 0) with
      | some (_, n) => s.livePut g e v sp [n.addr]
      | none => s) s
/-- What the Keep does at a quiescent point: no return address points into superseded code any more, and generations
with two later ones are freed (R355). -/
def State.quiesce (s : State) (c : CKey) : State :=
  if !s.quiescent c || (s.ctx c).gens.isEmpty then s
  else
    let s := (s.savedGroups c).foldl (fun s p => s.mapSaved p.1 fun s g x => s.freshReturns c g x) s
    s.updCtx c fun x => { x with gens := x.gens.filter fun y => y.later < 2 }

/-- A region of another device's image under the ids that the context has here. -/
def Region.rekey (r : RKey) (x : Region) : Region :=
  let b (k : BKey) : BKey := { k with r }
  let key (g : GKey) : GKey := { g with b := b g.b }
  { x with saved := x.saved.map fun k =>
      { k with
        b := b k.b
        groups := k.groups.map fun p => (key p.1, p.2)
        camp := k.camp.map fun p => (key p.1, p.2)
        copies := k.copies.map fun y => { y with g := key y.g } } }
/-- Where a saved group goes on in the image that is selected here: its split, and its safe point in both maps. -/
def NewCode.find (n : NewCode) (x : Group) : Option (Nat × RetSite × RetSite) :=
  match x.standsAt n.old with
  | none => none
  | some (e, o) => (n.new.find? fun q => q.id == o.id).map fun q => (e, o, q)
/-- A saved group moved to the image selected here: its live values by the maps, its PC to the new address (R353)
(DEDUCED, log entry 35). -/
def State.moveSaved (n : NewCode) (s : State) (g : GKey) (x : Group) : State × Group :=
  match n.find x with
  | none => (s, x)
  | some (e, o, q) => s.editSaved g x fun s =>
    (s.moveLive g e o q).updSplit g e fun p => { p with pc := BitVec.ofNat 64 q.addr, join := none, calls := [] }
/-- A region moved to the image selected here: its groups, its code addresses, and its sequencers, which keep their
offsets in the matrix section (R347, R353). -/
def State.moveRegion (s : State) (r : RKey) (n : NewCode) : State :=
  let seqs (q : Seq) : Seq := { q with pc := q.pc - BitVec.ofNat 64 n.oldMat + BitVec.ofNat 64 n.matbase }
  (s.mapSaved r (State.moveSaved n)).updRegion r fun x =>
    { x with
      rcb := { x.rcb with entry := n.entry, lanebase := n.lanebase, matbase := n.matbase, handler := n.handler }
      saved := x.saved.map fun k => { k with blk := { k.blk with seq := k.blk.seq.map seqs } } }
/-- The code of a region in the image that is selected here (R348, R353): the safe points and the matrix section of the candidate; where the
context has no object of the kernel here, the code is that of the image's bytes. -/
def State.codeHere (s : State) (c : CKey) (x : Region) (n : NewCode) : NewCode :=
  match s.candidate c x.rcb.entry with
  | .use m => { n with new := m.points, matbase := m.mat.lo }
  | .refused => { n with new := [] }
  | _ => n
/-- The kernels of an image of another device that wait for their translation (R348). -/
def State.toTranslate (s : State) (c : CKey) (bytes : List Byte) : List Nat :=
  match s.images.find? fun im => decide (im.c = c) && decide (im.bytes = bytes) with
  | some _ => []
  | none => match Config.foreignImage c bytes with
    | none => []
    | some f => if !f.other then [] else
        (f.regions.map fun p => p.2.1.rcb.entry).filter fun k => decide (s.candidate c k = .translate)
/-- The regions of another device's image put in place; under another revision key every group must stand at a safe
point and is moved to the image selected here, else the image is refused (R353). -/
def State.takeForeign (s : State) (c : CKey) (f : Foreign) : Option State :=
  let f : Foreign := if f.other then { f with regions := f.regions.map fun p => (p.1, p.2.1, s.codeHere c p.2.1 p.2.2) } else f
  let movable (p : Nat × Region × NewCode) : Bool :=
    p.2.1.saved.all fun k => k.groups.all fun q => q.2.ended || (p.2.2.find q.2).isSome
  let put (s : State) (p : Nat × Region × NewCode) : State :=
    { s with regions := s.regions.put ⟨c, p.1⟩ (p.2.1.rekey ⟨c, p.1⟩) }
  if f.other && !f.regions.all movable then none
  else
    let s := f.regions.foldl put s
    let s := s.updCtx c fun x => { x with nextRid := f.regions.foldl (fun m p => max m (p.1 + 1)) x.nextRid }
    if !f.other then some s
    else some <| (f.regions.foldl (fun s p => (s.moveRegion ⟨c, p.1⟩ p.2.2).selectImage c p.2.1.rcb.entry) s).updCtx c fun x =>
      { x with points := f.regions.flatMap (fun p => p.2.2.new) ++ x.points }
/-- An absent context restored from the bytes of an image: one that this device has written, or one of another device
(R338, R353); with the status. Bytes that are no image of this context put no region back (DESIGN CHOICE, log
entry 12). -/
def State.restore (s : State) (c : CKey) (bytes : List Byte) : State × Int :=
  match s.images.find? fun im => decide (im.c = c) && decide (im.bytes = bytes) with
  | some im => (s.putBack c (some im), 0)
  | none => match Config.foreignImage c bytes with
    | none => (s.putBack c none, 0)
    | some f => match s.takeForeign c f with
      | some s => (s.putBack c none, 0)
      | none => (s, -5)

/-! ## ctx.save and ctx.load (R338) -/

/-- What stops a store of a range: the first page that faults or is not resident. -/
def State.writeStop (s : State) (g : GKey) (va n : Nat) : Option (Nat × Option FaultInfo) :=
  let pages := (List.range ((va + n - 1) / 4096 - va / 4096 + 1)).map fun i => max va ((va / 4096 + i) * 4096)
  pages.findSome? fun a =>
    if a ≥ 2 ^ 56 then some (a, some { kind := 5, addr := a, write := true })
    else match (s.xlate g a false true).2 with
      | .ok _ => none
      | .nonres => some (a, none)
      | .fault k => some (a, some { kind := k, addr := a, write := true })
/-- Whether a copy owns a line of a range that a save stores to (R224). -/
def State.rangeOwned (s : State) (g : GKey) (va n : Nat) : Bool :=
  (List.range ((va + n - 1) / 128 - va / 128 + 1)).any fun i => match (s.xlate g ((va / 128 + i) * 128) false true).2 with
    | .ok cell => s.ownedAt (.mem cell)
    | _ => false
/-- Bytes that a save stores for its issuer: those of an issuer that it has itself saved are performed. -/
def State.writeRange (s : State) (g : GKey) (e va : Nat) (bytes : List Byte) : State :=
  match s.cellsAt g.b.r.c va bytes with
  | none => s
  | some cells =>
    if (s.groups.get? g).isNone then s.perform cells
    else if s.ordered g then s.store g e { cells, e, va } false
    else (s.flushSplit g e).perform cells

/-- A save or load in its place behind the earlier ones of its context; one no longer under way. -/
def State.enterSys (s : State) (c : CKey) (w : SysWho) : State :=
  s.updCtx c fun x => if x.sysq.any fun p => decide (p.1 = w) then x else { x with sysq := x.sysq ++ [(w, none)] }
def State.leaveSys (s : State) (c : CKey) (w : SysWho) : State :=
  s.updCtx c fun x =>
    { x with
      sysq := x.sysq.filter fun p => decide (p.1 ≠ w)
      closed := if x.sysq.any fun p => decide (p.1 = w) && p.2.isSome then [] else x.closed }
/-- Whether it is the turn of a save or load, and the blocks that a save has told to stop. -/
def State.sysTurn (s : State) (c : CKey) (w : SysWho) : Option (Option (List BKey)) :=
  match (s.ctx c).sysq.head? with
  | some (v, job) => if v = w then some job else none
  | none => none
/-- A save begun: its blocks are told to stop, but for the group that has issued it, and no block of its context is placed any more on the
cores that it vacates. -/
def State.beginSave (s : State) (c : CKey) (w : SysWho) (q : SysReq) (bs : List BKey) : State :=
  let s := s.stopBlocks bs q.safe
  let s := match w with
    | .split g _ => s.updGroup g fun x => { x with stopping := false }
    | .keep _ => s
  s.updCtx c fun x =>
    { x with
      sysq := x.sysq.map fun p => if p.1 = w then (w, some bs) else p
      closed := if q.whole then List.range 192 else q.cores }
/-- The blocks of a save vacated, and its image; what the context's cores cache is dropped (R103, R192). -/
def State.endSave (s : State) (c : CKey) (q : SysReq) (bs : List BKey) : List Byte × State :=
  let s := ((bs.filter fun b => (s.blocks.get? b).isSome).foldl (fun s b => s.vacate b) s).quiesce c
  (s.saveImage c q bs, s)
def State.awayIf (s : State) (c : CKey) (q : SysReq) (bytes : List Byte) : State :=
  if q.whole then s.putAway c bytes else s.forget c q.cores.contains

/-- The request that an instruction names, and its place behind the earlier ones of its context. -/
def State.withRequest (s : State) (g : GKey) (e : Nat) (d a : BitVec 7) (k : State → CKey → SysReq → Option (List BKey) → Ends) : Ends :=
  let va := (s.getS g e a.toNat).toNat
  let status (n : Int) : Ends := .next (s.setS g e d.toNat (BitVec.ofInt 64 n))
  if va ≥ 2 ^ 56 then .fault s { kind := 5, addr := va }
  else if va % 64 != 0 then .fault s { kind := 4, addr := va }
  else match s.readRec g e va 64 with
    | .nonres p => .park s (.page p)
    | .fault f => .fault s f
    | .ok b =>
      let r := sysReq b
      let c : CKey := ⟨g.b.r.c.vf, r.ctx⟩
      if !r.ok then status (-1)
      else if (s.ctxs.get? c).isNone then status (-3)
      else
        let s := s.enterSys c (.split g e)
        match s.sysTurn c (.split g e) with
        | some job => k s c r job
        | none => .park s .system

/-- A save that goes on: it waits for its blocks, then writes the image and the size. -/
def State.saveOn (s : State) (g : GKey) (e : Nat) (d a : BitVec 7) (c : CKey) (r : SysReq) (bs : List BKey) : Ends :=
  let at_ := (s.getS g e a.toNat).toNat + 0x30
  let next := (s.split g e).pc + 4
  if !bs.all s.offCores then .park s .system
  else
    let t := ((s.setS g e d.toNat 0).retire g e next).leaveSys c (.split g e)
    let (bytes, t) := t.endSave c r bs
    match (s.writeStop g at_ 8).orElse fun _ => s.writeStop g r.image bytes.length with
    | some (_, some f) => .fault ((s.leaveSys c (.split g e)).resumeBlocks bs) f
    | some (p, none) => s.keepScalar g e p
    | none =>
      if s.rangeOwned g at_ 8 || s.rangeOwned g r.image bytes.length then .park s .system
      else .done (((t.writeRange g e r.image bytes).writeRange g e at_ (leBytes 8 bytes.length)).awayIf c r bytes)
/-- ctx.save (R333, R335, R338). -/
def execCtxSave (d a : BitVec 7) : State → Host.Outcome State Fault Refusal :=
  scalarOp true { priv := true, stalls := true } fun s g e => s.withRequest g e d a fun s c r job =>
    let at_ := (s.getS g e a.toNat).toNat + 0x30
    let out := s.leaveSys c (.split g e)
    match job with
    | some bs => s.saveOn g e d a c r bs
    | none =>
      let bs := s.blocksOn c r.whole r.cores
      let n := s.saveSize c r bs
      match s.writeStop g at_ 8 with
      | some (_, some f) => .fault out f
      | some (p, none) => s.keepScalar g e p
      | none =>
        if n > r.length && s.rangeOwned g at_ 8 then .park s .system
        else if n > r.length then .next ((out.writeRange g e at_ (leBytes 8 n)).setS g e d.toNat (-2))
        else match s.writeStop g r.image n with
          | some (_, some f) => .fault out f
          | some (p, none) => s.keepScalar g e p
          | none => (s.beginSave c (.split g e) r bs).saveOn g e d a c r bs

/-- The bytes of an image read, and the absent context restored from it; the status (R336, R338, R340). It waits for the pages of the
bounce ring. -/
inductive LoadEnd where
  | status (s : State) (n : Int)
  | wait (s : State)
  | nonres (va : Nat)
  | fault (f : FaultInfo)
/-- Whether a migration of a context has been sent and has not ended: the context runs on one device at most (R364). -/
def State.leaving (s : State) (c : CKey) : Bool := s.migrations.any fun p => !p.2.recv && p.2.sent && decide (p.2.c = c)
def State.loadImage (s : State) (c : CKey) (rd : Nat → Nat → RecRead) (len : Nat) : LoadEnd :=
  if !(s.ctx c).absent || s.leaving c then .status s (-3)
  else match parseImage rd len (len / 16 + 1) 0 [] with
    | .nonres p => .nonres p
    | .fault f => .fault f
    | .bad n => .status s n
    | .ok bytes =>
      match s.toTranslate c bytes with
      | k :: ks => .wait ((k :: ks).foldl (fun s k => s.translate c k) s)
      | [] => if ((s.ctx c).bounce.all fun w => (s.bouncePlace c w).isSome) then .status (s.restore c bytes).1 (s.restore c bytes).2 else .wait s
/-- ctx.load (R338, R340, R353). -/
def execCtxLoad (d a : BitVec 7) : State → Host.Outcome State Fault Refusal :=
  scalarOp true { priv := true, stalls := true } fun s g e => s.withRequest g e d a fun s c r _ =>
    let t := s.leaveSys c (.split g e)
    let rd (off n : Nat) : RecRead :=
      if r.image + off ≥ 2 ^ 56 then .fault { kind := 5, addr := r.image + off } else s.readRec g e (r.image + off) n
    match t.loadImage c rd r.length with
    | .status t n => .next (t.setS g e d.toNat (BitVec.ofInt 64 n))
    | .wait t => .park t .system
    | .nonres p => .park s (.page p)
    | .fault f => .fault t f

/-- Whether who has asked for a save or load still waits for it. -/
def State.sysLives (s : State) : SysWho → Bool
  | .split g e => (s.groups.get? g).isSome && !(s.group g).ended && (s.split g e).live
  | .keep _ => true
/-- Requests of splits that have ended dropped; the blocks that they had told to stop go on. -/
def State.sysSweep (s : State) : State :=
  let dead := s.ctxs.flatMap fun p => (p.2.sysq.filter fun q => !s.sysLives q.1).map fun q => (p.1, q)
  dead.foldl (fun s x => (s.leaveSys x.1 x.2.1).resumeBlocks (x.2.2.getD [])) s
/-- Whether the save or load for which a split is parked can go on (R338). -/
def State.sysReady (s : State) (g : GKey) (e : Nat) : Bool :=
  s.ctxs.any fun p => match p.2.sysq.head? with
    | some (w, job) => decide (w = .split g e) && (job.getD []).all s.offCores &&
        (!p.2.absent || p.2.bounce.all fun w => (s.bouncePlace p.1 w).isSome)
    | none => false

/-! ## Slices and gangs (R321, R334, R341, R342) -/

/-- The cycle at which all splits of a block's groups were parked in waits, if they are (R341). -/
def State.evictable (s : State) (b : BKey) : Option Nat :=
  let gs := (s.groupsOf b).filter fun g => !(s.group g).ended
  let live := gs.flatMap fun g => ((s.group g).ents.filter fun p => Split.live p.2).map (·.2)
  if !gs.isEmpty && live.all (fun p => match p.st with
      | .parked (.wait ..) => true
      | _ => false) then some (live.foldl (fun m p => max m p.ready) 0) else none
/-- The first of some blocks by a number. -/
def firstBy (l : List (BKey × Nat)) : Option BKey :=
  (l.foldl (fun (m : Option (BKey × Nat)) p => match m with
    | some x => if p.2 < x.2 then some p else some x
    | none => some p) none).map (·.1)
/-- Whether a region has a saved block and no die has room for it. -/
def State.needsRoom (s : State) (r : RKey) : Bool :=
  !(s.region r).saved.isEmpty && (s.region r).dies.all fun d => (s.admitOn r d).isNone
/-- The block to save for a region: when all the room on its dies is held by evictable blocks, the one that has been parked longest
(R341), else its own that has run longest (R334). -/
def State.slicePick (s : State) (r : RKey) : Option BKey :=
  let held := s.blocks.filter fun p => !p.2.ended && (s.region r).dies.contains (p.2.cluster / 6)
  if !held.isEmpty && held.all fun p => (s.evictable p.1).isSome then firstBy (held.map fun p => (p.1, (s.evictable p.1).getD 0))
  else firstBy ((s.standing r).map fun p => (p.1, p.2.placedAt))
/-- The rotation made: the block saved, and the block that has waited longest restored in its place. -/
def State.rotate (s : State) (r : RKey) (b : BKey) : State :=
  let waits := firstBy ((s.region r).saved.map fun k => (k.b, k.savedAt))
  let s := (s.vacate b).updRegion r fun x => { x with rotating := none }
  match waits.bind fun w => (s.region r).saved.find? fun k => decide (k.b = w) with
  | none => s
  | some k =>
    match (s.region r).dies.findSome? fun d => s.fitDie r (k.toPlace (s.region r).rcb) k.blk.seq.isSome k.blk.tag.isSome d with
    | none => s
    | some p => (s.restoreBlock k p.1 p.2.1 p.2.2).updRegion r fun x => { x with saved := x.saved.filter fun y => decide (y.b ≠ k.b) }
/-- Whether a rotation under way can be made. -/
def State.sliceReady (s : State) (r : RKey) : Bool :=
  match (s.region r).rotating with
  | some b => (s.block b).ended || (s.blocks.get? b).isNone || s.drained b
  | none => false
/-- SLICE_END (R334, R341): it tells a block to stop, and when this has drained, the rotation is made. -/
def execSliceEnd (s : State) : Host.Outcome State Fault Refusal :=
  .next <| match s.turn with
  | .event (.sliceEnd r) =>
    match (s.region r).rotating with
    | some b =>
      if (s.block b).ended || (s.blocks.get? b).isNone then s.updRegion r fun x => { x with rotating := none }
      else if s.drained b then s.rotate r b else s
    | none =>
      if !s.needsRoom r then s
      else match s.slicePick r with
        | none => s
        | some b =>
          let s := (s.stopBlocks [b] false).updRegion r fun x => { x with rotating := some b }
          if s.drained b then s.rotate r b else s
  | _ => s

/-- A context's thread scheduled: its regions go on, or are restored (R321). -/
def State.scheduleOn (s : State) (c : CKey) : State :=
  let s := s.updCtx c fun x => { x with scheduled := true }
  let jobs := (s.ctx c).sysq.flatMap fun q => q.2.getD []
  s.resumeBlocks ((s.blocksOn c true []).filter fun b => !jobs.contains b)
/-- Whether the agreed slice of a gang's member is to start, has ended, by device time (R342). -/
def State.gangStarts (s : State) (c : CKey) : Bool :=
  !(s.ctx c).scheduled && (s.ctx c).gang.any fun t => t.1 ≤ s.deviceNs && s.deviceNs < t.2
def State.gangEnds (s : State) (c : CKey) : Bool := (s.ctx c).gang.any fun t => t.2 ≤ s.deviceNs
/-- GANG_SLICE_START (R342): the member's slice starts at its time. A member whose restore has not completed joins when it has; until
then its traffic goes to its bounce ring. -/
def execGangSliceStart (s : State) : Host.Outcome State Fault Refusal :=
  .next <| match s.turn with
  | .event (.gangSliceStart c) => if (s.ctxs.get? c).isSome && s.gangStarts c then s.scheduleOn c else s
  | _ => s

end Sys2Proof.Machine
end

