-- ==== Sys2Proof/Machine/Debug.lean ====
section
/-! DEFINITION. The debug instructions, and Belfry's sessions with their commands (R366 to R385). -/

namespace Sys2Proof.Machine

/-! ## Instructions (R376 to R378, R383) -/

/-- brk: it retires; then the group halts if a session is attached. In a continuation it is deferred. -/
def execBrk (i : BitVec 14) : State → Host.Outcome State Fault Refusal :=
  scalarOp true {} fun s g e =>
    let pc := (s.split g e).pc
    let s := (s.count g e).goTo g e (pc + 4)
    if (s.group g).fork.isSome then
      .done (s.takeTrap g { recs := [State.frec { kind := 0x0F, extra := i.toNat } 255 e false 0 pc], e })
    else if (s.ctx g.b.r.c).attached.isSome then .done (s.halt g e 2 0 0 i.toNat)
    else .done ((s.bump g.b.r.c 13 1).stepDone g e)

/-- A watchpoint of a control word and its address (R377). -/
def watchOf (a ctl : DWord) : Wpt :=
  if ctl.getLsbD 5 then { en := true, addr := a, r := ctl.getLsbD 3, w := ctl.getLsbD 4, size := ctl.toNat % 8 } else {}
def State.setWpt (s : State) (g : GKey) (n : Nat) (w : Wpt) : State := s.updGroup g fun x => { x with wpts := x.wpts.put n w }
def execWptSet (n : BitVec 2) (a b : BitVec 7) : State → Host.Outcome State Fault Refusal :=
  scalarOp true { stalls := true } fun s g e =>
    let va := s.getS g e a.toNat
    let ctl := s.getS g e b.toNat
    if va.toNat ≥ 2 ^ 56 then .fault s { kind := 5, addr := va.toNat }
    else if va.toNat % 2 ^ (ctl.toNat % 8) != 0 then .fault s { kind := 4, addr := va.toNat }
    else .next (s.setWpt g n.toNat (watchOf va ctl))
def execWptClr (n : BitVec 2) : State → Host.Outcome State Fault Refusal :=
  scalarOp true { stalls := true } fun s g _ => .next (s.setWpt g n.toNat {})

/-- A trace record (R383). -/
def State.traceRec (s : State) (g : GKey) (e ty tag : Nat) (v : DWord) : State :=
  s.record g ⟨e, true, leBytes 2 ty ++ leBytes 2 tag ++ leBytes 4 0 ++ leBytes 8 (groupName g e).toNat ++ leBytes 8 v.toNat ++
    leBytes 8 (s.recTime g)⟩
def execSmark (a : BitVec 7) : State → Host.Outcome State Fault Refusal :=
  scalarOp true { stalls := true } fun s g e =>
    let m := (s.getS g e a.toNat).setWidth 16
    .next ((s.updGroup g fun x => { x with mark := m }).traceRec g e 2 m.toNat 0)
def execTraceWr (a b : BitVec 7) : State → Host.Outcome State Fault Refusal :=
  scalarOp true {} fun s g e =>
    .next (s.traceRec g e 1 ((s.getS g e b.toNat).toNat % 65536) (s.getS g e a.toNat))

/-! ## Names and selectors (R366, R369) -/

/-- The entries by which a group's name may be given: its live ones, and 0. -/
def State.named' (s : State) (g : GKey) : List Nat := 0 :: ((s.group g).ents.filter fun p => p.2.live && p.1 < 4).map (·.1)
/-- Whether a selector matches a group. -/
def Selector.hits (sel : Selector) (s : State) (g : GKey) : Bool :=
  !sel.thread && (s.named' g).any fun e => (groupName g e ^^^ sel.name) &&& sel.mask == 0
/-- The live groups that a selector matches. -/
def State.selected (s : State) (sel : Selector) : List GKey :=
  (s.groups.filter fun p => p.1.sh == 0 && !p.2.ended && Selector.hits sel s p.1).map (·.1)
/-- Whether a selector names the sequencer of a block: it gives the split bits of its name too
(DEDUCED, log entry 26). -/
def State.namesSeq (s : State) (sel : Selector) (b : BKey) : Bool :=
  let g : GKey := ⟨b, s.firstVec b, 0⟩
  !sel.thread && (s.block b).seq.isSome && sel.mask.setWidth 2 == 3#2 && (groupName g 0 ^^^ sel.name) &&& sel.mask == 0
/-- The live group and entry of a group name; while its trap split runs, entry 0 is the trap split. -/
def State.byName (s : State) (sess : Session) (name : BitVec 64) : Option (GKey × Nat) :=
  (s.groups.find? fun p => p.1.sh == 0 && !p.2.ended && (sess.scope == 255 || p.1.b.r.c.vf == sess.scope) &&
    (groupName p.1 0).toNat / 4 == name.toNat / 4).map fun p =>
      (p.1, if p.2.trap.isSome && name.toNat % 4 == 0 then 4 else name.toNat % 4)

/-! ## Halting and resuming (R372 to R374) -/

/-- A group goes on: its join windows and naps have not counted meanwhile. -/
def State.resumeGroup (s : State) (g : GKey) : State :=
  let d := s.cycle - (s.group g).haltedAt
  s.updGroup g fun x =>
    if !x.halted then { x with stepping := none } else
    { x with
      halted := false
      stepping := none
      ents := x.ents.map fun p => (p.1, p.2.later (s.rcb g).ordered d) }
def State.resumeSeq (s : State) (b : BKey) : State :=
  s.updBlock b fun x => { x with seq := x.seq.map fun q => { q with halted := false, halting := none } }
/-- A saved block in which groups and sequencers are no longer halted. -/
def SavedBlock.resume (gs : List GKey) (bs : List BKey) (b : SavedBlock) : SavedBlock :=
  { b with
    blk := if bs.contains b.b then { b.blk with seq := b.blk.seq.map fun q => { q with halted := false, halting := none } } else b.blk
    groups := b.groups.map fun q => if gs.contains q.1 then (q.1, { q.2 with halted := false, stepping := none }) else q }
/-- A saved block without the halts and the watchpoints of a session (R368). -/
def SavedBlock.release (x : Session) (b : SavedBlock) : SavedBlock :=
  let b := b.resume x.halted x.haltedSeqs
  { b with groups := b.groups.map fun q =>
      (q.1, { q.2 with wpts := q.2.wpts.map fun w => if x.wpts.contains (q.1, w.1) then (w.1, {}) else w }) }
/-- The saved blocks of every region changed, those of the save images too. -/
def State.mapSavedBlocks (s : State) (f : SavedBlock → SavedBlock) : State :=
  let on (p : RKey × Region) : RKey × Region := (p.1, { p.2 with saved := p.2.saved.map f })
  { s with regions := s.regions.map on, images := s.images.map fun i => { i with regions := i.regions.map on } }
/-- Groups in ascending joined name. -/
def State.byJoined (s : State) (gs : List GKey) : List GKey :=
  let ins (g : GKey) (l : List GKey) : List GKey :=
    l.takeWhile (fun k => (s.joinedName k 0).toNat ≤ (s.joinedName g 0).toNat) ++ g ::
      l.dropWhile fun k => (s.joinedName k 0).toNat ≤ (s.joinedName g 0).toNat
  gs.foldl (fun l g => ins g l) []
/-- The agents of a context that a session has halted go on, their pending traps are taken, and the barriers that waited for them are looked at
again. -/
def State.resumeAll (s : State) (gs : List GKey) (bs : List BKey) : State :=
  let s := (s.byJoined gs).foldl (fun s g => ((s.resumeGroup g).nextTrap g).barRecheck g.b) s
  bs.foldl (fun s b => s.resumeSeq b) s

/-- A session ends (R368). -/
def State.endSession (s : State) (id : Nat) : State :=
  match s.sessions.find? fun x => x.id == id with
  | none => s
  | some x =>
    let s : State :=
      { s with
        sessions := s.sessions.filter fun y => y.id != id
        ctxs := s.ctxs.map fun p => if p.2.attached.any (·.1 == id) then (p.1, { p.2 with attached := none, bps := [], thrHalted := false }) else p }
    let s := x.wpts.foldl (fun s w => if (s.groups.get? w.1).isSome then s.setWpt w.1 w.2 {} else s) s
    let gs := x.halted.eraseDups.filter fun g => (s.groups.get? g).isSome
    (s.resumeAll gs (x.haltedSeqs.filter fun b => (s.blocks.get? b).isSome)).mapSavedBlocks (SavedBlock.release x)

/-! ## The setup of a session (R367) -/

/-- 60 s in cycles. -/
def idleCycles : Nat := 60 * 3600000000
/-- The bytes of a value of n bits, as a message carries them. -/
def bytesOf {n : Nat} (v : BitVec n) : List Byte := leBytes (n / 8) v.toNat
def execHello (s : State) : Host.Outcome State Fault Refusal :=
  .next <| match s.turn with
  | .event (.hello nc hash scope) =>
    if s.platform.down.contains .belfry || s.sessions.length ≥ 4 || !(scope < 64 || scope == 255) then s
    else
      let nd := Config.random256 s.free
      let id := s.nextId
      let sig := Config.deviceSign (Config.sha512 (bytesOf nc ++ bytesOf nd ++ leBytes 1 scope))
      { s with
        free := s.free + 1
        nextId := s.nextId + 1
        sessions := s.sessions ++ [{ id, scope, keyHash := hash, nc, nd, last := s.cycle }]
        outs := s.outs ++ [Out.challenge id nd sig] }
  | _ => s
/-- The proof is accepted when the key is the one of the hello, is installed for the scope, an operator's for the whole device, and its
signature verifies (DEDUCED, log entry 28). -/
def State.proofOk (s : State) (x : Session) (key sig : BitVec 4096) : Bool :=
  x.key.isNone && (x.scope != 255 || Config.operatorKey x.keyHash) && Config.sha512 (bytesOf key) == x.keyHash && s.debugKeys.contains (x.scope, x.keyHash) &&
    Config.rsaVerify key (Config.sha512 (bytesOf x.nd ++ bytesOf x.nc ++ leBytes 1 x.scope)) sig
def execProof (s : State) : Host.Outcome State Fault Refusal :=
  .next <| match s.turn with
  | .event (.proof id key sig) =>
    match s.sessions.find? fun x => x.id == id with
    | none => s
    | some x =>
      if x.last + idleCycles ≤ s.cycle then s.endSession id else
      let s : State := { s with sessions := s.sessions.map fun y => if y.id = id then { y with last := s.cycle } else y }
      if !s.proofOk x key sig then s
      else
        let k := Config.random256 s.free
        { s with
          free := s.free + 1
          sessions := s.sessions.map fun y => if y.id = id then { y with key := some k } else y
          outs := s.outs ++ [Out.accept id (Config.oaep key k)] }
  | _ => s
def State.idleReady (s : State) (id : Nat) : Bool :=
  s.sessions.any fun x => x.id == id && x.last + idleCycles ≤ s.cycle
def execSessionIdleTimeout (s : State) : Host.Outcome State Fault Refusal :=
  .next <| match s.turn with
  | .event (.sessionIdleTimeout id) => if s.idleReady id then s.endSession id else s
  | _ => s

/-! ## Commands (R369, R370) -/

/-- The arguments of a command as they follow its header: each in 8 bytes in the order of R370, a selector as R369 says, bytes as they are;
with header flag [0], which a selector of a Keep thread sets, and whether more follows, as the records of a write do (DESIGN CHOICE, log
entry 107). -/
def Selector.bytes (x : Selector) : List Byte := leBytes 4 x.proc.toNat ++ leBytes 4 x.thr.toNat ++ leBytes 8 x.name.toNat ++ leBytes 8 x.mask.toNat
def CKey.code (c : CKey) : Nat := c.id + 65536 * c.vf
def Event.args : Event → Bool × List Byte × Bool
  | .attach _ c all => (false, [CKey.code c, all.toNat].flatMap (leBytes 8), false)
  | .halt _ sel | .resume _ sel => (sel.thread, Selector.bytes sel, false)
  | .step _ name => (false, leBytes 8 name.toNat, false)
  | .read _ name types => (false, [name.toNat, types].flatMap (leBytes 8), false)
  | .write _ name _ => (false, leBytes 8 name.toNat, true)
  | .memrd _ c va len => (false, [CKey.code c, va, len].flatMap (leBytes 8), false)
  | .memwr _ c va data => (false, [CKey.code c, va, data.length].flatMap (leBytes 8) ++ data, false)
  | .setbp _ c n addr st sel =>
    (sel.thread, [CKey.code c, n, addr, match st with | .scalar => 0 | .lane => 1 | .matrix => 2].flatMap (leBytes 8) ++ Selector.bytes sel, false)
  | .clrbp _ c n => (false, [CKey.code c, n].flatMap (leBytes 8), false)
  | .setwp _ name n addr ctl => (false, [name.toNat, n, addr.toNat, ctl.toNat].flatMap (leBytes 8), false)
  | .clrwp _ name n => (false, [name.toNat, n].flatMap (leBytes 8), false)
  | .sample _ c n base cap timed => (false, [CKey.code c, n, base, cap, timed.toNat].flatMap (leBytes 8), false)
  | .trace _ c base cap => (false, [CKey.code c, base, cap].flatMap (leBytes 8), false)
  | .counters _ c => (false, leBytes 8 (CKey.code c), false)
  | _ => (false, [], false)
/-- Whether a message carries the arguments of a command, padded with zeros to a multiple of 8, and no others. -/
def Cmd.carries (k : Cmd) (a : Bool × List Byte × Bool) : Bool :=
  let body := k.bytes.drop 16
  let rest := body.drop a.2.1.length
  decide ((fieldAt k.bytes 2 1).testBit 0 = a.1) && decide (body.take a.2.1.length = a.2.1) &&
    (a.2.2 || (rest.length < 8 && rest.all (· == 0)))
/-- Whether a message's header is that of a command. -/
def Cmd.wellFormed (k : Cmd) (code : Nat) : Bool :=
  let f := fieldAt k.bytes
  k.bytes.length ≥ 16 && f 0 2 == code && f 4 4 == k.seq && f 8 4 == k.bytes.length && k.bytes.length % 8 == 0 && f 12 4 == 0
/-- Whether the event of this step carries what the message's bytes say. -/
def State.carried (s : State) (k : Cmd) : Bool :=
  match s.turn with
  | .event ev => Cmd.carries k (Event.args ev)
  | _ => false
/-- The reply to a command, in clear and as it leaves; the session may have ended by it. -/
def State.answerTo (s : State) (x : Session) (code seq : Nat) (status : Int) (data : List Byte) : State :=
  let y := (s.sessions.find? fun y => y.id == x.id).getD x
  { s with
    outs := s.outs ++ [.reply x.id code seq status data, sealMsg y code seq status data]
    sessions := s.sessions.map fun y => if y.id = x.id then { y with outCtr := y.outCtr + 1 } else y }
/-- A command of a session: its time, its tag and its counter are checked, and it is executed and answered. One that is malformed, or whose
sequence number is not above those before it, has no effect (DESIGN CHOICE, log entry 109). -/
def State.command (s : State) (k : Cmd) (code : Nat) (f : State → Session → State × Int × List Byte) : State :=
  match s.sessions.find? fun x => x.id == k.sess with
  | none => s
  | some x =>
    match x.key with
    | none => s
    | some key =>
      if x.last + idleCycles ≤ s.cycle || k.ctr != x.ctr || !Config.gcmVerify key (BitVec.ofNat 96 k.ctr) k.bytes k.tag then s.endSession k.sess
      else
        let next (y : Session) : Session := { y with ctr := y.ctr + 1, seq := max y.seq (k.seq + 1), last := s.cycle }
        let ok := Cmd.wellFormed k code && s.carried k && decide (x.seq ≤ k.seq)
        let s : State := { s with sessions := s.sessions.map fun y => if y.id = k.sess then next y else y }
        let (s, st, data) := if ok then f s x else (s, -1, [])
        s.answerTo x code k.seq st data
/-- Whether a session sees a context (R368). -/
def Session.sees (x : Session) (c : CKey) : Bool := x.scope == 255 || c.vf == x.scope
/-- A command on a context: it is in scope and exists. -/
def State.onCtx (s : State) (x : Session) (c : CKey) (f : State × Int × List Byte) : State × Int × List Byte :=
  if !x.sees c then (s, -2, []) else if (s.ctxs.get? c).isNone then (s, -3, []) else f
/-- A command on the attached context. -/
def State.onAttached (s : State) (x : Session) (c : CKey) (f : State × Int × List Byte) : State × Int × List Byte :=
  s.onCtx x c (if (s.ctx c).attached.any (·.1 == x.id) then f else (s, -2, []))
def State.done (s : State) : State × Int × List Byte := (s, 0, [])

def execAttach (s : State) : Host.Outcome State Fault Refusal :=
  .next <| match s.turn with
  | .event (.attach k c all) => s.command k 1 fun s x => s.onCtx x c
      (if (s.ctx c).attached.any (·.1 != x.id) then (s, -1, []) else (s.updCtx c fun y => { y with attached := some (x.id, all) }).done)
  | _ => s
def execDetach (s : State) : Host.Outcome State Fault Refusal :=
  .next <| match s.turn with
  | .event (.detach k) => s.command k 2 fun s x => (s.endSession x.id).done
  | _ => s

/-- The contexts that a selector of a Keep thread names. -/
def State.threadCtxs (s : State) (sel : Selector) : List CKey :=
  (s.ctxs.filter fun p => p.2.proc == sel.proc && p.2.thr == sel.thr).map (·.1)
/-- The saved groups and sequencers that a selector matches. -/
def State.savedPick (s : State) (x : Session) (sel : Selector) : List GKey × List BKey :=
  let ks := (s.regions.filter fun p => x.sees p.1.c).flatMap fun p => p.2.saved
  (ks.flatMap fun k => (k.groups.filter fun q => !q.2.ended && Selector.hits sel (s.asPlaced k) q.1).map (·.1),
    (ks.filter fun k => (s.asPlaced k).namesSeq sel k.b).map (·.b))
/-- The groups and sequencers that a halt or resume acts on, or its status: a selector matches among those that the session sees (R368). -/
def State.pick (s : State) (x : Session) (sel : Selector) : Except Int (List GKey × List BKey × List CKey) :=
  let gs := (s.selected sel).filter fun g => x.sees g.b.r.c
  let bs := (s.blocks.filter fun p => !p.2.ended && x.sees p.1.r.c && s.namesSeq sel p.1).map (·.1)
  let cs := if sel.thread then s.threadCtxs sel else []
  let away := s.savedPick x sel
  let all := gs.map (·.b.r.c) ++ bs.map (·.r.c) ++ away.1.map (·.b.r.c) ++ away.2.map (·.r.c) ++ cs
  if all.isEmpty then .error (-3)
  else if all.any fun c => !x.sees c || !(s.ctx c).attached.any (·.1 == x.id) then .error (-2)
  else .ok (gs, bs, cs)
def execHalt (s : State) : Host.Outcome State Fault Refusal :=
  .next <| match s.turn with
  | .event (.halt k sel) => s.command k 3 fun s x =>
      match s.pick x sel with
      | .error n => (s, n, [])
      | .ok (gs, bs, cs) =>
        let s := gs.foldl (fun s g => if (s.group g).halted then s else s.halt g (s.stopEntry g) 0 0 0 0) s
        let s := bs.foldl (fun s b => if (s.seq b).halted then s else s.haltSeq b 0 0) s
        let away := s.savedPick x sel
        let of := (bs.map (·.r.c) ++ away.1.map (·.b.r.c) ++ away.2.map (·.r.c) ++ cs).eraseDups
        (of.foldl (fun s c =>
          let s := s.haltSaved c x.id 0 away.1.contains away.2.contains
          let s := if cs.contains c then s.threadStop c x.id 0 else s
          if (s.ctx c).attached.any (·.2) then s.haltRest c x.id else s) s).done
  | _ => s
/-- The agents of contexts; those of their saved blocks. -/
def State.agentsOf (s : State) (cs : List CKey) : List GKey × List BKey :=
  ((s.groups.filter fun p => p.1.sh == 0 && cs.contains p.1.b.r.c).map (·.1), (s.blocks.filter fun p => cs.contains p.1.r.c).map (·.1))
def State.savedAgents (s : State) (cs : List CKey) : List GKey × List BKey :=
  let ks := (s.regions.filter fun p => cs.contains p.1.c).flatMap fun p => p.2.saved
  (ks.flatMap fun k => k.groups.map (·.1), ks.map (·.b))
/-- Of saved agents those that are halted. -/
def State.savedHalted (s : State) (gs : List GKey) (bs : List BKey) : List GKey × List BKey :=
  let ks := s.regions.flatMap fun p => p.2.saved
  (ks.flatMap fun k => (k.groups.filter fun q => q.2.halted && gs.contains q.1).map (·.1),
    (ks.filter fun k => bs.contains k.b && k.blk.seq.any (·.halted)).map (·.b))
def execResume (s : State) : Host.Outcome State Fault Refusal :=
  .next <| match s.turn with
  | .event (.resume k sel) => s.command k 4 fun s x =>
      match s.pick x sel with
      | .error n => (s, n, [])
      | .ok (gs, bs, cs) =>
        let away := s.savedPick x sel
        let whole := ((gs.map (·.b.r.c) ++ bs.map (·.r.c) ++ away.1.map (·.b.r.c) ++ away.2.map (·.r.c) ++ cs).filter fun c => (s.ctx c).attached.any (·.2)).eraseDups
        let more := s.agentsOf whole
        let gs := ((gs ++ more.1).filter fun g => (s.group g).halted || (s.group g).stepping.isSome).eraseDups
        let bs := ((bs ++ more.2).filter fun b => (s.seq b).halted).eraseDups
        let rest := s.savedAgents whole
        let away := s.savedHalted (away.1 ++ rest.1) (away.2 ++ rest.2)
        let cs := (cs ++ whole).filter fun c => (s.ctx c).thrHalted
        if gs.isEmpty && bs.isEmpty && cs.isEmpty && away.1.isEmpty && away.2.isEmpty then (s, -4, [])
        else
          let s := cs.foldl (fun s c => s.updCtx c fun y => { y with thrHalted := false }) s
          let s := (s.mapSavedBlocks (SavedBlock.resume away.1 away.2)).resumeAll gs bs
          let left (y : Session) : Session :=
            { y with
              halted := y.halted.filter fun g => !gs.contains g && !away.1.contains g
              haltedSeqs := y.haltedSeqs.filter fun b => !bs.contains b && !away.2.contains b }
          let s : State := { s with sessions := s.sessions.map fun y => if y.id = x.id then left y else y }
          s.done
  | _ => s
def execStep (s : State) : Host.Outcome State Fault Refusal :=
  .next <| match s.turn with
  | .event (.step k name) => s.command k 5 fun s x =>
      match s.byName x name with
      | none => (s, -3, [])
      | some (g, e) =>
        if !(s.split g e).live then (s, -3, [])
        else if !(s.ctx g.b.r.c).attached.any (·.1 == x.id) then (s, -2, [])
        else if !(s.group g).halted then (s, -4, [])
        else ((s.resumeGroup g).updGroup g fun y => { y with stepping := some e, haltedAt := s.cycle }).done
  | _ => s

/-! ## Reads and writes of records (R375) -/

/-- Record types of a group, of a block. -/
def groupTypes : List Nat := [4, 5, 6, 0x0A, 0x0B, 0x0C]
def blockTypes : List Nat := [3, 7, 8, 9]
/-- Whether every group and the sequencer of a block are halted. -/
def State.blockHalted (s : State) (b : BKey) : Bool :=
  ((s.groupsOf b).all fun g => (s.group g).halted || (s.group g).ended) &&
    (s.block b).seq.all fun q => (q.halted && q.halting.isNone) || decide (q.st = .ended)
/-- The records of a type for a group or its block; the history records are those of its block's cores. -/
def State.debugRecs (s : State) (g : GKey) (t : Nat) : List SaveRec :=
  let own := if t = 7 then g.b.r.id else if blockTypes.contains t then g.b.n else g.gid
  let c := (s.region g.b.r).rcb
  if t = 7 then
    s.histRecs g.b.r (((List.range 192).filter (s.block g.b).cores.contains).filterMap fun k =>
      (s.histIdx g.b.r k).map fun h => (k, histImage (s.hbank k h)))
  else if t = 0x0C then [{ ty := t, own, rcb := c, body := .quantum (s.group g).q.buf (s.group g).q.atoms }]
  else (blockRecs c (s.savedForm g.b)).filter fun x => x.ty == t && x.own == own
def execRead (s : State) : Host.Outcome State Fault Refusal :=
  .next <| match s.turn with
  | .event (.read k name types) => s.command k 6 fun s x =>
      match s.byName x name with
      | none => (s, -3, [])
      | some (g, _) =>
        let ts := (List.range 32).filter types.testBit
        if types ≥ 2 ^ 32 || ts.any fun t => !(groupTypes ++ blockTypes).contains t then (s, -5, [])
        else if (ts.any groupTypes.contains && !(s.group g).halted) || (ts.any blockTypes.contains && !s.blockHalted g.b) then (s, -4, [])
        else
          (s, 0, ts.flatMap fun t => (s.debugRecs g t).flatMap recordBytes)
  | _ => s

/-- A translation register from its layout (R100). -/
def bregOf (v : BitVec 128) : BReg :=
  { base := v.extractLsb' 72 56, frame := v.extractLsb' 32 40, psize := v.extractLsb' 30 2, valid := v.getLsbD 29
    w := v.getLsbD 28, r := v.getLsbD 27, limit := v.extractLsb' 0 22 }
/-- The special registers that a group record holds, put as they are. -/
def recordSpecials : List Nat := [0x10, 0x11, 0x13, 0x14, 0x20, 0x21, 0x22, 0x23, 0x28, 0x29]
def Group.putSpecial (x : Group) (now n : Nat) (v : DWord) : Group :=
  match n with
  | 0x10 => { x with cycles := v.toNat, since := now }
  | 0x11 => { x with retired := v.toNat }
  | 0x13 => { x with joinwin := v.setWidth 16 }
  | 0x14 => { x with trapkind := v.setWidth 8 }
  | 0x20 => { x with vstat := v.setWidth 2 }
  | 0x21 => { x with olbase := v.extractLsb' 3 53 }
  | 0x22 => { x with ollen := v.setWidth 32 }
  | 0x23 => { x with olcnt := v.setWidth 32 }
  | 0x28 => { x with tw := v.setWidth 16 }
  | _ => { x with tstat := v.setWidth 3 }

/-- Whether a field is one of a block-level record. -/
def RecField.ofBlock : RecField → Bool
  | .history _ | .ring _ _ | .scratch _ _ _ | .fifo _ _ | .seqPc _ | .q _ _ | .acc _ _ _ | .task _ | .ringAt _ _ _ _ | .barrier _ _ |
    .bankMode _ _ => true
  | _ => false
/-- Whether a copy owns a line of scratch that a field writes, which waits for it (R224). -/
def State.fieldOwned (s : State) (g : GKey) : RecField → Bool
  | .scratch n off bytes => (Loc.span (.scr g.b (n * 131072 + off)) bytes.length).any s.ownedAt
  | _ => false
/-- Whether a field may be replaced, and its replacement. -/
def State.fieldOk (s : State) (g : GKey) : RecField → Bool
  | .s e n _ => e ≤ 4 && n < 128 && (s.split g e).live
  | .v n l _ => n < (s.group g).budget && l < 32
  | .m n _ => n < 16
  | .b n v => n < 16 && v.extractLsb' 30 2 != 3#2
  | .w n _ _ => n < 8
  | .special n _ => recordSpecials.contains n
  | .pc e v => e ≤ 4 && v.toNat % 4 == 0 && (s.split g e).live
  | .mask e _ | .level e _ | .join e _ | .stack e _ => e ≤ 4 && (s.split g e).live
  | .queue e i pc _ => i < (s.split g e).queue.length && pc.toNat % 16 == 0
  | .delay i _ => i < 4096 && s.holdsArray g
  | .latch i _ => i < 64 && s.holdsArray g
  | .maxMode _ => s.holdsArray g
  | .buffer i bytes => match (s.group g).q.buf[i]? with
    | some x => x.cells.length == bytes.length
    | none => false
  | .history img => img.length == 4096 && (s.histIdx g.b.r (s.coreOf g)).isSome
  | .ring n full => ((s.ring g.b n).depth).any fun d => full.toNat < 2 ^ d
  | .scratch n off bytes => ((s.block g.b).banks[n]?).any fun k => decide (k.mode = .scratch) && off + bytes.length ≤ 131072
  | .fifo n ents => ((s.block g.b).banks[n]?).any fun k => decide (k.mode = .fifo) && ents.length ≤ 8192
  | .seqPc v => (s.block g.b).seq.isSome && v.toNat % 8 == 0
  | .q n _ => (s.block g.b).seq.isSome && n < 8
  | .acc a i _ => (s.block g.b).seq.isSome && a < 8 && i < 4096
  | .area i b => i < 32 && b.length == 32
  | .header v => v.toNat < 2 ^ 42 && (v.extractLsb' 32 6).toNat ≤ 32 && (v.extractLsb' 38 3).toNat ≤ 4
  | .batch next _ => next ≥ 1
  | .state e st => e < 4 && ((s.split g e).live && (st = splitCode false (s.split g e) || st = 1 || st = 2) ||
      (st = 0 && ((s.group g).ents.any fun p => p.1 != e && p.2.live)))
  | .snapS e i n _ => i < (s.split g e).queue.length && 16 ≤ n && n < 32
  | .snapB e i n v => i < (s.split g e).queue.length && n < 16 && v.extractLsb' 30 2 != 3#2
  | .atom i l _ _ => ((s.group g).q.atoms[i]?).any fun x => x.lanes.any (·.1 == l)
  | .watchpoint n a ctl => n < 4 && a.toNat < 2 ^ 56 && a.toNat % 2 ^ (ctl.toNat % 8) == 0
  | .mark _ | .finial _ | .forks _ _ => true
  | .task n => n ≤ 3
  | .ringAt n d gi ti => n < 16 && d ≤ 8 && ((d == 0 && gi == 0 && ti == 0) || (gi < d && ti < d))
  | .barrier t _ => t.all (· < 8)
  | .bankMode n m => n < (s.block g.b).banks.length && m ≤ 2
  | .unknown _ => false
/-- A fault record from its bytes (R323). -/
def frecOf (b : List Byte) : FRec :=
  let f (o n : Nat) : Nat := fieldAt b o n
  { kind := BitVec.ofNat 8 (f 0 1), lane := BitVec.ofNat 8 (f 1 1), split := BitVec.ofNat 8 (f 2 1), flags := BitVec.ofNat 8 (f 3 1)
    extra := BitVec.ofNat 32 (f 4 4), lanePc := BitVec.ofNat 64 (f 8 8), scalarPc := BitVec.ofNat 64 (f 16 8), addr := BitVec.ofNat 64 (f 24 8) }
/-- The state of an entry put in place, but for one that stands as it is: it runs, or waits at its PC for a join (R131). -/
def State.putState (s : State) (g : GKey) (e st : Nat) : State :=
  if st = splitCode false (s.split g e) then s
  else s.updSplit g e fun p =>
    { p with
      st := if st = 0 then .free else if st = 1 then .running else .waitJoin (s.windowNow g e)
      expired := false }
def State.putField (s : State) (g : GKey) : RecField → State
  | .s e n v => s.setS g e n v
  | .v n l v => s.setVLs g n [(l, v)]
  | .m n v => s.setM g n 0xFFFFFFFF v
  | .b n v => s.updGroup g fun x => { x with bregs := x.bregs.put n (bregOf v) }
  | .w n base len => s.updGroup g fun x => { x with wins := x.wins.put n { base, len } }
  | .special n v => s.updGroup g fun x => x.putSpecial (s.clusterCycle (s.clusterOf g)) n v
  | .pc e v => s.updSplit g e fun p => { p with pc := v }
  | .mask e v => s.updSplit g e fun p => { p with mask := v }
  | .level e v => s.updSplit g e fun p => { p with level := v }
  | .join e target => s.updSplit g e fun p => { p with join := target }
  | .stack e ents => s.updSplit g e fun p => { p with stack := ents.map fun x => { pc := x.1, mask := x.2.1, j := x.2.2.1, level := x.2.2.2 } }
  | .queue e i pc mask => s.updSplit g e fun p => { p with queue := p.queue.modify i fun x => { x with pc, mask } }
  | .delay i v => s.updCore (s.coreOf g) fun x => { x with delays := x.delays.put i v }
  | .latch i v => s.updCore (s.coreOf g) fun x => { x with latch := x.latch.put i v }
  | .maxMode on => s.updCore (s.coreOf g) fun x => { x with maxMode := on }
  | .buffer i bytes => s.updGroup g fun x =>
      { x with q := { x.q with buf := x.q.buf.modify i fun y => { y with cells := (y.cells.map (·.1)).zip bytes } } }
  | .history img => match s.histIdx g.b.r (s.coreOf g) with
    | some h => s.updHbank (s.coreOf g) h fun b => applyImage b img
    | none => s
  | .ring n full => s.updRing g.b n fun r => { r with full }
  | .scratch n off bytes => s.perform ((Loc.span (.scr g.b (n * 131072 + off)) bytes.length).zip bytes)
  | .fifo n ents => s.setFifo g.b n ents
  | .seqPc v => s.updSeq g.b fun q => { q with pc := v }
  | .q n v => s.updSeq g.b fun q => { q with q := q.q.put n v }
  | .acc a i v => s.updSeq g.b fun q => { q with accs := q.accs.put a { q.accs.get {} a with elems := (q.accs.get {} a).elems.put i v } }
  | .area i b => s.updGroup g fun x => { x with recs := (x.recs ++ List.replicate (i + 1 - x.recs.length) ({} : FRec)).set i (frecOf b) }
  | .header v => s.updGroup g fun x =>
      { x with hdr := ⟨v.getLsbD 41, v.extractLsb' 38 3, v.extractLsb' 32 6, v.setWidth 32⟩ }
  | .batch next isOpen => s.updGroup g fun x => { x with batchNext := next, openAny := isOpen }
  | .state e st => s.putState g e st
  | .snapS e i n v => s.updSplit g e fun p => { p with queue := p.queue.modify i fun x => { x with snapS := x.snapS.put n v } }
  | .snapB e i n v => s.updSplit g e fun p => { p with queue := p.queue.modify i fun x => { x with snapB := x.snapB.put n (bregOf v) } }
  | .atom i l v cmp => s.updGroup g fun x =>
      { x with q := { x.q with atoms := x.q.atoms.modify i fun y => { y with lanes := y.lanes.map fun w => if w.1 = l then (l, v, cmp) else w } } }
  | .watchpoint n a ctl => s.setWpt g n (watchOf a ctl)
  | .mark v => s.updGroup g fun x => { x with mark := v }
  | .finial n => s.updGroup g fun x => { x with finial := n }
  | .forks c q => s.updGroup g fun x => { x with forks := c, squashed := q }
  | .task n => s.updBlock g.b fun x => { x with relaunches := n }
  | .ringAt n d gi ti => s.updRing g.b n fun r => { r with depth := if d = 0 then none else some d, gi, ti }
  | .barrier t n => s.updBar g.b t fun k => { k with inst := n }
  | .bankMode n m => s.updBlock g.b fun x =>
      { x with banks := x.banks.modify n fun k => { k with mode := if m = 0 then .cache else if m = 1 then .scratch else .fifo } }
  | .unknown _ => s
def execWrite (s : State) : Host.Outcome State Fault Refusal :=
  .next <| match s.turn with
  | .event (.write k name recs) =>
    if s.sessions.any fun x => x.id == k.sess && (s.byName x name).any fun p => recs.any (s.fieldOwned p.1) then s.holdInput (.write k name recs)
    else s.command k 7 fun s x =>
      match s.byName x name with
      | none => (s, -3, [])
      | some (g, _) =>
        if recs.any fun r => match r with | .unknown _ => true | _ => false then (s, -5, [])
        else if (recs.any fun r => !RecField.ofBlock r) && !(s.group g).halted then (s, -4, [])
        else if recs.any RecField.ofBlock && !s.blockHalted g.b then (s, -4, [])
        else if recs.any fun r => !s.fieldOk g r then (s, -5, [])
        else
          let s := recs.foldl (fun s r => s.putField g r) s
          let r := s.region g.b.r
          let log : LogEnt := { logEntry g.b.r.id r.quantum (s.nextSeq g.b.r r.quantum) { kind := 5, target := name.toNat } with
            payload := k.bytes.drop 16, fields := recs }
          (if r.listens && (s.ctx g.b.r.c).logging && (s.ctx g.b.r.c).replay.isNone then s.updCtx g.b.r.c fun y => { y with log := y.log ++ [log] } else s).done
  | _ => s

/-! ## Memory, points, rings, counters -/

/-- The pages of a range: their status for Belfry. -/
def State.pagesHere (s : State) (c : CKey) (va len : Nat) (wr : Bool) : Int :=
  let st := (List.range ((va + len - 1) / 4096 - va / 4096 + 1)).map fun i =>
    match findPage (s.ctx c).pages (max va ((va / 4096 + i) * 4096)) with
    | none => (-3 : Int)
    | some p => if p.peer.isSome || !(if wr then p.w else p.r) then -3 else if p.res then 0 else -6
  if st.contains (-3) then -3 else if st.contains (-6) then -6 else 0
/-- A command on a context's memory, which waits while a copy owns a line of it (R224). -/
def State.onFree (s : State) (ev : Event) (c : CKey) (va n : Nat) (k : State) : State :=
  if (s.cellsAt c va (List.replicate n 0)).any s.ownedCells then s.holdInput ev else k
def execMemrd (s : State) : Host.Outcome State Fault Refusal :=
  .next <| match s.turn with
  | .event (.memrd k c va len) => s.onFree (.memrd k c va len) c va (min len 4096) <| s.command k 8 fun s x => s.onCtx x c
      (if len = 0 || len > 4096 then (s, -1, [])
       else if s.pagesHere c va len false != 0 then (s, s.pagesHere c va len false, [])
       else (s, 0, (List.range len).map fun i => match findPage (s.ctx c).pages (va + i) with
         | some p => s.rawByte (.mem (cellOf (Page.pa p (va + i))))
         | none => 0))
  | _ => s
def execMemwr (s : State) : Host.Outcome State Fault Refusal :=
  .next <| match s.turn with
  | .event (.memwr k c va data) => s.onFree (.memwr k c va data) c va (min data.length 4096) <| s.command k 9 fun s x => s.onCtx x c
      (if data.isEmpty || data.length > 4096 then (s, -1, [])
       else if s.pagesHere c va data.length true != 0 then (s, s.pagesHere c va data.length true, [])
       else match s.cellsAt c va data with
         | some cells => (s.extWrite c 5 va cells).done
         | none => (s, -3, []))
  | _ => s

def execSetbp (s : State) : Host.Outcome State Fault Refusal :=
  .next <| match s.turn with
  | .event (.setbp k c n addr st sel) => s.command k 10 fun s x => s.onAttached x c
      (if n > 15 then (s, -1, [])
       else (s.updCtx c fun y => { y with bps := y.bps.put n { addr := BitVec.ofNat 64 addr, st, sel } }).done)
  | _ => s
def execClrbp (s : State) : Host.Outcome State Fault Refusal :=
  .next <| match s.turn with
  | .event (.clrbp k c n) => s.command k 11 fun s x => s.onAttached x c
      (if n > 15 then (s, -1, []) else (s.updCtx c fun y => { y with bps := y.bps.del n }).done)
  | _ => s
/-- A session's watchpoints: those it has set and not cleared. -/
def State.noteWpt (s : State) (id : Nat) (g : GKey) (n : Nat) (on : Bool) : State :=
  { s with sessions := s.sessions.map fun y => if y.id = id then
      { y with wpts := if on then (g, n) :: y.wpts.filter fun w => decide (w ≠ (g, n)) else y.wpts.filter fun w => decide (w ≠ (g, n)) } else y }
def execSetwp (s : State) : Host.Outcome State Fault Refusal :=
  .next <| match s.turn with
  | .event (.setwp k name n a ctl) => s.command k 12 fun s x =>
      match s.byName x name with
      | none => (s, -3, [])
      | some (g, _) =>
        if n > 3 || a.toNat ≥ 2 ^ 56 || a.toNat % 2 ^ (ctl.toNat % 8) != 0 then (s, -1, [])
        else ((s.setWpt g n (watchOf a ctl)).noteWpt x.id g n true).done
  | _ => s
def execClrwp (s : State) : Host.Outcome State Fault Refusal :=
  .next <| match s.turn with
  | .event (.clrwp k name n) => s.command k 13 fun s x =>
      match s.byName x name with
      | none => (s, -3, [])
      | some (g, _) => if n > 3 then (s, -1, []) else ((s.setWpt g n {}).noteWpt x.id g n false).done
  | _ => s

/-- Whether a copy owns the line of a record ring's header. -/
def State.headerOwned (s : State) (c : CKey) (base : Nat) : Bool := (s.cellsAt c base (List.replicate 64 0)).any s.ownedCells
/-- The header of a record ring as its configuration leaves it (R380). -/
def State.ringHeader (s : State) (c : CKey) (base : Nat) : State :=
  if base = 0 then s
  else match s.cellsAt c base (leBytes 16 0 ++ leBytes 4 (s.ctx c).proc.toNat ++ leBytes 4 (s.ctx c).thr.toNat ++ leBytes 40 0) with
    | some cells => s.extWrite c 5 base cells
    | none => s
def execSample (s : State) : Host.Outcome State Fault Refusal :=
  .next <| match s.turn with
  | .event (.sample k c n base cap timed) => s.onFree (.sample k c n base cap timed) c base 64 <| s.command k 14 fun s x => s.onCtx x c
      (if n > 16 || base % 64 != 0 || base ≥ 2 ^ 56 || cap > 20 then (s, -1, [])
       else ((s.updCtx c fun y => { y with fin := { base, cap, n, timed } }).ringHeader c base).done)
  | _ => s
def execTrace (s : State) : Host.Outcome State Fault Refusal :=
  .next <| match s.turn with
  | .event (.trace k c base cap) => s.onFree (.trace k c base cap) c base 64 <| s.command k 15 fun s x => s.onCtx x c
      (if base % 64 != 0 || base ≥ 2 ^ 56 || cap > 20 then (s, -1, [])
       else ((s.updCtx c fun y => { y with trace := { base, cap } }).ringHeader c base).done)
  | _ => s
def execCounters (s : State) : Host.Outcome State Fault Refusal :=
  .next <| match s.turn with
  | .event (.counters k c) => s.command k 16 fun s x => s.onCtx x c
      (s, 0, (List.range 14).flatMap fun i => leBytes 8 ((s.ctx c).counters.get 0 i).toNat)
  | _ => s

/-! ## Breakpoints (R374) -/

/-- The lowest breakpoint of an attached context that matches an address of a stream of a group. -/
def State.bpAt (s : State) (g : GKey) (st : Stream) (pc : DWord) : Option Nat :=
  if (s.ctx g.b.r.c).attached.isNone then none
  else ((s.ctx g.b.r.c).bps.filter fun p => p.2.addr == pc && decide (p.2.st = st) &&
      (Selector.hits p.2.sel s (baseKey g))).foldl (fun (m : Option Nat) p => some (m.elim p.1 (min p.1))) none
/-- The breakpoint at which a split's next scalar instruction, its lane head, a sequencer stops. -/
def State.scalarBp (s : State) (g : GKey) (e : Nat) : Option Nat :=
  if (s.group g).passBp.contains e then none else s.bpAt g .scalar (s.split g e).pc
def State.laneBp (s : State) (g : GKey) (e : Nat) : Option Nat :=
  if (s.group g).passBp.contains (e + 5) then none else s.bpAt g .lane (s.head g e).pc
def State.seqBp (s : State) (b : BKey) : Option Nat :=
  if (s.seq b).passBp then none else s.bpAt ⟨b, s.firstVec b, 0⟩ .matrix (s.seq b).pc
/-- BREAKPOINT_MATCH: the agent stops before the instruction, which its next issue does not match again. A
continuation at a breakpoint issues nothing until its fork resolves. -/
def execBreakpointMatch (s : State) : Host.Outcome State Fault Refusal :=
  .next <| match s.turn with
  | .event (.breakpointMatch g e n st) =>
    match st with
    | .scalar =>
      if g.sh = 0 ∧ s.scalarBp g e = some n then
        (s.updGroup g fun x => { x with passBp := e :: x.passBp }).halt g e 1 0 0 n
      else s
    | .lane =>
      if g.sh = 0 ∧ s.laneBp g e = some n then
        (s.updGroup g fun x => { x with passBp := (e + 5) :: x.passBp }).halt g e 1 0 0 n
      else s
    | .matrix =>
      if s.seqBp g.b = some n then
        let s := (s.updSeq g.b fun q => { q with passBp := true }).haltSeq g.b 1 n
        match (s.ctx g.b.r.c).attached with
        | some (sess, true) => s.haltRest g.b.r.c sess
        | _ => s
      else s
  | _ => s

end Sys2Proof.Machine
end

