-- ==== Sys2Proof/Machine/Ports.lean ====
section
/-! DEFINITION. The network ports: packets of flows and their acknowledgements, Keep request messages, migration,
and PTP time (R358 to R365). -/

namespace Sys2Proof.Machine

/-! ## Receiving (R359, R361) -/

/-- What becomes of a packet whose turn it is. -/
inductive PktEnd where
  | ok (s : State)
  | refused
  | wait
/-- The saved record of a block. -/
def State.savedOf (s : State) (b : BKey) : Option SavedBlock := (s.region b.r).saved.find? fun k => decide (k.b = b)
/-- A packet performed: refused with nothing written, waiting for its page, or written to the bounce ring, to
scratch or to memory. Window 0 carries Keep request messages, whose bytes the hub gathers in their flow's order (R362). -/
def State.packet (s : State) (port : Nat) (p : Packet) : PktEnd :=
  let n := p.data.length
  let e := winEnt (s.ports.get 0 (port * 4096 + p.flow.win))
  if p.flow.win = 0 then
    let r := s.rflows.get {} p.flow
    let new : RFlow := { r with partial_ := r.partial_ ++ p.data }
    .ok { s with rflows := s.rflows.put p.flow new }
  else if p.flow.win ≥ 4096 || !e.valid || !e.w || p.off + n > e.pages * 4096 || (s.ctxs.get? e.c).isNone then .refused
  else if e.scr then
    let blk : Option (Block × Bool) := match s.blocks.get? e.block with
      | some x => if x.ended then none else some (x, false)
      | none => (s.savedOf e.block).map fun k => (k.blk, true)
    match blk with
    | none => .refused
    | some (x, saved) =>
      if !x.scratchOk p.off n then .refused
      else if e.bounce || saved then .ok (s.updCtx e.c fun y => { y with bounce := y.bounce ++ [{ va := p.off, scr := some e.block, data := p.data }] })
      else
        let cells := (Loc.span (.scr e.block p.off) n).zip p.data
        if s.ownedCells cells then .wait else .ok (s.extScratch e.block p.off cells)
  else
    let va := e.base + p.off
    match findPage (s.ctx e.c).pages va with
    | none => .refused
    | some q =>
      if !q.w || q.peer.isSome then .refused
      else if e.bounce then .ok (s.updCtx e.c fun y => { y with bounce := y.bounce ++ [{ va, data := p.data }] })
      else match s.cellsAt e.c va p.data with
        | some cells => if s.ownedCells cells then .wait else .ok ((s.extWrite e.c 1 va cells).l2Lines e.c (cells.map fun w => w.1.line))
        | none => if q.res then .refused else .wait

/-- The held packets of a flow performed in sequence order, up to a gap or one that waits. -/
def State.drainFlow (s : State) (f : FlowId) : Nat → State
  | 0 => s
  | n + 1 =>
    let r := s.rflows.get {} f
    match r.held.find? fun p => p.2.seq == r.next with
    | none => s
    | some p =>
      let seq := p.2.seq
      let after (s : State) (ok : Bool) : State :=
        let r := s.rflows.get {} f
        let left : RFlow :=
          { r with
            next := r.next + 1
            held := r.held.filter fun q => q.2.seq != seq
            refused := (if ok then [] else [seq]) ++ r.refused.filter (· != seq) }
        { s with rflows := s.rflows.put f left, outs := s.outs ++ [Out.ack f seq ok] }
      match s.packet p.1 p.2 with
      | .wait => s
      | .refused => (after s false).drainFlow f n
      | .ok t => (after t true).drainFlow f n
/-- Whether a flow's next packet is held and can be performed or refused now. -/
def State.flowReady (s : State) (f : FlowId) : Bool :=
  let r := s.rflows.get {} f
  match r.held.find? fun p => p.2.seq == r.next with
  | none => false
  | some p => match s.packet p.1 p.2 with
    | .wait => false
    | _ => true
/-- Whether a port takes a packet: 4 to 4,096 bytes, a multiple of 4, within one 4 KiB of its destination (R358). -/
def packetOk (p : Packet) : Bool := 4 ≤ p.data.length && p.data.length % 4 == 0 && p.off % 4096 + p.data.length ≤ 4096
/-- NETWORK_PACKET_RECEIVE: what is no packet of R358 is dropped; at most 256 numbers ahead; one whose turn has passed is answered again as it was
(DEDUCED, log entry 29). -/
def execNetworkPacketReceive (s : State) : Host.Outcome State Fault Refusal :=
  .next <| match s.turn with
  | .event (.networkPacketReceive port p) =>
    let r := s.rflows.get {} p.flow
    let d := (p.seq - r.next).toNat
    if !packetOk p then s
    else if d ≥ 2 ^ 31 then { s with outs := s.outs ++ [Out.ack p.flow p.seq (!r.refused.contains p.seq)] }
    else if d > 256 then s
    else
      let held := if r.held.any fun q => q.2.seq == p.seq then r.held else r.held ++ [(port, p)]
      let new : RFlow := { r with held := held }
      ({ s with rflows := s.rflows.put p.flow new }).drainFlow p.flow (held.length + 1)
  | _ => s

/-! ## Sending (R359 to R361) -/

/-- A packet of a flow has its answer: its command waits for one less, and notes a refusal as the access
fault of its destination. -/
def State.answer (s : State) (f : FlowId) (seq : BitVec 32) (ok : Bool) : State :=
  let fl := s.sflows.get {} f
  match fl.sent.find? fun x => x.1.seq == seq with
  | none => s
  | some (_, cl, id, va) =>
    let left : SFlow := { fl with sent := fl.sent.filter fun x => x.1.seq != seq, retries := 0 }
    let s : State := { s with sflows := s.sflows.put f left }
    let worse (c : CopyCmd) : Option FaultInfo :=
      if ok then c.fault
      else
        let new : FaultInfo := { kind := 5, addr := va, extra := c.id }
        match c.fault with
        | some x => if x.addr ≤ va then some x else some new
        | none => some new
    s.updCluster cl fun x => { x with copyQ := x.copyQ.map fun c =>
      if c.id = id then { c with packets := c.packets.filter (· != (f, seq)), fault := worse c } else c }
def execAckReceive (s : State) : Host.Outcome State Fault Refusal :=
  .next <| match s.turn with
  | .event (.ackReceive f seq ok) => s.answer f seq ok
  | _ => s
/-- FLOW_RETRY_LIMIT (R359): a flow with unacknowledged packets ends with an error: each counts as refused, and nothing more is sent in it
(DESIGN CHOICE, log entry 95). -/
def execFlowRetryLimit (s : State) : Host.Outcome State Fault Refusal :=
  .next <| match s.turn with
  | .event (.flowRetryLimit f) =>
    let sent := (s.sflows.get {} f).sent
    if sent.isEmpty then s
    else
      let s := sent.foldl (fun s x => s.answer f x.1.seq false) s
      let ended : SFlow := { s.sflows.get {} f with dead := true }
      { s with sflows := s.sflows.put f ended }
  | _ => s
def execPacketRetransmit (s : State) : Host.Outcome State Fault Refusal :=
  .next <| match s.turn with
  | .event (.packetRetransmit f seq) =>
    let fl := s.sflows.get {} f
    match fl.sent.find? fun x => x.1.seq == seq with
    | none => s
    | some x =>
      let new : SFlow := { fl with retries := fl.retries + 1 }
      { s with sflows := s.sflows.put f new, outs := s.outs ++ [Out.packet (Config.portOf f.dstDev) x.1] }
  | _ => s

/-- KEEP_REQUEST_MESSAGE (R362): the hub delivers a whole message of a flow's window 0 to the Keep's queue, in the flow's order; which bytes
are one message is the Keep's format (DESIGN CHOICE, log entry 96). Work for a context comes by launch, and the message is then an external
input of its ordered regions. -/
def execKeepRequestMessage (s : State) : Host.Outcome State Fault Refusal :=
  .next <| match s.turn with
  | .event (.keepRequestMessage f bytes work) =>
    let r := s.rflows.get {} f
    if f.win != 0 || bytes.isEmpty || !bytes.isPrefixOf r.partial_ then s
    else
      let left : RFlow := { r with partial_ := r.partial_.drop bytes.length }
      let s : State := { s with rflows := s.rflows.put f left, keepQueue := s.keepQueue ++ [(f, bytes)] }
      match work with
      | some (c, va) => (s.tellOrdered c none { kind := 2, target := va, data := bytes }).keepLaunch c va
      | none => s
  | _ => s

/-! ## Migration (R363, R364) -/

/-- A record of a stream sealed under the next counter. -/
def State.sendRecord (s : State) (stream : BitVec 32) (kind own va : Nat) (data : List Byte) : State :=
  let m := s.migrations.get { c := ⟨0, 0⟩ } stream
  let nonce : BitVec 96 := stream ++ BitVec.ofNat 64 m.ctr
  let new : Migration := { m with ctr := m.ctr + 1 }
  { s with
    migrations := s.migrations.put stream new
    outs := s.outs ++ [Out.record stream (BitVec.ofNat 64 m.ctr) (Config.gcmSeal m.key nonce (Config.migrationRecord kind own va data))] }
/-- The contents of a page, wherever they are. -/
def State.pageBytesOf (s : State) (p : Page) : List Byte :=
  (List.range (Page.size p)).map fun i =>
    if p.res then s.rawByte (.mem (cellOf (p.frame * 4096 + i))) else Tab.get p.away 0 i
/-- The dirty frames of a page. -/
def State.dirtyFrames (s : State) (p : Page) : List Nat := if p.res then (Page.frames p).filter s.dirty.contains else []
/-- Whether a round resends a page: it has been written since the last, or has lost its frame with what was written (R363). -/
def State.resends (s : State) (c : CKey) (p : Page) : Bool :=
  !(s.dirtyFrames p).isEmpty || s.migrations.any fun m => decide (m.2.c = c) && m.2.again.contains p.va
/-- The pages that a round resends; their dirty bits are cleared. -/
def State.dirtyPages (s : State) (c : CKey) : State × List Page :=
  let ps := (s.ctx c).pages.filter (s.resends c)
  let frames := ps.flatMap s.dirtyFrames
  ({ s with
      dirty := s.dirty.filter fun x => !frames.contains x
      migrations := s.migrations.map fun m => if m.2.c = c then (m.1, { m.2 with again := [] }) else m }, ps)
def State.sendPages (s : State) (stream : BitVec 32) (ps : List Page) : State :=
  ps.foldl (fun s p => s.sendRecord stream 1 0 p.va (s.pageBytesOf p)) s
/-- Whether a migration has a step to make: not while the context still drains. -/
def State.migrateReady (s : State) (stream : BitVec 32) : Bool :=
  match s.migrations.get? stream with
  | some m => !m.recv && !m.sent && (!m.freeze || (s.blocksOn m.c true []).all s.drained)
  | none => false

/-- MIGRATION (R363): each side verifies the other's signed share, answers with its own, and notes the key (DEDUCED, log entry 92); the
receiving side then waits; the sending side sends every page, then rounds of dirty pages, then freezes the context and sends the rest. -/
def execMigration (s : State) : Host.Outcome State Fault Refusal :=
  .next <| match s.turn with
  | .event (.migration c stream offer dst) =>
    match s.migrations.get? stream with
    | none =>
      let recv := decide (dst = Config.deviceId)
      if !Config.rsaVerify offer.key (Config.sha512 offer.share) offer.sig || (!recv && (s.ctxs.get? c).isNone) then s
      else
        let secret := Config.random256 s.free
        let share := Config.keyShare secret
        let m : Migration := { c, key := Config.keyAgree secret offer.share, peer := offer.key, dst, recv, round := if recv then 0 else 1 }
        let s : State :=
          { s with
            free := s.free + 1
            outs := s.outs ++ [Out.offer stream share (Config.deviceSign (Config.sha512 share))]
            migrations := s.migrations.put stream m }
        if recv then s else s.sendPages stream (s.ctx c).pages
    | some m =>
      if m.recv || m.sent then s
      else if !m.freeze then
        let (s, ps) := s.dirtyPages c
        let s := s.sendPages stream ps
        let last := decide (ps.length ≤ 64) || m.round ≥ 16
        let upd (x : Migration) : Migration := { x with round := x.round + 1, freeze := last }
        let s : State := { s with migrations := s.migrations.upd stream upd }
        if last then s.stopBlocks (s.blocksOn c true []) false else s
      else
        match s.vacateAll (s.blocksOn c true []) with
        | none => s
        | some s =>
          let bytes := s.saveImage c { whole := true } []
          let s := s.putAway c bytes
          let (s, ps) := s.dirtyPages c
          let s := (s.sendPages stream ps).sendRecord stream 2 0 0 bytes
          let s := (s.ctx c).bounce.foldl (fun s w => match w.scr with
            | none => s.sendRecord stream 3 0 w.va w.data
            | some b => s.sendRecord stream 4 (b.r.id * 2 ^ 32 + b.n) w.va w.data) s
          let upd (x : Migration) : Migration := { x with sent := true }
          { s with migrations := s.migrations.upd stream upd }
  | _ => s

/-- What a received record's message adds to what the stream has brought: a page, in place of an earlier one at its
address; the save image; a held write, which goes to its page's contents, since nothing of the context runs, or waits
for the scratch of its block (R340, R363). -/
def Migration.take (m : Migration) (msg : List Byte) : Migration :=
  match Config.migrationPage msg with
  | some p => { m with pages := { p with res := false } :: m.pages.filter fun q => q.va != p.va }
  | none => match Config.migrationImage msg with
    | some bytes => { m with image := bytes }
    | none => match Config.migrationBounce msg with
      | none => m
      | some w => match w.scr with
        | some b => { m with bounce := m.bounce ++ [{ w with scr := some { b with r := { b.r with c := m.c } } }] }
        | none =>
          let cells := (List.range w.data.length).zip w.data
          { m with pages := m.pages.map fun p =>
              { p with away := cells.foldl (fun away x =>
                  if Page.holds p (w.va + x.1) then Tab.put away (w.va + x.1 - p.va) x.2 else away) p.away } }
/-- The context of a received stream made and restored, unless the restore's status is not 0 (R364). -/
def State.arrive (s : State) (m : Migration) : Option State :=
  let new : Context := { pages := m.pages, absent := true, bounce := m.bounce }
  match parseImage (readIn m.image) m.image.length (m.image.length / 16 + 1) 0 [] with
  | .ok bytes =>
    let (t, k) := ({ s with ctxs := s.ctxs.put m.c new } : State).restore m.c bytes
    if k = 0 then some t else none
  | _ => none

/-- MIGRATION_RECORD_RECEIVE: each tag is verified first; a failure discards the stream; after the last record the
context is restored, and its success reported under the device identity key. -/
def execMigrationRecordReceive (s : State) : Host.Outcome State Fault Refusal :=
  .next <| match s.turn with
  | .event (.migrationRecordReceive c stream ctr bytes tag last) =>
    match s.migrations.get? stream with
    | none => s
    | some m =>
      let nonce : BitVec 96 := stream ++ ctr
      if !m.recv || m.c ≠ c then s
      else if ctr.toNat != m.ctr || !Config.gcmVerify m.key nonce bytes tag then { s with migrations := s.migrations.del stream }
      else
        let new : Migration := { m.take (Config.gcmOpen m.key nonce bytes) with ctr := ctr.toNat + 1 }
        if !last then { s with migrations := s.migrations.put stream new }
        else
          let s : State := { s with migrations := s.migrations.del stream }
          if (s.ctxs.get? c).isSome || s.ctxs.length ≥ 1024 then s
          else
            match s.arrive new with
            | none => s
            | some s => { s with outs := s.outs ++ [Out.report (bytesOf (Config.deviceSign (Config.sha512 (bytesOf stream))))] }
  | _ => s

/-! ## Time (R365) -/

/-- PTP_MESSAGE: the chosen port's time slews device time, by at most 100 ppm and never backward, and the Keep reports the offset; the
first port to be heard is the one chosen until the Keep chooses another (DESIGN CHOICE, log entry 30). -/
def execPtpMessage (s : State) : Host.Outcome State Fault Refusal :=
  .next <| match s.turn with
  | .event (.ptpMessage port time) =>
    if s.ptp.any (· != port) then s
    else
      let now := s.deviceNs
      let (k, s) := s.choose 101
      { s.holdTime with
        outs := s.outs ++ [Out.offset ((time : Int) - now)]
        ptp := some port
        slew := if now < time then (k : Int) else if time < now then -(k : Int) else 0 }
  | _ => s

end Sys2Proof.Machine
end

