-- ==== Sys2Proof/Machine/Keep.lean ====
section
/-! DEFINITION. The Keep's writes of registers and tables, and the platform: boot, firmware, attestation, monitors,
maintenance, soft errors; and words with no instruction (R34, R199, R209, R210, R293, R320 to R322, R338, R347,
R348, R354, R361, R385 to R391). -/

namespace Sys2Proof.Machine

/-! ## Words with no instruction (R34) -/

/-- The operand fields of a lane word that names no instruction. -/
def noArgs : LArgs :=
  { h := false, m := 0, ty := .i32, rm := .rne, sat := false, vd := 0, va := 0, bk := .vreg, b := 0, vc := 0, ext := 0 }
/-- A word of an unassigned encoding, in the stream whose turn it is. -/
def execUnassignedEncoding (s : State) : Host.Outcome State Fault Refusal :=
  match s.turn with
  | .lane _ _ => laneIssue .unassignedEncoding noArgs false (fun s _ => .ok s []) s
  | .seq b => .next (s.seqRaise b (s.seq b).pc { kind := 1 } .word)
  | _ => scalarOp false {} (fun s _ _ => .next s) s

/-! ## Contexts and mappings (R192, R196, R315, R320) -/

/-- Whether two mappings overlap. -/
def Page.meets (p q : Page) : Bool := p.va < q.va + Page.size q && q.va < p.va + Page.size p

/-- A context created: one that exists, a 1,025th, and one beyond the virtual function's allowance are refused. -/
def State.createCtx (s : State) (c : CKey) (sys : Bool) (proc thr : BitVec 32) : State :=
  if s.ctxs.length ≥ 1024 || (s.vf c.vf).allowance.any ((s.ctxs.filter fun p => p.1.vf == c.vf).length ≥ ·) || (s.ctxs.get? c).isSome || c.vf ≥ 64 || c.id = 0 || c.id ≥ 65536 then s
  else
    let new : Context := { sys, proc, thr }
    { s with ctxs := s.ctxs.put c new }
/-- All of a context that is in the device removed. -/
def State.dropCtx (s : State) (c : CKey) : State :=
  let s := (s.shootdown c 0 (2 ^ 64)).forget c fun _ => true
  { s with
    ctxs := s.ctxs.del c
    regions := s.regions.filter fun p => decide (p.1.c ≠ c)
    blocks := s.blocks.filter fun p => decide (p.1.r.c ≠ c)
    groups := s.groups.filter fun p => decide (p.1.b.r.c ≠ c)
    images := s.images.filter fun i => decide (i.c ≠ c)
    moves := s.moves.filter fun m => decide (m.c ≠ c) }
/-- A context destroyed, once its root regions have completed and their ids are released (R320); not the copy of one that is leaving
(R364). -/
def State.destroyCtx (s : State) (c : CKey) : State :=
  if (s.migrations.any fun m => !m.2.recv && decide (m.2.c = c)) || s.regions.any fun p => decide (p.1.c = c) && (!p.2.ended || !p.2.gone) then s else s.dropCtx c

/-- The moves of a context's pages given up. -/
def State.dropMoves (s : State) (c : CKey) (sel : Page → Bool) : State :=
  { s with moves := s.moves.filter fun m => !(decide (m.c = c) && (findPage (s.ctx c).pages m.va).any sel) }
/-- A change of mappings made at once: a mapping replaces those that it overlaps. -/
def State.changePages (s : State) (w : RegWrite) : State :=
  match w with
  | .map c p => ((s.dropMoves c (Page.meets p)).sendAgain c p.va).updCtx c fun x => { x with pages := p :: x.pages.filter fun q => !Page.meets p q }
  | .unmap c va =>
    match findPage (s.ctx c).pages va with
    | some p => ((s.dropMoves c (·.va == p.va)).shootdown c p.va (p.va + Page.size p)).updCtx c fun x => { x with pages := x.pages.filter fun q => q.va != p.va }
    | none => s
  | .reclaim c va =>
    match findPage (s.ctx c).pages va with
    | some p => if p.res && p.peer.isNone then s.takePage c p else s
    | none => s
  | .moved c va => s.endMove c va
  | _ => s
/-- The address of the page that a change of mappings touches. -/
def pageOf : RegWrite → Nat
  | .map _ p => p.va
  | .unmap _ va | .reclaim _ va | .moved _ va => va
  | _ => 0
/-- Whether the Keep makes a mapping (R191): its page is aligned, and its frames fit it beside the pages that stay. -/
def State.mapFits (s : State) (c : CKey) (p : Page) : Bool :=
  let left := s.updCtx c fun x => { x with pages := x.pages.filter fun q => !Page.meets p q }
  p.psize < 3 && p.va % Page.size p == 0 && p.va + Page.size p ≤ 2 ^ 56 && (!p.res || p.peer.isSome || left.frameFits p p.frame)
/-- The room that a mapping needs made, beside the frames that it replaces (R209). -/
def State.mapRoom (s : State) (c : CKey) (w : RegWrite) : State × Bool :=
  match w with
  | .map _ p =>
    let freed := (s.ctx c).pages.foldl (fun m q => if Page.meets p q then m + Page.framesHeld q else m) 0
    if Page.framesHeld p ≤ freed then (s, true) else s.roomFor c.vf (Page.framesHeld p - freed)
  | _ => (s, true)
/-- A change of mappings: of a page that running ordered regions map it waits for their commits; a new mapping is an
input of theirs. -/
def State.mapWrite (s : State) (c : CKey) (w : RegWrite) : State :=
  let refused := match w with
    | .map _ p => !s.mapFits c p
    | _ => false
  if (s.ctxs.get? c).isNone || refused then s
  else match s.mapRoom c w with
  | (s, false) => { s with inputs := s.inputs ++ [.registerWrite w] }
  | (s, true) =>
  if !s.runsOrdered c then ((s.updCtx c fun x => { x with later := x.later.erase w }).changePages w).olRetryAll
  else match w with
    | .map _ p =>
      if (s.ctx c).pages.any (Page.meets p) then s.updCtx c fun x => { x with later := x.later ++ [w] }
      else ((s.sendAgain c p.va).setPages c fun ps => p :: ps).tellOrdered c none { kind := 4, target := p.va, page := some (c, p.va) }
    | _ => s.updCtx c fun x => { x with later := x.later ++ [w] }

/-! ## The L2 tables (R293) -/

/-- The header of an L2 image. -/
def l2Header : List Byte :=
  leBytes 4 0x68597A4C ++ leBytes 2 1 ++ leBytes 2 16384 ++ revisionBytes ++ leBytes 2 255 ++ List.replicate 6 (0 : Byte) ++
    (List.range 8).flatMap fun t => leBytes 4 (0x10 + 0x10 * t + 256 * 0x10 + 65536)
def State.l2Image (s : State) (vf : Nat) : List Byte :=
  l2Header ++ List.replicate (0x400 - l2Header.length) 0 ++
    ((List.range 8192).map fun i => BitVec.ofNat 8 ((s.vf vf).l2.get 0 i)) ++ List.replicate (16384 - 0x400 - 8192) 0
/-- An L2 image loaded, table by table. -/
def State.loadL2 (s : State) (vf : Nat) (img : List Byte) : State :=
  let head := imgNat img 0 4 == 0x68597A4C && imgNat img 4 2 == 1 && imgNat img 6 2 == 16384
  let table (m : SMap Nat) (t : Nat) : SMap Nat :=
    let d := 32 + 4 * t
    let o := imgNat img d 1 * 64
    let n := imgNat img (d + 1) 1 * 64
    let ok := head && (imgNat img 24 2).testBit t && imgNat img (d + 2) 1 == 1 && n == 1024 && 0x400 ≤ o && o + n ≤ 0x4000
    (List.range 1024).foldl (fun m i => m.put (1024 * t + i) (if ok then imgNat img (o + i) 1 % 8 else 0)) m
  s.updVf vf fun x => { x with l2 := (List.range 8).foldl table x.l2 }

/-! ## Code objects (R348) -/

/-- TRANSLATION_COMPLETE: the translation is cached, and the image that waits for it is selected; or fsd-xl refuses the image (R350). -/
def execTranslationComplete (s : State) : Host.Outcome State Fault Refusal :=
  .next <| match s.turn with
  | .event (.translationComplete c k x) =>
    match (s.ctx c).object k with
    | some o =>
      if !o.busy then s
      else if o.hviOk then
        { (s.updObject c k fun o => { o with busy := false, use := some (placeXl x o.xlAt) }) with translated := (o.hvi, x) :: s.translated }
      else s.updObject c k fun o => { o with busy := false, refused := true }
    | none => s
  | _ => s

/-- A code object loaded for a context; one that the Keep refuses is not. -/
def State.loadObject (s : State) (c : CKey) (base : Nat) (bytes : List Byte) (kernels : List Nat) (xlAt : Nat) : State :=
  match parseObject base bytes kernels xlAt with
  | none => { s with outs := s.outs ++ [Out.objectRefused c base] }
  | some o => if (s.ctxs.get? c).isNone then s else s.updCtx c fun x => { x with objects := o :: x.objects.filter (·.base != base) }
/-- Code added to the scalar section of images of a context. -/
def Context.addCode (x : Context) (which : CodeObj → CodeImg → Bool) (lo len : Nat) : Context :=
  let grow (o : CodeObj) (m : CodeImg) : CodeImg := if which o m then { m with scal := m.scal ++ [⟨lo, len⟩] } else m
  { x with objects := x.objects.map fun o => { o with use := o.use.map (grow o) } }
/-- The code of a range superseded by a new generation (R354, R355). -/
def State.supersede (s : State) (c : CKey) (lo hi newAt newLen : Nat) (oldMaps newMaps : List Byte) : State :=
  match mapSites lo oldMaps, mapSites newAt newMaps with
  | some old, some new =>
    if (s.ctxs.get? c).isNone || s.runsOrdered c then s
    else
      let later (y : Gen) : Gen :=
        if y.new.any fun q => lo ≤ q.addr && q.addr < hi then { y with new, later := y.later + 1 } else y
      s.updCtx c fun x =>
        { x.addCode (fun _ m => m.scal.any fun t => t.lo < hi && lo < t.lo + t.len) newAt newLen with
          gens := { lo, hi, old, new } :: x.gens.map later
          points := new ++ x.points }
  | _, _ => s

/-! ## Schedules, saves and restores by the Keep (R321, R322, R338) -/

/-- Blocks saved once they have drained; until then the Keep's request waits. -/
def State.saveOrWait (s : State) (bs : List BKey) (ev : Event) (k : State → State) : State :=
  match s.vacateAll bs with
  | some s => k s
  | none => { s with inputs := s.inputs ++ [ev] }
/-- A context's thread descheduled or scheduled; a gang's slice that has ended is over. -/
def State.schedule (s : State) (c : CKey) (on : Bool) : State :=
  if (s.ctxs.get? c).isNone then s
  else if on then s.scheduleOn c
  else
    let past := s.gangEnds c
    let s := s.updCtx c fun x => { x with scheduled := false, gang := if past then none else x.gang }
    let bs := s.blocksOn c true []
    let s := s.stopBlocks bs false
    (s.vacateAll bs).getD s
/-- Whether the blocks of a descheduled context can be saved now. -/
def State.descheduleReady (s : State) (c : CKey) : Bool :=
  s.gangEnds c || (!(s.ctx c).scheduled && !(s.blocksOn c true []).isEmpty && (s.blocksOn c true []).all s.drained)
/-- A request of a Keep thread, with the statuses of the instructions (R322): it takes its place behind the earlier ones of its context,
and waits for its turn. -/
def State.keepRequest (s : State) (w : RegWrite) (vf : Nat) (r : SysReq) (told : State → CKey → Int → State)
    (k : State → CKey → Option (List BKey) → State) : State :=
  let c : CKey := ⟨vf, r.ctx⟩
  if !r.ok then told s c (-1)
  else if (s.ctxs.get? c).isNone then told s c (-3)
  else
    let s := s.enterSys c (.keep w)
    match s.sysTurn c (.keep w) with
    | some job => k s c job
    | none => { s with inputs := s.inputs ++ [.registerWrite w] }
/-- A context saved, in whole or on some cores, for a Keep thread (R322, R338). -/
def State.keepSave (s : State) (vf : Nat) (req : List Byte) : State :=
  let w : RegWrite := .save vf req
  let r := sysReq req
  let told (s : State) (c : CKey) (n : Int) (used : Nat) (bytes : List Byte) : State := { s with outs := s.outs ++ [Out.saved c n used bytes] }
  let on (s : State) (c : CKey) (bs : List BKey) : State :=
    if !bs.all s.offCores then { s with inputs := s.inputs ++ [.registerWrite w] }
    else
      let (bytes, s) := (s.leaveSys c (.keep w)).endSave c r bs
      (told s c 0 bytes.length bytes).awayIf c r bytes
  s.keepRequest w vf r (fun s c n => told s c n 0 []) fun s c job => match job with
    | some bs => on s c bs
    | none =>
      let bs := s.blocksOn c r.whole r.cores
      let n := s.saveSize c r bs
      if n > r.length then told (s.leaveSys c (.keep w)) c (-2) n [] else on (s.beginSave c (.keep w) r bs) c bs
/-- An image loaded for a Keep thread (R322, R338). -/
def State.keepLoad (s : State) (vf : Nat) (req image : List Byte) : State :=
  let w : RegWrite := .load vf req image
  let r := sysReq req
  let told (s : State) (c : CKey) (n : Int) : State := { s with outs := s.outs ++ [Out.loaded c n] }
  s.keepRequest w vf r told fun s c _ =>
    match (s.leaveSys c (.keep w)).loadImage c (readIn image) (min r.length image.length) with
    | .status s n => told s c n
    | .wait s => { s with inputs := s.inputs ++ [.registerWrite w] }
    | _ => { s with inputs := s.inputs ++ [.registerWrite w] }
/-- A context restored from its latest image by the Keep that has saved it; it waits for the pages of its bounce ring (R340, R388). -/
def State.keepRestore (s : State) (c : CKey) : State :=
  if !(s.ctx c).absent || s.leaving c then s
  else if (s.ctx c).bounce.all fun w => (s.bouncePlace c w).isSome then s.putBack c (s.images.find? fun i => decide (i.c = c))
  else { s with inputs := s.inputs ++ [.registerWrite (.restore c)] }

/-- The end of a migration that this device has sent: its copy is destroyed upon the signed report of the restore by the device that it
went to; if the migration has failed, the context is reloaded from its own image (R364). -/
def State.migrated (s : State) (stream : BitVec 32) (report : Option (BitVec 4096 × BitVec 4096)) : State :=
  match s.migrations.get? stream with
  | none => s
  | some m =>
    if m.recv || !m.sent then s
    else
      let past : State := { s with migrations := s.migrations.del stream }
      match report with
      | some (key, sig) => if key = m.peer ∧ Config.rsaVerify key (Config.sha512 (bytesOf stream)) sig then past.dropCtx m.c else s
      | none => past.keepRestore m.c

/-! ## REGISTER_WRITE -/

/-- An entry of a port's table as it is kept: its reserved bits stay zero (R361). -/
def winWord (v : BitVec 128) : BitVec 128 :=
  let v := v &&& ~~~(BitVec.ofNat 128 (2 ^ 29 + (2 ^ 25 - 1)))
  if v.getLsbD 28 then v &&& ~~~(BitVec.ofNat 128 (255 * 2 ^ 72)) else v
/-- Whether the Keep runs. -/
def State.keepRuns (s : State) : Bool := !s.platform.down.contains .keep

/-- The sum of a counter over the contexts of a virtual function, as the Keep keeps it (R384). -/
def State.vfCounter (s : State) (vf n : Nat) : Nat :=
  (s.ctxs.filter fun p => p.1.vf == vf).foldl (fun a p => a + (p.2.counters.get 0 n).toNat % 2 ^ 63) 0
/-- The waits of a context on lines that the Keep has published code through, made ready in ascending order of region, block and group
index: each completes in its turn (R356) (DEDUCED, log entry 91). -/
def State.wakeBound (s : State) (c : CKey) (lines : List Nat) : State :=
  let on (p : GKey × Group) : List (GKey × Nat) :=
    if decide (p.1.b.r.c ≠ c) || p.1.sh != 0 || s.ordered p.1 || p.2.ended || p.2.halted || s.stopped p.1.b (some p.1) then []
    else (p.2.ents.filter fun q => match q.2.st with
      | .parked (.wait _ cell _ _ _ _ _) => !q.2.susp && lines.contains (cell / 128)
      | _ => false).map fun q => (p.1, q.1)
  let rank (w : GKey × Nat) : Nat := ((w.1.b.r.id * 2 ^ 32 + w.1.b.n) * 64 + w.1.gid) * 8 + w.2
  let ins (l : List (GKey × Nat)) (w : GKey × Nat) : List (GKey × Nat) :=
    l.takeWhile (fun x => rank x ≤ rank w) ++ w :: l.dropWhile fun x => rank x ≤ rank w
  ((s.groups.flatMap on).foldl ins []).foldl (fun s w => s.readAgain w.1 w.2) s
/-- The end of a bind call (R356): the Keep stores the entry address, or 2, into the slot with a device-scope release, returns it in s2, and
makes the waits on the slot's line ready; it waits for the slot's page, for a copy that owns the line, and for a caller that is saved. -/
def State.bindDone (s : State) (w : RegWrite) (g : GKey) (e : Nat) (v r3 : DWord) : State :=
  let later : State := { s with inputs := s.inputs ++ [.registerWrite w] }
  if s.savedAway g then later
  else match (s.split g e).st with
  | .parked (.sysc 1) =>
    if (s.split g e).reply.isSome then s
    else
    let c := g.b.r.c
    let va := (s.getS g e 14).toNat
    match findPage (s.ctx c).pages va, s.cellsAt c va (leBytes 8 v.toNat) with
    | none, _ => s.takeReply g e v r3 none
    | some _, none => later
    | some _, some cells =>
      if s.ownedCells cells then s.holdInput (.registerWrite w)
      else
        let line := ((cells.map (·.1.line)).headD 0)
        let s := (s.syncAccess c .keep 192 5 false true false none none (line * 128)).1
        ((s.extWrite c 2 va cells).wakeBound c [line]).takeReply g e v r3 none
  | _ => s
/-- A write of the Keep. -/
def State.applyWrite (s : State) (w : RegWrite) : State :=
  match w with
  | .port p i v => if i < 4096 then { s with ports := s.ports.put (p * 4096 + i) (winWord v) } else s
  | .ctxCreate c sys proc thr => s.createCtx c sys proc thr
  | .ctxDestroy c => s.destroyCtx c
  | .map c _ | .unmap c _ | .reclaim c _ | .moved c _ => s.mapWrite c w
  | .store c va bytes => match s.cellsAt c va bytes with
    | some cells => if s.ownedCells cells then s.holdInput (.registerWrite w) else s.extWrite c 2 va cells
    | none => s
  | .frames vf g b =>
    if (s.vfs.filter fun p => p.1 != vf).foldl (fun n p => n + p.2.guaranteed) g > s.frames then s
    else ((s.updVf vf fun x => { x with guaranteed := g, burst := some b }).roomFor vf 0).1
  | .bind g e v r3 => s.bindDone w g e v r3
  | .flow f receives n =>
    if receives then
      let new : RFlow := { s.rflows.get {} f with next := n }
      { s with rflows := s.rflows.put f new }
    else
      let new : SFlow := { s.sflows.get {} f with next := n, dead := false }
      { s with sflows := s.sflows.put f new }
  | .ptpPort p => { s.holdTime with ptp := some p, slew := 0 }
  | .migrated stream report => s.migrated stream report
  | .dirtyWord d n =>
    let at_ (i : Nat) : Nat := d * 2 ^ 24 + 64 * n + i
    if d ≥ 8 || n ≥ 2 ^ 18 then s
    else
      { s with
        outs := s.outs ++ [Out.dirtyWord d n (BitVec.ofNat 64 (((List.range 64).filter fun i => s.dirty.contains (at_ i)).foldl (fun m i => m + 2 ^ i) 0))]
        dirty := s.dirty.filter fun x => !(at_ 0 ≤ x && x < at_ 64) }
  | .allowance vf n => s.updVf vf fun x => { x with allowance := some n }
  | .l2ways vf ways =>
    let new := (List.range 32).filter ways.contains
    let taken := (s.vfs.filter fun p => p.1 != vf).flatMap (·.2.ways)
    if new.any taken.contains || (taken ++ new).length ≥ 32 then s else s.updVf vf fun x => { x with ways := new }
  | .debugKey scope h => if scope < 64 || scope = 255 then { s with debugKeys := (scope, h) :: s.debugKeys } else s
  | .logging c on => if (s.ctxs.get? c).isSome then s.updCtx c fun x => { x with logging := on } else s
  | .replay c on =>
    if (s.ctxs.get? c).isNone || (s.ctx c).replay.isSome == on then s
    else if on then (s.updCtx c fun x => { x with replay := some x.log }).setBounce (fun e => decide (e.c = c)) true
    else
      let held := (s.ctx c).heldIn
      let s := s.updCtx c fun x => { x with replay := none, heldIn := [] }
      let s := held.foldl (fun s i => s.extWrite c i.kind i.target i.cells) s
      if (s.ctx c).absent then s
      else
        let waits (b : BKey) : Bool := (s.region b.r).saved.any fun k => decide (k.b = b)
        (s.replayBounce c).setBounce (fun e => decide (e.c = c) && !(e.scr && waits e.block)) false
  | .schedule c on => s.schedule c on
  | .save vf req => s.keepSave vf req
  | .load vf req image => s.keepLoad vf req image
  | .restore c => s.keepRestore c
  | .gang c start stop => if (s.ctxs.get? c).isSome then s.updCtx c fun x => { x with gang := some (start, stop) } else s
  | .tlbinv c lo hi => s.shootdown c lo hi
  | .launch c va => if (s.ctxs.get? c).isSome then s.keepLaunch c va else s
  | .releaseRoot r =>
    if (s.region r).ended && (s.region r).parent.isNone && (s.regions.get? r).isSome then s.updRegion r fun x => { x with gone := true } else s
  | .resetCounter c n => if (s.ctxs.get? c).isSome then s.updCtx c fun x => { x with counters := x.counters.put n 0 } else s
  | .supersede c lo hi newAt newLen old new => s.supersede c lo hi newAt newLen old new
  | .codeObject c base bytes kernels xlAt => s.loadObject c base bytes kernels xlAt
  | .unload c base => s.updCtx c fun x => { x with objects := x.objects.filter (·.base != base) }
  | .publish c k lo len => s.updCtx c fun x => x.addCode (fun o _ => o.kernels.contains k) lo len
  | .clockLimit n on => s.updCluster n fun x => { x with limited := on }
  | .l2load vf img => s.loadL2 vf img
  | .sampling c n base cap timed =>
    if (s.ctxs.get? c).isNone || n > 16 || base % 64 != 0 || base ≥ 2 ^ 56 || cap > 20 then s
    else if s.headerOwned c base then s.holdInput (.registerWrite w)
    else (s.updCtx c fun y => { y with fin := { base, cap, n, timed } }).ringHeader c base
  | .tracing c base cap =>
    if (s.ctxs.get? c).isNone || base % 64 != 0 || base ≥ 2 ^ 56 || cap > 20 then s
    else if s.headerOwned c base then s.holdInput (.registerWrite w)
    else (s.updCtx c fun y => { y with trace := { base, cap } }).ringHeader c base
  | .l2save vf => { s with outs := s.outs ++ [Out.l2image vf (s.l2Image vf)] }
def execRegisterWrite (s : State) : Host.Outcome State Fault Refusal :=
  .next <| match s.turn with
  | .event (.registerWrite w) => if s.keepRuns then s.applyWrite w else s
  | _ => s

/-! ## Boot, attestation, firmware (R386 to R388) -/

/-- Whether an image is signed by the vendor. -/
def FwImage.valid (i : FwImage) : Bool :=
  Config.sha512 (bytesOf i.key) == Config.vendorKeyHash && Config.rsaVerify i.key (Config.sha512 i.bytes) i.sig
/-- The register of a component's stage. -/
def stageOf : Component → Nat
  | .belfry => 0 | .die _ => 1 | .keep => 2
/-- An image measured into a register (DEDUCED, log entry 39). -/
def Platform.extend (p : Platform) (n : Nat) (i : FwImage) : Platform :=
  { p with meas := p.meas.put n (Config.sha512 (bytesOf (p.meas.get 0 n) ++ bytesOf (Config.sha512 i.bytes))) }
/-- An image that a component runs from now on. -/
def Platform.run (p : Platform) (c : Component) (i : FwImage) : Platform :=
  { p with
    images := (c, Config.sha512 i.bytes) :: p.images.filter fun x => decide (x.1 ≠ c)
    down := p.down.filter fun x => decide (x ≠ c) }
/-- The components in boot order, with the stage that verifies each. -/
def bootOrder : List (Nat × Option Component) :=
  (0, some .belfry) :: ((List.range 8).map fun d => (1, some (Component.die d))) ++ [(2, some .keep), (3, none)]
/-- The chain: each image is verified and measured, and started; a failed check stops the chain. -/
def bootChain (p : Platform) : List (Nat × Option Component) → List FwImage → Platform
  | (n, c) :: cs, i :: is =>
    let p := p.extend n i
    if !FwImage.valid i then p
    else
      let p := match c with
        | some c => p.run c i
        | none => p
      bootChain { p with stage := if cs.all (·.1 != n) then n + 1 else p.stage } cs is
  | _, _ => p
/-- BOOT: power-on. What is not started stays down; what waits outside stays so (DEDUCED, log entry 44). -/
def execBoot (s : State) : Host.Outcome State Fault Refusal :=
  .next <| match s.turn with
  | .event (.boot images) =>
    let p : Platform := { down := allComponents }
    { State.reset with
      inputs := s.inputs
      cycle := s.cycle
      timeAt := s.cycle
      free := s.free
      nextId := s.nextId
      turn := s.turn
      platform := bootChain p bootOrder images }
  | _ => s

/-- The attestation report. -/
def State.report (s : State) (nonce : BitVec 256) : List Byte :=
  let body := revisionBytes ++ bytesOf Config.serial ++ bytesOf nonce ++
    (List.range 4).flatMap fun n => bytesOf (s.platform.meas.get 0 n)
  body ++ bytesOf (Config.deviceSign (Config.sha512 body))
def execAttestationRequest (s : State) : Host.Outcome State Fault Refusal :=
  .next <| match s.turn with
  | .event (.attestationRequest nonce) =>
    if s.platform.down.contains .belfry then s else { s with outs := s.outs ++ [Out.report (s.report nonce)] }
  | _ => s

/-- The blocks on a fenced part. -/
def State.blocksOfPart (s : State) (p : Part) : List BKey :=
  (s.blocks.filter fun x => !x.2.ended && match p with
    | .cluster n => x.2.cluster == n
    | .die d => x.2.cluster / 6 == d).map (·.1)
/-- Guarantees cut until their sum is within the frames in service, of the highest virtual functions first (R209) (DESIGN CHOICE, log
entry 83). -/
def State.trimGuarantees (s : State) : State :=
  let sum := s.vfs.foldl (fun n p => n + p.2.guaranteed) 0
  let cut (a : Nat × SMap VFunc) (p : Nat × VFunc) : Nat × SMap VFunc :=
    (a.1 - p.2.guaranteed, (p.1, { p.2 with guaranteed := p.2.guaranteed - a.1 }) :: a.2)
  { s with vfs := (s.vfs.reverse.foldl cut (sum - s.frames, [])).2 }
/-- A part fenced: no block is admitted to it. -/
def State.fence (s : State) (p : Part) : State :=
  match p with
  | .cluster n => s.updCluster n fun x => { x with fenced := true }
  | .die d => if s.platform.fencedDies.contains d then s
    else ({ s with platform := { s.platform with fencedDies := d :: s.platform.fencedDies } }).trimGuarantees
/-- A part in service again; a die whose controller does not run stays fenced (R388). -/
def State.unfence (s : State) (p : Part) : State :=
  match p with
  | .cluster n => s.updCluster n fun x => { x with fenced := false }
  | .die d =>
    let off (ds : List Nat) : List Nat := ds.filter (· != d)
    { s with platform :=
        { s.platform with
          maint := off s.platform.maint
          fencedDies := if s.platform.down.contains (.die d) then s.platform.fencedDies else off s.platform.fencedDies } }

/-- A frame for a page that leaves a die: on a die in service, where no page lies, in the window that the page's attribute says
(R191) (DESIGN CHOICE, log entry 42); none while no frame is free. -/
def State.freeFrame (s : State) (p : Page) : Option Nat × State :=
  let dies := (List.range 8).filter fun d => !s.dieOut d
  let (k, s) := s.choose dies.length
  let used := s.usedFrames (fun _ => true) ++ s.moveFrames
  let at_ (d i : Nat) : Nat := if p.dieLocal then 2 ^ 39 + d * 2 ^ 24 + i * (Page.size p / 4096) else i * 8 + d
  let room := 2 ^ 24 / (Page.size p / 4096)
  let free (d : Nat) : Option Nat :=
    ((List.range (min room (used.length + 1))).find? fun i => (framesAt (at_ d i) (Page.size p)).all fun x => !used.contains x).map (at_ d)
  (((List.range dies.length).map fun i => dies.getD ((k + i) % dies.length) 0).findSome? free, s)
/-- Whether a page lies on a die. -/
def State.liesOn (s : State) (d : Nat) : Bool := s.ctxs.any fun c => c.2.pages.any fun p => (Page.frames p).any fun x => x / 2 ^ 24 == d
/-- The pages that lie on a die and neither move nor are given up. -/
def State.diePages (s : State) (d : Nat) : List (CKey × Page) :=
  s.ctxs.flatMap fun c => (c.2.pages.filter fun p => ((Page.frames p).any fun x => x / 2 ^ 24 == d) && !c.2.gives c.1 p &&
    !(s.moves.any fun m => decide (m.c = c.1) && m.va == p.va)).map fun p => (c.1, p)
/-- A page set moving off its die (R211). One of more than 4 KiB in the interleaved window lies on every die: the Keep takes its frames
(DESIGN CHOICE, log entry 42). Where no frame is free the victim of R209 gives one. -/
def State.leavePage (s : State) (c : CKey) (p : Page) : State :=
  let start (s : State) (f : Nat) : State :=
    { s.copyLines c p f (List.range (Page.size p / 128)) with moves := s.moves ++ [{ c, va := p.va, dest := f }] }
  if !p.dieLocal && p.psize != 0 then s.mapWrite c (.reclaim c p.va)
  else match s.freeFrame p with
    | (some f, s) => start s f
    | (none, s) => (s.sweepPage (s.victimTenant c.vf)).getD s
/-- The pages of a die set moving; a move to the die is begun again (R390). -/
def State.leaveDie (s : State) (d : Nat) : State :=
  let here (m : Move) : Bool := (findPage (s.ctx m.c).pages m.va).any fun p => (framesAt m.dest (Page.size p)).any fun x => x / 2 ^ 24 == d
  let s : State := { s with moves := s.moves.filter fun m => !here m }
  (s.diePages d).foldl (fun s x => if (findPage (s.ctx x.1).pages x.2.va).any (·.res) then s.leavePage x.1 x.2 else s) s
/-- Whether a component's images can be verified: by Belfry, by the die controllers, which run (R386). -/
def Platform.verifies (p : Platform) (c : Component) : Bool :=
  let up (c : Component) : Bool := !p.down.contains c
  match c with
  | .belfry => true
  | .die _ => up .belfry
  | .keep => up .belfry && (List.range 8).any fun d => up (.die d)
/-- An image measured, and, if it is valid and starts, run by its component; otherwise the component goes down (R388). -/
def State.install (s : State) (c : Component) (i : FwImage) : State :=
  let p := s.platform.extend (stageOf c) i
  let p := if FwImage.valid i && i.starts then p.run c i else { p with down := if p.down.contains c then p.down else c :: p.down }
  { s with platform := p }
/-- A component in service again: a die controller's die, if no maintenance holds it; the contexts that the Keep had saved. -/
def State.serve (s : State) (c : Component) : State :=
  if s.platform.down.contains c then s
  else match c with
    | .die d => if s.platform.maint.contains d then s else s.unfence (.die d)
    | .keep =>
      let cs := s.platform.saved
      cs.foldl (fun s c => s.keepRestore c) { s with platform := { s.platform with saved := [] } }
    | .belfry => s
/-- FIRMWARE_UPDATE: the die is fenced, vacated and freed of pages (R390), the sessions end, or the Keep saves every context; then the
image is verified and started. -/
def execFirmwareUpdate (s : State) : Host.Outcome State Fault Refusal :=
  .next <| match s.turn with
  | .event (.firmwareUpdate c i) =>
    if s.platform.down.contains c || !s.platform.verifies c then s
    else match c with
    | .belfry => (((s.sessions.map (·.id)).foldl (fun s n => s.endSession n) s).install c i).serve c
    | .die d =>
      let s := s.fence (.die d)
      let bs := s.blocksOfPart (.die d)
      (s.stopBlocks bs false).saveOrWait bs (.firmwareUpdate c i) fun s =>
        if s.liesOn d then { s.leaveDie d with inputs := (s.leaveDie d).inputs ++ [.firmwareUpdate c i] } else (s.install c i).serve c
    | .keep =>
      let cs := (s.ctxs.filter fun p => !p.2.absent).map (·.1)
      let bs := cs.flatMap fun k => s.blocksOn k true []
      (s.stopBlocks bs false).saveOrWait bs (.firmwareUpdate c i) fun s =>
        let s := cs.foldl (fun s k =>
          let s := s.quiesce k
          s.putAway k (s.saveImage k { whole := true } [])) s
        let s : State := { s with platform := { s.platform with saved := s.platform.saved ++ cs } }
        (s.install c i).serve c
  | _ => s
/-- FIRMWARE_RECOVERY: the ROM's recovery image for a component that is out of service, verified as at boot. -/
def execFirmwareRecovery (s : State) : Host.Outcome State Fault Refusal :=
  .next <| match s.turn with
  | .event (.firmwareRecovery c i) =>
    if !s.platform.down.contains c || !s.platform.verifies c then s else (s.install c i).serve c
  | _ => s

/-! ## Monitors and errors (R199, R389, R391) -/

/-- MONITOR_POLL: the clusters' monitors are read; clocks are capped above 95 °C. -/
def execMonitorPoll (s : State) : Host.Outcome State Fault Refusal :=
  .next <| match s.turn with
  | .event (.monitorPoll rs) =>
    let s := rs.foldl (fun s t => s.updCluster t.1 fun x => { x with capped := t.2.temp > 95 }) s
    let hot := rs.any fun t => t.2.temp ≥ 110
    { s with
      platform := { s.platform with polls := s.platform.polls + 1, readings := rs.foldl (fun m t => m.put t.1 t.2) s.platform.readings }
      inputs := if hot then .junctionShutdown :: s.inputs else s.inputs }
  | _ => s
def execDroopDetect (s : State) : Host.Outcome State Fault Refusal :=
  .next <| match s.turn with
  | .event (.droopDetect n) => s.updCluster n fun x => { x with stretched := true }
  | _ => s
def execDroopRecover (s : State) : Host.Outcome State Fault Refusal :=
  .next <| match s.turn with
  | .event (.droopRecover n) => s.updCluster n fun x => { x with stretched := false }
  | _ => s
def execJunctionShutdown (s : State) : Host.Outcome State Fault Refusal :=
  .next <| match s.turn with
  | .event .junctionShutdown => { s with platform := { s.platform with off := true } }
  | _ => s

/-- The context that maps a byte of DRAM. -/
def State.mapper (s : State) (a : Nat) : Option CKey :=
  let holds (p : Page) : Bool := (Page.frames p).contains (a / 4096)
  (s.ctxs.find? fun c => c.2.pages.any holds).map (·.1)
/-- Where a bit error lies, with the context whose data it is: in DRAM; or at an offset of a die's cluster SRAM, in a
block's scratch or in a line of a cluster cache (DEDUCED, log entry 43). -/
def State.errorPlace (s : State) (die off : Nat) (sram : Bool) : Option Loc × Option CKey :=
  if sram then
    let cl := die * 6 + off / 2 ^ 22
    let n := off / 131072 % 32
    match s.blocks.find? fun p => p.2.cluster == cl && !p.2.ended && p.2.banks.any fun k => k.num == n && decide (k.mode ≠ .cache) with
    | none =>
      match (s.cluster cl).cache.get? (n * 1024 + off % 131072 / 128) with
      | some x => (some (.mem (x.line * 128 + off % 128)), s.mapper (x.line * 128))
      | none => (none, none)
    | some (b, x) =>
      let i := (x.banks.findIdx? fun k => k.num == n).getD 0
      (if (x.banks.getD i {}).mode = .scratch then some (.scr b (i * 131072 + off % 131072)) else none, some b.r.c)
  else (some (.mem (die * 2 ^ 36 + off)), s.mapper (die * 2 ^ 36 + off))
/-- SOFT_ERROR: corrected and counted, or the sector is poison from now on. -/
def execSoftError (s : State) : Host.Outcome State Fault Refusal :=
  .next <| match s.turn with
  | .event (.softError die off sram ok) =>
    let (l, c) := s.errorPlace die off sram
    if ok then
      match c with
      | some c => s.bump c 11 1
      | none => s
    else match l with
      | some l => s.spoil l
      | none => s
  | _ => s

/-! ## Maintenance (R390) -/

/-- Whether a fenced part is vacated: no block stands on it, no page lies on it. -/
def State.vacated (s : State) (p : Part) : Bool :=
  (s.blocksOfPart p).isEmpty && match p with
    | .cluster _ => true
    | .die d => !s.liesOn d
/-- Whether a fenced part can be vacated further now. -/
def State.vacateReady (s : State) (p : Part) : Bool :=
  let blocks := !(s.blocksOfPart p).isEmpty && (s.blocksOfPart p).all s.drained
  match p with
  | .cluster n => (s.cluster n).fenced && blocks
  | .die d => s.platform.maint.contains d && (blocks || (s.diePages d).any fun x =>
      (s.freeFrame x.2).1.isSome || (s.sweepPage (s.victimTenant x.1.vf)).isSome)
/-- MAINTENANCE_FENCE: a part fenced, and vacated as soon as its blocks have drained; or, once it is vacated, returned to service. -/
def execMaintenanceFence (s : State) : Host.Outcome State Fault Refusal :=
  .next <| match s.turn with
  | .event (.maintenanceFence p on) =>
    if !on then if s.vacated p then s.unfence p else { s with inputs := s.inputs ++ [.maintenanceFence p on] }
    else
      let s := s.fence p
      let bs := s.blocksOfPart p
      let s := s.stopBlocks bs false
      let s := (s.vacateAll bs).getD s
      match p with
      | .die d => { s with platform := { s.platform with maint := if s.platform.maint.contains d then s.platform.maint else d :: s.platform.maint } }.leaveDie d
      | .cluster _ => s
  | _ => s

end Sys2Proof.Machine
end

