-- ==== Sys2Proof/Machine/Issue.lean ====
section
/-! DEFINITION. Which agents can go on: scalar streams, lane queues and sequencers, and in ordered mode the one turn of
a group (R29, R115, R139, R148, R197, R306, R307, R327, R374). -/

namespace Sys2Proof.Machine

/-! ## Waits -/

/-- Whether a page is not waited for: it is resident, a peer window, or not mapped, which faults. -/
def State.pageHere (s : State) (g : GKey) (va : Nat) : Bool :=
  match findPage (s.pagesFor g) va with
  | some p => p.res || p.peer.isSome
  | none => true
/-- Whether no copy command owns the line of an address. -/
def State.lineFree (s : State) (g : GKey) (va : Nat) : Bool :=
  match (s.xlate g va true false).2 with
  | .ok cell => !s.ownedAt (.mem cell)
  | _ => true
/-- Whether banks of a block have switched. -/
def State.banksSettled (s : State) (b : BKey) (m : Word) : Bool := (s.block b).switchMask &&& m == 0

/-- Whether the instruction at which a split is parked executes again: what it waits for has come. The other waits
end by events, or at commits. -/
def State.parkOver (s : State) (g : GKey) (e : Nat) (p : Park) : Bool :=
  let o := s.ordered g
  match p with
  | .page va => s.pageHere g va
  | .load va => s.pageHere g va && s.lineFree g va
  | .lanes w n => !s.laneBusy g e w n
  | .queue => (s.split g e).queue.length < 4
  | .lsync => s.lanesDone g e
  | .fence => !o && !s.lanesPending g e
  | .fenceEng => !s.engPending g e
  | .region v n => !o && s.regionOver g v n
  | .batch n => !o && ((s.group g).covered n).all (·.cmds.isEmpty)
  | .batchRoom => ((s.group g).batches.filter fun b => !b.cmds.isEmpty).length < 16
  | .copyRoom => (s.cluster (s.clusterOf g)).copyQ.length < 256
  | .exitBatches => !o && (s.group g).batches.all (·.cmds.isEmpty)
  | .bankIdle m => s.banksSettled g.b m
  | .bankTurn => s.cfgTurn g e
  | .bankSwitch n => (s.block g.b).switched > n
  | .rearrive t inst => (s.bar g.b (if t = 8 then none else some t)).inst > inst
  | .array => s.holdsArray g
  | .arrayBusy => !s.holdsArray g
  | .owned a => s.lineFree g a
  | .written id => s.pend.all fun p => p.id != id
  | .fork => g.sh == 0
  | .image k => !s.translating g.b.r.c k
  | .system => s.sysReady g e
  | .nap _ | .ring _ _ | .barrier _ _ | .wait .. | .sysc _ | .keep | .commit => false

/-- Whether the head of a lane queue issues again after a wait. -/
def State.lparkOver (s : State) (g : GKey) (p : LPark) : Bool :=
  match p with
  | .page va => s.pageHere g va
  | .const va => s.pageHere g va && s.lineFree g va
  | .bank m => s.banksSettled g.b m
  | .owned a => s.lineFree g a && !s.ownedAt (.scr g.b a)
  | .array => (s.core (s.coreOf g)).campBusy.isNone && !s.arrayDue g
  | .fork => (s.group g).fork.isNone
  | .fifo _ _ _ => false

/-! ## Groups outside ordered mode -/

/-- Whether the pages of a group's repair are resident (R197). -/
def State.fixReady (s : State) (g : GKey) : Bool :=
  match (s.group g).fix with
  | some f => f.vas.all (s.pageHere g)
  | none => false
/-- Whether a group runs: placed, not ended, halted or stopped by a save. -/
def State.groupRuns (s : State) (g : GKey) : Bool :=
  let x := s.group g
  !x.ended && !x.halted && s.cycle ≥ (s.block g.b).placedAt && !s.stopped g.b (some g)
/-- Whether a split of a stopped block goes on with the save that it has issued itself (R338). -/
def State.ownSave (s : State) (g : GKey) (e : Nat) : Bool :=
  !(s.group g).ended && !(s.group g).halted && s.stopped g.b (some g) && s.sysReady g e && match (s.split g e).st with
    | .parked .system => true
    | _ => (s.group g).fix.isSome
/-- Whether a debug step lets a split's scalar stream, its lane queue issue (R374). -/
def State.mayStep (s : State) (g : GKey) (e : Nat) (lane : Bool) : Bool :=
  match (s.group g).stepping with
  | none => true
  | some k => k == e && (!lane || (s.split g e).constHeld || match (s.split g e).st with
    | .parked (.lanes _ _) | .parked .lsync | .parked .queue | .parked .fence | .parked .fenceEng => true
    | .draining => true
    | _ => false)
/-- Whether a split's next scalar instruction can issue: in ordered mode no latency delays it (R139, R306). -/
def State.scalarReady (s : State) (g : GKey) (e : Nat) : Bool :=
  let p := s.split g e
  (s.groupRuns g || s.ownSave g e) && !p.susp && !p.constHeld && s.mayStep g e false && (s.ordered g || p.busy ≤ s.cycle) &&
    match (s.group g).fix with
    | some f => f.e == e && !f.lane && s.fixReady g
    | none => match p.st with
      | .running => true
      | .parked k => s.parkOver g e k
      | _ => false
/-- Whether the core has physical vector registers for what the next word of a queue writes (R133). -/
def State.regRoom (s : State) (g : GKey) (e : Nat) : Bool :=
  match (s.head g e).again, (s.xlate g (s.head g e).pc.toNat true false).2 with
  | none, .ok cell => s.cowRoom g ((laneRegs (decodeLane (BitVec.ofNat 96 (s.load g e (.mem cell) 12)))).getD {}).vd
  | _, _ => true
/-- Whether the head of a split's lane queue can issue. -/
def State.laneReady (s : State) (g : GKey) (e : Nat) : Bool :=
  let p := s.split g e
  s.groupRuns g && !p.susp && s.mayStep g e true && (s.ordered g || p.lbusy ≤ s.cycle) &&
    match (s.group g).fix with
    | some f => f.e == e && f.lane && s.fixReady g
    | none => !p.queue.isEmpty && !p.hold && p.lpark.all (s.lparkOver g) && ((s.group g).fork.isSome || s.regRoom g e)

/-! ## Groups in ordered mode (R306, R307) -/

/-- What a group of an ordered region does next in its quantum. -/
inductive OAct where
  | scalar (e : Nat)
  | lane (e : Nat)
  /-- It waits for an event of its own that no commit brings. -/
  | wait
  /-- It has reached the end of its quantum. -/
  | stop
deriving DecidableEq, Repr

/-- A push or pop of a split that has not taken effect. -/
def QOp.fifoOf (e : Nat) : QOp → Bool
  | .push _ i _ _ _ _ | .pop _ i _ _ _ _ _ => i == e
  | _ => false
/-- Whether a split that is parked for an entry of the cluster's copy queue may get one before the next commit: not where the region's own
copies fill it, which end at commits (R312). -/
def State.roomComes (s : State) (g : GKey) : Bool := (s.cluster (s.clusterOf g)).copyQ.any fun c => decide (c.g.b.r ≠ g.b.r)
/-- Whether a restored group that held the array gets it before the next commit: no group of its region holds it (R278, R279). -/
def State.arrayComes (s : State) (g : GKey) : Bool := (s.core (s.coreOf g)).camp.all fun h => decide (h.b.r ≠ g.b.r)
/-- The visit of an entry: its lane head first, then its scalar stream; none passes it over. The group waits for a head that a hold holds
back (R306), at the end of its quantum if its results come at a commit. -/
def State.visit (s : State) (g : GKey) (e : Nat) (lanedone : Bool) : Option OAct :=
  let p := s.split g e
  let scalar : Option OAct :=
    if s.mayStep g e false && !p.constHeld then
      match p.st with
      | .running => some (.scalar e)
      | .parked k => if s.parkOver g e k then some (.scalar e) else if (k = .copyRoom && s.roomComes g) || (k = .array && s.arrayComes g) then some .wait else none
      | _ => none
    else none
  if p.susp then none
  else if !lanedone && !p.queue.isEmpty && s.mayStep g e true then
    if p.hold then some (if (s.group g).outst.any fun o => o.e == e && !o.held then .wait else .stop)
    else if (s.group g).q.ops.any (QOp.fifoOf e) then scalar
    else match p.lpark with
      | none => some (.lane e)
      | some k => if s.lparkOver g k then some (.lane e) else if k = .array && s.arrayComes g then some .wait else scalar
  else scalar
/-- The events of a group that come before its next instruction: results that are waited for, windows that have run
out, fusions. -/
def State.ownEvents (s : State) (g : GKey) : Bool :=
  let x := s.group g
  (x.outst.any fun o => !o.held && s.waitsResults g o.e) || x.ents.any fun p => s.windowOut g p.1 ||
    (!p.2.susp && match p.2.st with
      | .fusing k => (s.fusePair g k).isSome
      | _ => false)
/-- The next turn of a group of an ordered region. One told to stop at a safe point ends its quantum there (R333, R352) (DEDUCED, log
entry 86). -/
def State.orderedAct (s : State) (g : GKey) : OAct :=
  let x := s.group g
  if x.ended || x.q.atEnd || x.q.due || x.q.count ≥ (s.rcb g).quantum then .stop
  else if x.fix.isSome then
    if s.fixReady g then (match x.fix with
      | some f => if f.lane then .lane f.e else .scalar f.e
      | none => .stop) else .stop
  else if !x.ol.isEmpty || (x.stopping && s.atSafePoint g) then .stop
  else if s.ownEvents g then .wait
  else
    let v := x.q.visit
    let here := if x.ents.any (·.1 == v) then [(v, x.q.lanedone)] else []
    let rest := ((List.range 5).map fun i => ((v + 1 + i) % 5, false)).filter fun p => x.ents.any (·.1 == p.1)
    ((here ++ rest).findSome? fun p => s.visit g p.1 p.2).getD .stop
/-- Where a group's visits go on after an instruction. -/
def State.visited (s : State) (g : GKey) (e : Nat) (lane : Bool) : State :=
  if !s.ordered g then s
  else s.updGroup g fun x => { x with q := { x.q with visit := if lane then e else (e + 1) % 5, lanedone := lane } }

/-! ## The choices of a quadrant outside ordered mode (R130, R139, R294) -/

/-- Whether two groups are of one quadrant of a core (R114). -/
def State.sameQuad (s : State) (g k : GKey) : Bool := s.coreOf g == s.coreOf k && (s.group g).slot / 64 == (s.group k).slot / 64
/-- The place of a quadrant's stream among the events of one cycle of a core (R294). -/
def State.issuePlace (s : State) (g : GKey) (lane : Bool) : Nat := (s.group g).slot / 64 * 2 + if lane then 1 else 0
/-- Whether a stream of a quadrant has still to issue in this cycle, as has every later one of its core (R139, R294). -/
def State.issueOpen (s : State) (g : GKey) (lane : Bool) : Bool :=
  let (c, n) := (s.core (s.coreOf g)).issued
  c < s.cycle || n ≤ s.issuePlace g lane
/-- A split's age: the cycle at which its group was placed, or that of the yield that made it the youngest, with a number among
those of one cycle (R130, R139). -/
def State.age (s : State) (g : GKey) (e : Nat) : Nat × Nat := (s.split g e).age.getD ((s.block g.b).placedAt, 0)
/-- Whether a split goes before another in a choice of their quadrant: the front list in the order of joining, then those that are
not demoted, then the older (R139). -/
def State.goesBefore (s : State) (lane : Bool) (u t : GKey × Nat) : Bool :=
  let p := s.split u.1 u.2
  let q := s.split t.1 t.2
  let a := s.age u.1 u.2
  let b := s.age t.1 t.2
  match (if lane then p.lfront else p.front), (if lane then q.lfront else q.front) with
  | some i, some j => i < j
  | some _, none => true
  | none, some _ => false
  | none, none =>
    if p.demoted.isSome != q.demoted.isSome then q.demoted.isSome
    else a.1 < b.1 || (a.1 == b.1 && (a.2 < b.2 || (a.2 == b.2 && decide (baseKey u.1 = baseKey t.1) && u.2 < t.2)))
/-- The turns among which the quadrants of the cores may choose; which of equals is free (R139) (DESIGN CHOICE, log entry 18). -/
def State.chosen (s : State) (lane : Bool) (ts : List (GKey × Nat)) : List (GKey × Nat) :=
  ts.filter fun t => s.issueOpen t.1 lane && ts.all fun u => !s.sameQuad t.1 u.1 || !s.goesBefore lane u t
/-- An issue begins: the cycle's choice of the quadrant is made, and the split's next issue comes after a free latency
(DESIGN CHOICE, log entry 18). -/
def State.issueBegun (s : State) (g : GKey) (e : Nat) (lane : Bool) : State :=
  if s.ordered g then s
  else
    let next := s.cycle + 1 + Config.choice s.free
    let s := (s.updCore (s.coreOf g) fun x => { x with issued := (s.cycle, s.issuePlace g lane + 1) }).updSplit g e fun p =>
      if lane then { p with lbusy := next, lsince := none, lfront := none } else { p with busy := next, since := none, front := none }
    { s with free := s.free + 1 }
/-- Since when each split outside ordered mode can issue (R139). -/
def State.markReady (s : State) : State :=
  let mark (ok : Bool) (old : Option Nat) : Option Nat := if ok then some (old.getD s.cycle) else none
  let one (g : GKey) (q : Nat × Split) : Nat × Split :=
    (q.1, { q.2 with since := mark (s.scalarReady g q.1) q.2.since, lsince := mark (s.laneReady g q.1) q.2.lsince })
  { s with groups := s.groups.map fun p => if s.ordered p.1 then p else (p.1, { p.2 with ents := p.2.ents.map (one p.1) }) }

/-- The turns of a group. -/
def State.groupTurns (s : State) (g : GKey) : List Turn :=
  if (s.region g.b.r).rcb.ordered then
    if !s.groupRuns g then (((s.group g).ents.map (·.1)).filter (s.ownSave g)).map (Turn.scalar g)
    else match s.orderedAct g with
      | .scalar e => [.scalar g e]
      | .lane e => [.lane g e]
      | _ => []
  else
    let es := (s.group g).ents.map (·.1)
    (es.filter (s.scalarReady g)).map (Turn.scalar g) ++ (es.filter (s.laneReady g)).map (Turn.lane g)

/-! ## Sequencers -/

/-- Whether a sequencer can issue its next word. -/
def State.seqReady (s : State) (b : BKey) : Bool :=
  match (s.block b).seq with
  | none => false
  | some q =>
    !(s.block b).ended && !q.halted && s.cycle ≥ (s.block b).placedAt && s.cycle ≥ q.busy && !s.stopped b none && !q.reclaims &&
      !(s.seqOrdered b && (q.quant.atEnd || q.quant.due || q.quant.count ≥ (s.region b.r).rcb.quantum)) &&
      match q.st with
      | .running => true
      | .parked p => s.seqWaitOver b p
      | _ => false
/-- Whether a sequencer waits for an engine that it cannot get before the next commit: a block of its region holds it that has reached the
end of its quantum. -/
def State.engineHeld (s : State) (b : BKey) : Bool :=
  match (s.core (s.block b).seqCore).eng with
  | some h => decide (h ≠ b) && decide (h.r = b.r) && (s.seq h).quant.atEnd
  | none => false
/-- Whether a sequencer can retire no word before a commit (DEDUCED, log entry 20). -/
def State.seqStuck (s : State) (b : BKey) : Bool :=
  let q := s.seq b
  let blocked := match q.exec with
    | [] => true
    | w :: _ => q.olFault.isSome || q.replays.any fun r => w.accs.contains r.acc && r.fault.isNone
  blocked && (q.fills.all fun f => !s.fillReady b f.id) && !s.auditReady b &&
    match q.st with
    | .running => q.reclaims && s.engineHeld b
    | .parked .engine => !q.held && s.engineHeld b
    | .parked p => !s.seqWaitOver b p
    | _ => true

/-! ## The ends of quanta -/

/-- Whether a group's, a sequencer's quantum ends now; one that has ended in it reaches its end once. -/
def State.quantumOver (s : State) (g : GKey) : Bool :=
  if g.gid = 64 then
    let q := s.seq g.b
    s.seqOrdered g.b && (s.block g.b).seq.isSome && !(s.block g.b).ended && !q.quant.atEnd && !q.halted &&
      (q.quant.due || q.quant.count ≥ (s.region g.b.r).rcb.quantum || s.seqStuck g.b)
  else
    let x := s.group g
    s.ordered g && g.sh == 0 && !x.q.atEnd && !x.halted && decide (s.orderedAct g = .stop) && (!x.ended || x.q.ops.contains .release)
/-- Whether every agent of a region has reached the end of its quantum. -/
def State.allOver (s : State) (r : RKey) : Bool :=
  let gone (ended : Bool) (q : Quantum) : Bool := ended && !q.ops.contains .release
  (s.groups.all fun p => decide (p.1.b.r ≠ r) || gone p.2.ended p.2.q || p.2.q.atEnd) &&
    s.blocks.all fun p => decide (p.1.r ≠ r) || p.2.ended || p.2.seq.all fun q => gone (decide (q.st = .ended)) q.quant || q.quant.atEnd
/-- QUANTUM_END (R307): the agent has reached its end; after the last one the commit begins when the quantum barrier
lets it (R308). -/
def execQuantumEnd (s : State) : Host.Outcome State Fault Refusal :=
  .next <| match s.turn with
  | .event (.quantumEnd g) =>
    if !s.quantumOver g then s
    else
      let s := if g.gid = 64 then s.updSeq g.b fun q => { q with quant := { q.quant with atEnd := true } }
        else s.updGroup g fun x => { x with q := { x.q with atEnd := true } }
      if s.allOver g.b.r then
        s.updRegion g.b.r fun x => { x with commitAt := some (s.cycle + (if x.dies.length > 1 then 160 else 96)) }
      else s
  | _ => s

end Sys2Proof.Machine
end

