-- ==== Sys2Proof/Machine/Commit.lean ====
section
/-! DEFINITION. The commit of a quantum of an ordered region, in its six steps (R295, R307 to R318, R394). -/

namespace Sys2Proof.Machine

/-! ## The order of agents (R310) -/

/-- An agent of a region. -/
inductive CAgent where
  | grp (g : GKey)
  | seq (b : BKey)
deriving DecidableEq, Repr
/-- The rank of a group in a quantum. -/
def State.rank (s : State) (g : GKey) (q : Nat) : Nat :=
  let c := (s.rcb g)
  (((g.b.n * c.groups + g.gid : Nat) : Int) - q).emod ((c.blocks * c.groups : Nat) : Int) |>.toNat
def insRank (x : GKey × Nat) : List (GKey × Nat) → List (GKey × Nat)
  | [] => [x]
  | y :: r => if x.2 < y.2 then x :: y :: r else y :: insRank x r
/-- The groups of a region in ascending rank. -/
def State.ranked (s : State) (r : RKey) (q : Nat) : List GKey :=
  let gs := (s.groups.filter fun p => decide (p.1.b.r = r) && p.1.sh == 0).map (·.1)
  ((gs.map fun g => (g, s.rank g q)).foldr insRank []).map (·.1)
/-- Each sequencer follows the last group of its block. -/
def State.withSeqs (s : State) : List GKey → List CAgent
  | [] => []
  | g :: r =>
    let last := r.all fun k => decide (k.b ≠ g.b)
    .grp g :: (if last && (s.block g.b).seq.isSome then [.seq g.b] else []) ++ s.withSeqs r
def State.agents (s : State) (r : RKey) (q : Nat) : List CAgent := s.withSeqs (s.ranked r q)

/-! ## Instructions that complete at the commit -/

/-- An instruction that was counted at issue completes: its split goes on. -/
def State.goOn (s : State) (g : GKey) (e : Nat) : State := (s.goTo g e ((s.split g e).pc + 4)).stepDone g e
/-- The count of an instruction taken back: it faults and has not retired. -/
def State.uncount (s : State) (g : GKey) (e : Nat) : State :=
  (s.updGroup g fun x =>
    { x with retired := x.retired - 1, ents := x.ents.upd e fun p => { p with retired := p.retired - 1 } }).bump g.b.r.c 0 (2 ^ 63 - 1)
/-- A scope check that has failed, in one lane or in a scalar access (R394). -/
def State.scopeFail (s : State) (g : GKey) (f : ScopeFail) : State :=
  s.updGroup g fun x =>
    let fs := x.q.fails
    let same (y : ScopeFail) : Bool := y.lanei && f.lanei && y.e == f.e && decide (y.blk = f.blk) && y.word == f.word
    let add (y : ScopeFail) : ScopeFail := if same y then { y with recs := y.recs ++ f.recs, done := y.done &&& f.done } else y
    { x with q := { x.q with fails := if fs.any same then fs.map add else fs ++ [f] } }
def laneFail (e : Nat) (blk : QBlk) (word : Nat) (active : Word) (k : Nat) (lanes : List (Nat × Nat)) (ex : Nat) (write : Bool) : ScopeFail :=
  { recs := lanes.map fun l => State.frec { kind := k, addr := l.2, extra := ex, write } l.1 e true blk.pc blk.lrunPc
    active, e, lanei := true, done := active &&& ~~~maskOf (lanes.map (·.1)), word, blk }

/-! ## Step 1: stores -/

/-- A buffered store performed; of a release those lanes that pass their checks (R394). -/
def State.commitStore (s : State) (g : GKey) (x : QStore) : State :=
  match x.sync with
  | none => s.perform x.cells
  | some scope =>
    let check (p : State × List (Loc × Byte)) (l : RelLane) : State × List (Loc × Byte) :=
      let cell := match l.cells.head? with
        | some (.mem a, _) => a
        | _ => 0
      match p.1.syncOf g x.e x.pc.toNat scope false true false true cell with
      | (s, none) => (s, p.2 ++ l.cells)
      | (s, some rx) => (s.scopeFail g (laneFail x.e x.blk x.word x.active 7 [(l.lane, l.va)] rx true), p.2)
    let (s, cells) := x.rel.foldl check (s, [])
    s.perform cells
/-- The buffer of a group written and emptied. -/
def State.commitBuf (s : State) (g : GKey) : State :=
  let buf := (s.group g).q.buf
  let s := s.updGroup g fun x => { x with q := { x.q with buf := [] } }
  buf.foldl (fun s x => s.commitStore g x) s
/-- An audit record of an ordered sequencer performed; its index is a release, whose check may fail (R260, R394). -/
def State.commitAudit (s : State) (b : BKey) (x : QStore) : State :=
  match x.sync with
  | none => s.perform x.cells
  | some h =>
    match s.auditSync b h with
    | (s, none) => s.perform x.cells
    | (s, some rx) => s.updSeq b fun q =>
      { q with cause := .audit, olFault := some (q.olFault.getD { kind := 7, addr := x.va, extra := rx, write := true }) }
/-- Outlier records of a sequencer written, up to the first that waits for its page, and those left. One that has passed its check and falls,
behind the group's own, on a place where it would fault is not made (R248) (DESIGN CHOICE, log entry 98). -/
def State.commitRecs (s : State) (b : BKey) (l : List (Nat × OlRec)) : State × List (Nat × OlRec) :=
  l.foldl (fun a r =>
    if !a.2.isEmpty then (a.1, a.2 ++ [r])
    else
      let (s, left, _) := a.1.seqDrain b [r]
      (s.commitBuf ⟨b, r.1, 0⟩, left)) (s, [])
/-- Whether the records of an mstore wait for their page still (R248). -/
def State.recordWaits (s : State) (b : BKey) : Bool :=
  decide ((s.seq b).st = .parked .record) && !(s.commitRecs b (s.seq b).quant.lateOl).2.isEmpty
/-- What a sequencer's mstore that waits for a page has to commit, once every page is resident (R248). -/
def State.commitRecord (s : State) (b : BKey) : State :=
  if (s.seq b).st ≠ .parked .record then s
  else match s.commitRecs b (s.seq b).quant.lateOl with
    | (t, []) => (t.seqWrites b (s.seq b).quant.lateRegs).updSeq b fun k =>
        { k with quant := { k.quant with lateRegs := [], lateOl := [] }, st := .running }
    | _ => s
/-- Step 1 of an agent: its copies, its stores, its records; a sequencer's audit records, register writes and
outlier records. -/
def State.commitStores (s : State) : CAgent → State
  | .grp g =>
    let s := (s.commitCopies g).commitBuf g
    let recs := (s.group g).q.recs
    let s := s.updGroup g fun x => { x with q := { x.q with recs := [] } }
    recs.foldl (fun s r => s.ringPut g r) s
  | .seq b =>
    let q := (s.seq b).quant
    let s := q.buf.foldl (fun s x => s.commitAudit b x) s
    let s := s.updSeq b fun k => { k with quant := { k.quant with buf := [] } }
    let (s, left) := s.commitRecs b q.ol
    (((s.seqWrites b q.regs).setTrits b q.trits).updSeq b fun k =>
      { k with quant := { k.quant with regs := [], ol := left, trits := [] } }).commitRecord b

/-! ## Step 2: the ordered atomic unit (R311) -/

/-- The key of a request: rank, lowest lane, sequence. -/
def AtomReq.key (r : AtomReq) (rank : Nat) : Nat × Nat × Nat :=
  (rank, if r.scalar then 0 else (r.lanes.map (·.1)).foldl min 32, r.seq)
def keyLt (a b : Nat × Nat × Nat) : Bool :=
  a.1 < b.1 || (a.1 == b.1 && (a.2.1 < b.2.1 || (a.2.1 == b.2.1 && a.2.2 < b.2.2)))
def insKey (x : GKey × AtomReq × (Nat × Nat × Nat)) :
    List (GKey × AtomReq × (Nat × Nat × Nat)) → List (GKey × AtomReq × (Nat × Nat × Nat))
  | [] => [x]
  | y :: r => if keyLt x.2.2 y.2.2 then x :: y :: r else y :: insKey x r
/-- Every request of the quantum in ascending key. -/
def State.atomsOf (s : State) (gs : List GKey) : List (GKey × AtomReq) :=
  let ranked := (List.range gs.length).zip gs
  let all := ranked.flatMap fun g => (s.group g.2).q.atoms.map fun r => (g.2, r, r.key g.1)
  (all.foldr insKey []).map fun x => (x.1, x.2.1)

/-- A buffer of a slice for a request: one that holds its address and fewer than 16 requests, or a free one of the
slice's 64; none refuses it. -/
def holdReq (bufs : List (Nat × List (GKey × AtomReq))) (r : GKey × AtomReq) : Option (List (Nat × List (GKey × AtomReq))) :=
  let slice (a : Nat) : Nat := a / 2 ^ 36 * 24 + a % 2 ^ 36 / 128 % 24
  if bufs.any fun b => b.1 == r.2.loc then
    if bufs.any fun b => b.1 == r.2.loc && b.2.length ≥ 16 then none
    else some (bufs.map fun b => if b.1 = r.2.loc then (b.1, b.2 ++ [r]) else b)
  else if (bufs.filter fun b => slice b.1 == slice r.2.loc).length ≥ 64 then none
  else some (bufs ++ [(r.2.loc, [r])])
/-- A round: the buffers with what they hold, from requests in ascending key, and the refused. -/
def atomRound (l : List (GKey × AtomReq)) : List (Nat × List (GKey × AtomReq)) × List (GKey × AtomReq) :=
  l.foldl (fun x r => match holdReq x.1 r with
    | some bufs => (bufs, x.2)
    | none => (x.1, x.2 ++ [r])) ([], [])
/-- Requests in the order in which the rounds apply them, in at most some rounds. -/
def atomRounds : Nat → List (GKey × AtomReq) → List (GKey × AtomReq)
  | 0, _ => []
  | n + 1, l => if l.isEmpty then [] else (atomRound l).1.flatMap (·.2) ++ atomRounds n (atomRound l).2

/-- The values that return to lanes put into their outstanding result; lanes that do not return leave it. -/
def State.giveLanes (s : State) (g : GKey) (id : Nat) (t : Ty) (vals : List (Nat × Nat)) (drop : Word) : State :=
  let put (i : Nat) (w : Nat × List (Nat × Word)) : Nat × List (Nat × Word) :=
    (w.1, (w.2.filter fun p => !drop.getLsbD p.1).map fun p => match vals.find? fun v => v.1 == p.1 with
      | some v => (p.1, BitVec.ofNat 32 (v.2 / 2 ^ (32 * i)))
      | none => p)
  let one (o : Outst) : Option Outst :=
    if o.id != id then some o
    else
      let lanes := o.lanes &&& ~~~drop
      let v := ((List.range o.v.length).zip o.v).map fun p => put (if t.is64 then p.1 else 0) p.2
      if lanes = 0 then none else some { o with lanes, v }
  s.updGroup g fun x => { x with outst := x.outst.filterMap one }
/-- One request: its poison (R199) and scope checks, its operation, its values; a scalar atomic completes. -/
def State.commitAtom (s : State) (g : GKey) (r : AtomReq) : State :=
  let t := Ty.ofCode (BitVec.ofNat 4 r.ty)
  let fails (s : State) (k rx : Nat) : State :=
    if r.scalar then
      s.scopeFail g { recs := [State.frec { kind := k, addr := r.va, extra := rx, write := true } 255 r.e false 0 r.pc], e := r.e }
    else
      let s := s.scopeFail g (laneFail r.e r.blk r.word r.active k (r.lanes.map fun l => (l.1, r.va)) rx true)
      match r.outst with
      | some id => s.giveLanes g id t [] (maskOf (r.lanes.map (·.1)))
      | none => s
  if s.poisoned (.mem r.loc) then fails s 0x0B 0
  else match s.syncOf g r.e r.pc.toNat r.scope r.rmt r.rel r.acq true r.loc with
  | (s, some rx) => fails s 7 rx
  | (s, none) =>
    let (s, rets) := s.atomic r
    match r.ret, r.outst with
    | some (e, d), _ =>
      let s := s.setS g e d (BitVec.ofNat 64 (rets.headD (0, 0)).2)
      match s.wptHit g r.va 8 true true with
      | none => s.goOn g e
      | some w =>
        let f := State.frec { kind := 0x10, addr := r.va, write := true } 255 e false 0 r.pc
        (s.goTo g e (r.pc + 4)).watch g { recs := [f], e, src := .between } w 0 (BitVec.ofNat 64 r.va)
    | none, some id => s.giveLanes g id t rets 0
    | none, none => s
/-- Step 2. The results of lanes return from now on. -/
def State.commitAtoms (s : State) (gs : List GKey) : State :=
  let all := s.atomsOf gs
  let rs := atomRounds all.length all
  let s := gs.foldl (fun s g => s.updGroup g fun x => { x with q := { x.q with atoms := [] } }) s
  let s := rs.foldl (fun s r => if (s.group r.1).ended && r.2.scalar then s else s.commitAtom r.1 r.2) s
  let ids := rs.map fun r => (r.1, r.2.outst)
  let free (g : GKey) (o : Outst) : Outst := if ids.contains (g, some o.id) then { o with held := false } else o
  gs.foldl (fun s g => s.updGroup g fun x => { x with outst := x.outst.map (free g) }) s

/-! ## Step 3: external inputs (R318) -/

/-- Cells put back as they were. -/
def State.putCells (s : State) (cells : List (Loc × Byte)) : State :=
  cells.foldl (fun s w => if s.rawByte w.1 = w.2 then s else s.poke w.1 w.2) s
/-- What the inputs of the quantum have written taken out of memory, for steps 1 and 2 see memory without them (R310). -/
def State.withoutInputs (s : State) (r : RKey) : State :=
  (s.putCells ((s.region r).undo.filter fun w => match w.1 with
    | .mem _ => true
    | .scr _ _ => false)).updRegion r fun x => { x with undo := [] }
/-- Whether inputs of a context are logged: not while they are replayed (R382). -/
def Context.logs (x : Context) : Bool := x.logging && x.replay.isNone
/-- The entries of a replayed log that a commit injects, in their order (R382) (DEDUCED, log entry 110). -/
def State.replayed (s : State) (r : RKey) (q : Nat) : List LogEnt :=
  (((s.ctx r.c).replay.getD []).filter fun y => y.region == r.id && y.quantum == q)
/-- A logged input as it is injected: its bytes go where its address leads now; what a debug write has put into a group's records is put
there. -/
def State.injected (s : State) (r : RKey) (y : LogEnt) : ExtIn :=
  if y.inp.cells.any fun w => match w.1 with | .scr _ _ => true | .mem _ => false then y.inp
  else if y.kind = 1 || y.kind = 5 then { y.inp with cells := (s.cellsAt r.c y.target y.payload).getD y.inp.cells } else y.inp
def State.injectFields (s : State) (y : LogEnt) : State :=
  match s.groups.find? fun p => p.1.sh == 0 && (groupName p.1 0).toNat / 4 == y.target / 4 with
  | some p => y.fields.foldl (fun s f => s.putField p.1 f) s
  | none => s
/-- The inputs taken in their order. What they have written in memory is put back over the region's stores
(DEDUCED, log entry 38). -/
def State.commitInputs (s : State) (r : RKey) (q : Nat) (ins : List ExtIn) (kept : List (Loc × Byte)) : State :=
  let s := s.putCells kept
  let s := ins.foldl (fun s i =>
    let local_ := i.cells.filter fun w => match w.1 with
      | .scr _ _ => true
      | .mem _ => false
    let s := s.perform local_
    let s := match i.sysc with
      | some (g, e, x) => s.reply g e x
      | none => s
    if (s.ctx r.c).logs then s.updCtx r.c fun x => { x with log := x.log ++ [{ logEntry r.id q (s.nextSeq r q) i with inp := i }] } else s) s
  s.updRegion r fun x => { x with inputs := [], undo := [], pages := none }

/-! ## Step 4: synchronisation -/

/-- An operation of a group, and whether it stays pending. A launch reads its records here, after step 1 (DESIGN CHOICE, log entry 101). -/
def State.commitOp (s : State) (g : GKey) (op : QOp) : State × Bool :=
  let b := g.b
  let gone (e : Nat) : Bool := (s.group g).ended || (s.split g e).susp
  match op with
  | .give n e d =>
    let s := s.updRing b n fun r => r.fix d
    if gone e || !(s.ring b n).canGive then (s, true) else ((s.updRing b n Ring.give).goOn g e, false)
  | .take n e d =>
    let s := s.updRing b n fun r => r.fix d
    if gone e || !(s.ring b n).canTake then (s, true) else ((s.updRing b n Ring.take).goOn g e, false)
  | .push n e ents lanes blk word =>
    match (s.block b).banks[n]? with
    | some k =>
      if k.mode ≠ .fifo then (s.scopeFail g (laneFail e blk word lanes 5 ((lanesOf lanes).map fun l => (l, 0)) 0 false), false)
      else if k.fifo.length + ents.length > 8192 then (s, true)
      else (s.setFifo b n (k.fifo ++ ents), false)
    | none => (s, false)
  | .pop n e vd id lanes blk word =>
    let cnt := (lanesOf lanes).length
    match (s.block b).banks[n]? with
    | some k =>
      if k.mode ≠ .fifo then
        let s := s.updGroup g fun x => { x with outst := x.outst.filter fun o => o.id != id }
        (s.scopeFail g (laneFail e blk word lanes 5 ((lanesOf lanes).map fun l => (l, 0)) 0 false), false)
      else if k.fifo.length < cnt then (s, true)
      else
        let v := popWrites vd lanes k.fifo
        let s := s.setFifo b n (k.fifo.drop cnt)
        (s.updGroup g fun x => { x with outst := x.outst.map fun o => if o.id = id then { o with v, held := false } else o }, false)
    | none => (s, false)
  | .barrier t e waits =>
    let k := s.bar b t
    if gone e || k.next g e then (s, true)
    else
      let s := if waits then s.updSplit g e fun x => { x with st := .parked (.barrier t k.inst) } else s.goOn g e
      (s.barExec g e t !waits, false)
  | .barWait t e =>
    let k := s.bar b (some t)
    if gone e then (s, true)
    else match k.last.get? g with
      | some i => if i < k.inst then (s.goOn g e, false)
        else (s.updSplit g e fun x => { x with st := .parked (.barrier (some t) i) }, false)
      | none => (s.goOn g e, false)
  | .claim e =>
    let k := s.coreOf g
    if gone e then (s, true)
    else if s.holdsArray g then (s.goOn g e, false)
    else if (s.core k).camp.isSome then (s, true)
    else
      let s := (s.updCore k fun x => { x with campQ := x.campQ ++ [(g, e)] }).grantArray k
      if s.holdsArray g then (s.goOn g e, false) else (s, true)
  | .release =>
    if (s.group g).ended then
      let s := (s.flushGroup g).dropArray g
      ((s.barRecheck b).blockCheck b, false)
    else (s.freeArray g, false)
  | .bankcfg e d mask dest =>
    if gone e then (s, true)
    else match (s.block b).cfgDiff mask dest with
      | none => ((s.setS g e d 1).goOn g e, false)
      | some diff =>
        if s.copiesTouch b mask then (s, true)
        else ((((s.setSwitch b mask diff dest).switchBanks b).setS g e d 0).goOn g e, false)
  | .launch e d recs _ =>
    if gone e then (s, true)
    else match s.launchNow g e recs with
      | .ok (s, n) => ((s.setS g e d (BitVec.ofInt 64 n)).goOn g e, false)
      | .error _ => ((s.uncount g e).updSplit g e fun x => { x with st := .running }, false)
  | .pgreq va => (s.pageRequest b.r.c va, false)
  | .sysc e imm => if gone e then (s, true) else (s.callKeep g e imm, false)
  | .acquire _ _ _ _ _ _ _ _ _ | .resume _ | .watched _ _ _ _ | .seqGive _ _ | .seqTake _ _ => (s, true)
/-- An operation of a sequencer. -/
def State.commitSeqOp (s : State) (b : BKey) (op : QOp) : State × Bool :=
  let on (s : State) : State := s.updSeq b fun q => { q with st := .running, pc := q.pc + 8 }
  match op with
  | .seqGive n d =>
    let s := s.updRing b n fun r => r.fix d
    if (s.ring b n).canGive then (on (s.updRing b n Ring.give), false) else (s, true)
  | .seqTake n d =>
    let s := s.updRing b n fun r => r.fix d
    if (s.ring b n).canTake then (on (s.updRing b n Ring.take), false) else (s, true)
  | .release => if (s.seq b).quant.ol.isEmpty then (s.blockCheck b, false) else (s, true)
  | _ => (s, false)
/-- The operations of an agent in retire order; those that stay pending are kept. -/
def State.commitOps (s : State) : CAgent → State
  | .grp g =>
    let ops := (s.group g).q.ops
    let s := s.updGroup g fun x => { x with q := { x.q with ops := [] } }
    let s := ops.foldl (fun s op =>
      let (s, kept) := s.commitOp g op
      if kept then s.updGroup g fun x => { x with q := { x.q with ops := x.q.ops ++ [op] } } else s) s
    s.barRecheck g.b
  | .seq b =>
    let ops := (s.seq b).quant.ops
    let s := s.updSeq b fun q => { q with quant := { q.quant with ops := [] } }
    ops.foldl (fun s op =>
      let (s, kept) := s.commitSeqOp b op
      if kept then s.updSeq b fun q => { q with quant := { q.quant with ops := q.quant.ops ++ [op] } } else s) s
/-- The completion of the region, when its last block has ended. -/
def State.commitDone (s : State) (r : RKey) : State :=
  match s.outcome r with
  | some 1 => if s.wordFree r then s.complete r 1 else s
  | _ => s

/-! ## Step 5: history (R295) -/

def State.commitHist (s : State) (g : GKey) : State :=
  let evs := (s.group g).q.hist
  let k := s.coreOf g
  let s := s.updGroup g fun x => { x with q := { x.q with hist := [] } }
  match s.histIdx g.b.r k with
  | some h => s.updHbank k h fun b => evs.foldl histApply b
  | none => s

/-! ## Step 6: waits -/

/-- An acquiring load reads at the commit: its lanes' checks and values (R307, R394). -/
def State.commitAcquire (s : State) (g : GKey) (e id size scope : Nat) (rmt : Bool) (lanes : List (Nat × Nat × Nat)) (blk : QBlk)
    (word : Nat) : State :=
  let all := maskOf (lanes.map (·.1))
  let fails (s : State) (l : Nat × Nat × Nat) (k rx : Nat) : State :=
    (s.giveLanes g id .i32 [] (maskOf [l.1])).scopeFail g (laneFail e blk word all k [(l.1, l.2.1)] rx false)
  let s := lanes.foldl (fun s l =>
    if s.poisoned (.mem l.2.2) then fails s l 0x0B 0
    else match s.syncOf g e blk.pc.toNat scope rmt false true true l.2.2 with
    | (s, none) =>
      let v := leNat ((Loc.span (.mem l.2.2) size).map s.rawByte)
      s.giveLanes g id (if size = 8 then .i64 else .i32) [(l.1, v)] 0
    | (s, some rx) => fails s l 7 rx) s
  s.updGroup g fun x => { x with outst := x.outst.map fun o => if o.id = id then { o with held := false } else o }
/-- The operations of a group that wait for the last step. -/
def State.commitLate (s : State) (g : GKey) : State :=
  let ops := (s.group g).q.ops
  let stays (op : QOp) : Bool := match op with
    | .acquire .. | .watched .. => false
    | .resume e => !(s.group g).ended && (s.split g e).susp
    | _ => true
  ops.foldl (fun s op => match op with
    | .acquire e id size scope rmt lanes _ blk word => s.commitAcquire g e id size scope rmt lanes blk word
    | .resume e => if (s.group g).ended || (s.split g e).susp then s else s.goOn g e
    | .watched t n lanePc addr => if (s.group g).ended then s else s.watch g t n lanePc addr
    | _ => s) (s.updGroup g fun x => { x with q := { x.q with ops := ops.filter stays } })

/-- A parked wait whose condition holds in committed memory completes. -/
def State.commitWait (s : State) (g : GKey) (e : Nat) : State :=
  let p := s.split g e
  let ends (s : State) : Ends → State
    | .fault t f => (t.uncount g e).scalarFault g e f
    | .done t => t
    | _ => s.goOn g e
  if p.susp || (s.group g).ended then s
  else match p.st with
    | .parked (.wait va _ dbl eq v scope rmt) =>
      match s.reread g e va dbl eq v with
      | (s, .holds cell) =>
        (match s.waitDone g e va cell scope rmt true with
        | (s, some f) => s.scopeFail g { recs := [State.frec f 255 e false 0 p.pc], e }
        | (s, none) => s.goOn g e)
      | (s, .fault f) => (s.uncount g e).scalarFault g e f
      | (s, .stays) => s
    | .parked (.region v n) => if s.waitOver g v || s.regionOver g v n then s.goOn g e else s
    | .parked (.batch n) =>
      if ((s.group g).covered n).all (·.cmds.isEmpty) then ends s (s.batchesDone g n fun t => .done (t.goOn g e)) else s
    | .parked .exitBatches =>
      if (s.group g).batches.all (·.cmds.isEmpty) then
        match s.batchesDone g (s.group g).batchNext fun t => .done (((t.count g e).exitSplit g e 9).stepDone g e) with
        | .fault t f => t.scalarFault g e f
        | .done t => t
        | _ => s
      else s
    | .parked .fence => if s.lanesPending g e then s else s.goOn g e
    | .parked (.barrier t i) => if i < (s.bar g.b t).inst then s.goOn g e else s
    | _ => s
/-- The results of a group that have their values return at the commit (R307, R310). -/
def State.returnAll (s : State) (g : GKey) : State :=
  ((s.group g).outst.filter fun o => !o.held).foldl (fun s o => s.returnResult g o o.lanes) s
def State.commitWaits (s : State) (g : GKey) : State :=
  ((s.group g).ents.map (·.1)).foldl (fun s e => s.commitWait g e) ((s.commitLate g).returnAll g)

/-! ## The end of the commit -/

/-- The holds of results that no lane will return end. The faults that the commit has found are taken before the group's next instruction (R394). A group that has ended has
none to take them. -/
def State.deliverFails (s : State) (g : GKey) : State :=
  let fs := (s.group g).q.fails
  let s := s.updGroup g fun x =>
    { x with
      q := { x.q with fails := [] }
      ents := x.ents.map fun p => (p.1, { p.2 with hold := p.2.hold && x.outst.any fun o => o.e == p.1 }) }
  fs.foldl (fun s f =>
    if (s.group g).ended then s.endDomain g.b.r ((f.recs.head?.map (·.kind.toNat)).getD 7)
    else if f.lanei then
      s.takeTrap g { recs := f.recs, e := f.e, lanei := true, done := f.done, src := .lane f.e { f.blk with again := none } f.word f.active }
    else
      let pc := (s.split g f.e).pc
      let s := (s.uncount g f.e).updSplit g f.e fun x => { x with st := .running }
      s.takeTrap g { recs := f.recs, e := f.e, src := .scalar f.e pc (pc + 4) true }) s
/-- The fault of a sequencer's quantum delivered (R238, R261). -/
def State.deliverSeq (s : State) (b : BKey) : State :=
  match (s.seq b).olFault with
  | none => s
  | some f =>
    let s := s.updSeq b fun q => { q with olFault := none }
    if f.kind = 0x0C then s.matrixFault b f.addr else s.seqFault b f
/-- A group's, a sequencer's quantum begun (DEDUCED, log entry 36). -/
def State.nextQuantum (s : State) : CAgent → State
  | .grp g => s.updGroup g fun x => { x with bregs := x.bregs.map fun p => (p.1, { p.2 with seen := p.2.limit }), q := { ops := x.q.ops, vsnap := x.vregs, olsnap := x.olcnt } }
  | .seq b => s.updBlock b fun x => { x with seq := x.seq.map fun q =>
      { q with quant := { ops := q.quant.ops, ol := q.quant.ol, lateOl := q.quant.lateOl, lateRegs := q.quant.lateRegs, audit := q.auditCode } } }
/-- The changes of mappings that waited for the commits of a context's ordered regions, when all of them stand
between two quanta: inputs of the commit just made (R315) (DEDUCED, log entry 58). -/
def State.applyLater (s : State) (c : CKey) : State :=
  let rs := (s.regions.filter fun p => decide (p.1.c = c) && p.2.listens)
  let again : List (List RegWrite) := rs.map fun p => (s.replayed p.1 ((s.region p.1).quantum - 1)).filterMap fun y => y.change
  let ws : List RegWrite := if (s.ctx c).replay.isNone then (s.ctx c).later else again.flatten.eraseDups
  if ws.isEmpty || !rs.all (fun p => s.atBoundary p.1) then s
  else
    let s := if (s.ctx c).replay.isSome then s else s.updCtx c fun x => { x with later := [] }
    let s := ws.foldl (fun s w =>
      let s := s.changePages w
      if (s.ctx c).logs then
        rs.foldl (fun s p =>
          let q := (s.region p.1).quantum - 1
          s.updCtx c fun x => { x with log := x.log ++
            [{ logEntry p.1.id q (s.nextSeq p.1 q) { kind := 4, target := pageOf w } with change := some w }] }) s
      else s) s
    s.olRetryAll

/-- The commit of a region's quantum; in a replay the logged inputs take the place of the live ones (R382). -/
def State.commit (s : State) (r : RKey) : State :=
  let x := s.region r
  let q := x.quantum
  let ags := s.agents r q
  let gs := s.ranked r q
  let old := s.replayed r q
  let ins := if (s.ctx r.c).replay.isNone then x.inputs else (old.filter fun y => y.change.isNone && y.fields.isEmpty).map (s.injected r)
  let mem := (ins.flatMap (·.cells)).filter fun w => match w.1 with
    | .mem _ => true
    | .scr _ _ => false
  let kept := if (s.ctx r.c).replay.isNone then mem.map fun w => (w.1, s.rawByte w.1) else mem
  let s := ags.foldl (fun s a => s.commitStores a) (s.withoutInputs r)
  let s := s.commitAtoms gs
  let s := old.foldl (fun s y => s.injectFields y) (s.commitInputs r q ins kept)
  let s := (ags.foldl (fun s a => s.commitOps a) s).commitDone r
  let s := gs.foldl (fun s g => s.commitHist g) s
  let s := gs.foldl (fun s g => s.commitCopies g) (gs.foldl (fun s g => s.readCopies g) s)
  let s := gs.foldl (fun s g => s.commitWaits g) s
  let s := gs.foldl (fun s g => s.deliverFails g) s
  let ended := gs.filter fun g => (s.group g).ended
  let s := (ended.foldl (fun s g => s.commitOps (.grp g)) s).commitDone r
  let s := ags.foldl (fun s a => match a with
    | .seq b => s.deliverSeq b
    | .grp _ => s) s
  let s := (s.agents r (q + 1)).foldl (fun s a => s.nextQuantum a) s
  let s := gs.foldl (fun s g => if (s.groups.get? g).isSome then s.olRetry g else s) s
  let s := s.updRegion r fun y =>
    { y with
      quantum := q + 1
      commitAt := none
      pages := none
      bars := y.bars.map fun k => (k.1, { k.2 with releases := [] })
      seen := s.regionCodes r.c }
  let s : State := { s with blocks := s.blocks.map fun p => if p.1.r = r then (p.1, { p.2 with bar := { p.2.bar with releases := [] } }) else p }
  s.applyLater r.c

/-! ## When a commit takes place (R308, R316, R373) -/

/-- Whether a pending operation of a group can proceed. -/
def State.opCan (s : State) (g : GKey) (op : QOp) : Bool :=
  match op with
  | .give n _ d => ((s.ring g.b n).fix d).canGive
  | .take n _ d => ((s.ring g.b n).fix d).canTake
  | .push n _ ents _ _ _ => ((s.block g.b).banks[n]?).all fun k => decide (k.mode ≠ .fifo) || k.fifo.length + ents.length ≤ 8192
  | .pop n _ _ _ lanes _ _ => ((s.block g.b).banks[n]?).all fun k => decide (k.mode ≠ .fifo) || k.fifo.length ≥ (lanesOf lanes).length
  | .barrier t e _ => !(s.bar g.b t).next g e
  | .bankcfg _ _ mask dest => match (s.block g.b).cfgDiff mask dest with
    | none => true
    | some _ => !s.copiesTouch g.b mask
  | .claim _ => s.holdsArray g || (s.core (s.coreOf g)).camp.isNone
  | _ => true
/-- Whether the wait of a split can end. -/
def State.waitCan (s : State) (g : GKey) (e : Nat) : Bool :=
  !(s.split g e).susp && match (s.split g e).st with
    | .parked (.wait ..) => s.rereadReady g e
    | .parked (.region v n) => s.waitOver g v || s.regionOver g v n
    | .parked (.batch n) => ((s.group g).covered n).all (·.cmds.isEmpty)
    | .parked .exitBatches => (s.group g).batches.all (·.cmds.isEmpty)
    | .parked .fence => !s.lanesPending g e
    | .parked (.barrier t i) => i < (s.bar g.b t).inst
    | _ => false
/-- Whether a split that stands at the end of its quantum can go on: what it is parked for has come (R316). -/
def State.entryCan (s : State) (g : GKey) (e : Nat) : Bool :=
  match s.visit g e false with
  | some (.scalar _) | some (.lane _) => true
  | _ => false
/-- Whether a copy of a group can read, write or complete. -/
def State.copyCan (s : State) (g : GKey) : Bool :=
  (s.cluster (s.clusterOf g)).copyQ.any fun c => decide (c.g = g) &&
    (if c.sent then c.packets.isEmpty
     else c.data.elim (s.copyResident c) fun _ => s.copyTurn c && (s.group g).batches.any fun b => b.covered && b.cmds.contains c.id)
def State.seqOpCan (s : State) (b : BKey) (op : QOp) : Bool :=
  match op with
  | .seqGive n d => ((s.ring b n).fix d).canGive
  | .seqTake n d => ((s.ring b n).fix d).canTake
  | _ => true
/-- Whether a commit of a region would do something: an agent has retired an instruction, an input has come, or
something pending can proceed (DEDUCED, log entry 37). -/
def State.commitDue (s : State) (r : RKey) : Bool :=
  let x := s.region r
  let gs := (s.groups.filter fun p => decide (p.1.b.r = r) && p.1.sh == 0).map (·.1)
  !x.inputs.isEmpty || !(s.ctx r.c).later.isEmpty ||
    (gs.any fun g =>
      let y := s.group g
      y.q.count > 0 || y.q.due || y.q.ops.any (s.opCan g) || y.ents.any (fun p => s.waitCan g p.1 || (!(y.stopping && s.atSafePoint g) && s.entryCan g p.1)) || s.fixReady g ||
        s.copyCan g) ||
    (s.standing r).any fun p => p.2.seq.any fun q =>
      q.quant.count > 0 || q.quant.due || q.olFault.isSome || q.quant.ops.any (s.seqOpCan p.1) || match q.st with
        | .parked .record => !s.recordWaits p.1
        | .parked k => s.seqWaitOver p.1 k
        | _ => false
/-- Whether the commit begins: the quantum barrier has let it, no agent is halted, no block of the region is saved, so that it commits
what a region that was never pre-empted commits (R317), the lines of its loads have come (R302), and the region is not idle. -/
def State.commitReady (s : State) (r : RKey) : Bool :=
  match (s.region r).commitAt with
  | none => false
  | some t =>
    (s.region r).listens && t ≤ s.cycle && s.allOver r && (s.region r).saved.isEmpty &&
      (s.groups.all fun p => decide (p.1.b.r ≠ r) || !p.2.halted) &&
      (s.groups.all fun p => decide (p.1.b.r ≠ r) || p.2.outst.all (·.fills.isEmpty)) &&
      ((s.standing r).all fun p => p.2.seq.all fun q => !q.halted) && s.commitDue r
/-- QUANTUM_COMMIT (R310). -/
def execQuantumCommit (s : State) : Host.Outcome State Fault Refusal :=
  .next <| match s.turn with
  | .event (.quantumCommit r) => if s.commitReady r then s.commit r else s
  | _ => s

end Sys2Proof.Machine
end

