-- ==== Sys2Proof/Machine/Dispatch.lean ====
section
/-! DEFINITION. Which meaning each instruction has: one arm per constructor, one direct call each. -/

namespace Sys2Proof.Machine

def exec (i : Instr) (s : State) : Host.Outcome State Fault Refusal :=
  match i with
  | .illegal x0 => Sys2Proof.Machine.execIllegal x0 s
  | .illegal3f x0 => Sys2Proof.Machine.execIllegal3f x0 s
  | .add x0 x1 x2 => Sys2Proof.Machine.execAdd x0 x1 x2 s
  | .sub x0 x1 x2 => Sys2Proof.Machine.execSub x0 x1 x2 s
  | .and x0 x1 x2 => Sys2Proof.Machine.execAnd x0 x1 x2 s
  | .or x0 x1 x2 => Sys2Proof.Machine.execOr x0 x1 x2 s
  | .xor x0 x1 x2 => Sys2Proof.Machine.execXor x0 x1 x2 s
  | .andn x0 x1 x2 => Sys2Proof.Machine.execAndn x0 x1 x2 s
  | .shl x0 x1 x2 => Sys2Proof.Machine.execShl x0 x1 x2 s
  | .shr x0 x1 x2 => Sys2Proof.Machine.execShr x0 x1 x2 s
  | .sar x0 x1 x2 => Sys2Proof.Machine.execSar x0 x1 x2 s
  | .mul x0 x1 x2 => Sys2Proof.Machine.execMul x0 x1 x2 s
  | .mulh x0 x1 x2 => Sys2Proof.Machine.execMulh x0 x1 x2 s
  | .mulhn x0 x1 x2 => Sys2Proof.Machine.execMulhn x0 x1 x2 s
  | .div x0 x1 x2 => Sys2Proof.Machine.execDiv x0 x1 x2 s
  | .divn x0 x1 x2 => Sys2Proof.Machine.execDivn x0 x1 x2 s
  | .rem x0 x1 x2 => Sys2Proof.Machine.execRem x0 x1 x2 s
  | .remn x0 x1 x2 => Sys2Proof.Machine.execRemn x0 x1 x2 s
  | .min x0 x1 x2 => Sys2Proof.Machine.execMin x0 x1 x2 s
  | .max x0 x1 x2 => Sys2Proof.Machine.execMax x0 x1 x2 s
  | .minn x0 x1 x2 => Sys2Proof.Machine.execMinn x0 x1 x2 s
  | .maxn x0 x1 x2 => Sys2Proof.Machine.execMaxn x0 x1 x2 s
  | .slt x0 x1 x2 => Sys2Proof.Machine.execSlt x0 x1 x2 s
  | .sltn x0 x1 x2 => Sys2Proof.Machine.execSltn x0 x1 x2 s
  | .seq x0 x1 x2 => Sys2Proof.Machine.execSeq x0 x1 x2 s
  | .popc x0 x1 => Sys2Proof.Machine.execPopc x0 x1 s
  | .clz x0 x1 => Sys2Proof.Machine.execClz x0 x1 s
  | .ctz x0 x1 => Sys2Proof.Machine.execCtz x0 x1 s
  | .addi x0 x1 x2 => Sys2Proof.Machine.execAddi x0 x1 x2 s
  | .andi x0 x1 x2 => Sys2Proof.Machine.execAndi x0 x1 x2 s
  | .ori x0 x1 x2 => Sys2Proof.Machine.execOri x0 x1 x2 s
  | .xori x0 x1 x2 => Sys2Proof.Machine.execXori x0 x1 x2 s
  | .slti x0 x1 x2 => Sys2Proof.Machine.execSlti x0 x1 x2 s
  | .sltni x0 x1 x2 => Sys2Proof.Machine.execSltni x0 x1 x2 s
  | .shli x0 x1 x2 => Sys2Proof.Machine.execShli x0 x1 x2 s
  | .shri x0 x1 x2 => Sys2Proof.Machine.execShri x0 x1 x2 s
  | .sari x0 x1 x2 => Sys2Proof.Machine.execSari x0 x1 x2 s
  | .ldi x0 x1 => Sys2Proof.Machine.execLdi x0 x1 s
  | .ldh1 x0 x1 => Sys2Proof.Machine.execLdh1 x0 x1 s
  | .ldh2 x0 x1 => Sys2Proof.Machine.execLdh2 x0 x1 s
  | .ldh3 x0 x1 => Sys2Proof.Machine.execLdh3 x0 x1 s
  | .bfx x0 x1 x2 x3 => Sys2Proof.Machine.execBfx x0 x1 x2 x3 s
  | .bfi x0 x1 x2 x3 => Sys2Proof.Machine.execBfi x0 x1 x2 x3 s
  | .cmov x0 x1 x2 => Sys2Proof.Machine.execCmov x0 x1 x2 s
  | .sld x0 x1 x2 x3 => Sys2Proof.Machine.execSld x0 x1 x2 x3 s
  | .sst x0 x1 x2 x3 => Sys2Proof.Machine.execSst x0 x1 x2 x3 s
  | .beq x0 x1 x2 => Sys2Proof.Machine.execBeq x0 x1 x2 s
  | .bne x0 x1 x2 => Sys2Proof.Machine.execBne x0 x1 x2 s
  | .blt x0 x1 x2 => Sys2Proof.Machine.execBlt x0 x1 x2 s
  | .bge x0 x1 x2 => Sys2Proof.Machine.execBge x0 x1 x2 s
  | .bltn x0 x1 x2 => Sys2Proof.Machine.execBltn x0 x1 x2 s
  | .bgen x0 x1 x2 => Sys2Proof.Machine.execBgen x0 x1 x2 s
  | .jmp x0 => Sys2Proof.Machine.execJmp x0 s
  | .jal x0 => Sys2Proof.Machine.execJal x0 s
  | .jalr x0 x1 x2 => Sys2Proof.Machine.execJalr x0 x1 x2 s
  | .callf1 x0 => Sys2Proof.Machine.execCallf1 x0 s
  | .callf2 x0 => Sys2Proof.Machine.execCallf2 x0 s
  | .split x0 x1 x2 => Sys2Proof.Machine.execSplit x0 x1 x2 s
  | .switch x0 x1 => Sys2Proof.Machine.execSwitch x0 x1 s
  | .kill x0 => Sys2Proof.Machine.execKill x0 s
  | .nap x0 => Sys2Proof.Machine.execNap x0 s
  | .splrd x0 x1 => Sys2Proof.Machine.execSplrd x0 x1 s
  | .lrun x0 => Sys2Proof.Machine.execLrun x0 s
  | .bind x0 x1 => Sys2Proof.Machine.execBind x0 x1 s
  | .unbind x0 => Sys2Proof.Machine.execUnbind x0 s
  | .bstat x0 x1 => Sys2Proof.Machine.execBstat x0 x1 s
  | .cwset x0 x1 x2 => Sys2Proof.Machine.execCwset x0 x1 x2 s
  | .cwinv x0 => Sys2Proof.Machine.execCwinv x0 s
  | .srd x0 x1 => Sys2Proof.Machine.execSrd x0 x1 s
  | .swr x0 x1 => Sys2Proof.Machine.execSwr x0 x1 s
  | .mtestAny x0 x1 => Sys2Proof.Machine.execMtestAny x0 x1 s
  | .mtestAll x0 x1 => Sys2Proof.Machine.execMtestAll x0 x1 s
  | .mtestNone x0 x1 => Sys2Proof.Machine.execMtestNone x0 x1 s
  | .mcnt x0 x1 => Sys2Proof.Machine.execMcnt x0 x1 s
  | .sget x0 x1 x2 => Sys2Proof.Machine.execSget x0 x1 x2 s
  | .launch x0 x1 => Sys2Proof.Machine.execLaunch x0 x1 s
  | .launchv x0 x1 x2 => Sys2Proof.Machine.execLaunchv x0 x1 x2 s
  | .rwait x0 => Sys2Proof.Machine.execRwait x0 s
  | .rstat x0 x1 => Sys2Proof.Machine.execRstat x0 x1 s
  | .cpy x0 x1 x2 => Sys2Proof.Machine.execCpy x0 x1 x2 s
  | .cpy2d x0 x1 x2 => Sys2Proof.Machine.execCpy2d x0 x1 x2 s
  | .cpyg x0 x1 x2 => Sys2Proof.Machine.execCpyg x0 x1 x2 s
  | .cbatch x0 => Sys2Proof.Machine.execCbatch x0 s
  | .cwait x0 => Sys2Proof.Machine.execCwait x0 s
  | .bankcfg x0 x1 => Sys2Proof.Machine.execBankcfg x0 x1 s
  | .bankst x0 x1 => Sys2Proof.Machine.execBankst x0 x1 s
  | .rret x0 x1 x2 => Sys2Proof.Machine.execRret x0 x1 x2 s
  | .satom x0 x1 x2 x3 x4 => Sys2Proof.Machine.execSatom x0 x1 x2 x3 x4 s
  | .scas x0 x1 x2 x3 => Sys2Proof.Machine.execScas x0 x1 x2 x3 s
  | .waiteq x0 x1 x2 => Sys2Proof.Machine.execWaiteq x0 x1 x2 s
  | .waitne x0 x1 x2 => Sys2Proof.Machine.execWaitne x0 x1 x2 s
  | .fence x0 => Sys2Proof.Machine.execFence x0 s
  | .ringGive x0 x1 => Sys2Proof.Machine.execRingGive x0 x1 s
  | .ringTake x0 x1 => Sys2Proof.Machine.execRingTake x0 x1 s
  | .ringPeek x0 x1 => Sys2Proof.Machine.execRingPeek x0 x1 s
  | .barArrive x0 => Sys2Proof.Machine.execBarArrive x0 s
  | .barWait x0 => Sys2Proof.Machine.execBarWait x0 s
  | .barRoute x0 => Sys2Proof.Machine.execBarRoute x0 s
  | .twin x0 x1 => Sys2Proof.Machine.execTwin x0 x1 s
  | .tmode x0 => Sys2Proof.Machine.execTmode x0 s
  | .tchain x0 => Sys2Proof.Machine.execTchain x0 s
  | .hsave x0 => Sys2Proof.Machine.execHsave x0 s
  | .hload x0 => Sys2Proof.Machine.execHload x0 s
  | .hclr x0 => Sys2Proof.Machine.execHclr x0 s
  | .hrd x0 x1 => Sys2Proof.Machine.execHrd x0 x1 s
  | .hwr x0 x1 => Sys2Proof.Machine.execHwr x0 x1 s
  | .cntRd x0 x1 => Sys2Proof.Machine.execCntRd x0 x1 s
  | .pgreq x0 => Sys2Proof.Machine.execPgreq x0 s
  | .pgq x0 x1 => Sys2Proof.Machine.execPgq x0 x1 s
  | .trap x0 => Sys2Proof.Machine.execTrap x0 s
  | .sysc x0 => Sys2Proof.Machine.execSysc x0 s
  | .rteRe x0 => Sys2Proof.Machine.execRteRe x0 s
  | .fltrd x0 x1 => Sys2Proof.Machine.execFltrd x0 x1 s
  | .ctxSave x0 x1 => Sys2Proof.Machine.execCtxSave x0 x1 s
  | .ctxLoad x0 x1 => Sys2Proof.Machine.execCtxLoad x0 x1 s
  | .tlbinv x0 x1 => Sys2Proof.Machine.execTlbinv x0 x1 s
  | .brk x0 => Sys2Proof.Machine.execBrk x0 s
  | .wptSet x0 x1 x2 => Sys2Proof.Machine.execWptSet x0 x1 x2 s
  | .wptClr x0 => Sys2Proof.Machine.execWptClr x0 s
  | .smark x0 => Sys2Proof.Machine.execSmark x0 s
  | .traceWr x0 x1 => Sys2Proof.Machine.execTraceWr x0 x1 s
  | .vadd x0 => Sys2Proof.Machine.execVadd x0 s
  | .vsub x0 => Sys2Proof.Machine.execVsub x0 s
  | .vmul x0 => Sys2Proof.Machine.execVmul x0 s
  | .vmulh x0 => Sys2Proof.Machine.execVmulh x0 s
  | .vmad x0 => Sys2Proof.Machine.execVmad x0 s
  | .vmin x0 => Sys2Proof.Machine.execVmin x0 s
  | .vmax x0 => Sys2Proof.Machine.execVmax x0 s
  | .vabs x0 => Sys2Proof.Machine.execVabs x0 s
  | .vneg x0 => Sys2Proof.Machine.execVneg x0 s
  | .vand x0 => Sys2Proof.Machine.execVand x0 s
  | .vor x0 => Sys2Proof.Machine.execVor x0 s
  | .vxor x0 => Sys2Proof.Machine.execVxor x0 s
  | .vandn x0 => Sys2Proof.Machine.execVandn x0 s
  | .vnot x0 => Sys2Proof.Machine.execVnot x0 s
  | .vshl x0 => Sys2Proof.Machine.execVshl x0 s
  | .vshr x0 => Sys2Proof.Machine.execVshr x0 s
  | .vsar x0 => Sys2Proof.Machine.execVsar x0 s
  | .vpopc x0 => Sys2Proof.Machine.execVpopc x0 s
  | .vclz x0 => Sys2Proof.Machine.execVclz x0 s
  | .vbfx x0 => Sys2Proof.Machine.execVbfx x0 s
  | .vbfi x0 => Sys2Proof.Machine.execVbfi x0 s
  | .vmov x0 => Sys2Proof.Machine.execVmov x0 s
  | .vmovi x0 => Sys2Proof.Machine.execVmovi x0 s
  | .vsel x0 => Sys2Proof.Machine.execVsel x0 s
  | .vlane x0 => Sys2Proof.Machine.execVlane x0 s
  | .lend x0 => Sys2Proof.Machine.execLend x0 s
  | .vnop x0 => Sys2Proof.Machine.execVnop x0 s
  | .vcmp x0 x1 => Sys2Proof.Machine.execVcmp x0 x1 s
  | .vfadd x0 => Sys2Proof.Machine.execVfadd x0 s
  | .vfsub x0 => Sys2Proof.Machine.execVfsub x0 s
  | .vfmul x0 => Sys2Proof.Machine.execVfmul x0 s
  | .vffma x0 => Sys2Proof.Machine.execVffma x0 s
  | .vfmin x0 => Sys2Proof.Machine.execVfmin x0 s
  | .vfmax x0 => Sys2Proof.Machine.execVfmax x0 s
  | .vfabs x0 => Sys2Proof.Machine.execVfabs x0 s
  | .vfneg x0 => Sys2Proof.Machine.execVfneg x0 s
  | .vfsign x0 => Sys2Proof.Machine.execVfsign x0 s
  | .vfdiv x0 => Sys2Proof.Machine.execVfdiv x0 s
  | .vfsqrt x0 => Sys2Proof.Machine.execVfsqrt x0 s
  | .vfrcp x0 => Sys2Proof.Machine.execVfrcp x0 s
  | .vfrsq x0 => Sys2Proof.Machine.execVfrsq x0 s
  | .vfexp2 x0 => Sys2Proof.Machine.execVfexp2 x0 s
  | .vflog2 x0 => Sys2Proof.Machine.execVflog2 x0 s
  | .vfcmp x0 x1 => Sys2Proof.Machine.execVfcmp x0 x1 s
  | .vfclass x0 => Sys2Proof.Machine.execVfclass x0 s
  | .vdot4 x0 => Sys2Proof.Machine.execVdot4 x0 s
  | .vdot2 x0 => Sys2Proof.Machine.execVdot2 x0 s
  | .vcvt x0 => Sys2Proof.Machine.execVcvt x0 s
  | .vcvtO x0 => Sys2Proof.Machine.execVcvtO x0 s
  | .vternPack x0 => Sys2Proof.Machine.execVternPack x0 s
  | .vternUnpack x0 => Sys2Proof.Machine.execVternUnpack x0 s
  | .mand x0 => Sys2Proof.Machine.execMand x0 s
  | .mor x0 => Sys2Proof.Machine.execMor x0 s
  | .mxor x0 => Sys2Proof.Machine.execMxor x0 s
  | .mandn x0 => Sys2Proof.Machine.execMandn x0 s
  | .mnot x0 => Sys2Proof.Machine.execMnot x0 s
  | .mmov x0 => Sys2Proof.Machine.execMmov x0 s
  | .msetMask x0 => Sys2Proof.Machine.execMsetMask x0 s
  | .mfirst x0 => Sys2Proof.Machine.execMfirst x0 s
  | .vshfl x0 => Sys2Proof.Machine.execVshfl x0 s
  | .vbcast x0 => Sys2Proof.Machine.execVbcast x0 s
  | .vrot x0 => Sys2Proof.Machine.execVrot x0 s
  | .vvote x0 x1 => Sys2Proof.Machine.execVvote x0 x1 s
  | .vred x0 x1 => Sys2Proof.Machine.execVred x0 x1 s
  | .vscan x0 x1 => Sys2Proof.Machine.execVscan x0 x1 s
  | .vld x0 => Sys2Proof.Machine.execVld x0 s
  | .vst x0 => Sys2Proof.Machine.execVst x0 s
  | .vldu x0 => Sys2Proof.Machine.execVldu x0 s
  | .vstu x0 => Sys2Proof.Machine.execVstu x0 s
  | .vprf x0 => Sys2Proof.Machine.execVprf x0 s
  | .vatom x0 x1 => Sys2Proof.Machine.execVatom x0 x1 s
  | .vatomNr x0 x1 => Sys2Proof.Machine.execVatomNr x0 x1 s
  | .vlds x0 => Sys2Proof.Machine.execVlds x0 s
  | .vsts x0 => Sys2Proof.Machine.execVsts x0 s
  | .vfpush x0 => Sys2Proof.Machine.execVfpush x0 s
  | .vfpop x0 => Sys2Proof.Machine.execVfpop x0 s
  | .tdly x0 => Sys2Proof.Machine.execTdly x0 s
  | .tlaunch x0 => Sys2Proof.Machine.execTlaunch x0 s
  | .tcap x0 => Sys2Proof.Machine.execTcap x0 s
  | .trank x0 => Sys2Proof.Machine.execTrank x0 s
  | .macq x0 => Sys2Proof.Machine.execMacq x0 s
  | .mrel x0 => Sys2Proof.Machine.execMrel x0 s
  | .mwload x0 x1 => Sys2Proof.Machine.execMwload x0 x1 s
  | .mmul x0 => Sys2Proof.Machine.execMmul x0 s
  | .mmulScr x0 => Sys2Proof.Machine.execMmulScr x0 s
  | .mmula x0 => Sys2Proof.Machine.execMmula x0 s
  | .mstore x0 x1 => Sys2Proof.Machine.execMstore x0 x1 s
  | .mzero x0 => Sys2Proof.Machine.execMzero x0 s
  | .mgive x0 => Sys2Proof.Machine.execMgive x0 s
  | .mtake x0 => Sys2Proof.Machine.execMtake x0 s
  | .mloop x0 => Sys2Proof.Machine.execMloop x0 s
  | .mset x0 => Sys2Proof.Machine.execMset x0 s
  | .msetHi x0 => Sys2Proof.Machine.execMsetHi x0 s
  | .msetV x0 => Sys2Proof.Machine.execMsetV x0 s
  | .madd x0 => Sys2Proof.Machine.execMadd x0 s
  | .mend x0 => Sys2Proof.Machine.execMend x0 s
  | .maudit x0 => Sys2Proof.Machine.execMaudit x0 s
  | .mauditOff x0 => Sys2Proof.Machine.execMauditOff x0 s
  | .adpf x0 => Sys2Proof.Machine.execAdpf x0 s
  | .adinv x0 => Sys2Proof.Machine.execAdinv x0 s
  | .adinvAll x0 => Sys2Proof.Machine.execAdinvAll x0 s
  | .ret => Sys2Proof.Machine.execRet s
  | .exit => Sys2Proof.Machine.execExit s
  | .yield => Sys2Proof.Machine.execYield s
  | .lsync => Sys2Proof.Machine.execLsync s
  | .fenceEng => Sys2Proof.Machine.execFenceEng s
  | .barBlk => Sys2Proof.Machine.execBarBlk s
  | .tacq => Sys2Proof.Machine.execTacq s
  | .trel => Sys2Proof.Machine.execTrel s
  | .treset => Sys2Proof.Machine.execTreset s
  | .qend => Sys2Proof.Machine.execQend s
  | .rte => Sys2Proof.Machine.execRte s
  | .rteSkip => Sys2Proof.Machine.execRteSkip s
  | .forkResolve => Sys2Proof.Machine.execForkResolve s
  | .fusion => Sys2Proof.Machine.execFusion s
  | .joinWindowExpiry => Sys2Proof.Machine.execJoinWindowExpiry s
  | .napExpiry => Sys2Proof.Machine.execNapExpiry s
  | .blockAdmit => Sys2Proof.Machine.execBlockAdmit s
  | .regionStarvation => Sys2Proof.Machine.execRegionStarvation s
  | .regionComplete => Sys2Proof.Machine.execRegionComplete s
  | .copyCommandComplete => Sys2Proof.Machine.execCopyCommandComplete s
  | .bankSwitchComplete => Sys2Proof.Machine.execBankSwitchComplete s
  | .waitReread => Sys2Proof.Machine.execWaitReread s
  | .parkedGiveWake => Sys2Proof.Machine.execParkedGiveWake s
  | .parkedTakeWake => Sys2Proof.Machine.execParkedTakeWake s
  | .barrierRelease => Sys2Proof.Machine.execBarrierRelease s
  | .syscReply => Sys2Proof.Machine.execSyscReply s
  | .fifoWaitEnd => Sys2Proof.Machine.execFifoWaitEnd s
  | .resultReturn => Sys2Proof.Machine.execResultReturn s
  | .lineFillComplete => Sys2Proof.Machine.execLineFillComplete s
  | .adapterFillComplete => Sys2Proof.Machine.execAdapterFillComplete s
  | .auditRecord => Sys2Proof.Machine.execAuditRecord s
  | .frontListPromotion => Sys2Proof.Machine.execFrontListPromotion s
  | .quantumEnd => Sys2Proof.Machine.execQuantumEnd s
  | .quantumCommit => Sys2Proof.Machine.execQuantumCommit s
  | .sliceEnd => Sys2Proof.Machine.execSliceEnd s
  | .pageMadeResident => Sys2Proof.Machine.execPageMadeResident s
  | .pageMove => Sys2Proof.Machine.execPageMove s
  | .networkPacketReceive => Sys2Proof.Machine.execNetworkPacketReceive s
  | .ackReceive => Sys2Proof.Machine.execAckReceive s
  | .flowRetryLimit => Sys2Proof.Machine.execFlowRetryLimit s
  | .keepRequestMessage => Sys2Proof.Machine.execKeepRequestMessage s
  | .migration => Sys2Proof.Machine.execMigration s
  | .migrationRecordReceive => Sys2Proof.Machine.execMigrationRecordReceive s
  | .ptpMessage => Sys2Proof.Machine.execPtpMessage s
  | .hello => Sys2Proof.Machine.execHello s
  | .proof => Sys2Proof.Machine.execProof s
  | .sessionIdleTimeout => Sys2Proof.Machine.execSessionIdleTimeout s
  | .attach => Sys2Proof.Machine.execAttach s
  | .detach => Sys2Proof.Machine.execDetach s
  | .halt => Sys2Proof.Machine.execHalt s
  | .resume => Sys2Proof.Machine.execResume s
  | .step => Sys2Proof.Machine.execStep s
  | .read => Sys2Proof.Machine.execRead s
  | .write => Sys2Proof.Machine.execWrite s
  | .memrd => Sys2Proof.Machine.execMemrd s
  | .memwr => Sys2Proof.Machine.execMemwr s
  | .setbp => Sys2Proof.Machine.execSetbp s
  | .clrbp => Sys2Proof.Machine.execClrbp s
  | .setwp => Sys2Proof.Machine.execSetwp s
  | .clrwp => Sys2Proof.Machine.execClrwp s
  | .sample => Sys2Proof.Machine.execSample s
  | .trace => Sys2Proof.Machine.execTrace s
  | .counters => Sys2Proof.Machine.execCounters s
  | .breakpointMatch => Sys2Proof.Machine.execBreakpointMatch s
  | .registerWrite => Sys2Proof.Machine.execRegisterWrite s
  | .monitorPoll => Sys2Proof.Machine.execMonitorPoll s
  | .droopDetect => Sys2Proof.Machine.execDroopDetect s
  | .droopRecover => Sys2Proof.Machine.execDroopRecover s
  | .boot => Sys2Proof.Machine.execBoot s
  | .attestationRequest => Sys2Proof.Machine.execAttestationRequest s
  | .firmwareUpdate => Sys2Proof.Machine.execFirmwareUpdate s
  | .firmwareRecovery => Sys2Proof.Machine.execFirmwareRecovery s
  | .maintenanceFence => Sys2Proof.Machine.execMaintenanceFence s
  | .unassignedEncoding => Sys2Proof.Machine.execUnassignedEncoding s
  | .accessPerformed => Sys2Proof.Machine.execAccessPerformed s
  | .matrixWordComplete => Sys2Proof.Machine.execMatrixWordComplete s
  | .campanileOperationComplete => Sys2Proof.Machine.execCampanileOperationComplete s
  | .softError => Sys2Proof.Machine.execSoftError s
  | .junctionShutdown => Sys2Proof.Machine.execJunctionShutdown s
  | .packetRetransmit => Sys2Proof.Machine.execPacketRetransmit s
  | .gangSliceStart => Sys2Proof.Machine.execGangSliceStart s
  | .translationComplete => Sys2Proof.Machine.execTranslationComplete s

end Sys2Proof.Machine
end

