-- ==== Sys2Proof/Machine/Fetch.lean ====
section
/-! DEFINITION. The fetch of the turn's word, and which turns can come next (R32, R44, R103, R104, R139, R374). -/

namespace Sys2Proof.Machine

/-! ## Fetching a word -/

/-- How a fetch ends: the word, a fault of a kind, or a page to wait for. -/
inductive Fetched where
  | ok (w : Nat)
  | fault (kind : Nat)
  | wait (va : Nat)
  /-- A copy command owns a line of it (R224). -/
  | owned (va : Nat)
deriving DecidableEq, Repr

/-- The word of some bytes at an address, as a split reads it; it may lie on two pages (R27, R32)
(DEDUCED, log entry 45). -/
def State.fetchAt (s : State) (g : GKey) (e va n : Nat) : State × Fetched :=
  let h := min n (4096 - va % 4096)
  let read (s : State) (ls : List Loc) : Fetched :=
    match (List.range n).find? fun i => s.ownedAt (ls.getD i (.mem 0)) with
    | some i => .owned (va + i)
    | none => if ls.any (s.poisonFor g e) then .fault 0x0B else .ok (leNat (ls.map (s.readByte g e)))
  if va + n > 2 ^ 56 then (s, .fault 5)
  else match s.xlate g va true false with
    | (s, .fault _) => (s, .fault 5)
    | (s, .nonres) => (s, .wait va)
    | (s, .ok a) =>
      if h = n then (s, read s (Loc.span (.mem a) n))
      else match s.xlate g (va + h) true false with
        | (s, .fault _) => (s, .fault 5)
        | (s, .nonres) => (s, .wait (va + h))
        | (s, .ok b) => (s, read s (Loc.span (.mem a) h ++ Loc.span (.mem b) (n - h)))

/-- The instruction of a fetched word. -/
def instrOf (st : Stream) (w : Nat) : Instr := decodeWord st (BitVec.ofNat 96 w)

/-- A lane word that a fault record names without its bits, since it could not be fetched. -/
def unread : Nat := 2 ^ 96
/-- A lane word that cannot be fetched: the access fault of the whole instruction (R104) (DEDUCED, log entry 47). -/
def State.laneFetchFault (s : State) (g : GKey) (e k : Nat) : State :=
  let blk := s.head g e
  if (s.group g).fork.isSome then s.laneStop g e
  else
    let s := if blk.again.all (·.count) then s.count g e else s
    let r := deferredRec blk (State.frec { kind := k, addr := blk.pc.toNat } 255 e true blk.pc blk.lrunPc)
    (s.advanceLane g e false false).takeTrap g { recs := [r], e, lanei := true, src := .lane e blk unread blk.mask }
/-- The head of a lane queue fetched, unless it is a continuation's that finds no free register, which waits for its fork (R133). A word executed again after a fetch that failed is fetched anew, in the lanes
named for it that its mask then selects. -/
def State.fetchLane (s : State) (g : GKey) (e : Nat) : State × Option Instr :=
  let blk := s.head g e
  if (s.group g).fork.isSome && !s.regRoom g e then (s.updSplit g e fun p => { p with lpark := some .fork }, none)
  else match blk.again.filter (·.word < unread) with
  | some a => (s, some (instrOf .lane a.word))
  | none =>
    match s.fetchAt g e blk.pc.toNat 12 with
    | (s, .fault k) => (s.laneFetchFault g e k, none)
    | (s, .wait va) => (s.updSplit g e fun p => { p with lpark := some (.page va) }, none)
    | (s, .owned va) => (s.updSplit g e fun p => { p with lpark := some (.owned va) }, none)
    | (s, .ok w) =>
      let i := instrOf .lane w
      match blk.again with
      | none => (s, some i)
      | some a =>
        let m := (laneArgsOf i).elim 0 (·.m.toNat)
        let b : QBlk := { blk with again := some { a with word := w, lanes := a.lanes &&& s.getM g blk.mask m } }
        (s.updSplit g e fun p => { p with queue := b :: p.queue.drop 1 }, some i)
/-- The next word of a scalar stream fetched (DEDUCED, log entry 46). -/
def State.fetchScalar (s : State) (g : GKey) (e : Nat) : State × Option Instr :=
  let pc := (s.split g e).pc
  if !s.inScalar g.b.r pc.toNat then (s.scalarFault g e { kind := 5, addr := pc.toNat }, none)
  else match s.fetchAt g e pc.toNat 4 with
  | (s, .ok w) => (s, some (instrOf .scalar w))
  | (s, .fault k) => (s.scalarFault g e { kind := k, addr := pc.toNat }, none)
  | (s, .wait va) => (s.park g e (.page va), none)
  | (s, .owned va) => (s.park g e (.owned va), none)
/-- The next word of a sequencer fetched (R238, R251). A fetch that faults waits for the words in execution whose own fault comes before it
(R248). -/
def State.fetchSeq (s : State) (b : BKey) : State × Option Instr :=
  let q := s.seq b
  let fails (k : Nat) : State × Option Instr :=
    if s.seqOrdered b && q.gated then (s.seqPark b .gate, none)
    else if q.exec.any fun w => !w.recs.isEmpty then (s.seqPark b .writes, none)
    else (s.seqRaise b q.pc { kind := k, addr := q.pc.toNat } .word, none)
  if !s.inMatrix b.r q.pc.toNat then fails 5
  else match s.fillRead b q.pc.toNat 8 with
  | .ok bs => (s, some (instrOf .matrix (leNat bs)))
  | .nonres va => (s.seqPark b (.page va), none)
  | .fault f => fails f.kind

/-! ## What a turn does before its instruction -/

/-- A turn prepared: the visit goes on (R306), the breakpoint that has stopped the agent is passed (R374), and what
the Keep has repaired is executed again (R197). -/
def State.beginTurn (s : State) : State :=
  match s.turn with
  | .scalar g e =>
    let s := (s.issueBegun g e false).visited g e false
    s.updGroup g fun x => { x with passBp := x.passBp.filter (· != e), fix := none }
  | .lane g e =>
    let s := (s.issueBegun g e true).visited g e true
    let s := s.updGroup g fun x => { x with passBp := x.passBp.filter (· != e + 5) }
    match (s.group g).fix with
    | some f => (s.updSplit g e fun p => { p with queue := f.blk :: p.queue }).updGroup g fun x => { x with fix := none }
    | none => s
  | .seq b => s.updSeq b fun q => { q with passBp := false }
  | _ => s
/-- The instruction or step of the turn; none when its word could not be fetched, or when nothing moves. -/
def State.fetch (s : State) : State × Option Instr :=
  let s := s.beginTurn
  match s.turn with
  | .scalar g e => s.fetchScalar g e
  | .lane g e => s.fetchLane g e
  | .seq b => s.fetchSeq b
  | .event ev => (s, some ev.row)
  | .idle => (s, none)

/-! ## Which turns can come next -/

/-- A turn, or the breakpoint match that takes its place; a continuation at a breakpoint waits (R374)
(DEDUCED, log entry 50). -/
def State.orBp (s : State) (t : Turn) : List Turn :=
  match t with
  | .scalar g e =>
    match (if decide ((s.split g e).st = .running) && (s.group g).fix.isNone then s.scalarBp g e else none) with
    | some n => if g.sh = 0 then [.event (.breakpointMatch g e n .scalar)] else []
    | none => [t]
  | .lane g e =>
    match (if (s.split g e).lpark.isNone && (s.group g).fix.isNone then s.laneBp g e else none) with
    | some n => if g.sh = 0 then [.event (.breakpointMatch g e n .lane)] else []
    | none => [t]
  | .seq b =>
    match (if (s.seq b).st = .running then s.seqBp b else none) with
    | some n => [.event (.breakpointMatch ⟨b, 64, 0⟩ 0 n .matrix)]
    | none => [t]
  | t => [t]
/-- Every issue that can come next. -/
def State.issues (s : State) : List Turn :=
  let all := s.groups.flatMap fun p => s.groupTurns p.1
  let open_ (lane : Bool) : List (GKey × Nat) := s.chosen lane (all.filterMap fun t => match t with
    | .scalar g e => if s.ordered g || lane then none else some (g, e)
    | .lane g e => if s.ordered g || !lane then none else some (g, e)
    | _ => none)
  let scalars := open_ false
  let lanes := open_ true
  let ok (t : Turn) : Bool := match t with
    | .scalar g e => s.ordered g || scalars.contains (g, e)
    | .lane g e => s.ordered g || lanes.contains (g, e)
    | _ => true
  let seqs := (s.blocks.filter fun p => s.seqReady p.1).map fun p => Turn.seq p.1
  (all.filter ok ++ seqs).flatMap s.orBp

/-- The splits, and the lane heads, that are due to join the front list of their quadrant's choice (R139). -/
def State.promotions (s : State) : List Event :=
  s.groups.flatMap fun p =>
    if s.ordered p.1 then []
    else
      let due (k : Nat) (ready : GKey → Nat → Bool) : List Event :=
        (p.2.ents.filter fun q => ready p.1 q.1 && s.passedOver p.1 (q.1 + k)).map fun q => .frontListPromotion p.1 (q.1 + k)
      due 0 s.scalarReady ++ due 5 s.laneReady
/-- The join windows of a group that have run out, those of suspended splits too (R124). -/
def State.windowEvents (s : State) (g : GKey) (x : Group) : List Event :=
  (x.ents.filter fun p => s.windowOut g p.1 && x.stepping.all (· == p.1)).map fun p => .joinWindowExpiry g p.1
/-- The events of one entry of a group; in a debug step those of the split that steps (R374). -/
def State.entryEvents (s : State) (g : GKey) (e : Nat) (p : Split) : List Event :=
  let one (c : Bool) (ev : Event) : List Event := if c then [ev] else []
  if p.susp || (s.group g).stepping.any (· != e) then []
  else
    (match p.st with
      | .fusing k => match s.fusePair g k with
        | some (lo, hi) => one (lo == e) (.fusion g lo hi)
        | none => []
      | .parked (.nap t) => one (t ≤ s.cycle) (.napExpiry g e)
      | .parked (.wait ..) => one (!s.ordered g && s.rereadReady g e) (.waitReread g e)
      | _ => []) ++
    one (s.fifoReady g e) (.fifoWaitEnd g e)
/-- The events of a group. In ordered mode its own come only when it waits for them (R306). -/
def State.groupEvents (s : State) (g : GKey) (x : Group) : List Event :=
  let runs := s.groupRuns g
  let quiet := s.ordered g && (!runs || decide (s.orderedAct g ≠ .wait))
  let mine := if quiet then []
    else (if runs then (if s.ordered g then s.windowEvents g x else []) ++ x.ents.flatMap fun p => s.entryEvents g p.1 p.2 else []) ++
      (x.outst.filter fun o => s.returnReady g o.id).map fun o => .resultReturn g o.id
  mine ++
    (if g.sh != 0 && s.groupRuns (baseKey g) && s.forkReady (baseKey g) g.sh then [.forkResolve (baseKey g) g.sh] else []) ++
    (if g.sh == 0 && s.quantumOver g then [.quantumEnd g] else [])
/-- Whether a waiter at a ring still runs. -/
def State.waiterRuns (s : State) (b : BKey) : RWait → Bool
  | .split g _ => s.groupRuns g
  | .seq => !s.stopped b none
/-- The events of a block and of its sequencer. -/
def State.blockEvents (s : State) (b : BKey) (x : Block) : List Event :=
  let ordered := (s.region b.r).rcb.ordered
  let one (c : Bool) (ev : Event) : List Event := if c then [ev] else []
  let firstRuns (ws : List RWait) : Bool := ws.head?.all (s.waiterRuns b)
  if x.ended then []
  else
    one (s.bankSwitchReady b) (.bankSwitchComplete b) ++
    (if ordered then [] else
      one (s.releaseReady b none && x.tag.isNone) (.barrierRelease b none) ++
      x.rings.flatMap fun p =>
        one (firstRuns p.2.givers && s.giveReady b p.1) (.parkedGiveWake b p.1) ++
        one (firstRuns p.2.takers && s.takeReady b p.1) (.parkedTakeWake b p.1)) ++
    match x.seq with
    | none => []
    | some q =>
      let still := ordered && (q.quant.atEnd || q.quant.due || q.quant.count ≥ (s.region b.r).rcb.quantum)
      (if still then [] else
        (q.fills.filter fun f => s.fillReady b f.id).map (fun f => .adapterFillComplete b f.id) ++
        one (s.auditReady b) (.auditRecord b) ++ one (s.wordReady b) (.matrixWordComplete b)) ++
      one (s.quantumOver ⟨b, 64, 0⟩) (.quantumEnd ⟨b, 64, 0⟩)
/-- The events of a region. -/
def State.regionEvents (s : State) (r : RKey) (x : Region) : List Event :=
  let one (c : Bool) (ev : Event) : List Event := if c then [ev] else []
  one (s.completeReady r) (.regionComplete r) ++ one (s.sliceReady r) (.sliceEnd r) ++ one (s.commitReady r) (.quantumCommit r) ++
    (if x.rcb.ordered then [] else (x.bars.filter fun p => s.releaseReady ⟨r, 0⟩ (some p.1)).map fun p => .barrierRelease ⟨r, 0⟩ (some p.1)) ++
    (x.dies.filter fun d => s.starvationReady d r).map fun d => .regionStarvation d r
/-- The events of a cluster and of a core. -/
def State.clusterEvents (s : State) (n : Nat) (x : Cluster) : List Event :=
  (x.copyQ.filter fun c => !s.ordered c.g && s.copyReady c).map (fun c => .copyCommandComplete n c.id) ++
    x.fills.map (fun f => .lineFillComplete n f.line) ++
    (if s.vacateReady (.cluster n) then [.maintenanceFence (.cluster n) true] else [])
def State.coreEvents (s : State) (k : Nat) : List Event := if s.arrayReady k then [.campanileOperationComplete k] else []
/-- The events of dispatch, and of the parts outside the dies. -/
def State.otherEvents (s : State) : List Event :=
  (s.pend.filter fun p => s.performReady p.id).map (fun p => .accessPerformed p.id) ++
  ((List.range 8).flatMap fun d => match s.nextAdmit d (s.dispatchOrder d) with
    | some (r, _) => [.blockAdmit d r]
    | none => []) ++
  ((s.platform.maint.filter fun d => s.vacateReady (.die d)).map fun d => .maintenanceFence (.die d) true) ++
  ((s.ctxs.filter fun p => s.descheduleReady p.1).map fun p => .registerWrite (.schedule p.1 false)) ++
  ((s.ctxs.filter fun p => s.gangStarts p.1).map fun p => .gangSliceStart p.1) ++
  ((s.moves.filter (!·.ready)).map fun m => .pageMove m.c m.va m.dest) ++
  (s.rflows.flatMap fun p => if s.flowReady p.1 then
    ((p.2.held.filter fun q => q.2.seq == p.2.next).take 1).map fun q => .networkPacketReceive q.1 q.2 else []) ++
  (s.ctxs.flatMap fun p => if s.runsOrdered p.1 || p.2.replay.isSome then [] else (p.2.later.take 1).map .registerWrite) ++
  ((s.migrations.filter fun p => s.migrateReady p.1).map fun p => .migration p.2.c p.1 ⟨p.2.peer, [], 0⟩ p.2.dst) ++
  ((s.sessions.filter fun x => s.idleReady x.id).map fun x => .sessionIdleTimeout x.id)

/-- What goes before all else: promotions (R139), and outside ordered mode the join windows that have run out (R124). -/
def State.firstEvents (s : State) : List Event :=
  s.promotions ++ s.groups.flatMap fun p => if s.ordered p.1 || !s.groupRuns p.1 then [] else s.windowEvents p.1 p.2
/-- Every turn that can come next without anything from outside. -/
def State.agenda (s : State) : List Turn :=
  match s.firstEvents with
  | ev :: r => (ev :: r).map .event
  | [] =>
    s.issues ++
      ((s.groups.flatMap fun p => s.groupEvents p.1 p.2) ++ (s.blocks.flatMap fun p => s.blockEvents p.1 p.2) ++
        (s.regions.flatMap fun p => s.regionEvents p.1 p.2) ++ (s.clusters.flatMap fun p => s.clusterEvents p.1 p.2) ++
        (s.cores.flatMap fun p => s.coreEvents p.1) ++ s.otherEvents).map .event

/-! ## Time, and the next turn -/

/-- A split, a block and a core of a cluster whose clock has lost cycles: all that is under way there comes so much later (R389). -/
def Split.stretch (k : Nat) (x : Split) : Split :=
  { x with
    st := match x.st with
      | .parked (.nap t) => .parked (.nap (t + k))
      | .waitJoin t => .waitJoin (t + k)
      | st => st
    ready := x.ready + k
    busy := x.busy + k
    lbusy := x.lbusy + k
    age := x.age.map fun a => (a.1 + k, a.2)
    since := x.since.map (· + k)
    lsince := x.lsince.map (· + k)
    front := x.front.map (· + k)
    lfront := x.lfront.map (· + k) }
def Group.stretch (k : Nat) (x : Group) : Group :=
  { x with haltedAt := x.haltedAt + k, ents := x.ents.map fun p => (p.1, p.2.stretch k), outst := x.outst.map fun o => { o with issued := o.issued + k } }
def Block.stretch (k : Nat) (x : Block) : Block :=
  { x with
    placedAt := x.placedAt + k
    banks := x.banks.map fun b => { b with doneAt := b.doneAt.map (· + k) }
    bar := { x.bar with releases := x.bar.releases.map fun r => (r.1, r.2 + k) }
    seq := x.seq.map fun q =>
      { q with busy := q.busy + k, heldSince := q.heldSince + k, exec := q.exec.map fun w => { w with ready := w.ready + k } } }
def Core.stretch (k : Nat) (x : Core) : Core :=
  { x with campBusy := x.campBusy.map (· + k), campSince := x.campSince + k, issued := (x.issued.1 + k, x.issued.2) }
/-- A cluster's clock stretched by some cycles of the device (R389). -/
def State.stretch (s : State) (n k : Nat) : State :=
  let on (b : BKey) : Bool := (s.block b).cluster == n
  { s with
    clusters := s.clusters.upd n fun x => { x with lag := x.lag + k, bankFree := x.bankFree.map fun p => (p.1, p.2 + k) }
    cores := s.cores.map fun p => if p.1 / 4 = n then (p.1, p.2.stretch k) else p
    groups := s.groups.map fun p => if on p.1.b && !s.ordered p.1 then (p.1, p.2.stretch k) else p
    blocks := s.blocks.map fun p => if p.2.cluster = n then (p.1, p.2.stretch k) else p }
/-- The join windows that have run out marked: they stay expired (R124). -/
def State.latchWindows (s : State) : State :=
  let one (g : GKey) (q : Nat × Split) : Nat × Split :=
    if (match q.2.st with | .waitJoin _ => true | _ => false) && s.windowOut g q.1 then (q.1, { q.2 with expired := true }) else q
  { s with groups := s.groups.map fun p => (p.1, { p.2 with ents := p.2.ents.map (one p.1) }) }
/-- The cycles that a step takes, and what a stretched or capped clock loses of them (R389, DESIGN CHOICE, log entry 4). -/
def State.passTime (s : State) : State :=
  let d := Config.elapsed s.free + (if s.turn = .idle then 1 else 0)
  let slow (s : State) (p : Nat × Cluster) : State :=
    if p.2.stretched || p.2.capped || p.2.limited then s.stretch p.1 (Config.choice (s.free + 1 + p.1) % (d + 1)) else s
  { s.clusters.foldl slow s with cycle := s.cycle + d }
/-- The next turn: one of the agenda, or the first happening that waits outside, by a free choice. -/
def State.nextTurn (s : State) : Turn × Bool :=
  let own := s.agenda
  let all := own ++ (s.inputs.take 1).map Turn.event
  let k := if all.length ≤ 1 then 0 else Config.choice s.free % all.length
  (all.getD k .idle, k ≥ own.length)
/-- The end of a step. -/
def State.tick (s : State) : State :=
  let s := s.passTime.sysSweep.olRetryAll.ringRetryAll.markReady.latchWindows
  { s with
    turn := s.nextTurn.1
    inputs := if s.nextTurn.2 then s.inputs.drop 1 else s.inputs
    free := s.free + 49 }

/-- A device that is off does nothing but power-on (R386, R391). -/
def isBoot : Event → Bool
  | .boot _ => true
  | _ => false
def State.powered (s : State) : Option State :=
  match s.turn with
  | .event (.boot _) => some s
  | _ => if !s.platform.off then some s
    else match s.inputs.dropWhile fun ev => !isBoot ev with
      | ev :: r => some { s with turn := .event ev, inputs := r }
      | [] => none

/-! ## A word placed where the next step fetches (DESIGN CHOICE, log entry 6) -/

/-- The group, and the frame of the page at address 4,096, of a placed word. -/
def placedGroup : GKey := ⟨⟨⟨⟨0, 1⟩, 1⟩, 0⟩, 0, 0⟩
def placedPage : Page :=
  { va := 4096, psize := 0, frame := 1, r := true, w := false, res := true, req := false, acc := false, dirty := false, away := [], peer := none }
/-- A context with a running region of one block and one vector group, whose scalar stream, lane queue or sequencer
stands at a word in its one page. -/
def State.placeWord (s : State) (st : Stream) (bytes : List Byte) : State :=
  let g := placedGroup
  let cell := cellOf 4096
  let blk : QBlk := { addr := 4096, pc := 4096, mask := 0xFFFFFFFF }
  let entry : Split := { st := .running, pc := 4096, mask := 0xFFFFFFFF, queue := if st = .lane then [blk] else [] }
  let group : Group := { ents := [(0, entry)] }
  let seq : Option Seq := if st = .matrix then some { pc := 4096 } else none
  let region : Region := { st := .running, dies := [0], next := 1, rcb := { seq := decide (st = .matrix) } }
  { s with
    turn := match st with
      | .scalar => .scalar g 0
      | .lane => .lane g 0
      | .matrix => .seq g.b
    mem := Memory.writeAll s.mem (((List.range bytes.length).zip bytes).map fun p => (cell + p.1, p.2))
    poison := s.poison.filter (· != cell / 32)
    pend := s.pend.filter fun p => decide (p.g ≠ g)
    ctxs := s.ctxs.put g.b.r.c { pages := [placedPage] }
    regions := s.regions.put g.b.r region
    blocks := s.blocks.put g.b { cores := [0], seq := seq }
    groups := s.groups.put g group
    cores := s.cores.put 0 {}
    clusters := s.clusters.put 0 {}
    platform := { s.platform with off := false, stage := 4, down := [] } }

end Sys2Proof.Machine
end

