-- ==== Sys2Proof/Machine/Step.lean ====
section
/-! DEFINITION. One step of the device: the turn's instruction or step, and the choice of the next turn. -/

namespace Sys2Proof.Machine

/-- The step of a device that is powered: what the turn fetches is executed, and the step ends. -/
def run (s : State) : Host.Outcome State Fault Refusal :=
  match s.fetch with
  | (s, none) => .next s.tick
  | (s, some i) => match exec i s with
    | .next t => .next t.tick
    | .fault f => .fault f
    | .refused r => .refused r

/-- One step of the device (DESIGN CHOICE, log entry 1). -/
def step (s : State) : Host.Outcome State Fault Refusal :=
  match s.powered with
  | none => .fault .deviceOff
  | some s => run s

/-- The state with an instruction stored where the next step fetches, and with what that takes (DESIGN CHOICE, log entry 6): a context
and a region whose one group, or sequencer, has its turn at the word. -/
def State.withFetchWord (s : State) (nbits w : Nat) : State :=
  let st := streamOfBits nbits
  s.placeWord st (leBytes st.bytes w)

end Sys2Proof.Machine
end

