-- ==== Sys2Proof/Safety.lean ====
section
/-! DEFINITION. What counts as a safe run: every step answers a next state, and memory keeps its canonical form. -/

namespace Sys2Proof.Machine

/-- The state after some steps, while each answers a next state. -/
def runFor (s : State) : Nat → Option State
  | 0 => some s
  | n + 1 => match step s with
    | .next t => runFor t n
    | _ => none

/-- Memory is in its canonical form. -/
def State.memOk (s : State) : Prop := Memory.wf s.mem = true

/-- A run is safe for some steps when it does not stop in them and memory stays in its form. -/
def SafeFor (s : State) (n : Nat) : Prop := ∀ k ≤ n, ∃ t, runFor s k = some t ∧ t.memOk

end Sys2Proof.Machine
end

