-- ==== Sys2Proof/Terms.lean ====
section
/-! DEFINITION. The terms in which the statements speak of an instruction: the plain circumstances in which it
issues, the state after it has retired, and what it leaves unchanged. -/

namespace Sys2Proof.Terms
open Sys2Proof.Machine

/-- A live entry of a group itself, outside a debug step, whose turn it is to issue a scalar instruction; no
fork continuation (R133) and no debug step (R374) is concerned. -/
structure Issues (s : State) (g : GKey) (e : Nat) : Prop where
  turn : s.turn = .scalar g e
  entry : ((s.group g).ents.get? e).isSome = true
  live : (s.split g e).live = true
  home : g.sh = 0
  noFork : (s.group g).fork = none
  noStep : (s.group g).stepping ≠ some e

/-- An address that starts no reconvergence and no fusion for a split at a call level: it is neither that of
its top stack entry nor its join address, and no split waits there (R123). -/
def Straight (s : State) (g : GKey) (e : Nat) (x : DWord) (level : BitVec 8) : Prop :=
  e = 4 ∨
    ((∀ t r, (s.split g e).stack = t :: r → t.j = x → t.level ≠ level) ∧
      (∀ j, (s.split g e).join = some j → j.1 ≠ x) ∧
      ∀ q ∈ (s.group g).ents, q.1 ≠ e → q.1 ≠ 4 → q.2.pc = x → q.2.waiting = false)

/-- The next scalar word of a split. -/
def next (s : State) (g : GKey) (e : Nat) : DWord := (s.split g e).pc + 4

/-- One instruction retired by a split, which goes to an address: the counts of the split, the group, its
quantum and its context rise by one, and nothing else changes. -/
def moved (s : State) (g : GKey) (e : Nat) (x : DWord) : State :=
  (s.updGroup g fun y =>
    { y with
      retired := y.retired + 1
      q := { y.q with count := y.q.count + 1 }
      ents := y.ents.put e { y.ents.get {} e with
        retired := (y.ents.get {} e).retired + 1, st := .running, pc := x, ready := s.cycle, front := none } }).bump
    g.b.r.c 0 1

/-! ## What is left unchanged -/

/-- Every byte of memory and scratch reads as before, and no store is new. -/
structure KeepsMemory (s t : State) : Prop where
  bytes : ∀ l, t.rawByte l = s.rawByte l
  poison : ∀ l, t.poisoned l = s.poisoned l
  pend : t.pend = s.pend

/-- A place that exists: of DRAM, or of a bank that a block has. -/
def Exists (s : State) : Loc → Prop
  | .mem _ => True
  | .scr b a => ((s.block b).banks[a / 131072]?).isSome = true

/-- Every byte that exists reads to a split as before. -/
def ReadsSame (s t : State) (g : GKey) (e : Nat) : Prop := ∀ l, Exists s l → t.readByte g e l = s.readByte g e l

/-- The scalar registers of every split of a group, but one register as a split names it. -/
def KeepsScalar (s t : State) (g : GKey) (e : Nat) (d : Nat) : Prop :=
  (∀ n, n ≠ d → t.getS g e n = s.getS g e n) ∧ ∀ i n, i ≠ e → n < 32 → t.getS g i n = s.getS g i n

/-- Masks, Active state, stack and join of every split of a group but the pc, state and counts of one. -/
structure KeepsSplits (s t : State) (g : GKey) (e : Nat) : Prop where
  others : ∀ i, i ≠ e → t.split g i = s.split g i
  mask : (t.split g e).mask = (s.split g e).mask
  level : (t.split g e).level = (s.split g e).level
  stack : (t.split g e).stack = (s.split g e).stack
  join : (t.split g e).join = (s.split g e).join
  queue : (t.split g e).queue = (s.split g e).queue
  calls : (t.split g e).calls = (s.split g e).calls

/-- No line of the L2 has been released at core scope, so that no line that leaves it performs a store (R222). -/
def Calm (s : State) : Prop := ∀ p ∈ s.l2, p.2.relCore = none

/-- The lane registers of a group. -/
structure KeepsLanes (s t : State) (g : GKey) : Prop where
  vregs : (t.group g).vregs = (s.group g).vregs
  masks : (t.group g).masks = (s.group g).masks
  outst : (t.group g).outst = (s.group g).outst

/-- Translation registers, constant windows and the special registers of a group, and its trap state. -/
structure KeepsSpecial (s t : State) (g : GKey) : Prop where
  bregs : (t.group g).bregs = (s.group g).bregs
  wins : (t.group g).wins = (s.group g).wins
  joinwin : (t.group g).joinwin = (s.group g).joinwin
  trapkind : (t.group g).trapkind = (s.group g).trapkind
  vstat : (t.group g).vstat = (s.group g).vstat
  olbase : (t.group g).olbase = (s.group g).olbase
  ollen : (t.group g).ollen = (s.group g).ollen
  olcnt : (t.group g).olcnt = (s.group g).olcnt
  tw : (t.group g).tw = (s.group g).tw
  tstat : (t.group g).tstat = (s.group g).tstat
  recs : (t.group g).recs = (s.group g).recs
  hdr : (t.group g).hdr = (s.group g).hdr
  trap : (t.group g).trap = (s.group g).trap
  wpts : (t.group g).wpts = (s.group g).wpts

/-- Every other group, and every block (with its scratch, rings, sequencer and accumulators), region, virtual
function, core and cluster. -/
structure KeepsOthers (s t : State) (g : GKey) : Prop where
  groups : ∀ k, k ≠ g → t.group k = s.group k
  blocks : t.blocks = s.blocks
  regions : t.regions = s.regions
  pages : ∀ c, (t.ctx c).pages = (s.ctx c).pages
  cores : t.cores = s.cores
  clusters : t.clusters = s.clusters

/-- Nothing changes but one scalar register, the place of one split, and the counts. -/
structure Keeps (s t : State) (g : GKey) (e : Nat) (d : Nat) : Prop where
  memory : KeepsMemory s t
  scalar : KeepsScalar s t g e d
  splits : KeepsSplits s t g e
  lanes : KeepsLanes s t g
  special : KeepsSpecial s t g
  others : KeepsOthers s t g

/-! ## The scalar ALU -/

/-- The register that an ALU, immediate or bit-field instruction writes, and its value, by the values `r` of the
scalar registers (R33, R109, R110, R111). -/
inductive Alu (r : BitVec 7 → DWord) : Instr → BitVec 7 → DWord → Prop where
  | add d a b : Alu r (.add d a b) d (r a + r b)
  | sub d a b : Alu r (.sub d a b) d (r a - r b)
  | and d a b : Alu r (.and d a b) d (r a &&& r b)
  | or d a b : Alu r (.or d a b) d (r a ||| r b)
  | xor d a b : Alu r (.xor d a b) d (r a ^^^ r b)
  | andn d a b : Alu r (.andn d a b) d (r a &&& ~~~r b)
  | shl d a b : Alu r (.shl d a b) d (r a <<< ((r b).toNat % 64))
  | shr d a b : Alu r (.shr d a b) d (r a >>> ((r b).toNat % 64))
  | sar d a b : Alu r (.sar d a b) d ((r a).sshiftRight ((r b).toNat % 64))
  | mul d a b : Alu r (.mul d a b) d (r a * r b)
  | mulh d a b : Alu r (.mulh d a b) d (BitVec.ofInt 64 ((r a).toInt * (r b).toInt / 2 ^ 64))
  | mulhn d a b : Alu r (.mulhn d a b) d (BitVec.ofNat 64 ((r a).toNat * (r b).toNat / 2 ^ 64))
  | div d a b : Alu r (.div d a b) d
      (if r b = 0 then BitVec.allOnes 64 else BitVec.ofInt 64 ((r a).toInt.tdiv (r b).toInt))
  | divn d a b : Alu r (.divn d a b) d
      (if r b = 0 then BitVec.allOnes 64 else BitVec.ofNat 64 ((r a).toNat / (r b).toNat))
  | rem d a b : Alu r (.rem d a b) d (if r b = 0 then r a else BitVec.ofInt 64 ((r a).toInt.tmod (r b).toInt))
  | remn d a b : Alu r (.remn d a b) d (if r b = 0 then r a else BitVec.ofNat 64 ((r a).toNat % (r b).toNat))
  | min d a b : Alu r (.min d a b) d (BitVec.ofInt 64 (Min.min (r a).toInt (r b).toInt))
  | max d a b : Alu r (.max d a b) d (BitVec.ofInt 64 (Max.max (r a).toInt (r b).toInt))
  | minn d a b : Alu r (.minn d a b) d (BitVec.ofNat 64 (Min.min (r a).toNat (r b).toNat))
  | maxn d a b : Alu r (.maxn d a b) d (BitVec.ofNat 64 (Max.max (r a).toNat (r b).toNat))
  | slt d a b : Alu r (.slt d a b) d (if (r a).toInt < (r b).toInt then 1 else 0)
  | sltn d a b : Alu r (.sltn d a b) d (if (r a).toNat < (r b).toNat then 1 else 0)
  | seq d a b : Alu r (.seq d a b) d (if r a = r b then 1 else 0)
  | popc d a : Alu r (.popc d a) d (BitVec.ofNat 64 ((List.range 64).countP fun i => (r a).getLsbD i))
  | clz d a : Alu r (.clz d a) d
      (BitVec.ofNat 64 (((List.range 64).find? fun i => (r a).getLsbD (63 - i)).getD 64))
  | ctz d a : Alu r (.ctz d a) d (BitVec.ofNat 64 (((List.range 64).find? fun i => (r a).getLsbD i).getD 64))
  | addi d a i : Alu r (.addi d a i) d (r a + i.signExtend 64)
  | andi d a i : Alu r (.andi d a i) d (r a &&& i.signExtend 64)
  | ori d a i : Alu r (.ori d a i) d (r a ||| i.signExtend 64)
  | xori d a i : Alu r (.xori d a i) d (r a ^^^ i.signExtend 64)
  | slti d a i : Alu r (.slti d a i) d (if (r a).toInt < i.toInt then 1 else 0)
  | sltni d a i : Alu r (.sltni d a i) d (if (r a).toNat < (i.signExtend 64).toNat then 1 else 0)
  | shli d a n : Alu r (.shli d a n) d (r a <<< n.toNat)
  | shri d a n : Alu r (.shri d a n) d (r a >>> n.toNat)
  | sari d a n : Alu r (.sari d a n) d ((r a).sshiftRight n.toNat)
  | ldi d i : Alu r (.ldi d i) d (i.signExtend 64)
  | ldh1 d i : Alu r (.ldh1 d i) d ((r d).extractLsb' 38 26 ++ i ++ (r d).extractLsb' 0 19)
  | ldh2 d i : Alu r (.ldh2 d i) d ((r d).extractLsb' 57 7 ++ i ++ (r d).extractLsb' 0 38)
  | ldh3 d i : Alu r (.ldh3 d i) d (i ++ (r d).extractLsb' 0 57)
  | bfx d a p l : Alu r (.bfx d a p l) d (BitVec.ofNat 64 ((r a).toNat / 2 ^ p.toNat % 2 ^ (l.toNat + 1)))
  | bfi d a p l (v : DWord) (h : ∀ k < 64, v.getLsbD k =
        if p.toNat ≤ k ∧ k ≤ p.toNat + l.toNat then (r a).getLsbD (k - p.toNat) else (r d).getLsbD k) :
      Alu r (.bfi d a p l) d v
  | cmov d a b : Alu r (.cmov d a b) d (if r b ≠ 0 then r a else r d)

/-- An effect that leaves the place of a split as it is, and the other entries of its group. -/
structure SameFlow (s t : State) (g : GKey) (e : Nat) : Prop where
  entry : ((s.group g).ents.get? e).isSome = true → ((t.group g).ents.get? e).isSome = true
  stepping : (t.group g).stepping = (s.group g).stepping
  pc : (t.split g e).pc = (s.split g e).pc
  stack : (t.split g e).stack = (s.split g e).stack
  join : (t.split g e).join = (s.split g e).join
  level : (t.split g e).level = (s.split g e).level
  others : ∀ q ∈ (t.group g).ents, q.1 ≠ e → q ∈ (s.group g).ents

/-- The plain circumstances of a scalar instruction that goes on to the next word. -/
structure Ready (s : State) (g : GKey) (e : Nat) : Prop where
  issues : Issues s g e
  straight : Straight s g e (next s g e) (s.split g e).level

/-- An instruction has an effect, and its split goes on to the next word; nothing else changes. -/
def Runs (i : Instr) (s t : State) (g : GKey) (e : Nat) : Prop := exec i s = .next (moved t g e (next s g e))

/-! ## Branches -/

/-- Where a branch or jump goes, by the scalar registers and its address (R113). -/
inductive Branch (r : BitVec 7 → DWord) (pc : DWord) : Instr → DWord → Prop where
  | beq a b o : Branch r pc (.beq a b o) (if r a = r b then pc + 4 * o.signExtend 64 else pc + 4)
  | bne a b o : Branch r pc (.bne a b o) (if r a ≠ r b then pc + 4 * o.signExtend 64 else pc + 4)
  | blt a b o : Branch r pc (.blt a b o) (if (r a).toInt < (r b).toInt then pc + 4 * o.signExtend 64 else pc + 4)
  | bge a b o : Branch r pc (.bge a b o) (if (r b).toInt ≤ (r a).toInt then pc + 4 * o.signExtend 64 else pc + 4)
  | bltn a b o : Branch r pc (.bltn a b o) (if (r a).toNat < (r b).toNat then pc + 4 * o.signExtend 64 else pc + 4)
  | bgen a b o : Branch r pc (.bgen a b o) (if (r b).toNat ≤ (r a).toNat then pc + 4 * o.signExtend 64 else pc + 4)
  | jmp o : Branch r pc (.jmp o) (pc + 4 * o.signExtend 64)

/-! ## Reads into a scalar register -/

/-- bstat's word: bits [21:0] limit, 32 readable, 33 writable, 34 valid (R101). In ordered mode the limit is that of the bind, which no
shootdown changes (R314, R393). -/
def bregWord (ordered : Bool) (b : BReg) : DWord :=
  BitVec.ofNat 64 ((if ordered then b.seen else b.limit).toNat + (if b.r then 2 ^ 32 else 0) + (if b.w then 2 ^ 33 else 0) + if b.valid then 2 ^ 34 else 0)

/-- The bits of a mask register in a split's lanes (R108); m0 is the split's lane set. -/
def maskBits (s : State) (g : GKey) (e : Nat) (n : BitVec 4) : Word :=
  s.getM g (s.split g e).mask n.toNat &&& (s.split g e).mask

/-- The register that an instruction writes with something it reads, and the value. -/
inductive Reads (s : State) (g : GKey) (e : Nat) : Instr → BitVec 7 → DWord → Prop where
  | bstat d n : Reads s g e (.bstat d n) d (bregWord (s.ordered g) ((s.group g).bregs.get {} n.toNat))
  | mtestAny d n (hv : (s.group g).vec = true) (hb : n ≠ 0 → s.laneBusy g e (.mask n.toNat) (s.laneMark g e) = false) :
      Reads s g e (.mtestAny d n) d (if maskBits s g e n = 0 then 0 else 1)
  | mtestAll d n (hv : (s.group g).vec = true) (hb : n ≠ 0 → s.laneBusy g e (.mask n.toNat) (s.laneMark g e) = false) :
      Reads s g e (.mtestAll d n) d (if maskBits s g e n = (s.split g e).mask then 1 else 0)
  | mtestNone d n (hv : (s.group g).vec = true) (hb : n ≠ 0 → s.laneBusy g e (.mask n.toNat) (s.laneMark g e) = false) :
      Reads s g e (.mtestNone d n) d (if maskBits s g e n = 0 then 1 else 0)
  | mcnt d n (hv : (s.group g).vec = true) (hb : n ≠ 0 → s.laneBusy g e (.mask n.toNat) (s.laneMark g e) = false) :
      Reads s g e (.mcnt d n) d
        (BitVec.ofNat 64 ((List.range 32).countP fun l => (maskBits s g e n).getLsbD l))
  | sget d v l (hv : (s.group g).vec = true) (hr : v.toNat < (s.group g).budget)
      (hb : s.laneBusy g e (.vreg v.toNat) (s.laneMark g e) = false) :
      Reads s g e (.sget d v l) d ((s.getVL g v.toNat l.toNat).setWidth 64)
  | splrd d x : Reads s g e (.splrd d x) d
      (let n := (x.extractLsb' 5 2).toNat
       splitItem (n == e) (if n = e then s.split g e else if e = 4 then (s.group g).snap.get {} n else s.split (baseKey g) n)
         (x.extractLsb' 0 5).toNat)
  | rstat d a : Reads s g e (.rstat d a) d (BitVec.ofNat 64 (s.rstat g (s.getS g e a.toNat).toNat))
  | bankst d a (k : Bank) (hi : (s.getS g e a.toNat).toNat < 32)
      (hk : (s.block g.b).banks[(s.getS g e a.toNat).toNat]? = some k) (hs : k.switching = none) :
      Reads s g e (.bankst d a) d
        (BitVec.ofNat 64 ((if k.mode = .fifo then k.fifo.length * 2 ^ 32 else 0) + k.num * 256 + 4 + k.mode.code))
  | bankstNone d a (hk : (s.block g.b).banks[(s.getS g e a.toNat).toNat]? = none) : Reads s g e (.bankst d a) d 0
  | ringPeek d n : Reads s g e (.ringPeek d n) d
      (let r := (s.block g.b).rings.get {} n.toNat
       BitVec.ofNat 64 ((match r.depth with
         | some k => 2 ^ 31 + (k - 1) * 2 ^ 24
         | none => 0) + r.ti * 2 ^ 16 + r.gi * 2 ^ 8 + r.full.toNat))
  | hrd d a (b : HBank) (t i w : Nat) (hb : s.bankOf g = some b) (hs : hsel (s.getS g e a.toNat) = some (t, i, w)) :
      Reads s g e (.hrd d a) d (hdword b t i w)
  | hrdNone d a (h : s.bankOf g = none ∨ hsel (s.getS g e a.toNat) = none) : Reads s g e (.hrd d a) d 0
  | cntCycle d : Reads s g e (.cntRd d 0) d (BitVec.ofNat 64 (s.cycles g))
  | cntRetired d : Reads s g e (.cntRd d 1) d (BitVec.ofNat 64 (s.retiredOf g 4))
  | cntQuantum d : Reads s g e (.cntRd d 2) d
      (if s.ordered g then BitVec.ofNat 64 (s.region g.b.r).quantum else 0)
  | cntTime d : Reads s g e (.cntRd d 3) d (if s.ordered g then 0 else BitVec.ofNat 64 s.deviceNs)
  | pgq d a (p : Page) (h : findPage (s.pagesFor g) (s.getS g e a.toNat).toNat = some p) : Reads s g e (.pgq d a) d
      (BitVec.ofNat 64 (1 + (if p.res then 2 else 0) + (if p.req && !p.res then 4 else 0) + (if p.r then 8 else 0) +
        (if p.w then 16 else 0) + 32 * (p.psize % 4)))
  | pgqNone d a (h : findPage (s.pagesFor g) (s.getS g e a.toNat).toNat = none) : Reads s g e (.pgq d a) d 0
  | fltrd d a : Reads s g e (.fltrd d a) d ((s.group g).recordWord (s.getS g e a.toNat))

/-! ## Special registers -/

/-- What srd reads (R98): the number of a special register, and its value in a group's split. -/
inductive Special (s : State) (g : GKey) (e : Nat) : Nat → DWord → Prop where
  | gid : Special s g e 0x00 (BitVec.ofNat 64 g.gid)
  | bid : Special s g e 0x01 (BitVec.ofNat 64 g.b.n)
  | nblk : Special s g e 0x02 (BitVec.ofNat 64 ((s.rcb g).gridx * (s.rcb g).gridy * (s.rcb g).gridz))
  | rid : Special s g e 0x03 (BitVec.ofNat 64 g.b.r.id)
  | role : Special s g e 0x04 (if (s.group g).vec then 1 else 0)
  | lcore : Special s g e 0x05 (if (s.rcb g).persistent then BitVec.ofNat 64 (s.block g.b).lcore else 0)
  | ncore : Special s g e 0x06 (if (s.rcb g).persistent then BitVec.ofNat 64 (s.rcb g).lcores else 1)
  | pidx : Special s g e 0x07 (BitVec.ofNat 64 (if (s.rcb g).persistent then (s.group g).pidx else g.gid))
  | split : Special s g e 0x08 (BitVec.ofNat 64 e)
  | fdepth : Special s g e 0x09 (BitVec.ofNat 64 (s.shadows (baseKey g)).length)
  | arg : Special s g e 0x0A (s.rcb g).arg
  | die : Special s g e 0x0B (BitVec.ofNat 64 (if s.ordered g then (s.group g).die0 else (s.group g).die))
  | core : Special s g e 0x0C (BitVec.ofNat 64 (if s.ordered g then (s.group g).core0 else (s.group g).core))
  | slot : Special s g e 0x0D (BitVec.ofNat 64 (if s.ordered g then (s.group g).slot0 else (s.group g).slot))
  | ctx : Special s g e 0x0E (BitVec.ofNat 64 g.b.r.c.id)
  | vf (h : (s.ctx g.b.r.c).sys = true) : Special s g e 0x0F (BitVec.ofNat 64 g.b.r.c.vf)
  | cycle : Special s g e 0x10 (BitVec.ofNat 64 (s.cycles g))
  | retired : Special s g e 0x11 (BitVec.ofNat 64 (s.retiredOf g 4))
  | quantum : Special s g e 0x12 (if s.ordered g then BitVec.ofNat 64 (s.region g.b.r).quantum else 0)
  | joinwin : Special s g e 0x13 ((s.group g).joinwin.setWidth 64)
  | trapkind : Special s g e 0x14 ((s.group g).trapkind.setWidth 64)
  | pfdist (b : HBank) (h : s.bankOf g = some b) : Special s g e 0x18 (BitVec.ofNat 64 b.pfdist)
  | lmpthr (b : HBank) (h : s.bankOf g = some b) : Special s g e 0x19 (BitVec.ofNat 64 b.lmpthr)
  | audit (q : Seq) (h : (s.block g.b).seq = some q) :
      Special s g e 0x1A (BitVec.ofNat 64 (if s.ordered g then q.quant.audit else (if q.auditOn then 32 else 0) + q.auditN))
  | vstat (h : s.laneBusy g e .any (s.laneMark g e) = false) : 
      Special s g e 0x20 (((s.lineage g 0 4).foldl (fun v k => v ||| (s.group k.1).vstat) 0).setWidth 64)
  | olbase : Special s g e 0x21 (8 * (s.group g).olbase.setWidth 64)
  | ollen : Special s g e 0x22 ((s.group g).ollen.setWidth 64)
  | olcnt (h : s.laneBusy g e .any (s.laneMark g e) = false) : Special s g e 0x23 ((s.olcntOf g 4).setWidth 64)
  | tw : Special s g e 0x28 ((s.group g).tw.setWidth 64)
  | tstat (h : s.laneBusy g e .campanile (s.laneMark g e) = false) : Special s g e 0x29 ((s.group (baseKey g)).tstat.setWidth 64)

/-- What swr does of a value (R99): the writable bits are stored, W1C bits that are 1 are cleared. -/
inductive SpecialSet (s : State) (g : GKey) (e : Nat) (v : DWord) : Nat → State → Prop where
  | joinwin : SpecialSet s g e v 0x13 (s.updGroup g fun x => { x with joinwin := v.setWidth 16 })
  | pfdist : SpecialSet s g e v 0x18 (s.histNow g (.pfdist v))
  | lmpthr : SpecialSet s g e v 0x19 (s.histNow g (.lmpthr v))
  | vstat (h : s.laneBusy g e .any (s.laneMark g e) = false) :
      SpecialSet s g e v 0x20 (s.updGroup g fun x => { x with vstat := x.vstat &&& ~~~(v.setWidth 2) })
  | olbase : SpecialSet s g e v 0x21 (s.updGroup g fun x => { x with olbase := (v >>> 3).setWidth 53 })
  | ollen : SpecialSet s g e v 0x22 (s.updGroup g fun x => { x with ollen := v.setWidth 32 })
  | olcnt (h : s.laneBusy g e .any (s.laneMark g e) = false) :
      SpecialSet s g e v 0x23 (s.updGroup g fun x => { x with olcnt := v.setWidth 32 })
  | tstat (h : s.laneBusy g e .campanile (s.laneMark g e) = false) :
      SpecialSet s g e v 0x29 (s.updGroup g fun x => { x with tstat := x.tstat &&& ~~~(v.setWidth 3 &&& 3) })

end Sys2Proof.Terms
end

