-- ==== Sys2Proof/LaneTerms.lean ====
section
/-! DEFINITION. The terms in which the statements speak of a lane instruction: the plain circumstances in which it
issues, the values that it writes, and what it leaves unchanged. -/

namespace Sys2Proof.Terms
open Sys2Proof.Machine

/-- A lane instruction at the head of the queue of a live entry whose turn it is, with registers in its group's
budget and pairs even; no fork, no word executed again and no debug step is concerned. -/
structure LaneIssues (s : State) (g : GKey) (e : Nat) (i : Instr) (x : LArgs) : Prop where
  turn : s.turn = .lane g e
  home : g.sh = 0
  vec : (s.group g).vec = true
  args : laneArgsOf i = some x
  formed : WellFormed i = true
  budget : ∀ r, laneRegs i = some r → ∀ n ∈ r.vd ++ r.vs ++ r.xs ++ r.half, n < (s.group g).budget
  pairs : ∀ r, laneRegs i = some r → ∀ n ∈ r.pairs, n % 2 = 0
  entry : ((s.group g).ents.get? e).isSome = true
  live : (s.split g e).live = true
  queue : (s.split g e).queue ≠ []
  once : (s.head g e).again = none
  fresh : (s.head g e).dfault = false
  noFork : (s.group g).fork = none
  noStep : (s.group g).stepping ≠ some e
  going : (s.group g).ended = false
  noDrain : ∀ p ∈ (s.group g).ents, p.2.st ≠ .draining

/-- The same with no hold violation in a lane (R149). -/
structure LaneReady (s : State) (g : GKey) (e : Nat) (i : Instr) (x : LArgs) : Prop where
  issues : LaneIssues s g e i x
  hold : ∀ r, laneRegs i = some r → s.holdFaults g (s.head g e) i r x.m.toNat = 0

/-- The Active lanes of the instruction at the head of a queue (R104): its block's lanes in its mask. -/
def active (s : State) (g : GKey) (e : Nat) (x : LArgs) : Word :=
  (s.head g e).mask &&& s.getM g (s.head g e).mask x.m.toNat

/-- A lane instruction retired: it is counted, and its queue stands at the next word; after a lend, at the next
block. -/
def laneMoved (s : State) (g : GKey) (e : Nat) (x : LArgs) (ended : Bool) : State :=
  (s.count g e).advanceLane g e ended x.h

/-- Nothing changes but the vector registers listed, the mask registers, the results outstanding and what a lane
instruction moves when it has retired: its count and its queue. No scalar register, special register, byte of memory
or other group changes. -/
structure LaneFrame (s t : State) (g : GKey) (e : Nat) (ds : List Nat) : Prop where
  vregs : ∀ n, n ∉ ds → t.getV g n = s.getV g n
  memory : KeepsMemory s t
  scalar : ∀ i n, t.getS g i n = s.getS g i n
  place : (t.split g e).pc = (s.split g e).pc ∧ (t.split g e).mask = (s.split g e).mask ∧
    (t.split g e).st = (s.split g e).st ∧ (t.split g e).stack = (s.split g e).stack
  others : ∀ i, i ≠ e → t.split g i = s.split g i
  special : KeepsSpecial s t g
  groups : ∀ k, k ≠ g → t.group k = s.group k
  blocks : t.blocks = s.blocks
  regions : t.regions = s.regions
  next : (t.split g e).queue = { s.head g e with pc := (s.head g e).pc + 12 } :: (s.split g e).queue.tail
  retired : (t.group g).retired = (s.group g).retired + 1

/-- Nothing changes but the vector registers listed, the count and the queue. -/
structure LaneKeeps (s t : State) (g : GKey) (e : Nat) (ds : List Nat) : Prop where
  frame : LaneFrame s t g e ds
  masks : (t.group g).masks = (s.group g).masks
  outst : (t.group g).outst = (s.group g).outst

/-- The values of the b operand in each lane under a type (R38, R39), and the state after it is read, which a constant
window changes in the constant cache and the TLBs alone. -/
def BOperand (s s' : State) (g : GKey) (e : Nat) (x : LArgs) (t : Ty) (flt : Bool) (b : Nat → Nat) : Prop :=
  (x.bk = .vreg ∧ s' = s ∧ b = fun l => s.laneVal g t (x.b.extractLsb' 0 11).toNat l) ∨
  (x.bk ≠ .vreg ∧ active s g e x = 0 ∧ s' = s) ∨
  (x.bk ≠ .vreg ∧ active s g e x ≠ 0 ∧ ∃ v, s.uniformB g e x t flt = (s', .val v) ∧ b = fun _ => v)

/-- The outlier records of a vcvt.o (R65, R66, R161): of each Active lane in order, and of each of its destination elements in
order, that is converted and overflows; with the index that its base, lane and element give, and its source value. -/
def outliers (s : State) (g : GKey) (e : Nat) (x : LArgs) : List OlRec :=
  let S := x.cvSrc
  let T := x.ty
  let p := x.cvPart
  let base : Word :=
    if x.bk = .window then ((s.head g e).snapS.get 0 (16 + (x.b.extractLsb' 0 4).toNat)).setWidth 32 else x.b.signExtend 32
  (List.range 32).flatMap fun l =>
    if (active s g e x).getLsbD l then
      (List.range T.elems).filterMap fun i =>
        let src : Option Nat :=
          if T.elems ≤ S.elems then some (p * T.elems + i)
          else if p * S.elems ≤ i ∧ i < (p + 1) * S.elems then some (i - p * S.elems) else none
        src.bind fun j =>
          let v := readEl S (elGet S.width (s.laneVal g S x.va.toNat l) j)
          if isOutlier T x.rm v then
            some { index := base + BitVec.ofNat 32 (l * T.elems + i), value := BitVec.ofNat 32 (roundTo fmtF32 .rne false v)
                   lane := l, e, blk := s.head g e, word := laneWord (.vcvtO x), active := active s g e x }
          else none
    else []

/-- The state after records have been appended to a group's list one after the other, if none of them has to wait or faults
(R66, R67). -/
def appended (s : State) (g : GKey) : List OlRec → Option State
  | [] => some s
  | r :: rs =>
    if s.olBehind g r then none
    else match s.olAppend g r.e true r.index r.value none with
      | (s, .done) => appended s g rs
      | _ => none

/-- Each element of `r` is a function of the elements of the operands. -/
def Each (t : Ty) (f : Nat → Nat → Nat → Nat) (a b c r : Nat) : Prop :=
  ∀ k, k < t.elems → elGet t.width r k = f (elGet t.width a k) (elGet t.width b k) (elGet t.width c k) % 2 ^ t.width

/-! ## Integers, logic, shifts and bit fields -/

/-- The result of an integer lane instruction on the lane values of va, b, vc and its old destination (R152,
R153, R154, R159). -/
inductive IntLane : Instr → LArgs → (Nat → Nat → Nat → Nat → Nat → Prop) → Prop where
  | vadd x : IntLane (.vadd x) x fun a b c _ r =>
      Each x.ty (fun a b _ => fitInt x.ty x.sat (elInt x.ty a + elInt x.ty b)) a b c r
  | vsub x : IntLane (.vsub x) x fun a b c _ r =>
      Each x.ty (fun a b _ => fitInt x.ty x.sat (elInt x.ty a - elInt x.ty b)) a b c r
  | vmul x : IntLane (.vmul x) x fun a b c _ r =>
      Each x.ty (fun a b _ => fitInt x.ty x.sat (elInt x.ty a * elInt x.ty b)) a b c r
  | vmulh x : IntLane (.vmulh x) x fun a b c _ r =>
      Each x.ty (fun a b _ => wrapInt x.ty.width (elInt x.ty a * elInt x.ty b / 2 ^ x.ty.width)) a b c r
  | vmad x : IntLane (.vmad x) x fun a b c _ r =>
      Each x.ty (fun a b c => fitInt x.ty x.sat (elInt x.ty a * elInt x.ty b + elInt x.ty c)) a b c r
  | vmin x : IntLane (.vmin x) x fun a b c _ r =>
      Each x.ty (fun a b _ => if elInt x.ty b < elInt x.ty a then b else a) a b c r
  | vmax x : IntLane (.vmax x) x fun a b c _ r =>
      Each x.ty (fun a b _ => if elInt x.ty a < elInt x.ty b then b else a) a b c r
  | vabs x : IntLane (.vabs x) x fun a b c _ r =>
      Each x.ty (fun a _ _ => fitInt x.ty x.sat (if elInt x.ty a < 0 then -elInt x.ty a else elInt x.ty a)) a b c r
  | vneg x : IntLane (.vneg x) x fun a b c _ r =>
      Each x.ty (fun a _ _ => fitInt x.ty x.sat (-elInt x.ty a)) a b c r
  | vand x : IntLane (.vand x) x fun a b c _ r => Each x.ty (fun a b _ => a &&& b) a b c r
  | vor x : IntLane (.vor x) x fun a b c _ r => Each x.ty (fun a b _ => a ||| b) a b c r
  | vxor x : IntLane (.vxor x) x fun a b c _ r => Each x.ty (fun a b _ => a ^^^ b) a b c r
  | vandn x : IntLane (.vandn x) x fun a b c _ r => Each x.ty (fun a b _ => a &&& (2 ^ x.ty.width - 1 - b)) a b c r
  | vnot x : IntLane (.vnot x) x fun a b c _ r => Each x.ty (fun a _ _ => 2 ^ x.ty.width - 1 - a) a b c r
  | vshl x : IntLane (.vshl x) x fun a b c _ r => Each x.ty (fun a b _ => a <<< (b % x.ty.width)) a b c r
  | vshr x : IntLane (.vshr x) x fun a b c _ r => Each x.ty (fun a b _ => a >>> (b % x.ty.width)) a b c r
  | vsar x : IntLane (.vsar x) x fun a b c _ r => Each x.ty (fun a b _ =>
      wrapInt x.ty.width (sInt x.ty.width a / 2 ^ (b % x.ty.width))) a b c r
  | vpopc x : IntLane (.vpopc x) x fun a b c _ r =>
      Each x.ty (fun a _ _ => (List.range x.ty.width).countP fun i => a.testBit i) a b c r
  | vclz x : IntLane (.vclz x) x fun a b c _ r => Each x.ty (fun a _ _ =>
      ((List.range x.ty.width).find? fun i => a.testBit (x.ty.width - 1 - i)).getD x.ty.width) a b c r
  | vbfx x : IntLane (.vbfx x) x fun a _ _ _ r =>
      let p := (x.ext.extractLsb' 0 5).toNat
      let n := (x.ext.extractLsb' 5 5).toNat + 1
      ∀ k, k < 32 → r.testBit k =
        if k < n then a.testBit (p + k) else x.ty == .i32 && a.testBit (p + n - 1)
  | vbfi x : IntLane (.vbfi x) x fun a _ _ d r =>
      let p := (x.ext.extractLsb' 0 5).toNat
      let n := (x.ext.extractLsb' 5 5).toNat + 1
      ∀ k, k < 32 → r.testBit k = if p ≤ k ∧ k < p + n then a.testBit (k - p) else d.testBit k
  | vdot4 x : IntLane (.vdot4 x) x fun a b c _ r =>
      let w : Ty := if x.ty = .i8 then .i32 else .n32
      let p (k : Nat) : Int := elInt x.ty (elGet 8 a k) * elInt x.ty (elGet 8 b k)
      r = fitInt w x.sat (elInt w c + p 0 + p 1 + p 2 + p 3)

/-! ## Floats -/

/-- The result of a float lane instruction of fixed latency (R154, R156, R158, R159); the elements are read in the
format of their type, and each result is rounded once. -/
inductive FloatLane : Instr → LArgs → (Nat → Nat → Nat → Nat → Prop) → Prop where
  | vfadd x : FloatLane (.vfadd x) x (Each x.ty fun a b _ =>
      roundTo (Ty.fmt x.ty) x.rm x.sat (addNum x.rm (readFloat (Ty.fmt x.ty) a) (readFloat (Ty.fmt x.ty) b)))
  | vfsub x : FloatLane (.vfsub x) x (Each x.ty fun a b _ =>
      roundTo (Ty.fmt x.ty) x.rm x.sat (addNum x.rm (readFloat (Ty.fmt x.ty) a) (readFloat (Ty.fmt x.ty) b).negate))
  | vfmul x : FloatLane (.vfmul x) x (Each x.ty fun a b _ =>
      roundTo (Ty.fmt x.ty) x.rm x.sat (mulNum (readFloat (Ty.fmt x.ty) a) (readFloat (Ty.fmt x.ty) b)))
  | vffma x : FloatLane (.vffma x) x (Each x.ty fun a b c => roundTo (Ty.fmt x.ty) x.rm x.sat
      (addNum x.rm (mulNum (readFloat (Ty.fmt x.ty) a) (readFloat (Ty.fmt x.ty) b)) (readFloat (Ty.fmt x.ty) c)))
  | vfmin x : FloatLane (.vfmin x) x (Each x.ty fun a b _ => minF (Ty.fmt x.ty) false a b)
  | vfmax x : FloatLane (.vfmax x) x (Each x.ty fun a b _ => minF (Ty.fmt x.ty) true a b)
  | vfabs x : FloatLane (.vfabs x) x (Each x.ty fun a _ _ => a % 2 ^ (x.ty.width - 1))
  | vfneg x : FloatLane (.vfneg x) x (Each x.ty fun a _ _ => a ^^^ 2 ^ (x.ty.width - 1))
  | vfsign x : FloatLane (.vfsign x) x (Each x.ty fun a b _ =>
      a % 2 ^ (x.ty.width - 1) + b / 2 ^ (x.ty.width - 1) * 2 ^ (x.ty.width - 1))
  | vfclass x : FloatLane (.vfclass x) x (Each x.ty fun a _ _ => classF (Ty.fmt x.ty) a)
  | vmov x : FloatLane (.vmov x) x (Each x.ty fun _ b _ => b)
  | vdot2 x : FloatLane (.vdot2 x) x (fun a b c r =>
      let p (k : Nat) : Machine.Num := mulNum (readFloat (Ty.fmt x.ty) (elGet 16 a k)) (readFloat (Ty.fmt x.ty) (elGet 16 b k))
      r = roundTo fmtF32 x.rm x.sat (addNum x.rm (addNum x.rm (p 0) (p 1)) (readFloat fmtF32 c)))

/-! ## Masks -/

/-- The bit that a compare or a mask instruction writes in a lane, by the lane values of va and b and by the masks it
names (R155, R158, R163). -/
inductive MaskLane (s : State) (g : GKey) (e : Nat) :
    Instr → LArgs → Bool → ((Nat → Nat) → (Nat → Nat) → Nat → Bool) → Prop where
  | vcmp (c : BitVec 6) x : MaskLane s g e (.vcmp c x) x false fun a b l =>
      let p := elInt x.ty (a l)
      let q := elInt x.ty (b l)
      match c.toNat with
      | 0 => decide (p = q) | 1 => decide (p ≠ q) | 2 => decide (p < q) | 3 => decide (p ≤ q) | 4 => decide (q < p)
      | _ => decide (q ≤ p)
  | vfcmp (c : BitVec 6) x : MaskLane s g e (.vfcmp c x) x true fun a b l =>
      let p := readFloat fmtF32 (a l)
      let q := readFloat fmtF32 (b l)
      let nan := decide (p = .nan) || decide (q = .nan)
      let lt := ltNum false p q
      let gt := ltNum false q p
      match c.toNat with
      | 0 => !nan && !lt && !gt | 1 => nan || lt || gt | 2 => lt | 3 => !nan && !gt | 4 => gt | 5 => !nan && !lt
      | 6 => nan | _ => !nan
  | mand x : MaskLane s g e (.mand x) x false fun _ _ l =>
      (s.getM g (s.head g e).mask x.va.toNat).getLsbD l && (s.getM g (s.head g e).mask (x.b.extractLsb' 0 4).toNat).getLsbD l
  | mor x : MaskLane s g e (.mor x) x false fun _ _ l =>
      (s.getM g (s.head g e).mask x.va.toNat).getLsbD l || (s.getM g (s.head g e).mask (x.b.extractLsb' 0 4).toNat).getLsbD l
  | mxor x : MaskLane s g e (.mxor x) x false fun _ _ l =>
      (s.getM g (s.head g e).mask x.va.toNat).getLsbD l != (s.getM g (s.head g e).mask (x.b.extractLsb' 0 4).toNat).getLsbD l
  | mandn x : MaskLane s g e (.mandn x) x false fun _ _ l =>
      (s.getM g (s.head g e).mask x.va.toNat).getLsbD l && !(s.getM g (s.head g e).mask (x.b.extractLsb' 0 4).toNat).getLsbD l
  | mnot x : MaskLane s g e (.mnot x) x false fun _ _ l => !(s.getM g (s.head g e).mask x.va.toNat).getLsbD l
  | mmov x : MaskLane s g e (.mmov x) x false fun _ _ l => (s.getM g (s.head g e).mask x.va.toNat).getLsbD l
  | msetMask x : MaskLane s g e (.msetMask x) x false fun _ _ _ => true
  | mfirst x : MaskLane s g e (.mfirst x) x false fun _ _ l =>
      let m := s.getM g (s.head g e).mask x.va.toNat &&& active s g e x
      m.getLsbD l && (List.range l).all fun k => !m.getLsbD k

/-! ## Results that return later -/

/-- The value that an outstanding result holds for a register in a lane. -/
def held (o : Outst) (n l : Nat) : Word :=
  ((((o.v.find? fun p => p.1 == n).elim [] (·.2)).find? fun p => p.1 == l).elim 0 (·.2))
/-- The lane value under a type that an outstanding result holds (R39). -/
def heldVal (o : Outst) (t : Ty) (n l : Nat) : Nat :=
  if t.is64 then (held o n l).toNat + (held o (n + 1) l).toNat * 2 ^ 32 else (held o n l).toNat

/-- The value of a variable-latency instruction in a lane, by the values of va, b and vc in all lanes and the Active
lanes (R157, R164 to R167). -/
inductive SlowLane : Instr → LArgs → Bool → (Word → (Nat → Nat) → (Nat → Nat) → (Nat → Nat) → Nat → Nat → Prop) → Prop where
  | vfdiv x : SlowLane (.vfdiv x) x true fun _ a b c l r => Each x.ty (fun a b _ =>
      divF (Ty.fmt x.ty) x.rm x.sat (readFloat (Ty.fmt x.ty) a) (readFloat (Ty.fmt x.ty) b)) (a l) (b l) (c l) r
  | vfsqrt x : SlowLane (.vfsqrt x) x true fun _ a b c l r =>
      Each x.ty (fun a _ _ => sqrtF (Ty.fmt x.ty) x.rm x.sat (readFloat (Ty.fmt x.ty) a)) (a l) (b l) (c l) r
  | vfrcp x : SlowLane (.vfrcp x) x true fun _ a b c l r => Each x.ty (fun a _ _ =>
      divF (Ty.fmt x.ty) x.rm x.sat (.fin false 1 0) (readFloat (Ty.fmt x.ty) a)) (a l) (b l) (c l) r
  | vfrsq x : SlowLane (.vfrsq x) x true fun _ a b c l r =>
      Each x.ty (fun a _ _ => rsqrtF (Ty.fmt x.ty) x.rm x.sat (readFloat (Ty.fmt x.ty) a)) (a l) (b l) (c l) r
  | vfexp2 x : SlowLane (.vfexp2 x) x true fun _ a b c l r =>
      Each x.ty (fun a _ _ => exp2F (Ty.fmt x.ty) x.rm x.sat (readFloat (Ty.fmt x.ty) a)) (a l) (b l) (c l) r
  | vflog2 x : SlowLane (.vflog2 x) x true fun _ a b c l r =>
      Each x.ty (fun a _ _ => log2F (Ty.fmt x.ty) x.rm x.sat (readFloat (Ty.fmt x.ty) a)) (a l) (b l) (c l) r
  | vshfl x : SlowLane (.vshfl x) x false fun m a b c l r =>
      r = if b l % 2 ^ 32 < 32 ∧ m.getLsbD (b l % 2 ^ 32) = true then a (b l % 2 ^ 32) else c l
  | vbcast x : SlowLane (.vbcast x) x false fun m a b c l r =>
      r = if b l % 2 ^ 32 < 32 ∧ m.getLsbD (b l % 2 ^ 32) = true then a (b l % 2 ^ 32) else c l
  | vrot x : SlowLane (.vrot x) x false fun m a b c l r =>
      r = if m.getLsbD ((l + b l) % 32) then a ((l + b l) % 32) else c l
  | vred op x : SlowLane (.vred op x) x false fun m a _ _ _ r => ∀ k, k < x.ty.elems →
      some (elGet x.ty.width r k) = (tree (redOp op.toNat x) ((List.range 32).map fun j =>
        if m.getLsbD j then some (elGet x.ty.width (a j) k) else none)).map (· % 2 ^ x.ty.width)
  | vscan op x : SlowLane (.vscan op x) x false fun m a _ _ l r => ∀ k, k < x.ty.elems →
      elGet x.ty.width r k = ((tree (redOp op.toNat x) ((List.range 32).map fun j =>
        if m.getLsbD j && (if x.ext.getLsbD 0 then decide (j < l) else decide (j ≤ l))
        then some (elGet x.ty.width (a j) k) else none)).getD (redIdentity op.toNat x.ty)) % 2 ^ x.ty.width

/-! ## The sequencer -/

/-- A well-formed matrix word whose turn it is in a sequencer outside ordered mode, which names existing registers and has
no earlier word in execution. -/
structure SeqReady (s : State) (b : BKey) (i : Instr) : Prop where
  turn : s.turn = .seq b
  formed : WellFormed i = true
  regs : mRegsOk i = true
  seq : (s.block b).seq.isSome = true
  plain : s.seqOrdered b = false
  alone : (s.seq b).exec = []

/-- The rows and columns of an accumulator as a matrix instruction computes them (R71): the old value and the products
of the row's activations with the tile's column, summed exactly and rounded once, or of INT32 wrapped. -/
def accValue (isInt : Bool) (wt at_ : Ty) (w a : Nat → Nat) (old : Word) : Word :=
  let ps := (List.range 64).map fun k => mulNum (readEl wt (w k)) (readEl at_ (a k))
  if isInt then old + BitVec.ofInt 32 (ps.foldl (fun z p => z + scaled 0 p) 0)
  else BitVec.ofNat 32 (roundTo fmtF32 .rne false (sumNum (readFloat fmtF32 old.toNat :: ps)))

end Sys2Proof.Terms
end

