-- ==== Sys2Proof/Certificates/Slice0/Obligations.lean ====
section
/-! DEFINITION. The statements for the provers. Where a statement names a whole next state, all that it does not
name is unchanged. `Says.X` is a part of a statement that joins several. -/

open Sys2Proof Sys2Proof.Machine Sys2Proof.Terms

/-! ## The scalar stream -/

/-- An ALU, immediate, constant, bit-field or conditional-move instruction writes its value (table `Alu`, R33,
R109 to R111) into its destination, a destination of s0 discards it, and nothing else changes but the place of the
split and the counts. A bit field that ends beyond bit 63 is illegal, and so are the SR words that name no operation: of
major 0x01 those of fn 26 to 31 and those of popc, clz and ctz with an sb, of major 0x0F those of an fn other than 0. -/
def Obligations.ScalarAluResult : Prop :=
  (∀ (s : State) (g : GKey) (e : Nat) (i : Instr) (d : BitVec 7) (v : DWord),
    Alu (fun n => s.getS g e n.toNat) i d v → WellFormed i = true → Ready s g e →
    ∃ t, exec i s = .next t ∧ t.getS g e d.toNat = (if d = 0 then 0 else v) ∧
      (t.split g e).pc = next s g e ∧ Keeps s t g e d.toNat) ∧
  (∀ (s : State) (g : GKey) (e : Nat) (d a : BitVec 7) (p l : BitVec 6), Issues s g e → 64 < p.toNat + l.toNat + 1 →
    exec (.bfx d a p l) s = .next (s.scalarFault g e { kind := 1 }) ∧
      exec (.bfi d a p l) s = .next (s.scalarFault g e { kind := 1 })) ∧
  ∀ w : BitVec 32, (w.extractLsb' 26 6 = 0x01 ∧
      (26 ≤ (w.extractLsb' 0 5).toNat ∨ (23 ≤ (w.extractLsb' 0 5).toNat ∧ w.extractLsb' 5 7 ≠ 0))) ∨
    (w.extractLsb' 26 6 = 0x0F ∧ w.extractLsb' 0 5 ≠ 0) → decodeScalar w = .unassignedEncoding

/-- A branch or jmp goes to its target or to the next word (R113), and writes no register. -/
def Says.BranchTarget : Prop :=
  ∀ (s : State) (g : GKey) (e : Nat) (i : Instr) (x : DWord),
    Branch (fun n => s.getS g e n.toNat) (s.split g e).pc i x → Issues s g e → Straight s g e x (s.split g e).level →
    exec i s = .next (moved s g e x) ∧ Keeps s (moved s g e x) g e 0

/-- jal, jalr and ret (R113, R117): the link is the next word, a linking jump raises the call level and ret
lowers it; ret needs no pending reconvergence, and meets here no call record and no superseded code (`Says.ReturnOfCall`,
`Says.ReturnToOldCode`). -/
def Says.CallAndReturn : Prop :=
  ∀ (s : State) (g : GKey) (e : Nat), Issues s g e →
    (∀ o : BitVec 26, Straight s g e ((s.split g e).pc + 4 * o.signExtend 64) ((s.split g e).level + 1) →
      exec (.jal o) s = .next (moved ((s.setS g e 1 (next s g e)).updSplit g e fun p => { p with level := p.level + 1 })
        g e ((s.split g e).pc + 4 * o.signExtend 64))) ∧
    (∀ (d a : BitVec 7) (i : BitVec 12), WellFormed (.jalr d a i) = true → d ≠ 0 →
      (s.getS g e a.toNat + i.signExtend 64).toNat % 4 = 0 →
      Straight s g e (s.getS g e a.toNat + i.signExtend 64) ((s.split g e).level + 1) →
      exec (.jalr d a i) s = .next (moved
        ((s.setS g e d.toNat (next s g e)).updSplit g e fun p => { p with level := p.level + 1 })
        g e (s.getS g e a.toNat + i.signExtend 64))) ∧
    (∀ (a : BitVec 7) (i : BitVec 12), WellFormed (.jalr 0 a i) = true →
      (s.getS g e a.toNat + i.signExtend 64).toNat % 4 = 0 →
      Straight s g e (s.getS g e a.toNat + i.signExtend 64) (s.split g e).level →
      exec (.jalr 0 a i) s = .next (moved s g e (s.getS g e a.toNat + i.signExtend 64))) ∧
    ((s.split g e).pendingRc = false → (s.getS g e 1).toNat % 4 = 0 →
      (s.split g e).calls = [] → (s.ctx g.b.r.c).gens = [] →
      Straight s g e (s.getS g e 1) ((s.split g e).level - 1) →
      exec .ret s = .next (moved (s.updSplit g e fun p => { p with level := p.level - 1 }) g e (s.getS g e 1)))

/-- jalr and ret to an address that is no multiple of 4, and ret with a reconvergence pending, fault precisely:
alignment (4) with the address, divergence (8) (R113, R118, R30). -/
def Says.JumpFaults : Prop :=
  ∀ (s : State) (g : GKey) (e : Nat), Issues s g e →
    (∀ (d a : BitVec 7) (i : BitVec 12), WellFormed (.jalr d a i) = true →
      (s.getS g e a.toNat + i.signExtend 64).toNat % 4 ≠ 0 →
      exec (.jalr d a i) s =
        .next (s.scalarFault g e { kind := 4, addr := (s.getS g e a.toNat + i.signExtend 64).toNat })) ∧
    ((s.split g e).pendingRc = true → exec .ret s = .next (s.scalarFault g e { kind := 8 })) ∧
    ((s.split g e).pendingRc = false → (s.getS g e 1).toNat % 4 ≠ 0 →
      exec .ret s = .next (s.scalarFault g e { kind := 4, addr := (s.getS g e 1).toNat }))

/-- ret with a call record of the level below (R392, R117). A closed record is passed by. An open one whose callf forked nothing is
closed in every split of the group, the records made after it are dropped, and the return trains the RVP with s2 and
s3 (R289). One whose callf forked waits for its fork, which takes s2, s3 and the mask of the ret (R135). The records made after it have no fork here. -/
def Says.ReturnOfCall : Prop :=
  ∀ (s : State) (g : GKey) (e : Nat) (r : CallRec), Issues s g e → (s.split g e).pendingRc = false →
    (s.getS g e 1).toNat % 4 = 0 → (s.ctx g.b.r.c).gens = [] →
    (s.split g e).calls.find? (fun r => r.level == (s.split g e).level - 1) = some r →
    let later := (s.split g e).calls.takeWhile fun q => q.id != r.id
    (r.closed = true → Straight s g e (s.getS g e 1) ((s.split g e).level - 1) →
      exec .ret s = .next (moved (s.updSplit g e fun p => { p with level := p.level - 1 }) g e (s.getS g e 1))) ∧
    (r.closed = false → r.fork = none → (∀ q ∈ later, q.fork = none) →
      Straight s g e (s.getS g e 1) ((s.split g e).level - 1) →
      ∃ t, exec .ret s = .next t ∧ (t.split g e).pc = s.getS g e 1 ∧ (t.split g e).level = (s.split g e).level - 1 ∧
        (t.split g e).mask = (s.split g e).mask ∧ (∀ i, ∀ q ∈ (t.split g i).calls, q.id = r.id → q.closed = true) ∧
        (∀ q ∈ (t.split g e).calls, q.id = r.id ∨ q ∈ (s.split g e).calls.drop later.length) ∧
        (∀ b, s.ordered g = false → s.bankOf g = some b →
          t.bankOf g = some (rvpEvent b r.pc.toNat r.two (s.getS g e 2) (s.getS g e 3))) ∧
        (t.group g).retired = (s.group g).retired + 1 ∧ (∀ i n, t.getS g i n = s.getS g i n) ∧ KeepsMemory s t) ∧
    ∀ k f, r.closed = false → r.fork = some k → (s.group (shadowKey g k)).fork = some f → f.parent = 0 →
      (∀ q ∈ later, q.fork = none) →
      ∃ t, exec .ret s = .next t ∧ (t.split g e).st = .waitFork ∧ (t.split g e).pc = (s.split g e).pc ∧
        (t.group (shadowKey g k)).fork =
          some { f with ret := e, atRet := some (s.getS g e 2, s.getS g e 3, (s.split g e).mask) } ∧
        (∀ i n, t.getS g i n = s.getS g i n) ∧ KeepsMemory s t

/-- ret to a return site of superseded code (R354), of a split without call records: the fork shadows of the group are gone, the split
goes to the site of the same id in the current code one call level down, and each scalar register that a live value of the current
site is in holds what the place of that value in the old site held; a register that no live value is in is zero (the model's choice,
log entry 35). No record is made and sr.trapkind stays, and the ret is counted once. -/
def Says.ReturnToOldCode : Prop :=
  ∀ (s : State) (g : GKey) (e : Nat) (o n : RetSite), Issues s g e → (s.split g e).pendingRc = false →
    (s.getS g e 1).toNat % 4 = 0 → (s.split g e).calls = [] → s.staleSite g.b.r.c (s.getS g e 1).toNat = some (o, n) →
    (∀ v ∈ o.live ++ n.live, v.cls = 0 ∧ v.spill = false ∧ 0 < v.loc ∧ v.loc < 64) →
    o.live.Pairwise (fun u v => u.vreg ≠ v.vreg) → n.live.Pairwise (fun u v => u.loc ≠ v.loc) →
    Straight s g e (BitVec.ofNat 64 n.addr) ((s.split g e).level - 1) →
    ∃ t, exec .ret s = .next t ∧ (t.split g e).pc = BitVec.ofNat 64 n.addr ∧
      (t.split g e).level = (s.split g e).level - 1 ∧ (t.split g e).mask = (s.split g e).mask ∧ t.shadows g = [] ∧
      (∀ u ∈ o.live, ∀ v ∈ n.live, u.vreg = v.vreg → t.getS g e v.loc.toNat = s.getS g e u.loc.toNat) ∧
      (∀ r, r < 64 → (∀ v ∈ n.live, v.loc.toNat ≠ r) → t.getS g e r = 0) ∧ (t.group g).recs = (s.group g).recs ∧
      (t.group g).trapkind = (s.group g).trapkind ∧ (t.group g).retired = (s.group g).retired + 1 ∧ KeepsMemory s t

/-- Branches, jumps, calls and returns, and their faults. -/
def Obligations.BranchesAndJumps : Prop :=
  Says.BranchTarget ∧ Says.CallAndReturn ∧ Says.JumpFaults ∧ Says.ReturnOfCall ∧ Says.ReturnToOldCode

/-- callf.1 and callf.2 (R132, R392): a call record is made, the link written and the call level raised; a fork
shadow of the group starts exactly when the conditions of a fork hold. -/
def Says.ForkableCall : Prop :=
  ∀ (s : State) (g : GKey) (e : Nat) (two : Bool) (i : BitVec 19), Issues s g e → e ≠ 4 →
    let pc := (s.split g e).pc
    let t := match s.mayFork g two with
      | some x => (s.forkShadow g e two x).pushCall g e pc two (some ((s.group g).forks + 1))
      | none => s.pushCall g e pc two none
    let t := (t.setS g e 1 (pc + 4)).updSplit g e fun p => { p with level := p.level + 1 }
    Straight t g e (pc + 4 * i.signExtend 64) ((t.split g e).level) → (t.group g).stepping = (s.group g).stepping →
    exec (if two then .callf2 i else .callf1 i) s = .next (moved t g e (pc + 4 * i.signExtend 64))

/-- Instructions that read something into a scalar register (table `Reads`): lane state (R108), translation
registers (R101), the split table (R131), regions (R95), banks (R176), rings (R228), the history banks (R301),
counters (R345), page mappings (R198) and the record area (R332). Nothing else changes. -/
def Obligations.ReadIntoRegister : Prop :=
  ∀ (s : State) (g : GKey) (e : Nat) (i : Instr) (d : BitVec 7) (v : DWord),
    Reads s g e i d v → WellFormed i = true → Ready s g e →
    ∃ t, exec i s = .next t ∧ t.getS g e d.toNat = (if d = 0 then 0 else v) ∧
      (t.split g e).pc = next s g e ∧ Keeps s t g e d.toNat

/-- srd reads every special register of the table, and changes nothing but its destination. -/
def Says.SpecialRegisterRead : Prop :=
  ∀ (s : State) (g : GKey) (e : Nat) (d : BitVec 7) (r : BitVec 14) (v : DWord),
    Special s g e r.toNat v → Ready s g e →
    ∃ t, exec (.srd d r) s = .next t ∧ t.getS g e d.toNat = (if d = 0 then 0 else v) ∧
      (t.split g e).pc = next s g e ∧ Keeps s t g e d.toNat

/-- swr stores the writable bits of a special register, and clears those of a W1C register that are 1 (R99);
the special registers that may not be written are illegal (R98). -/
def Says.SpecialRegisterWrite : Prop :=
  (∀ (s t : State) (g : GKey) (e : Nat) (a : BitVec 7) (r : BitVec 14),
    SpecialSet s g e (s.getS g e a.toNat) r.toNat t → Ready s g e → Runs (.swr a r) s t g e) ∧
  ∀ (s : State) (g : GKey) (e : Nat) (a : BitVec 7) (r : BitVec 14),
    (r.toNat ≤ 0x12 ∨ r.toNat = 0x14 ∨ r.toNat = 0x1A ∨ r.toNat = 0x28) → Issues s g e →
    exec (.swr a r) s = .next (s.scalarFault g e { kind := 1 })

/-- Special registers read and written. -/
def Obligations.SpecialRegisters : Prop := Says.SpecialRegisterRead ∧ Says.SpecialRegisterWrite

/-- bind takes the frame, size, permissions and limit of a resident page and limit 0 of any other, and an address of more
than 56 bits is an access fault; unbind clears (R101). cwset and cwinv, with no lane instruction of the group under
way: cwset sets a window, and cwinv drops the lines of a window's range from the core's constant cache, with what
lies only partly in the range (the model's choice, log entry 77); an empty window drops none (R102, R103). -/
def Obligations.TranslationAndWindows : Prop :=
  ∀ (s : State) (g : GKey) (e : Nat), Ready s g e →
    (∀ (n : BitVec 4) (a : BitVec 7), (s.getS g e a.toNat).toNat < 2 ^ 56 →
      let va := s.getS g e a.toNat
      let none' : BReg := { base := va.setWidth 56, valid := true }
      let b := match findPage (s.pagesFor g) va.toNat with
        | some p => if p.res && p.peer.isNone then
            { base := va.setWidth 56, frame := BitVec.ofNat 40 p.frame, psize := BitVec.ofNat 2 p.psize
              valid := true, w := p.w, r := p.r, limit := BitVec.ofNat 22 (p.va + Page.size p - va.toNat)
              seen := BitVec.ofNat 22 (p.va + Page.size p - va.toNat) }
          else none'
        | none => none'
      Runs (.bind n a) s
        ((s.updCtx g.b.r.c fun x => { x with pages := x.pages.map fun p => if Page.holds p va.toNat then { p with acc := true } else p }).updGroup g
          fun x => { x with bregs := x.bregs.put n.toNat b }) g e) ∧
    (∀ (n : BitVec 4) (a : BitVec 7), 2 ^ 56 ≤ (s.getS g e a.toNat).toNat →
      exec (.bind n a) s = .next (s.scalarFault g e { kind := 5, addr := (s.getS g e a.toNat).toNat })) ∧
    (∀ n : BitVec 4, Runs (.unbind n) s (s.updGroup g fun x => { x with bregs := x.bregs.put n.toNat {} }) g e) ∧
    (∀ (n : BitVec 3) (a b : BitVec 7), (s.getS g e a.toNat).toNat < 2 ^ 56 → (s.getS g e a.toNat).toNat % 4 = 0 →
      s.laneBusy g e .any (s.laneMark g e) = false →
      Runs (.cwset n a b) s (s.updGroup g fun x =>
        { x with wins := x.wins.put n.toNat { base := s.getS g e a.toNat, len := s.getS g e b.toNat } }) g e) ∧
    (∀ n : BitVec 3, s.laneBusy g e .any (s.laneMark g e) = false →
      let w := (s.group g).wins.get {} n.toNat
      Runs (.cwinv n) s (s.updCore (s.coreOf g) fun x => { x with consts := x.consts.filter fun l =>
        !(decide (l.c = g.b.r.c) && decide (w.len ≠ 0) && decide (l.line * 128 < w.base.toNat + w.len.toNat) &&
          decide (w.base.toNat < l.line * 128 + 128)) }) g e)

/-- sld (R112): with its checks passed, the load extends what its split reads at the address as its size field
says into the destination; memory reads to its split as before, and what changes of it are its own stores that the load
settles (R214); the other registers and the
lane registers stay, and what is outstanding but for the line fills it still waits for. The history and caches, which
only time and placement show, are the model's to train (R287, R179). -/
def Says.ScalarLoad : Prop :=
  ∀ (s s' : State) (g : GKey) (e : Nat) (d a : BitVec 7) (z : BitVec 3) (o : BitVec 9) (cell : Nat), Ready s g e → z ≠ 7 → Calm s →
    Memory.wf s.mem = true →
    let n := 2 ^ (z.toNat / 2)
    let va := (s.getS g e a.toNat + o.signExtend 64 * BitVec.ofNat 64 n).toNat
    s.access g va n true false = (s', .ok cell) → s.wptHit g va n true false = none →
    ∃ t, exec (.sld d a z o) s = .next t ∧ (t.split g e).pc = next s g e ∧
      t.getS g e d.toNat = (if d = 0 then 0 else
        let v := s.load g e (.mem cell) n
        if z.toNat % 2 = 0 then BitVec.ofInt 64 (if v < 2 ^ (8 * n - 1) then (v : Int) else (v : Int) - 2 ^ (8 * n))
        else BitVec.ofNat 64 v) ∧
      KeepsMemory (s.settleLoads g e [cell] n) t ∧ ReadsSame s t g e ∧ KeepsScalar s t g e d.toNat ∧
      (t.group g).vregs = (s.group g).vregs ∧ (t.group g).masks = (s.group g).masks ∧
      (t.group g).outst.map (fun o => { o with fills := [] }) = (s.group g).outst.map (fun o => { o with fills := [] })

/-- sst (R112): with its checks passed, the low bytes of the register are stored at the address, little-endian; in
normal mode they are one new store of the split, and every other byte of memory reads to the split as before. -/
def Says.ScalarStore : Prop :=
  ∀ (s s' : State) (g : GKey) (e : Nat) (r a : BitVec 7) (z : BitVec 3) (o : BitVec 9) (cell : Nat), Ready s g e →
    (z = 0 ∨ z = 2 ∨ z = 4 ∨ z = 6) → s.ordered g = false → Calm s →
    let n := 2 ^ (z.toNat / 2)
    let va := (s.getS g e a.toNat + o.signExtend 64 * BitVec.ofNat 64 n).toNat
    s.access g va n false true = (s', .ok cell) → s.wptHit g va n false true = none →
    ∃ t, exec (.sst r a z o) s = .next t ∧ (t.split g e).pc = next s g e ∧
      t.pend = s.pend ++ [{ id := s.nextId, g := g, e := e, lane := false, release := false
                            cells := cellsOf (.mem cell) n (s.getS g e r.toNat).toNat }] ∧
      (∀ i, i < n → t.readByte g e (.mem (cell + i)) = ((s.getS g e r.toNat) >>> (8 * i)).setWidth 8) ∧
      (∀ l, (∀ i, i < n → l ≠ .mem (cell + i)) → t.readByte g e l = s.readByte g e l) ∧
      (∀ l, t.rawByte l = s.rawByte l) ∧ KeepsScalar s t g e 0 ∧ KeepsLanes s t g

/-- Scalar loads and stores. -/
def Obligations.ScalarMemory : Prop := Says.ScalarLoad ∧ Says.ScalarStore

/-- The checks of an access in their order (R112, R190, R194): an address of more than 56 bits is an access
fault, a misaligned one an alignment fault; then, where no TLB entry answers, an unmapped or unpermitted one is an
access fault, and one whose page is not resident waits. -/
def Says.AccessFaults : Prop :=
  ∀ (s : State) (g : GKey) (va n : Nat) (rd wr : Bool),
    (2 ^ 56 ≤ va → s.access g va n rd wr = (s, .fault { kind := 5, addr := va, write := wr })) ∧
    (va < 2 ^ 56 → va % n ≠ 0 → s.access g va n rd wr = (s, .fault { kind := 4, addr := va, write := wr })) ∧
    (va < 2 ^ 56 → va % n = 0 →
      (s.ordered g = true ∨ ∀ t ∈ (s.core (s.coreOf g)).tlb ++ (s.cluster (s.clusterOf g)).tlb, TlbEnt.holds t g.b.r.c va = false) →
      (findPage (s.pagesFor g) va = none → s.access g va n rd wr = (s, .fault { kind := 5, addr := va, write := wr })) ∧
      ∀ p, findPage (s.pagesFor g) va = some p →
        (p.peer ≠ none ∨ (rd = true ∧ p.r = false) ∨ (wr = true ∧ p.w = false) →
          s.access g va n rd wr = (s, .fault { kind := 5, addr := va, write := wr })) ∧
        (p.peer = none → (rd = true → p.r = true) → (wr = true → p.w = true) → p.res = false →
          s.access g va n rd wr = (s, .nonres)))

/-! ## Divergence, parking and the ends of splits -/

/-- split (R119, R120): with no lane taking it, it goes on; with every lane, it goes to its target; with both and a
free entry, a new split of the taken lanes starts at the target with its own stack pointer, and the issuing split
keeps the other lanes; with both and no free entry, the other lanes are pushed; a full stack faults (9). -/
def Obligations.SplitDivergence : Prop :=
  ∀ (s : State) (g : GKey) (e : Nat) (m : BitVec 4) (tk j : BitVec 11), Issues s g e → e ≠ 4 → (s.group g).vec = true →
    (m ≠ 0 → s.laneBusy g e (.mask m.toNat) (s.laneMark g e) = false) →
    let p := s.split g e
    let taken := p.pc + 4 * tk.signExtend 64
    let join := p.pc + 4 * j.signExtend 64
    let on := maskBits s g e m
    let off := p.mask &&& ~~~on
    (on = 0 → Straight s g e (next s g e) p.level → Runs (.split m tk j) s s g e) ∧
    (on ≠ 0 → off = 0 → Straight s g e taken p.level → exec (.split m tk j) s = .next (moved s g e taken)) ∧
    (on ≠ 0 → off ≠ 0 → s.freeEntry g = none → p.stack.length < 8 →
      let ent : StackEnt := { pc := p.pc + 4, mask := off, j := join, level := p.level, regs := p.s }
      let t := s.updSplit g e fun p => { p with stack := ent :: p.stack, mask := on }
      Straight t g e taken p.level → exec (.split m tk j) s = .next (moved t g e taken)) ∧
    (on ≠ 0 → off ≠ 0 → s.freeEntry g = none → 8 ≤ p.stack.length →
      exec (.split m tk j) s = .next (s.scalarFault g e { kind := 9 })) ∧
    (∀ i, on ≠ 0 → off ≠ 0 → s.freeEntry g = some i → (s.group g).joinwin = 0 → Straight s g e (p.pc + 4) p.level →
      (∀ q ∈ (s.group g).ents, q.2.pc = taken → q.2.waiting = false) → taken ≠ join →
      ∃ t, exec (.split m tk j) s = .next t ∧ (t.split g i).mask = on ∧ (t.split g i).pc = taken ∧
        (t.split g i).join = some (join, p.level) ∧
        t.getS g i 15 = (s.group g).stackBase + BitVec.ofNat 64 ((i + 1) * (s.rcb g).stack) ∧
        (∀ n, n ≠ 15 → t.getS g i n = s.getS g e n) ∧ (t.split g e).mask = off ∧ (t.split g e).pc = p.pc + 4 ∧
        (t.group g).retired = (s.group g).retired + 1 ∧ t.mem = s.mem)

/-- The lane sets of a switch are disjoint parts of the split's lanes that together are all of them, each lane in the
set of the first case whose value is its own, or in the default's (R122). -/
def Says.SwitchCases : Prop :=
  ∀ (mask : Word) (val : Nat → Nat) (cases : List (Nat × Nat)) (dflt l : Nat), mask.getLsbD l = true →
    ∃ c ∈ caseSets mask val cases dflt, c.1.getLsbD l = true ∧
      c.2 = ((cases.find? fun k => k.1 == val l).map (·.2)).getD dflt ∧
      ∀ c' ∈ caseSets mask val cases dflt, c'.1.getLsbD l = true → c' = c

/-- A switch of which every lane takes the default (R121, R122): its table is read, and the split goes to the
default target. The other outcomes are the lane sets of `caseSets`. -/
def Says.SwitchDefault : Prop :=
  ∀ (s s1 s2 : State) (g : GKey) (e : Nat) (v : BitVec 11) (a : BitVec 7) (n dflt : Nat) (tb : List Nat), Issues s g e → e ≠ 4 →
    (s.group g).vec = true → v.toNat < (s.group g).budget → s.laneBusy g e (.vreg v.toNat) (s.laneMark g e) = false →
    (s.getS g e a.toNat).toNat % 8 = 0 → 1 ≤ n → n ≤ 8 → dflt % 4 = 0 →
    s.readDwords g e (s.getS g e a.toNat).toNat 2 = (s1, .ok [n, dflt]) →
    s1.readDwords g e ((s.getS g e a.toNat).toNat + 16) (2 * n) = (s2, .ok tb) →
    (∀ x ∈ tb, x < 2 ^ 32) → (s.split g e).mask ≠ 0 → (s.split g e).stack.length ≤ 8 →
    (∀ i, i < n → ∀ l, (s.split g e).mask.getLsbD l = true → tb.getD (2 * i) 0 ≠ (s.getVL g v.toNat l).toNat) →
    Straight s g e (BitVec.ofNat 64 dflt) (s.split g e).level →
    ∃ t, exec (.switch v a) s = .next t ∧ (t.split g e).pc = BitVec.ofNat 64 dflt ∧ (t.split g e).mask = (s.split g e).mask ∧
      (t.split g e).stack = (s.split g e).stack ∧ (t.group g).retired = (s.group g).retired + 1 ∧
      KeepsScalar s t g e 0 ∧ KeepsMemory s t

/-- The lane sets of a switch. -/
def Obligations.Switch : Prop := Says.SwitchCases ∧ Says.SwitchDefault

/-- kill of some lanes clears them and goes on; kill of all and exit of a split with an empty stack end the
split (R128, R129). yield goes on, outside ordered mode barred from the
next issue cycle of its quadrant and with the youngest age there, and nap of a positive count parks for that many cycles, at most 2^20; of 0 it goes
on (R130). -/
def Says.KillExitYieldNap : Prop :=
  ∀ (s : State) (g : GKey) (e : Nat), Issues s g e →
    (∀ n : BitVec 4, (s.group g).vec = true → (n ≠ 0 → s.laneBusy g e (.mask n.toNat) (s.laneMark g e) = false) →
      maskBits s g e n ≠ (s.split g e).mask → Straight s g e (next s g e) (s.split g e).level →
      Runs (.kill n) s (s.updSplit g e fun p => { p with mask := p.mask &&& ~~~(maskBits s g e n) }) g e) ∧
    (∀ n : BitVec 4, (s.group g).vec = true → (n ≠ 0 → s.laneBusy g e (.mask n.toNat) (s.laneMark g e) = false) →
      maskBits s g e n = (s.split g e).mask → (s.split g e).stack = [] →
      exec (.kill n) s = .next (((s.count g e).endSplit g e).stepDone g e)) ∧
    ((s.group g).vec = true → (s.split g e).stack = [] →
      exec .exit s = .next (((s.count g e).endSplit g e).stepDone g e)) ∧
    (Straight s g e (next s g e) (s.split g e).level →
      exec .yield s = .next ((moved s g e (next s g e)).updSplit g e fun p =>
        if s.ordered g then p else { p with busy := max p.busy (s.cycle + 2), age := some (s.cycle, s.free) })) ∧
    (∀ a : BitVec 7, s.ordered g = false → s.getS g e a.toNat ≠ 0 →
      exec (.nap a) s = .next (s.park g e (.nap (s.cycle + min (s.getS g e a.toNat).toNat (2 ^ 20))))) ∧
    (∀ a : BitVec 7, s.ordered g = false → s.getS g e a.toNat = 0 → Straight s g e (next s g e) (s.split g e).level →
      Runs (.nap a) s s g e)

/-- A split that ends with another of its group still live leaves the group: its entry is no longer live, a live
entry keeps its mask and registers, and no register, memory byte or other group changes (R115, R129). In ordered mode
its end at a barrier is seen at the commit, so that no block changes; otherwise at once. -/
def Says.EndOfOneSplit : Prop :=
  ∀ (s : State) (g : GKey) (e i : Nat), g.sh = 0 → (s.group g).ended = false → i ≠ e →
    ((s.group g).ents.get? i).isSome = true → (s.split g i).live = true →
    let t := s.endSplit g e
    (t.split g e).live = false ∧ t.split g i = s.split g i ∧ (t.group g).ended = false ∧
      (t.group g).sregs = (s.group g).sregs ∧ (t.group g).vregs = (s.group g).vregs ∧
      (t.group g).masks = (s.group g).masks ∧ t.mem = s.mem ∧ (∀ k, k.sh = 0 → k ≠ g → t.group k = s.group k) ∧
      (s.ordered g = true → t.blocks = s.blocks)

/-- kill, exit, yield and nap. -/
def Obligations.EndsOfSplits : Prop := Says.KillExitYieldNap ∧ Says.EndOfOneSplit

/-- lrun enqueues a block at the lane section base plus four times its immediate, with the split's lane set and the
values of s16 to s31 and b0 to b15, while fewer than four are queued; at four it waits. lsync goes on when the lane
stream of the split has finished: its queue is empty, and none of its results and outlier records is outstanding; it
waits otherwise (R104, R105). -/
def Obligations.LaneQueue : Prop :=
  ∀ (s : State) (g : GKey) (e : Nat), Ready s g e → (s.group g).vec = true →
    (∀ i : BitVec 19, (s.split g e).queue.length < 4 →
      ∃ b : QBlk, b.addr = BitVec.ofNat 64 ((s.rcb g).lanebase + 4 * i.toNat) ∧ b.pc = b.addr ∧ b.mask = (s.split g e).mask ∧
        (∀ n, 16 ≤ n → n < 32 → b.snapS.get 0 n = s.getS g e n) ∧ b.snapB = (s.group g).bregs ∧ b.lrunPc = (s.split g e).pc ∧
        b.again = none ∧ Runs (.lrun i) s (s.updSplit g e fun p => { p with queue := p.queue ++ [b] }) g e) ∧
    (∀ i : BitVec 19, 4 ≤ (s.split g e).queue.length → exec (.lrun i) s = .next (s.park g e .queue)) ∧
    ((s.split g e).queue = [] → (∀ o ∈ (s.group g).outst, o.e ≠ e) → (∀ o ∈ (s.group g).ol, o.e ≠ e) → Runs .lsync s s g e) ∧
    (((s.split g e).queue ≠ [] ∨ (∃ o ∈ (s.group g).outst, o.e = e) ∨ ∃ o ∈ (s.group g).ol, o.e = e) →
      exec .lsync s = .next (s.park g e .lsync))

/-! ## Events of splits -/

/-- The steps that let a waiting split go on (R124, R125, R130, R139). A nap that has run out: the nap retires and the split
goes on at the next word. A join window that has run out: every waiting split of the group whose window is over, or beside
which no other runs, runs on. A split whose next scalar instruction, or lane head, was ready and passed over for 64
cycles: it is put on the front list of its quadrant. Splits that are to fuse: of one number, those whose higher entry has
drained fuse. -/
def Says.SplitEvents : Prop :=
  ∀ (s : State) (g : GKey) (e : Nat),
    (∀ c, s.turn = .event (.napExpiry g e) → (s.split g e).st = .parked (.nap c) → c ≤ s.cycle → g.sh = 0 →
      ((s.group g).ents.get? e).isSome = true → (s.group g).stepping ≠ some e →
      Straight s g e (next s g e) (s.split g e).level →
      ∃ t, exec .napExpiry s = .next t ∧ t = moved s g e (next s g e) ∧ (t.split g e).pc = (s.split g e).pc + 4 ∧
        (t.split g e).st = .running) ∧
    (s.turn = .event (.joinWindowExpiry g e) →
      let expired (i : Nat) : Prop := ∃ c, (s.split g i).st = .waitJoin c ∧
        (c + (s.group g).joinwin.toNat ≤ s.windowNow g i ∨ s.mayWait g i = false)
      ∃ t, exec .joinWindowExpiry s = .next t ∧
        (∀ i, expired i → t.split g i = { s.split g i with st := .running, ready := s.cycle }) ∧
        (∀ i, ¬ expired i → t.split g i = s.split g i) ∧ (∀ k, k ≠ g → t.group k = s.group k) ∧
        t = { s with groups := t.groups }) ∧
    (s.turn = .event (.frontListPromotion g e) →
      (∀ c, e < 5 → (s.split g e).front = none → (s.split g e).since = some c → c + 64 ≤ s.cycle →
        exec .frontListPromotion s = .next (s.updSplit g e fun p => { p with front := some s.cycle })) ∧
      ∀ c, 5 ≤ e → (s.split g (e - 5)).lfront = none → (s.split g (e - 5)).lsince = some c → c + 64 ≤ s.cycle →
        exec .frontListPromotion s = .next (s.updSplit g (e - 5) fun p => { p with lfront := some s.cycle })) ∧
    (∀ hi k lo up, s.turn = .event (.fusion g e hi) → (s.split g e).st = .fusing k → s.fusePair g k = some (lo, up) →
      exec .fusion s = .next ((s.fuse g lo up k).fuseAll g k 3) ∧
      ((s.fuse g lo up k).fusePair g k = none → exec .fusion s = .next (s.fuse g lo up k)))

/-- Two entries that are to fuse are of the number, lower first, and of the higher nothing is under way (R115, R125). -/
def Says.FusionPairs : Prop :=
  ∀ (s : State) (g : GKey) (k lo hi : Nat), s.fusePair g k = some (lo, hi) → (s.group g).ents.Pairwise (fun p q => p.1 ≠ q.1) →
    lo ≠ hi ∧ (s.split g lo).st = .fusing k ∧ (s.split g hi).st = .fusing k ∧ (hi < 4 → lo < hi) ∧
      (s.split g hi).queue = [] ∧ (∀ o ∈ (s.group g).outst, o.e ≠ hi) ∧ ∀ o ∈ (s.group g).ol, o.e ≠ hi

/-- The fusion of two entries (R125): the lower entry holds the lanes of both, with the registers s1 to s31 of the entry that
has the lowest lane, the stack and the join address that one of them has, and the call records of both (R392); it runs
unless more entries are to fuse with it. The higher entry is free; nothing else changes but which entry the forks of the
higher one belong to. -/
def Says.FusedSplit : Prop :=
  ∀ (s : State) (g : GKey) (lo hi k : Nat), lo < hi →
    let t := s.fuse g lo hi k
    let a := s.split g lo
    let b := s.split g hi
    (t.split g lo).mask = a.mask ||| b.mask ∧ (t.split g lo).pc = a.pc ∧ (t.split g hi).st = .free ∧
      (t.split g hi).mask = 0 ∧
      (∀ n, 1 ≤ n → n < 32 → t.getS g lo n = if lowLane a.mask < lowLane b.mask then s.getS g lo n else s.getS g hi n) ∧
      (∀ n, 32 ≤ n → t.getS g lo n = s.getS g lo n) ∧
      (mayFuse a b = true → (t.split g lo).stack = a.stack ++ b.stack ∧ (t.split g lo).join = a.join.or b.join) ∧
      ((∀ q ∈ (s.group g).ents, q.1 ≠ lo → q.1 ≠ hi → q.2.st ≠ .fusing k) → (t.split g lo).st = .running) ∧
      (∀ i, i ≠ lo → i ≠ hi → t.split g i = s.split g i) ∧
      (∀ x, x.b ≠ g.b ∨ x.gid ≠ g.gid → t.group x = s.group x) ∧ t.mem = s.mem ∧ t.blocks = s.blocks

/-- Steps of waiting splits, and fusion. -/
def Obligations.SplitSteps : Prop := Says.SplitEvents ∧ Says.FusionPairs ∧ Says.FusedSplit

/-- FORK_RESOLVE (R135): a fork whose conditions hold commits into its split; one whose prediction failed is
dropped, and its split returns to the instruction after the call, one call level up. -/
def Says.ForkResolution : Prop :=
  ∀ (s : State) (g : GKey) (k : Nat) (f : Fork), s.turn = .event (.forkResolve g k) → s.forkReady g k = true →
    (s.group (shadowKey g k)).fork = some f →
    (s.forkHolds g f = true → exec .forkResolve s = .next (s.commitFork g k f)) ∧
    (s.forkHolds g f = false →
      exec .forkResolve s = .next (((s.dropShadow g k 4).updSplit (shadowKey g f.parent) f.ret fun p =>
        { p with level := p.level - 1 }).retire (shadowKey g f.parent) f.ret (f.callPc + 4)))

/-- When a callf forks (R132): the RVP entry of its call site matches, with the confidence that its form needs; a slot of the
core is free and the region's budget of slots has room; 64 vector registers of the core are free; fewer than three forks
of the group are unresolved; the region is not in ordered mode; and the issuing split is not a shadow that waits at a stall
point (R134). -/
def Says.ForkConditions : Prop :=
  ∀ (s : State) (g : GKey) (e : Nat) (two : Bool) (x : RvpEnt), s.turn = .scalar g e →
    (s.mayFork g two = some x ↔ ∃ b, s.bankOf g = some b ∧ x = b.rvp.get {} ((s.split g e).pc.toNat / 4 % 64) ∧
      x.valid = true ∧ x.tag = BitVec.ofNat 18 ((s.split g e).pc.toNat / 256) ∧ 2 ≤ x.conf2.toNat ∧
      (two = true → 2 ≤ x.conf3.toNat) ∧ (freeSlot (s.slotsUsed (s.coreOf g))).isSome = true ∧
      s.slotsHeld g.b.r < (s.rcb g).slots ∧ s.regsUsed (s.coreOf g) + 64 ≤ 16384 ∧ (s.shadows (baseKey g)).length < 3 ∧
      s.ordered g = false ∧ ¬ (g.sh ≠ 0 ∧ (s.split g e).lpark = some .fork))

/-- What a fork starts (R133): a shadow, in the free slot, whose one split has the mask and call level of the issuing split and
goes on after the callf, with the registers as at the callf but for the link and the predicted values, and an empty lane
queue. The issuing split is as before. -/
def Says.ForkStart : Prop :=
  ∀ (s : State) (g : GKey) (e : Nat) (two : Bool) (x : RvpEnt), g.sh = 0 →
    let t := s.forkShadow g e two x
    let k := shadowKey g ((s.group g).forks + 1)
    let p := s.split g e
    (t.split k e).pc = p.pc + 4 ∧ (t.split k e).mask = p.mask ∧ (t.split k e).level = p.level ∧ (t.split k e).queue = [] ∧
      (∀ i, i ≠ e → (t.group k).ents.get? i = none) ∧
      (∀ i, freeSlot (s.slotsUsed (s.coreOf g)) = some i → (t.group k).slot = i) ∧
      t.getS k e 1 = p.pc + 4 ∧ t.getS k e 2 = x.last2 + x.stride2.signExtend 64 ∧
      t.getS k e 3 = (if two then x.last3 else s.getS g e 3) ∧ (∀ n, 3 < n → t.getS k e n = s.getS g e n) ∧
      (t.group k).vregs = (s.group g).vregs ∧ (t.group k).masks = (s.group g).masks ∧
      t.split g e = p ∧ (t.group g).sregs = (s.group g).sregs ∧ (t.group g).vregs = (s.group g).vregs ∧ t.mem = s.mem ∧
      t.pend = s.pend

/-- The four checks of a resolution (R135): the values that the ret returns are the predicted ones, no conflict is marked, s32
to s63 and the vector registers of the kernel's .fork range hold their values at the fork, and the mask is that of the
callf. -/
def Says.ForkChecks : Prop :=
  ∀ (s : State) (g : GKey) (f : Fork),
    (s.forkHolds g f = true ↔ ∃ a2 a3 m, f.atRet = some (a2, a3, m) ∧ a2 = f.pred2 ∧ (f.two = true → a3 = f.pred3) ∧
      f.conflict = false ∧
      (∀ n, 32 ≤ n → n < 64 → (s.group (shadowKey g f.parent)).sregs.get 0 n = f.sBase.get 0 n) ∧
      (∀ lo hi, (s.region g.b.r).kd.fork = some (lo, hi) → ∀ n, lo ≤ n → n ≤ hi →
        (s.group (shadowKey g f.parent)).vregs.get zeroV n = f.vBase.get zeroV n) ∧ m = f.mask)

/-- What the commit of a continuation leaves (R135): its shadow is gone; the split has its s1 to s31, its mask, its stack and
its address; the shared registers that it wrote replace the group's; its blocks follow those that the split has
enqueued, and its stores, in their order, those that the split has made. The words concern a continuation of the group
itself that kept no fault, trace or table update, and that stands at no address of reconvergence (R123). -/
def Says.ForkCommit : Prop :=
  ∀ (s : State) (g : GKey) (k : Nat) (f : Fork), g.sh = 0 → k ≠ 0 → f.parent = 0 → f.deferred = none → f.traces = [] →
    f.rvp = [] → (s.group g).fork = none → s.ordered g = false → ((s.group g).ents.get? f.ret).isSome = true →
    let y := s.group (shadowKey g k)
    let q := y.ents.get {} f.e
    (∀ t r, q.stack = t :: r → t.j = q.pc → t.level ≠ q.level) → (∀ j, q.join = some j → j.1 ≠ q.pc) →
    (∀ x ∈ (s.group g).ents, x.1 ≠ f.ret → x.1 ≠ 4 → x.2.pc = q.pc → x.2.waiting = false) →
    let t := s.commitFork g k f
    let p := t.split g f.ret
    t.groups.get? (shadowKey g k) = none ∧ (∀ n, 1 ≤ n → n < 32 → t.getS g f.ret n = q.s.get 0 n) ∧
      (∀ n, 32 ≤ n → t.getS g f.ret n = if n ∈ f.wroteS then y.sregs.get 0 n else s.getS g f.ret n) ∧
      (∀ n, (t.group g).vregs.get zeroV n =
        if n / 8 ∈ f.wroteV then y.vregs.get zeroV n else (s.group g).vregs.get zeroV n) ∧
      (∀ n, (t.group g).masks.get 0 n = if n ∈ f.wroteM then y.masks.get 0 n else (s.group g).masks.get 0 n) ∧
      p.pc = q.pc ∧ p.mask = q.mask ∧ p.level = q.level ∧ p.stack = q.stack ∧ p.join = q.join ∧
      p.queue.map (fun b => (b.addr, b.pc, b.mask, b.snapS, b.snapB)) =
        ((s.split g f.ret).queue ++ q.queue).map (fun b => (b.addr, b.pc, b.mask, b.snapS, b.snapB)) ∧
      (t.group g).retired = (s.group g).retired + (y.retired - f.retired0) + 1 ∧ t.mem = s.mem ∧
      ∃ l, t.pend = s.pend ++ l ∧ l.map (·.cells) = f.buf.map (·.cells) ∧ ∀ x ∈ l, x.g = g ∧ x.e = f.ret

/-- Forkable calls and the resolution of forks. -/
def Obligations.Forks : Prop :=
  Says.ForkableCall ∧ Says.ForkResolution ∧ Says.ForkConditions ∧ Says.ForkStart ∧ Says.ForkChecks ∧ Says.ForkCommit

/-! ## Launches, copies and banks -/

/-- launch and launchv outside ordered mode (R82 to R85), of a split whose region's id stands: with the pages of the records and
descriptors walked (R192), what they give is launched and its status written; a vector launch takes the record of each lane of the split, in lane order. rwait (R94) goes on when
the operand names no region of the context, one that has ended, or the issuing region or an ancestor of it, and waits
otherwise for the region that the id names; a split that waits goes on when that region has ended, whether or not its id is
released before, and waits on otherwise. -/
def Says.LaunchesRegions : Prop :=
  ∀ (s : State) (g : GKey) (e : Nat), Ready s g e → s.ordered g = false → s.idUsed g.b.r.c g.b.r.id = true →
    (∀ (d a : BitVec 7) (t : State) (n : Int),
      (s.walkRecs g e [(s.getS g e a.toNat).toNat]).launchNow g e [(s.getS g e a.toNat).toNat] = .ok (t, n) →
      Runs (.launch d a) s (t.setS g e d.toNat (BitVec.ofInt 64 n)) g e) ∧
    (∀ (d a v : BitVec 7) (t : State) (n : Int), (s.group g).vec = true → v.toNat < (s.group g).budget →
      s.laneBusy g e (.vreg v.toNat) (s.laneMark g e) = false →
      let vas := (lanesOf (s.split g e).mask).map fun l => (s.getS g e a.toNat + (s.getVL g v.toNat l).setWidth 64).toNat
      (s.walkRecs g e vas).launchNow g e vas = .ok (t, n) →
      Runs (.launchv d a v) s (t.setS g e d.toNat (BitVec.ofInt 64 n)) g e) ∧
    (∀ a : BitVec 7,
      let v := (s.getS g e a.toNat).toNat
      (∀ w n, (s.split g e).st ≠ .parked (.region w n)) →
      (2 ^ 16 ≤ v ∨ s.named g.b.r.c v = none ∨ (∃ x, s.named g.b.r.c v = some x ∧ x.ended = true) ∨
          (∃ k, s.isAncestor g.b.r v k = true ∧ k ≤ s.regions.length + 1) → Runs (.rwait a) s s g e) ∧
        ∀ x, v < 2 ^ 16 → s.named g.b.r.c v = some x → x.ended = false → s.isAncestor g.b.r v (s.regions.length + 1) = false →
          exec (.rwait a) s = .next (s.park g e (.region v x.seq))) ∧
    ∀ (a : BitVec 7) (v n : Nat), (s.split g e).st = .parked (.region v n) →
      ((∀ x, s.regions.get? ⟨g.b.r.c, v⟩ = some x → x.seq = n → x.ended = true) → Runs (.rwait a) s s g e) ∧
        ∀ x, s.regions.get? ⟨g.b.r.c, v⟩ = some x → x.seq = n → x.ended = false → exec (.rwait a) s = .next (s.park g e (.region v n))

/-- Every record's launch reads its record; one that may not be read, and one whose page has to come, stop the instruction
(R79, R82, R197): the access fault, and the wait for the page. A record that the launch refuses gives its status, and
nothing is launched (R82). The reads walk the pages of the record and the descriptor (R192). -/
def Says.LaunchStops : Prop :=
  ∀ (s : State) (g : GKey) (e : Nat) (d a : BitVec 7), Issues s g e → s.ordered g = false →
    let rec_ := [(s.getS g e a.toNat).toNat]
    let w := s.walkRecs g e rec_
    (∀ va, w.prepareAll g e rec_ = .error (.nonres va) → exec (.launch d a) s = .next (w.park g e (.page va))) ∧
    (∀ f, w.prepareAll g e rec_ = .error (.fault f) → exec (.launch d a) s = .next (w.scalarFault g e f)) ∧
    (∀ k, w.prepareAll g e rec_ = .error (.image k) →
      exec (.launch d a) s = .next ((w.translate g.b.r.c k).park g e (.image k))) ∧
    (∀ n, w.prepareAll g e rec_ = .error (.refused n) → Straight s g e (next s g e) (s.split g e).level →
      Runs (.launch d a) s (w.setS g e d.toNat (BitVec.ofInt 64 n)) g e)

/-- A record that passes every check (R77, R82), a child of the issuing region without a kernel descriptor, is launched: its region
has the next free id, its effective record and the issuing region as its parent, and is queued, or waits for a predecessor that is not
done; the id is written. Without a free id or a free queue entry the status is −3; a region holds its entry in a queue until its last
block is placed, whatever its priority (the model's choice, log entry 75). A vector launch of records that pass gives them
consecutive ids in lane order, the first of which is written (R84); of no lane it gives 0. -/
def Says.LaunchEnters : Prop :=
  ∀ (s : State) (g : GKey) (e : Nat), Ready s g e → s.ordered g = false → s.idUsed g.b.r.c g.b.r.id = true →
    let r := g.b.r
    let walked (vas : List Nat) : State := (s.walkRecs g e vas).flushSplit g e
    let room (u : State) (xs : List Region) : Prop := ∀ d, d < 8 → u.queueLen d + (xs.filter fun x => x.dies.contains d).length ≤ 4096
    (∀ (d a : BitVec 7) (own : Region) (b : List Byte),
      let va := (s.getS g e a.toNat).toNat
      let w := s.walkRecs g e [va]
      let u := walked [va]
      let x := effectiveRcb b (some own.rcb)
      let dies := if x.cores ≤ 24 then [(s.group g).die] else List.range 8
      let new : Region := { rcb := x, kd := {}, parent := some r.id, dies }
      s.regions.get? r = some own → va % 256 = 0 → va + 256 ≤ 2 ^ 56 → w.readRec g e va 256 = .ok b → fieldAt b 8 2 = 0 → x.kdesc = 0 →
      rcbOk b (some own.rcb) x = true → w.candidate r.c x.entry = .none → x.coresident = false → x.persistent = false →
      ((aloneWith ⟨r.c, 0⟩ new).fitCluster ⟨r.c, 0⟩ x.toPlace x.seq false (dies.headD 0 * 6)).isSome = true →
      (∀ id, u.freeIds r.c 1 = some [id] → room u [new] → ∃ t,
        Runs (.launch d a) s (t.setS g e d.toNat (BitVec.ofNat 64 id)) g e ∧ t = u.enter r.c id new ∧
          (t.region ⟨r.c, id⟩).rcb = x ∧ (t.region ⟨r.c, id⟩).parent = some r.id ∧
          ((t.region ⟨r.c, id⟩).st = .queued ↔ ∀ p ∈ x.preds, ∀ y, u.named r.c p = some y → y.st = .done) ∧
          ((t.region ⟨r.c, id⟩).st = .queued ∨ (t.region ⟨r.c, id⟩).st = .waiting)) ∧
      ((u.freeIds r.c 1 = none ∨ ¬ room u [new]) → Runs (.launch d a) s (u.setS g e d.toNat (-3)) g e)) ∧
    ∀ (d a v : BitVec 7) (xs : List Region) (ids : List Nat), (s.group g).vec = true → v.toNat < (s.group g).budget →
      s.laneBusy g e (.vreg v.toNat) (s.laneMark g e) = false →
      let vas := (lanesOf (s.split g e).mask).map fun l => (s.getS g e a.toNat + (s.getVL g v.toNat l).setWidth 64).toNat
      let u := walked vas
      (s.walkRecs g e vas).prepareAll g e vas = .ok xs →
      (xs = [] → Runs (.launchv d a v) s ((s.walkRecs g e vas).setS g e d.toNat 0) g e) ∧
      (xs ≠ [] → u.freeIds r.c xs.length = some ids → room u xs →
        Runs (.launchv d a v) s (((ids.zip xs).foldl (fun s p => s.enter r.c p.1 p.2) u).setS g e d.toNat (BitVec.ofNat 64 (ids.headD 0))) g e)

/-- Launches, and waits for regions. -/
def Obligations.LaunchAndWait : Prop := Says.LaunchesRegions ∧ Says.LaunchStops ∧ Says.LaunchEnters

/-- A copy command that passes its checks enters the copy queue of its cluster and the open batch of its group
(R182, R186, R187). -/
def queued (s : State) (g : GKey) (c : CopyCmd) : State :=
  let s := s.updCluster (s.clusterOf g) fun x =>
    { x with copyQ := x.copyQ ++ [{ c with id := s.nextId, quantum := (s.region g.b.r).quantum }] }
  let s := s.updGroup g fun x => { x with openAny := true, openBatch := x.openBatch ++ [s.nextId] }
  { s with nextId := s.nextId + 1 }

/-- cpy, cpy2d and cpyg of a copy group enter the queue of 256 with the fields of their registers (R182 to R186);
cbatch closes the open batch and writes its number (R187); cwait goes on when the batches it covers are complete
without a fault, and waits otherwise (R188). -/
def Says.CopyCommands : Prop :=
  ∀ (s : State) (g : GKey) (e : Nat), Ready s g e → (s.group g).vec = false →
    (∀ (i : Instr) (c : CopyCmd),
      ((∃ a b l : BitVec 7, i = .cpy a b l ∧ (s.getS g e l.toNat).toNat < 2 ^ 32 ∧
          c = { g, dst := s.getS g e a.toNat, src := s.getS g e b.toNat, len := (s.getS g e l.toNat).toNat }) ∨
       (∃ a b l : BitVec 7, i = .cpy2d a b l ∧ l ≠ 127 ∧
          c = { g, kind := .cpy2d, dst := s.getS g e a.toNat, src := s.getS g e b.toNat
                len := (s.getS g e l.toNat).toNat % 2 ^ 32, rows := (s.getS g e l.toNat).toNat / 2 ^ 32
                ps := (s.getS g e (l.toNat + 1)).toNat % 2 ^ 32, pd := (s.getS g e (l.toNat + 1)).toNat / 2 ^ 32 } ∧
          c.ps % 4 = 0 ∧ c.pd % 4 = 0) ∨
       (∃ a b l : BitVec 7, i = .cpyg a b l ∧ l ≠ 127 ∧
          c = { g, kind := .cpyg, dst := s.getS g e a.toNat, src := s.getS g e b.toNat, idx := s.getS g e l.toNat
                len := (s.getS g e (l.toNat + 1)).toNat % 2 ^ 32, rows := (s.getS g e (l.toNat + 1)).toNat / 2 ^ 32 } ∧
          c.idx.toNat % 4 = 0)) →
      c.len % 4 = 0 → c.dst.toNat % 4 = 0 → c.src.toNat % 4 = 0 → c.len ≠ 0 → c.rows ≠ 0 →
      s.copiesSwitch c = false → s.copyBad c = none → (s.cluster (s.clusterOf g)).copyQ.length < 256 →
      Runs i s (queued s g c) g e) ∧
    (∀ d : BitVec 7, ((s.group g).batches.filter fun b => !b.cmds.isEmpty).length < 16 →
      Runs (.cbatch d) s ((s.updGroup g fun x =>
        { x with
          batches := x.batches ++ [{ num := x.batchNext, cmds := x.openBatch, fault := x.openFault }]
          batchNext := x.batchNext + 1, openBatch := [], openAny := false, openFault := none }).setS g e d.toNat
        (BitVec.ofNat 64 (s.group g).batchNext)) g e) ∧
    (∀ a : BitVec 7, s.ordered g = false → (s.split g e).st = .running →
      (∀ b ∈ (s.group g).batches, b.num ≤ (s.getS g e a.toNat).toNat → b.cmds = [] ∧ b.fault = none) →
      Runs (.cwait a) s (s.pruneBatches g) g e) ∧
    (∀ a : BitVec 7, s.ordered g = false → (s.split g e).st = .running →
      (∃ b ∈ (s.group g).batches, b.num ≤ (s.getS g e a.toNat).toNat ∧ b.num ≤ (s.group g).batchNext - 1 ∧ b.cmds ≠ []) →
      exec (.cwait a) s = .next (s.park g e (.batch (min (s.getS g e a.toNat).toNat ((s.group g).batchNext - 1)))))

/-- COPY_COMMAND_COMPLETE (R182, R185): a copy of words within the memory of this device writes at its destination what
its source held, even where they overlap, and no other byte of memory; then it has left the queue. -/
def Says.CopyMovesWords : Prop :=
  ∀ (s : State) (cl : Nat) (c : CopyCmd) (D S : Nat → Nat), s.turn = .event (.copyCommandComplete cl c.id) →
    ((s.cluster cl).copyQ.find? fun k => k.id == c.id) = some c → s.copyReady c = true → c.sent = false →
    c.kind = .cpy → c.rows = 1 → Calm s → (∀ l, s.poisoned l = false) → Memory.wf s.mem = true → (∀ k ∈ s.groups, k.2.ol = []) →
    (∀ j, j < c.len / 4 → s.placeOf c.g.b (c.dst.toNat + 4 * j) = some (.mem (D j)) ∧
      s.placeOf c.g.b (c.src.toNat + 4 * j) = some (.mem (S j)) ∧
      s.lineFault c false (c.dst.toNat + 4 * j) true = none ∧ s.lineFault c false (c.src.toNat + 4 * j) false = none) →
    (∀ i j, i < c.len / 4 → j < c.len / 4 → i ≠ j → D i + 4 ≤ D j ∨ D j + 4 ≤ D i) →
    ∃ t, exec .copyCommandComplete s = .next t ∧
      (∀ j k, j < c.len / 4 → k < 4 → t.rawByte (.mem (D j + k)) = s.rawByte (.mem (S j + k))) ∧
      (∀ a, (∀ j k, j < c.len / 4 → k < 4 → a ≠ D j + k) → t.rawByte (.mem a) = s.rawByte (.mem a)) ∧
      ((t.cluster cl).copyQ.all fun k => k.id != c.id) = true

/-- Copy commands and their completion. -/
def Obligations.Copies : Prop := Says.CopyCommands ∧ Says.CopyMovesWords

/-- bankcfg (R173 to R175): an operand out of range gives status 2 and changes no bank. Else, outside ordered mode and when its
turn has come: a FIFO bank that holds an entry and would leave its mode gives status 1 and changes no bank; banks that are
already in the mode give status 0 and keep their contents, once no copy of the block touches a named bank and its stores to scratch are
performed; other banks are set to switch, and the split waits till
BANK_SWITCH_COMPLETE makes the switch when its time has passed; it then gives status 0. In ordered mode the instruction is
kept for the commit (the model's reading, log entry 31). rret writes the range register of the region's history bank (R178). -/
def Says.BankModes : Prop :=
  ∀ (s : State) (g : GKey) (e : Nat), Ready s g e →
    (∀ a b : BitVec 7, (s.split g e).st = .running →
      let m := (s.getS g e a.toNat).toNat
      let mode := (s.getS g e b.toNat).toNat
      let n := (s.block g.b).banks.length
      let bank (i : Nat) : Bank := (s.block g.b).banks.getD i {}
      let turn := s.updBlock g.b fun x => { x with cfgQ := x.cfgQ.filter (· != (g, e)) }
      let stores := turn.flush fun p => decide (p.g.b = g.b) && p.cells.any fun w => match w.1 with
        | .scr _ _ => true
        | .mem _ => false
      let ok := m < 2 ^ 32 ∧ (∀ i, i < 32 → m.testBit i = true → i < n) ∧ mode ≤ 2
      let full := ∃ i, m.testBit i = true ∧ (bank i).mode = .fifo ∧ mode ≠ 2 ∧ (bank i).fifo ≠ []
      let same := ∀ i, m.testBit i = true → (bank i).mode = BankMode.ofCode mode
      (¬ ok → Runs (.bankcfg a b) s (s.setS g e a.toNat 2) g e) ∧
      (ok → s.ordered g = false → s.cfgTurn g e = true →
        (full → Runs (.bankcfg a b) s (turn.setS g e a.toNat 1) g e) ∧
        (same → s.copiesTouch g.b (BitVec.ofNat 32 m) = false → Runs (.bankcfg a b) s (stores.setS g e a.toNat 0) g e) ∧
        (same → s.copiesTouch g.b (BitVec.ofNat 32 m) = true → ∃ t, exec (.bankcfg a b) s = .next t ∧
          (t.split g e).st = .parked (.bankSwitch (s.block g.b).switched) ∧ (t.split g e).pc = (s.split g e).pc ∧
          ∀ i, i < n → ((t.block g.b).banks.getD i {}).mode = (bank i).mode) ∧
        (¬ full → ¬ same → ∃ t, exec (.bankcfg a b) s = .next t ∧
          (t.split g e).st = .parked (.bankSwitch (s.block g.b).switched) ∧ (t.split g e).pc = (s.split g e).pc ∧
          (∀ i, i < n → ((t.block g.b).banks.getD i {}).switching =
            if m.testBit i = true ∧ (bank i).mode ≠ BankMode.ofCode mode then some (BankMode.ofCode mode) else (bank i).switching))) ∧
      (ok → s.ordered g = true → exec (.bankcfg a b) s = .next (((s.count g e).updGroup g fun x =>
        { x with q := { x.q with ops := x.q.ops ++ [.bankcfg e a.toNat (BitVec.ofNat 32 m) (BankMode.ofCode mode)] } }).park g e .commit))) ∧
    (∀ (a b : BitVec 7) (n : Nat), (s.split g e).st = .parked (.bankSwitch n) → n < (s.block g.b).switched →
      Runs (.bankcfg a b) s (s.setS g e a.toNat 0) g e) ∧
    (∀ a b c : BitVec 7, (s.getS g e a.toNat).toNat < 2 ^ 56 → (s.getS g e b.toNat).toNat < 2 ^ 48 →
      (s.getS g e a.toNat).toNat % 128 = 0 → (s.getS g e b.toNat).toNat % 128 = 0 →
      Runs (.rret a b c) s (s.histNow g (.rret (s.getS g e a.toNat) (s.getS g e b.toNat) (s.getS g e c.toNat))) g e) ∧
    (∀ b : BKey, s.bankSwitchReady b = true →
      exec .bankSwitchComplete { s with turn := .event (.bankSwitchComplete b) } =
        .next (State.switchBanks { s with turn := .event (.bankSwitchComplete b) } b))

/-- A bank that takes its new mode is empty: its scratch bytes are zero and its FIFO holds no entry (R171, R181). -/
def Says.SwitchedBankIsEmpty : Prop :=
  ∀ (s : State) (b : BKey) (i : Nat) (k : Bank) (m : BankMode),
    (s.block b).banks[i]? = some k → k.switching = some m →
    ∃ k', ((s.switchBanks b).block b).banks[i]? = some k' ∧ k'.mode = m ∧ k'.num = k.num ∧ k'.fifo = [] ∧
      k'.switching = none ∧ ∀ a, k'.bytes.get 0 a = 0

/-- Bank modes and switches. -/
def Obligations.Banks : Prop := Says.BankModes ∧ Says.SwitchedBankIsEmpty

/-! ## Atomics, waits and fences -/

/-- A scalar atomic outside ordered mode (R206, R207, R218): with its checks and the scope check passed, the
split's scalar stores and its stores to the line are performed, the destination takes the old doubleword, and memory the new one; every other
byte of memory is as the performed stores leave it. -/
def Obligations.ScalarAtomic : Prop :=
  ∀ (s s1 s2 : State) (g : GKey) (e : Nat) (i : Instr) (sc : BitVec 2) (d a b : BitVec 7) (cell : Nat)
    (f : DWord → DWord → DWord → DWord), Ready s g e → sc ≠ 3 → s.ordered g = false →
    ((i = .satom sc 0 d a b ∧ f = fun m x _ => m + x) ∨ (i = .satom sc 1 d a b ∧ f = fun m x _ => m &&& x) ∨
     (i = .satom sc 2 d a b ∧ f = fun m x _ => m ||| x) ∨ (i = .satom sc 3 d a b ∧ f = fun m x _ => m ^^^ x) ∨
     (i = .satom sc 4 d a b ∧ f = fun _ x _ => x) ∨
     (i = .satom sc 5 d a b ∧ f = fun m x _ => if x.toInt < m.toInt then x else m) ∨
     (i = .satom sc 6 d a b ∧ f = fun m x _ => if m.toInt < x.toInt then x else m) ∨
     (i = .scas sc d a b ∧ f = fun m x c => if m = c then x else m)) →
    let va := (s.getS g e a.toNat).toNat
    s.access g va 8 true true = (s1, .ok cell) → s.wptHit g va 8 true true = none →
    (((s1.flushScalar g e).flushLines g e [cell / 128]).conflicts g e [cell / 128]).syncOf g e (s.split g e).pc.toNat
      (if sc = 0 then 3 else if sc = 1 then 6 else 7) false true true false cell = (s2, none) →
    Memory.wf s2.mem = true →
    ∃ t, exec i s = .next t ∧ (t.split g e).pc = next s g e ∧
      let old : DWord := BitVec.ofNat 64 (leNat ((Loc.span (.mem cell) 8).map s2.rawByte))
      t.getS g e d.toNat = (if d = 0 then 0 else old) ∧
      (∀ k, k < 8 → t.rawByte (.mem (cell + k)) =
        ((f old (s.getS g e b.toNat) (s.getS g e d.toNat)) >>> (8 * k)).setWidth 8) ∧
      (∀ l, (∀ k, k < 8 → l ≠ .mem (cell + k)) → t.rawByte l = s2.rawByte l) ∧ KeepsScalar s t g e d.toNat

/-- waiteq and waitne outside ordered mode (R208): on a value that meets the condition the wait is an acquire at its scope
and goes on; on another the split waits. -/
def Says.WaitOnAddress : Prop :=
  ∀ (s s1 s2 : State) (g : GKey) (e : Nat) (a b : BitVec 7) (m : BitVec 5) (cell : Nat) (eq : Bool), s.ordered g = false →
    let i : Instr := if eq then .waiteq a b m else .waitne a b m
    let va := (s.getS g e a.toNat).toNat
    let n := if m.getLsbD 3 then 8 else 4
    let scope := (m.extractLsb' 0 3).toNat
    let read := s1.settleLoads g e [cell] n
    let same := read.load g e (.mem cell) n = (s.getS g e b.toNat).toNat % 2 ^ (8 * n)
    (Ready s g e → s.access g va n true false = (s1, .ok cell) → (eq = true ↔ same) →
      read.waitDone g e va cell scope (m.getLsbD 4) false = (s2, none) → Runs i s s2 g e) ∧
    (Issues s g e → s.access g va n true false = (s1, .ok cell) → ¬(eq = true ↔ same) →
      exec i s = .next (read.park g e (.wait va cell (m.getLsbD 3) eq (s.getS g e b.toNat) scope (m.getLsbD 4))))

/-- WAIT_REREAD (R208): the value that a waiting split names meets its condition: the wait is an acquire, and the split goes
on. A re-read that meets no access, or poison, faults (R199). -/
def Says.WaitReread : Prop :=
  ∀ (s s1 : State) (g : GKey) (e va l scope : Nat) (dbl eq rmt : Bool) (v : DWord), s.turn = .event (.waitReread g e) →
    (s.split g e).st = .parked (.wait va l dbl eq v scope rmt) →
    let n := if dbl then 8 else 4
    (∀ cell s2, s.accessAs g e va n true false = (s1, .ok cell) →
      (eq = true ↔ (s1.settleLoads g e [cell] n).load g e (.mem cell) n = v.toNat % 2 ^ (8 * n)) →
      (s1.settleLoads g e [cell] n).waitDone g e va cell scope rmt false = (s2, none) →
      exec .waitReread s = .next (s2.retire g e ((s2.split g e).pc + 4))) ∧
    ∀ f, s.accessAs g e va n true false = (s1, .fault f) → exec .waitReread s = .next (s1.scalarFault g e f)

/-- Waits on addresses. -/
def Obligations.Waits : Prop := Says.WaitOnAddress ∧ Says.WaitReread

/-- fence and fence.eng outside ordered mode (R219 to R221): while lane memory accesses enqueued before it have not
issued the split waits; then every store of the split is performed. ACCESS_PERFORMED performs one store (R214). -/
def Says.Fences : Prop :=
  (∀ (s : State) (g : GKey) (e : Nat) (c : BitVec 3), Ready s g e → s.ordered g = false →
    (s.lanesPending g e = false → Runs (.fence c) s (s.flushSplit g e) g e ∧ Runs .fenceEng s (s.flushSplit g e) g e) ∧
    (s.lanesPending g e = true → exec (.fence c) s = .next (s.park g e .fence) ∧
      exec .fenceEng s = .next (s.park g e .fenceEng))) ∧
  ∀ (s : State) (id : Nat), s.turn = .event (.accessPerformed id) → s.performReady id = true →
    exec .accessPerformed s = .next (s.flush fun p => p.id == id)

/-- Stores performed (R214, R215): those selected, and the older ones of the same split that touch a unit of one that is performed;
they leave the held-back stores in the order of their issue, each byte that they write holds the last value written to it, and
every other byte is as before. -/
def Says.PerformedStores : Prop :=
  (∀ (s : State) (sel : Pend → Bool), Memory.wf s.mem = true →
    let t := s.flush sel
    let done := (takeStores sel s.pend).1
    let left := (takeStores sel s.pend).2
    (∀ a, t.rawByte (.mem a) = (lastWrite (done.map (·.cells)).flatten (.mem a)).getD (s.rawByte (.mem a))) ∧
      t.pend = left ∧ t.groups = s.groups ∧ Memory.wf t.mem = true ∧
      done.Sublist s.pend ∧ left.Sublist s.pend ∧ (done ++ left).Perm s.pend ∧ (∀ p ∈ left, sel p = false) ∧
      (∀ p ∈ done, sel p = true ∨ ∃ q ∈ done, p.meets q = true) ∧
      ((s.pend.map (·.id)).Nodup → ∀ p q, [p, q].Sublist s.pend → q ∈ done → p.meets q = true → p ∈ done)) ∧
  ∀ p q : Pend, p.meets q = true ↔ p.g = q.g ∧ p.e = q.e ∧ ∃ w ∈ p.cells, ∃ v ∈ q.cells, w.1.unit = v.1.unit

/-- Fences, and stores performed. -/
def Obligations.FencesAndStores : Prop := Says.Fences ∧ Says.PerformedStores

/-! ## Rings and barriers -/

/-- Stage rings outside ordered mode (R228, R229): a give into a free stage, a take of a full one goes on, with the ring's
depth fixed by its first operation; with an earlier waiter or no such stage the split waits in order; a wake lets the
oldest waiter go on. -/
def Says.StageRings : Prop :=
  (∀ (s : State) (g : GKey) (e : Nat) (d : BitVec 3) (n : BitVec 4), Ready s g e → s.ordered g = false →
    let r := ((s.block g.b).rings.get {} n.toNat).fix (d.toNat + 1)
    let fixed := s.updBlock g.b fun x => { x with rings := x.rings.put n.toNat r }
    (r.givers = [] → r.full.getLsbD r.gi = false →
      Runs (.ringGive d n) s ((fixed.flushScalar g e).updRing g.b n.toNat fun x =>
        { x with full := x.full ||| BitVec.ofNat 8 (2 ^ x.gi), gi := (x.gi + 1) % (r.depth.getD 1) }) g e) ∧
    (r.takers = [] → r.full.getLsbD r.ti = true →
      Runs (.ringTake d n) s (fixed.updRing g.b n.toNat fun x =>
        { x with full := x.full &&& ~~~(BitVec.ofNat 8 (2 ^ x.ti)), ti := (x.ti + 1) % (r.depth.getD 1) }) g e) ∧
    (r.givers ≠ [] ∨ r.full.getLsbD r.gi = true → exec (.ringGive d n) s =
      .next ((fixed.updRing g.b n.toNat fun x => { x with givers := x.givers ++ [.split g e] }).park g e (.ring true n.toNat))) ∧
    (r.takers ≠ [] ∨ r.full.getLsbD r.ti = false → exec (.ringTake d n) s =
      .next ((fixed.updRing g.b n.toNat fun x => { x with takers := x.takers ++ [.split g e] }).park g e (.ring false n.toNat)))) ∧
  (∀ (s : State) (b : BKey) (n : Nat) (w : RWait) (r : List RWait), s.turn = .event (.parkedGiveWake b n) →
    (s.ring b n).givers = w :: r → (s.ring b n).canGive = true → s.waiterFree b w = true →
    exec .parkedGiveWake s = .next ((s.updRing b n fun x => { x.give with givers := r }).wakeRing b w)) ∧
  ∀ (s : State) (b : BKey) (n : Nat) (w : RWait) (r : List RWait), s.turn = .event (.parkedTakeWake b n) →
    (s.ring b n).takers = w :: r → (s.ring b n).canTake = true → s.waiterFree b w = true →
    exec .parkedTakeWake s = .next ((s.updRing b n fun x => { x.take with takers := r }).wakeRing b w)

/-- Barriers outside ordered mode (R230 to R234): bar.blk and bar.route arrive and wait for the open instance, bar.arrive
arrives and goes on, but a split whose part in the open instance is done waits for the next one first; bar.wait waits for
the instance it last arrived at, and not after its completion; a tag the region has not is illegal; a release lets the
waiters of the completed instance go on, and stands while some of them cannot. -/
def Says.Barriers : Prop :=
  (∀ (s : State) (g : GKey) (e : Nat), Ready s g e → s.ordered g = false →
    ((s.bar g.b none).next g e = false → exec .barBlk s =
      .next (((s.flushScalar g e).park g e (.barrier none (s.bar g.b none).inst)).barExec g e none false)) ∧
    ((s.bar g.b none).next g e = true → exec .barBlk s = .next (s.park g e (.rearrive 8 (s.bar g.b none).inst))) ∧
    ∀ t : BitVec 3,
      (t.toNat < (s.rcb g).tags → (s.bar g.b (some t.toNat)).next g e = false →
        exec (.barRoute t) s = .next (((s.flushScalar g e).park g e (.barrier (some t.toNat)
          (s.bar g.b (some t.toNat)).inst)).barExec g e (some t.toNat) false) ∧
        exec (.barArrive t) s = .next (((s.flushScalar g e).retire g e (next s g e)).barExec
          g e (some t.toNat) true)) ∧
      (t.toNat < (s.rcb g).tags → (s.bar g.b (some t.toNat)).next g e = true →
        exec (.barRoute t) s = .next (s.park g e (.rearrive t.toNat (s.bar g.b (some t.toNat)).inst)) ∧
        exec (.barArrive t) s = .next (s.park g e (.rearrive t.toNat (s.bar g.b (some t.toNat)).inst))) ∧
      (t.toNat < (s.rcb g).tags →
        (∀ i, (s.bar g.b (some t.toNat)).last.get? g = some i → i < (s.bar g.b (some t.toNat)).inst) → Runs (.barWait t) s s g e) ∧
      (∀ i, t.toNat < (s.rcb g).tags → (s.bar g.b (some t.toNat)).last.get? g = some i →
        (s.bar g.b (some t.toNat)).inst ≤ i → exec (.barWait t) s = .next (s.park g e (.barrier (some t.toNat) i))) ∧
      ((s.rcb g).tags ≤ t.toNat → exec (.barWait t) s = .next (s.scalarFault g e { kind := 1 }) ∧
        exec (.barArrive t) s = .next (s.scalarFault g e { kind := 1 }) ∧
        exec (.barRoute t) s = .next (s.scalarFault g e { kind := 1 }))) ∧
  ∀ (s : State) (b : BKey) (t : Option Nat) (p : Nat × Nat), s.turn = .event (.barrierRelease b t) → s.releaseDue b t = some p →
    let u := (s.released b t p.1).foldl (fun s w => s.retire w.1 w.2 ((s.split w.1 w.2).pc + 4)) s
    ((u.barWaiters b t p.1 = [] ∧ u.savedWaiters b t p.1 = false) →
      exec .barrierRelease s = .next (u.updBar b t fun k => { k with releases := k.releases.filter (· != p) })) ∧
    ((u.barWaiters b t p.1 ≠ [] ∨ u.savedWaiters b t p.1 = true) → exec .barrierRelease s = .next u)

/-- Stage rings and barriers. -/
def Obligations.RingsAndBarriers : Prop := Says.StageRings ∧ Says.Barriers

/-! ## Lane instructions on registers -/

/-- Each Active lane of an integer, logic, shift, bit-field or vdot4 instruction receives its result (table `IntLane`,
R49 to R51, R152, R153, R159); the other lanes of the destination, every other register and memory stay. -/
def Obligations.LaneIntegerResult : Prop :=
  ∀ (s s' : State) (g : GKey) (e : Nat) (i : Instr) (x : LArgs) (R : Nat → Nat → Nat → Nat → Nat → Prop) (b : Nat → Nat),
    IntLane i x R → LaneReady s g e i x → BOperand s s' g e x x.ty false b →
    ∃ t, exec i s = .next t ∧ LaneKeeps s t g e (pairRegs x.ty x.vd.toNat) ∧ ∀ l, l < 32 →
      if (active s g e x).getLsbD l then
        R (s.laneVal g x.ty x.va.toNat l) (b l) (s.laneVal g x.ty x.vc.toNat l) (s.laneVal g x.ty x.vd.toNat l)
          (t.laneVal g x.ty x.vd.toNat l)
      else t.laneVal g x.ty x.vd.toNat l = s.laneVal g x.ty x.vd.toNat l

/-- The same of the float instructions of fixed latency and of vmov (table `FloatLane`, R52 to R58, R154, R156, R158,
R159); an immediate of a float type denotes a float. -/
def Says.LaneFloatResult : Prop :=
  ∀ (s s' : State) (g : GKey) (e : Nat) (i : Instr) (x : LArgs) (R : Nat → Nat → Nat → Nat → Prop) (b : Nat → Nat),
    FloatLane i x R → LaneReady s g e i x → BOperand s s' g e x x.ty true b →
    ∃ t, exec i s = .next t ∧ LaneKeeps s t g e (pairRegs x.ty x.vd.toNat) ∧ ∀ l, l < 32 →
      if (active s g e x).getLsbD l then
        R (s.laneVal g x.ty x.va.toNat l) (b l) (s.laneVal g x.ty x.vc.toNat l) (t.laneVal g x.ty x.vd.toNat l)
      else t.laneVal g x.ty x.vd.toNat l = s.laneVal g x.ty x.vd.toNat l

/-- The uniform b operands (R38, R39): a window entry's low bits stand in every element, an integer immediate is
sign-extended, a float immediate holds the upper 20 bits of an f32, rounded to the type, and a word of a constant
window beyond its length is 0. -/
def Says.UniformOperand : Prop :=
  ∀ (s : State) (g : GKey) (e : Nat) (x : LArgs) (t : Ty) (flt : Bool),
    (x.bk = .window → s.uniformB g e x t flt =
      (s, .val (repeatEl t ((s.head g e).snapS.get 0 (16 + (x.b.extractLsb' 0 4).toNat)).toNat))) ∧
    (x.bk = .imm → flt = false → s.uniformB g e x t flt = (s, .val (repeatEl t (x.b.signExtend 64).toNat))) ∧
    (x.bk = .imm → flt = true → t = .f32 → s.uniformB g e x t flt = (s, .val (x.b.toNat * 2 ^ 12))) ∧
    (x.bk = .imm → flt = true → (t = .f16 ∨ t = .bf16) → s.uniformB g e x t flt =
      (s, .val (repeatEl t (roundTo (Ty.fmt t) .rne false (readFloat fmtF32 (x.b.toNat * 2 ^ 12)))))) ∧
    (x.bk = .const → t.is64 = false →
      ((s.group g).wins.get {} (x.b.extractLsb' 17 3).toNat).len.toNat < 4 * (x.b.extractLsb' 0 17).toNat + 4 →
      s.uniformB g e x t flt = (s, .val 0)) ∧
    ∀ v k, t.is64 = false → k < t.elems → elGet t.width (repeatEl t v) k = v % 2 ^ t.width

/-- Float lane results and uniform operands. -/
def Obligations.LaneFloats : Prop := Says.LaneFloatResult ∧ Says.UniformOperand

/-- vmovi, vlane, vsel, vcvt, vtern.pack and vtern.unpack (R154, R160, R162) write their values in the Active lanes, the
other lanes of a destination keep theirs, and no other register changes. -/
def Obligations.LaneMoveResult : Prop :=
  ∀ (s s' : State) (g : GKey) (e : Nat) (x : LArgs) (b : Nat → Nat),
    let on := active s g e x
    let va (l : Nat) : Nat := (s.getVL g x.va.toNat l).toNat
    (LaneReady s g e (.vmovi x) x → ∃ t, exec (.vmovi x) s = .next t ∧ LaneKeeps s t g e [x.vd.toNat] ∧ ∀ l, l < 32 →
      t.getVL g x.vd.toNat l = if on.getLsbD l then x.b.extractLsb' 0 16 ++ x.ext else s.getVL g x.vd.toNat l) ∧
    (LaneReady s g e (.vlane x) x → ∃ t, exec (.vlane x) s = .next t ∧ LaneKeeps s t g e [x.vd.toNat] ∧ ∀ l, l < 32 →
      t.getVL g x.vd.toNat l = if on.getLsbD l then BitVec.ofNat 32 l else s.getVL g x.vd.toNat l) ∧
    (LaneReady s g e (.vsel x) x → BOperand s s' g e x x.ty true b →
      ∃ t, exec (.vsel x) s = .next t ∧ LaneKeeps s t g e (pairRegs x.ty x.vd.toNat) ∧ ∀ l, l < 32 →
        t.laneVal g x.ty x.vd.toNat l =
          if !on.getLsbD l then s.laneVal g x.ty x.vd.toNat l
          else if (s.getM g (s.head g e).mask x.vc.toNat).getLsbD l then b l % 2 ^ (if x.ty.is64 then 64 else 32)
          else s.laneVal g x.ty x.va.toNat l) ∧
    (LaneReady s g e (.vcvt x) x →
      ∃ t, exec (.vcvt x) s = .next t ∧ LaneKeeps s t g e (pairRegs x.ty x.vd.toNat) ∧ ∀ l, l < 32 →
        if on.getLsbD l then
          ∀ k, k < x.ty.elems → elGet x.ty.width (t.laneVal g x.ty x.vd.toNat l) k =
            let a := s.laneVal g x.cvSrc x.va.toNat l
            let cv (j : Nat) : Nat :=
              convEl x.ty x.rm x.sat (readEl x.cvSrc (elGet x.cvSrc.width a j)) % 2 ^ x.ty.width
            if x.ty.elems ≤ x.cvSrc.elems then cv (x.cvPart * x.ty.elems + k)
            else if x.cvPart * x.cvSrc.elems ≤ k ∧ k < (x.cvPart + 1) * x.cvSrc.elems then cv (k - x.cvPart * x.cvSrc.elems)
            else elGet x.ty.width (s.laneVal g x.ty x.vd.toNat l) k
        else t.laneVal g x.ty x.vd.toNat l = s.laneVal g x.ty x.vd.toNat l) ∧
    (LaneReady s g e (.vternPack x) x →
      ∃ t, exec (.vternPack x) s = .next t ∧ LaneKeeps s t g e [x.vd.toNat] ∧ ∀ l, l < 32 →
        if on.getLsbD l then
          let trit (j : Nat) : Int := (sInt 8 (elGet 8 (s.getVL g (x.va.toNat + j / 4) l).toNat (j % 4))).sign
          if x.ext.getLsbD 0 then ∀ k, k < 4 → elGet 8 (t.getVL g x.vd.toNat l).toNat k =
            (List.range 5).foldl (fun n j => n + (trit (5 * k + j) % 3).toNat * 3 ^ j) 0
          else ∀ j, j < 16 → elGet 2 (t.getVL g x.vd.toNat l).toNat j =
            (if trit j = 1 then 1 else if trit j = -1 then 3 else 0)
        else t.getVL g x.vd.toNat l = s.getVL g x.vd.toNat l) ∧
    (LaneReady s g e (.vternUnpack x) x → ∃ t, exec (.vternUnpack x) s = .next t ∧
      (∀ n l, l < 32 →
        if x.vd.toNat ≤ n ∧ n < x.vd.toNat + (if x.ext.getLsbD 0 then 5 else 4) ∧ on.getLsbD l then
          ∀ i, i < 4 → sInt 8 (elGet 8 (t.getVL g n l).toNat i) =
            let j := 4 * (n - x.vd.toNat) + i
            if x.ext.getLsbD 0 then
              let q := elGet 8 (va l) (j / 5)
              if 243 ≤ q then (0 : Int)
              else if q / 3 ^ (j % 5) % 3 = 2 then -1 else if q / 3 ^ (j % 5) % 3 = 1 then 1 else 0
            else if elGet 2 (va l) j = 1 then 1 else if elGet 2 (va l) j = 3 then -1 else 0
        else t.getVL g n l = s.getVL g n l) ∧
      (t.group g).vstat.getLsbD 0 = ((s.group g).vstat.getLsbD 0 || (!x.ext.getLsbD 0 &&
        (List.range 32).any fun l => on.getLsbD l && (List.range 16).any fun j => elGet 2 (va l) j == 2)) ∧
      (t.group g).vstat.getLsbD 1 = ((s.group g).vstat.getLsbD 1 || (x.ext.getLsbD 0 &&
        (List.range 32).any fun l => on.getLsbD l && (List.range 4).any fun j => 243 ≤ elGet 8 (va l) j)) ∧
      (t.group g).masks = (s.group g).masks ∧ KeepsMemory s t)

/-- vcvt.o (R65, R161): an element that overflows becomes 0, and every other one is converted as vcvt converts it without
saturation. The overflowing elements, in lane order and element order, are records (`outliers`) (R66): with none, no other
register and no memory changes; behind records that wait they wait too; otherwise they are appended in their order as far as none
faults or waits; and where the list holds no entry each of them counts in sr.olcnt as dropped (R64). -/
def Says.OutlierConversion : Prop :=
  ∀ (s : State) (g : GKey) (e : Nat) (x : LArgs), LaneReady s g e (.vcvtO x) x →
    let recs := outliers s g e x
    let ds := pairRegs x.ty x.vd.toNat
    let grp := s.group g
    ∃ t u : State, exec (.vcvtO x) s = .next t ∧
      (∀ l, l < 32 → if (active s g e x).getLsbD l then
          ∀ k, k < x.ty.elems → elGet x.ty.width (u.laneVal g x.ty x.vd.toNat l) k =
            let a := s.laneVal g x.cvSrc x.va.toNat l
            let cv (j : Nat) : Nat :=
              let v := readEl x.cvSrc (elGet x.cvSrc.width a j)
              if isOutlier x.ty x.rm v then 0 else convEl x.ty x.rm false v % 2 ^ x.ty.width
            if x.ty.elems ≤ x.cvSrc.elems then cv (x.cvPart * x.ty.elems + k)
            else if x.cvPart * x.cvSrc.elems ≤ k ∧ k < (x.cvPart + 1) * x.cvSrc.elems then cv (k - x.cvPart * x.cvSrc.elems)
            else elGet x.ty.width (s.laneVal g x.ty x.vd.toNat l) k
        else u.laneVal g x.ty x.vd.toNat l = s.laneVal g x.ty x.vd.toNat l) ∧
      (∃ v, u.group g = { grp with vregs := v }) ∧ (∀ k, k ≠ g → u.group k = s.group k) ∧
      u = { s with groups := u.groups } ∧ (∀ n, n ∉ ds → u.getV g n = s.getV g n) ∧
      (recs = [] → LaneKeeps s t g e ds ∧ (t.group g).vregs = (u.group g).vregs ∧ (t.group g).ol = grp.ol) ∧
      (recs ≠ [] → grp.ol ≠ [] → LaneKeeps s t g e ds ∧ (t.group g).vregs = (u.group g).vregs ∧
        (t.group g).ol = if s.ordered g then grp.ol ++ recs else insOl recs grp.ol) ∧
      (recs ≠ [] → grp.ol = [] →
        let w := (u.updGroup g fun y => { y with ol := recs }).olDrain g
        w.2 = [] → (t.group g).vregs = (u.group g).vregs ∧ (t.group g).masks = grp.masks ∧
          (t.group g).ol = (w.1.group g).ol ∧ (t.group g).olcnt = (w.1.group g).olcnt ∧
          (t.group g).q.buf = (w.1.group g).q.buf ∧ t.pend = w.1.pend ∧ t.mem = s.mem ∧
          (t.group g).retired = grp.retired + 1 ∧
          (t.split g e).queue = { s.head g e with pc := (s.head g e).pc + 12 } :: (s.split g e).queue.tail) ∧
      (recs ≠ [] → grp.ol = [] → grp.ollen = 0 → (∀ w ∈ (s.seq g.b).ol, w.1 ≠ g.gid) →
        (∀ p ∈ grp.ents, p.1 ≠ e → p.2.queue = []) →
        (t.group g).vregs = (u.group g).vregs ∧ (t.group g).masks = grp.masks ∧ (t.group g).ol = [] ∧
          (t.group g).olcnt.toNat = min (grp.olcnt.toNat % 2 ^ 31 + recs.length) (2 ^ 31 - 1) + 2 ^ 31 ∧ KeepsMemory s t)

/-- The records of a group's list taken up (R66, R67). Those that no other record or block is before are stored or dropped one
after the other (`appended`) and leave the list; one whose page is not resident stays with those behind it, and keeps the
place that it has come to. -/
def Says.OutlierDrain : Prop :=
  ∀ (s s1 : State) (g : GKey) (pre : List OlRec), (∀ r ∈ pre, r.fault = none ∧ r.at_ = none) → appended s g pre = some s1 →
    ((s.group g).ol = pre → s.olDrain g = (s1.updGroup g fun y => { y with ol := [] }, [])) ∧
    ∀ (r : OlRec) (rs : List OlRec) (s2 : State), (s.group g).ol = pre ++ r :: rs → (∀ k ∈ r :: rs, k.fault = none) → r.at_ = none →
      s1.olBehind g r = false → s1.olAppend g r.e true r.index r.value none = (s2, .wait) →
      s.olDrain g = (s2.updGroup g fun y => { y with ol := { r with at_ := some (s2.group g).olPlace } :: rs }, [])

/-- The append of an outlier record outside ordered mode (R64, R65, R66): with room in the list the doubleword of value
and element index is one store at its place and the count rises; with none the record is dropped, the count rises and
bit 31 is set; the count stays at its greatest value. A record that has waited for the page of its place is stored there. -/
def Says.OutlierAppend : Prop :=
  ∀ (s s1 : State) (g : GKey) (e cell : Nat) (index value : Word) (at_ : Option Nat), g.sh = 0 → (s.group g).fork = none →
    let c := (s.group g).olcnt.toNat % 2 ^ 31
    ((s.group g).ollen.toNat ≤ c → at_ = none → (s.olAppend g e true index value at_).2 = .done ∧
      (((s.olAppend g e true index value at_).1.group g).olcnt.toNat = min (c + 1) (2 ^ 31 - 1) + 2 ^ 31)) ∧
    (c < (s.group g).ollen.toNat → s.ordered g = false →
      s.access g (at_.getD ((s.group g).olbase.toNat * 8 + 8 * c)) 8 false true = (s1, .ok cell) →
      (s.olAppend g e true index value at_).2 = .done ∧
      (((s.olAppend g e true index value at_).1.group g).olcnt.toNat =
        min (c + 1) (2 ^ 31 - 1) + (if (s.group g).olcnt.getLsbD 31 then 2 ^ 31 else 0)) ∧
      (s.olAppend g e true index value at_).1.pend = s.pend ++
        [{ id := s.nextId, g := g, e := e, lane := true, release := false, cells := cellsOf (.mem cell) 8 (value ++ index).toNat }])

/-- Outlier conversions and records. -/
def Obligations.Outliers : Prop := Says.OutlierConversion ∧ Says.OutlierDrain ∧ Says.OutlierAppend

/-- Compares and mask logic (table `MaskLane`, R155, R158, R163): the Active lanes' bits of the destination mask are
written, its other bits and every other mask stay, and m0 discards the write (R144, R145). -/
def Obligations.LaneMaskResult : Prop :=
  ∀ (s s' : State) (g : GKey) (e : Nat) (i : Instr) (x : LArgs) (flt : Bool)
    (f : (Nat → Nat) → (Nat → Nat) → Nat → Bool) (b : Nat → Nat),
    MaskLane s g e i x flt f → LaneReady s g e i x → BOperand s s' g e x x.ty flt b →
    ∃ t, exec i s = .next t ∧ LaneFrame s t g e [] ∧ (t.group g).outst = (s.group g).outst ∧
      (x.vd.toNat = 0 → (t.group g).masks = (s.group g).masks) ∧
      ∀ n l, n ≠ 0 → l < 32 → ((t.group g).masks.get 0 n).getLsbD l =
        if n = x.vd.toNat ∧ (active s g e x).getLsbD l = true then f (s.laneVal g x.ty x.va.toNat) b l
        else ((s.group g).masks.get 0 n).getLsbD l

/-- A division, root, reciprocal, exp2, log2, exchange, reduction or scan (table `SlowLane`, R157, R164, R165, R167), and
vvote (R166), leave one result outstanding for their Active lanes, which holds their values; no register changes but
that a vvote clears the bits of the lanes that are not Active. -/
def Says.LaneSlowResult : Prop :=
  (∀ (s s' : State) (g : GKey) (e : Nat) (i : Instr) (x : LArgs) (flt : Bool)
    (R : Word → (Nat → Nat) → (Nat → Nat) → (Nat → Nat) → Nat → Nat → Prop) (b : Nat → Nat),
    SlowLane i x flt R → LaneReady s g e i x → BOperand s s' g e x x.ty flt b →
    ∃ t, exec i s = .next t ∧ LaneFrame s t g e [] ∧ (t.group g).masks = (s.group g).masks ∧
      (active s g e x = 0 → (t.group g).outst = (s.group g).outst) ∧
      (active s g e x ≠ 0 → ∃ o, (t.group g).outst = (s.group g).outst ++ [o] ∧ o.id = (s.group g).nextId ∧ o.e = e ∧
        o.lanes = active s g e x ∧ o.m = [] ∧ o.held = false ∧ ∀ l, (active s g e x).getLsbD l = true →
          R (active s g e x) (s.laneVal g x.ty x.va.toNat) b (s.laneVal g x.ty x.vc.toNat) l (heldVal o x.ty x.vd.toNat l))) ∧
  ∀ (s : State) (g : GKey) (e : Nat) (op : BitVec 6) (x : LArgs), LaneReady s g e (.vvote op x) x → active s g e x ≠ 0 →
    ∃ t o, exec (.vvote op x) s = .next t ∧ LaneFrame s t g e [] ∧ (t.group g).outst = (s.group g).outst ++ [o] ∧
      o.lanes = active s g e x ∧ o.v = [] ∧
      (∀ n l, n ≠ 0 → l < 32 → ((t.group g).masks.get 0 n).getLsbD l =
        (((s.group g).masks.get 0 n).getLsbD l && !(n == x.vd.toNat && !(active s g e x).getLsbD l))) ∧
      (x.vd.toNat = 0 → o.m = []) ∧
      (x.vd.toNat ≠ 0 → ∃ w, o.m = [(x.vd.toNat, w)] ∧ ∀ l, (active s g e x).getLsbD l = true → w.getLsbD l =
        let v (k : Nat) : Word := s.getVL g x.va.toNat k
        let all := (List.range 32).filter fun k => (active s g e x).getLsbD k
        match op.toNat with
        | 0 => v l != 0
        | 1 => all.any fun k => v k != 0
        | 2 => all.all fun k => v k != 0
        | _ => all.all fun k => all.all fun j => v k == v j)

/-- RESULT_RETURN (R147, R148, R302): the registers and the mask receive the values of some of the result's lanes, in ordered
mode of all, and never of one whose line is still in flight; the result stays outstanding in its other lanes. With its last
lanes it is over, and the hold of its split ends with the last of the split's results. -/
def Says.ResultReturn : Prop :=
  ∀ (s : State) (g : GKey) (o : Outst), s.turn = .event (.resultReturn g o.id) → s.returnReady g o.id = true →
    ((s.group g).outst.find? fun k => k.id == o.id) = some o → g.sh = 0 → o.sample = [] → (s.group g).ended = false →
    (∀ p ∈ (s.group g).ents, p.2.st ≠ .draining) → (∃ p ∈ (s.group g).ents, p.2.live = true) →
    (o.v.map (·.1)).Nodup → (∀ w ∈ o.v, (w.2.map (·.1)).Nodup ∧ ∀ q ∈ w.2, q.1 < 32) → (o.m.map (·.1)).Nodup →
    let part := s.returnLanes g o
    let left := o.lanes &&& ~~~part
    (part &&& o.lanes = part ∧ (s.ordered g = true → part = o.lanes) ∧ (o.lanes ≠ 0 → part ≠ 0) ∧
      (∀ f ∈ o.fills, f.1 < 32 → part.getLsbD f.1 = false)) ∧
    ∃ t, exec .resultReturn s = .next t ∧
      (∀ n l, l < 32 → t.getVL g n l =
        if part.getLsbD l && (o.v.any fun w => w.1 == n && w.2.any fun q => q.1 == l) then held o n l else s.getVL g n l) ∧
      (∀ n l, n ≠ 0 → l < 32 → ((t.group g).masks.get 0 n).getLsbD l =
        match o.m.find? (fun w => w.1 == n) with
        | some w => if part.getLsbD l then w.2.getLsbD l else ((s.group g).masks.get 0 n).getLsbD l
        | none => ((s.group g).masks.get 0 n).getLsbD l) ∧
      (left ≠ 0 → (t.group g).outst =
          (s.group g).outst.map (fun k => if k.id == o.id then { k with lanes := left } else k) ∧
        t.split g o.e = s.split g o.e) ∧
      (left = 0 → (t.group g).outst = (s.group g).outst.filter (fun k => k.id != o.id) ∧
        (t.split g o.e).hold = ((s.split g o.e).hold && (t.group g).outst.any fun k => k.e == o.e)) ∧ KeepsMemory s t

/-- Outstanding results and their return. -/
def Obligations.LaneResults : Prop := Says.LaneSlowResult ∧ Says.ResultReturn

/-- lend and vnop change no register (R44): vnop goes to the next word and lend to the next block of the queue. A lane
instruction with H set holds its split's queue while a result of the split is outstanding (R148); one that is
ill-formed, or names a register outside the budget or an odd pair, traps as a whole: kinds 1 and 2 (R29, R30). -/
def Says.LaneIssue : Prop :=
  ∀ (s : State) (g : GKey) (e : Nat) (x : LArgs),
    (LaneReady s g e (.vnop x) x → exec (.vnop x) s = .next (laneMoved s g e x false) ∧
      ((laneMoved s g e x false).split g e).queue =
        { s.head g e with pc := (s.head g e).pc + 12 } :: (s.split g e).queue.tail ∧
      ((laneMoved s g e x false).split g e).hold = (x.h && (s.group g).outst.any fun o => o.e == e)) ∧
    (LaneReady s g e (.lend x) x → exec (.lend x) s = .next (laneMoved s g e x true) ∧
      ((laneMoved s g e x true).split g e).queue = (s.split g e).queue.tail) ∧
    ∀ (i : Instr) (r : LRegs), laneArgsOf i = some x → laneRegs i = some r → (∀ y, i ≠ .lend y) → s.turn = .lane g e →
      (s.group g).fork = none → (s.head g e).again = none → (s.head g e).dfault = false →
      let trap (k : BitVec 8) : State := ((s.count g e).advanceLane g e false false).takeTrap g
        { recs := [{ kind := k, split := BitVec.ofNat 8 e, flags := 1, lanePc := (s.head g e).pc
                     scalarPc := (s.head g e).lrunPc }]
          e, lanei := true, src := .lane e (s.head g e) (laneWord i) (active s g e x) }
      (WellFormed i = false ∨ (s.group g).vec = false → exec i s = .next (trap 1)) ∧
      (WellFormed i = true → (s.group g).vec = true →
        (∃ n ∈ r.vd ++ r.vs ++ r.xs ++ r.half, (s.group g).budget ≤ n) ∨ (∃ n ∈ r.pairs, n % 2 = 1) →
        exec i s = .next (trap 2))

/-- Hold violations (R149). An Active lane of an instruction under m0 that reads no other lane violates a hold exactly where
a register it names is the destination of a result outstanding in that lane. Where every Active lane violates one,
the instruction writes nothing and traps with one record of kind 3 for each lane. -/
def Says.HoldViolation : Prop :=
  ∀ (s : State) (g : GKey) (e : Nat) (i : Instr) (x : LArgs) (r : LRegs) (R : Nat → Nat → Nat → Nat → Nat → Prop),
    IntLane i x R → laneRegs i = some r → LaneIssues s g e i x →
    (x.m = 0 → ∀ l, l < 32 → (s.holdFaults g (s.head g e) i r 0).getLsbD l = ((active s g e x).getLsbD l &&
      (s.group g).outst.any fun o => o.lanes.getLsbD l && (r.vd ++ r.vs).any fun n => o.v.any fun w => w.1 == n)) ∧
    (s.holdFaults g (s.head g e) i r x.m.toNat = active s g e x → active s g e x ≠ 0 →
      exec i s = .next ((((laneMoved s g e x false).takeTrap g
        { recs := ((List.range 32).filter fun l => (active s g e x).getLsbD l).map fun l =>
            { kind := 3, lane := BitVec.ofNat 8 l, split := BitVec.ofNat 8 e, flags := 1, lanePc := (s.head g e).pc
              scalarPc := (s.head g e).lrunPc }
          e, lanei := true, src := .lane e (s.head g e) (laneWord i) (active s g e x) }).stepDone g e).groupCheck g))

/-- The lane stream, its faults and hold violations. -/
def Obligations.LaneStream : Prop := Says.LaneIssue ∧ Says.HoldViolation

/-! ## Lane accesses -/

/-- The access of one lane (R193, R194): an invalid translation register is an access fault and a misaligned address an
alignment fault; within the limit and permissions of the register the frame is used without a translation, and else the
address is translated; a line that a copy owns is not accessed (R224). -/
def Says.LaneAddress : Prop :=
  ∀ (s : State) (c : LCtx) (n d z : Nat) (rd wr : Bool),
    let b := c.blk.snapB.get {} n
    let va := b.base.toNat + d
    let cell := cellOf (b.frame.toNat * 4096 + b.base.toNat % pageBytes b.psize.toNat + d)
    (b.valid = false → s.laneAcc c n d z rd wr = (s, .fault { kind := 5, addr := va, write := wr })) ∧
    (b.valid = true → va % z ≠ 0 → s.laneAcc c n d z rd wr = (s, .fault { kind := 4, addr := va, write := wr })) ∧
    (b.valid = true → va % z = 0 → d + z ≤ b.limit.toNat → (rd = true → b.r = true) → (wr = true → b.w = true) →
      s.laneAcc c n d z rd wr = (s, if s.ownedAt (.mem cell) then .owned else .ok cell)) ∧
    (b.valid = true → va % z = 0 → b.limit.toNat < d + z ∨ (rd = true ∧ b.r = false) ∨ (wr = true ∧ b.w = false) →
      (2 ^ 56 ≤ va → s.laneAcc c n d z rd wr = (s, .fault { kind := 5, addr := va, write := wr })) ∧
      ∀ s', va < 2 ^ 56 →
        (∀ a, s.xlate c.g va rd wr = (s', .ok a) →
          s.laneAcc c n d z rd wr = (s', if s'.ownedAt (.mem a) then .owned else .ok a)) ∧
        (∀ k, s.xlate c.g va rd wr = (s', .fault k) →
          s.laneAcc c n d z rd wr = (s', .fault { kind := k, addr := va, write := wr })) ∧
        (s.xlate c.g va rd wr = (s', .nonres) → s.laneAcc c n d z rd wr = (s', .nonres)))

/-- The checks and addresses of accesses. -/
def Obligations.AddressChecks : Prop := Says.AccessFaults ∧ Says.LaneAddress

/-- vld and vldu (R196, R200, R201) outside ordered mode, with no record, watchpoint or fault: one result is outstanding, which
holds for each lane the memory at its address as its split reads it, and 0 for a lane whose page is not resident, whose
bit of the residency mask it sets. No register changes at once, and memory reads to its split as before: what changes of
it are its own stores that the load settles (R214). -/
def Says.LaneLoad : Prop :=
  ∀ (s s0 s1 s2 : State) (g : GKey) (e : Nat) (x : LArgs) (u : Bool) (b : Nat → Nat) (a a2 : LaneAccs),
    let i : Instr := if u then .vldu x else .vld x
    let z := if x.ty.is64 then 8 else 4
    let disp (l : Nat) : Nat := if u then b 0 % 2 ^ 32 * x.scale + z * l else (s.getVL g x.va.toNat l).toNat * x.scale
    let on := active s g e x
    let c : LCtx := { g, e, blk := s.head g e, act := on, active := on, src := on }
    LaneReady s g e i x → s.ordered g = false → (s.ctx g.b.r.c).fin.base = 0 → (∀ k, ((s.group g).wpts.get {} k).en = false) →
    Calm s → on ≠ 0 → (if u then BOperand s s0 g e x .n32 false b else s0 = s) →
    (s0.train g true (s.head g e).pc.toNat (((s.head g e).snapB.get {} x.breg).base.toNat + disp (lowLane on))).laneAccs
      c x.breg z true false disp = (s1, a) → a.faults = [] → a.owned = none →
    (∀ q ∈ a.oks, s1.poisonFor g e (.mem q.2.2) = false) →
    (if x.order = 1 then (s1.requestLines c a x.nt .demand).scopeFaults c x false true false a
      else (s1.requestLines c a x.nt .demand, a)) = (s2, a2) → a2.faults = [] →
    let s3 := s2.settleLoads g e (a.oks.map (·.2.2)) z
    ∃ t o, exec i s = .next t ∧ (t.group g).outst = (s.group g).outst ++ [o] ∧ o.e = e ∧ o.held = false ∧
      o.lanes = maskOf (a.oks.map (·.1) ++ a.away.map (·.1)) ∧
      (∀ q ∈ a.oks, heldVal o x.ty x.vd.toNat q.1 = s3.load g e (.mem q.2.2) z) ∧
      (∀ q ∈ a.away, heldVal o x.ty x.vd.toNat q.1 = 0) ∧
      o.m = (if x.resmask = 0 then [] else [(x.resmask, maskOf (a.away.map (·.1)))]) ∧
      (t.group g).vregs = (s.group g).vregs ∧ (t.group g).masks = (s.group g).masks ∧
      (∀ l, t.rawByte l = s3.rawByte l) ∧ t.pend = s3.pend ∧ (Memory.wf s.mem = true → ReadsSame s t g e) ∧
      (∀ k n, t.getS g k n = s.getS g k n)

/-- vst and vstu (R200, R202) outside ordered mode, with no record, watchpoint or fault: the lanes' values are one store of the
split, in lane order, so that the highest lane's bytes stand where lanes overlap; a release first performs what it covers
(R216). No byte of memory changes before the store is performed, and no register. -/
def Says.LaneStore : Prop :=
  ∀ (s s0 s1 s2 : State) (g : GKey) (e : Nat) (x : LArgs) (u : Bool) (b : Nat → Nat) (a a2 : LaneAccs),
    let i : Instr := if u then .vstu x else .vst x
    let z := if x.ty.is64 then 8 else 4
    let disp (l : Nat) : Nat := if u then b 0 % 2 ^ 32 * x.scale + z * l else (s.getVL g x.va.toNat l).toNat * x.scale
    let on := active s g e x
    let c : LCtx := { g, e, blk := s.head g e, act := on, active := on, src := on }
    LaneReady s g e i x → s.ordered g = false → (s.ctx g.b.r.c).fin.base = 0 → (∀ k, ((s.group g).wpts.get {} k).en = false) →
    on ≠ 0 → (if u then BOperand s s0 g e x .n32 false b else s0 = s) →
    s0.laneAccs c x.breg z false true disp = (s1, a) → a.faults = [] → a.owned = none → a.away = [] → a.oks ≠ [] →
    (∀ q ∈ a.oks, s1.poisonFor g e (.mem q.2.2) = false) →
    (if x.order = 2 then (s1.flushLane g e (s.head g e)).scopeFaults c x true false true a else (s1, a)) = (s2, a2) →
    a2.faults = [] → Calm s2 ∨ (∀ q ∈ a.oks, (s2.l2Find (q.2.2 / 128)).isSome = true) →
    let cells := a.oks.flatMap fun q => cellsOf (.mem q.2.2) z (s.laneVal g x.ty x.vc.toNat q.1)
    ∃ t, exec i s = .next t ∧
      t.pend = s2.pend ++
        [{ id := s2.nextId, g := g, e := e, lane := true, release := decide (x.order = 2), cells := cells }] ∧
      (∀ l, t.readByte g e l = (lastWrite cells l).getD (s2.readByte g e l)) ∧ (∀ l, t.rawByte l = s2.rawByte l) ∧
      (t.group g).vregs = (s.group g).vregs ∧ (t.group g).masks = (s.group g).masks ∧
      (t.group g).outst = (s.group g).outst ∧ (∀ k n, t.getS g k n = s.getS g k n)

/-- vprf (R203) retires whatever its lanes meet: it changes no register and no byte of memory, and reports no fault. It waits
while a copy of the group owns a line that it names (R224). -/
def Says.Prefetch : Prop :=
  ∀ (s : State) (g : GKey) (e : Nat) (x : LArgs) (c : LCtx), LaneReady s g e (.vprf x) x → (s.ctx g.b.r.c).fin.base = 0 → Calm s →
    c.g = g → c.e = e → c.blk = s.head g e → c.act = active s g e x →
    let owned := (s.laneAccs c x.breg (LArgs.z x) true false (s.dispV c x)).2.owned
    (∀ va, owned = some va → exec (.vprf x) s = .next (s.updSplit g e fun p => { p with lpark := some (.owned va) })) ∧
    (owned = none → ∃ t, exec (.vprf x) s = .next t ∧ (t.group g).vregs = (s.group g).vregs ∧ (t.group g).masks = (s.group g).masks ∧
      (t.group g).outst = (s.group g).outst ∧ (t.group g).recs = (s.group g).recs ∧
      (t.group g).retired = (s.group g).retired + 1 ∧ KeepsMemory s t ∧
      (t.split g e).queue = { s.head g e with pc := (s.head g e).pc + 12 } :: (s.split g e).queue.tail)

/-- Lane loads, stores and prefetches. -/
def Obligations.LaneMemory : Prop := Says.LaneLoad ∧ Says.LaneStore ∧ Says.Prefetch

/-- The new value of an atomic by its op and type (R204). -/
def atomValue (op : Nat) (t : Ty) (cur v k : Nat) : Nat :=
  match op with
  | 0 => (cur + v) % 2 ^ t.width
  | 1 => roundTo fmtF32 .rne false (addNum .rne (readFloat fmtF32 cur) (readFloat fmtF32 v))
  | 2 => if elInt t v < elInt t cur then v else cur
  | 3 => if elInt t cur < elInt t v then v else cur
  | 4 => cur &&& v
  | 5 => cur ||| v
  | 6 => cur ^^^ v
  | 7 => v
  | _ => if cur = k then v else cur

/-- One combined request (R204): its lanes take effect in ascending order from the value at the location, each receives
the value before its own, the last value is stored, and every other byte of memory is unchanged. -/
def Says.CombinedRequest : Prop :=
  ∀ (s : State) (r : AtomReq) (t : Ty), Memory.wf s.mem = true → r.op ≤ 8 → t = .i32 ∨ t = .n32 ∨ t = .f32 ∨ t = .i64 ∨ t = .n64 →
    r.ty = t.code.toNat → r.size = (if t.is64 then 8 else 4) → (∀ l ∈ r.lanes, l.2.1.toNat < 2 ^ t.width ∧ l.2.2.toNat < 2 ^ t.width) →
    let old := leNat ((Loc.span (.mem r.loc) r.size).map s.rawByte)
    let after (n : Nat) : Nat := (r.lanes.take n).foldl (fun cur l => atomValue r.op t cur l.2.1.toNat l.2.2.toNat) old
    (s.atomic r).2 = (List.range r.lanes.length).map (fun n => ((r.lanes.getD n (0, 0, 0)).1, after n)) ∧
    (∀ k, k < r.size → (s.atomic r).1.rawByte (.mem (r.loc + k)) = BitVec.ofNat 8 (after r.lanes.length / 2 ^ (8 * k))) ∧
    ∀ l, (∀ k, k < r.size → l ≠ .mem (r.loc + k)) → (s.atomic r).1.rawByte l = s.rawByte l

/-- vatom and vatom.nr (R200, R204) of one Active lane outside ordered mode, with no record, watchpoint or fault: after what
the instruction performs first, its request changes memory at its address alone; vatom leaves the old value outstanding
for its lane, and vatom.nr nothing. -/
def Says.LaneAtomic : Prop :=
  ∀ (s s0 s1 s2 : State) (g : GKey) (e : Nat) (op : BitVec 6) (x : LArgs) (returns : Bool) (b : Nat → Nat) (l va cell : Nat)
    (a2 : LaneAccs),
    let i : Instr := if returns then .vatom op x else .vatomNr op x
    let z := if x.ty.is64 then 8 else 4
    let on := active s g e x
    let c : LCtx := { g, e, blk := s.head g e, act := on, active := on, src := on }
    let a : LaneAccs := { oks := [(l, va, cell)] }
    LaneReady s g e i x → s.ordered g = false → (s.ctx g.b.r.c).fin.base = 0 → (∀ k, ((s.group g).wpts.get {} k).en = false) →
    lanesOf on = [l] → (if op = 8 then BOperand s s0 g e x x.ty true b else s0 = s) → (op ≠ 8 → ∀ l, b l = 0) →
    s0.laneAccs c x.breg z true true (fun l => (s.getVL g x.va.toNat l).toNat * x.scale) = (s1, a) →
    s1.poisonFor g e (.mem cell) = false →
    ((if x.order = 2 then (s1.conflicts g e [cell / 128]).flushLane g e (s.head g e)
      else (s1.conflicts g e [cell / 128]).flush fun p =>
        decide (p.g = g) && p.e == e && p.cells.any fun w => [cell / 128].contains w.1.line).scopeFaults
          c x (x.order == 2) (x.order == 1) true a) = (s2, a2) → a2.faults = [] → Memory.wf s2.mem = true →
    Calm s2 ∨ (s2.l2Find (cell / 128)).isSome = true →
    let old := leNat ((Loc.span (.mem cell) z).map s2.rawByte)
    ∃ t, exec i s = .next t ∧
      (∀ k, k < z → t.rawByte (.mem (cell + k)) =
        BitVec.ofNat 8 (atomValue op.toNat x.ty old (s.laneVal g x.ty x.vc.toNat l) (b l % 2 ^ x.ty.width) / 2 ^ (8 * k))) ∧
      (∀ m, (∀ k, k < z → m ≠ .mem (cell + k)) → t.rawByte m = s2.rawByte m) ∧
      (t.group g).vregs = (s.group g).vregs ∧ (t.group g).masks = (s.group g).masks ∧
      (returns = false → (t.group g).outst = (s.group g).outst) ∧
      (returns = true → ∃ o, (t.group g).outst = (s.group g).outst ++ [o] ∧ o.lanes = on ∧ o.held = false ∧
        heldVal o x.ty x.vd.toNat l = old)

/-- Lane atomics. -/
def Obligations.LaneAtomics : Prop := Says.CombinedRequest ∧ Says.LaneAtomic

/-! ## Scratch and FIFO banks -/

/-- vlds and vsts (R180) with every Active lane aligned, inside a scratch bank, unpoisoned and on a line that no copy
owns: vlds leaves each lane's local memory outstanding, as its split reads it when the load has settled (R214), and vsts outside ordered mode stores each lane's value as one
store of the split. -/
def Says.ScratchAccess : Prop :=
  ∀ (s s' : State) (g : GKey) (e : Nat) (x : LArgs) (b : Nat → Nat),
    let z := if x.ty.is64 then 8 else 4
    let on := active s g e x
    let ad (l : Nat) : Nat := (b l + (s.getVL g x.va.toNat l).toNat * 2 ^ (x.ext.extractLsb' 10 2).toNat) % 2 ^ 32
    BOperand s s' g e x .n32 false b → on ≠ 0 →
    (∀ l, on.getLsbD l = true → ad l % z = 0 ∧ (s.block g.b).scratchOk (ad l) z = true ∧
      s'.poisonFor g e (.scr g.b (ad l)) = false ∧ s'.ownedAt (.scr g.b (ad l)) = false ∧
      (s.block g.b).switchMask.getLsbD (ad l / 131072 % 32) = false) →
    let u := s'.settleUnits g e ((lanesOf on).flatMap fun l => Loc.span (.scr g.b (ad l)) z)
    (LaneReady s g e (.vlds x) x → ∃ t o, exec (.vlds x) s = .next t ∧ LaneFrame u t g e [] ∧ u.groups = s.groups ∧
      (Memory.wf s.mem = true → ReadsSame s t g e) ∧
      (t.group g).masks = (s.group g).masks ∧ (t.group g).outst = (s.group g).outst ++ [o] ∧ o.lanes = on ∧ o.held = false ∧
      ∀ l, on.getLsbD l = true → heldVal o x.ty x.vd.toNat l = u.load g e (.scr g.b (ad l)) z) ∧
    (LaneReady s g e (.vsts x) x → s.ordered g = false → ∃ t, exec (.vsts x) s = .next t ∧
      (let cells := (lanesOf on).flatMap fun l => cellsOf (.scr g.b (ad l)) z (s.laneVal g x.ty x.vc.toNat l)
       t.pend = s.pend ++ [{ id := s.nextId, g := g, e := e, lane := true, release := false, cells := cells }]) ∧
      (∀ l, t.rawByte l = s.rawByte l) ∧ (t.group g).vregs = (s.group g).vregs ∧ (t.group g).masks = (s.group g).masks ∧
      (t.group g).outst = (s.group g).outst)

/-- A scratch access that meets a fault, lane by lane (R180): misaligned is kind 4, outside the scratch banks kind 5,
both with the local address. -/
def Says.ScratchFaults : Prop :=
  ∀ (s : State) (c : LCtx) (x : LArgs) (b : Nat → Nat) (rd : Bool) (l : Nat), l < 32 → c.act.getLsbD l = true →
    let a := (b l + (s.getVL c.g x.va.toNat l).toNat * 2 ^ (x.ext.extractLsb' 10 2).toNat) % 2 ^ 32
    let z := if x.ty.is64 then 8 else 4
    (a % z ≠ 0 → (l, { kind := 4, addr := a, write := !rd }) ∈ (s.scratchAccs c x b rd).faults) ∧
    (a % z = 0 → (s.block c.g.b).scratchOk a z = false →
      (l, { kind := 5, addr := a, write := !rd }) ∈ (s.scratchAccs c x b rd).faults)

/-- Scratch loads and stores. -/
def Obligations.Scratch : Prop := Says.ScratchAccess ∧ Says.ScratchFaults

/-- vfpush and vfpop (R181) outside ordered mode on a FIFO bank: a push appends an entry of four words for each Active lane in lane
order, or waits while they do not fit; a pop removes the oldest entries and leaves them outstanding for its lanes in
lane order, or waits while there are too few. FIFO_WAIT_END lets the head of the queue issue again. -/
def Obligations.FifoBanks : Prop :=
  (∀ (s s' : State) (g : GKey) (e : Nat) (x : LArgs) (b : Nat → Nat) (k : Bank),
    let on := active s g e x
    let n := b 0 % 32
    let cnt := (lanesOf on).length
    BOperand s s' g e x .n32 false b → on ≠ 0 → s.ordered g = false → (s.block g.b).banks[n]? = some k →
    k.switching = none → k.mode = .fifo →
    (LaneReady s g e (.vfpush x) x →
      let ents := (lanesOf on).map fun l => (List.range 4).map fun j => s.getVL g (x.va.toNat + j) l
      (k.fifo.length + cnt ≤ 8192 → ∃ t, exec (.vfpush x) s = .next t ∧
        (t.block g.b).banks = (s.block g.b).banks.set n { k with fifo := k.fifo ++ ents } ∧
        (t.group g).vregs = (s.group g).vregs ∧ (t.group g).retired = (s.group g).retired + 1 ∧ t.mem = s.mem) ∧
      (8192 < k.fifo.length + cnt → exec (.vfpush x) s =
        .next (s'.updSplit g e fun p => { p with lpark := some (.fifo n cnt true) }))) ∧
    (LaneReady s g e (.vfpop x) x →
      (cnt ≤ k.fifo.length → ∃ t o, exec (.vfpop x) s = .next t ∧
        (t.block g.b).banks = (s.block g.b).banks.set n { k with fifo := k.fifo.drop cnt } ∧
        (t.group g).outst = (s.group g).outst ++ [o] ∧ o.lanes = on ∧ o.held = false ∧
        (∀ j m, j < 4 → m < cnt → held o (x.vd.toNat + j) ((lanesOf on).getD m 0) = (k.fifo.getD m []).getD j 0) ∧
        (t.group g).vregs = (s.group g).vregs ∧ t.mem = s.mem) ∧
      (k.fifo.length < cnt → exec (.vfpop x) s =
        .next (s'.updSplit g e fun p => { p with lpark := some (.fifo n cnt false) })))) ∧
  ∀ (s : State) (g : GKey) (e n need : Nat) (push : Bool) (k : Bank), s.turn = .event (.fifoWaitEnd g e) →
    (s.split g e).lpark = some (.fifo n need push) → (s.block g.b).banks[n]? = some k →
    (if push then k.fifo.length + need ≤ 8192 else need ≤ k.fifo.length) →
    ∃ t, exec .fifoWaitEnd s = .next t ∧ (t.split g e).lpark = none ∧ (t.split g e).queue = (s.split g e).queue

/-! ## Campanile -/

/-- The Campanile lane instructions (R274 to R276) of a group that holds the array, with no operation under way: tdly
stores four delays per Active lane in row ext + lane / 16; tlaunch launches the edges of its lanes' bytes; tcap and
trank leave the latch, the ranks of the captured outputs outstanding; without the claim each is a fault 0x12 of the
whole instruction. In a restored group that is still to receive its array again each waits for it (R278). -/
def Says.CampanileLanes : Prop :=
  ∀ (s : State) (g : GKey) (e : Nat) (x : LArgs),
    let on := active s g e x
    let byte (l j : Nat) : Nat := (s.getVL g x.va.toNat l).toNat / 2 ^ (8 * j) % 256
    let c := s.coreOf g
    (s.arrayDue g = false → (s.core c).camp = some (baseKey g) → (s.core c).campBusy = none →
      (LaneReady s g e (.tdly x) x → ∃ t, exec (.tdly x) s = .next t ∧ (t.group g).vregs = (s.group g).vregs ∧
        ∀ r j, j < 64 → (t.core c).delay r j =
          let l := j / 4 + 16 * (r - x.ext.toNat)
          if x.ext.toNat ≤ r ∧ r ≤ x.ext.toNat + 1 ∧ on.getLsbD l then byte l (j % 4) else (s.core c).delay r j) ∧
      (LaneReady s g e (.tlaunch x) x → ∃ t, exec (.tlaunch x) s = .next t ∧ (t.group g).vregs = (s.group g).vregs ∧
        let out (j : Nat) : Nat × Bool × Bool := capture (s.group g).tw
          (riseTick (s.core c) (fun i => if on.getLsbD (i / 4) then byte (i / 4) (i % 4) else 255) j)
        (∀ j, j < 64 → (t.core c).captured j = (out j).1) ∧
        (t.group g).tstat.getLsbD 0 = ((s.group g).tstat.getLsbD 0 || (List.range 64).any fun j => (out j).2.1) ∧
        (t.group g).tstat.getLsbD 1 = ((s.group g).tstat.getLsbD 1 || (List.range 64).any fun j => (out j).2.2)) ∧
      (LaneReady s g e (.tcap x) x → on ≠ 0 → ∃ t o, exec (.tcap x) s = .next t ∧ LaneFrame s t g e [] ∧
        (t.group g).outst = (s.group g).outst ++ [o] ∧ o.lanes = on ∧ o.camp = true ∧ ∀ l, on.getLsbD l = true →
          ∀ j, j < 4 → (held o x.vd.toNat l).toNat / 2 ^ (8 * j) % 256 =
            if l < 16 then (s.core c).captured (4 * l + j) % 256 else 255) ∧
      (LaneReady s g e (.trank x) x → on ≠ 0 → ∃ t o, exec (.trank x) s = .next t ∧ LaneFrame s t g e [] ∧
        (t.group g).outst = (s.group g).outst ++ [o] ∧ o.lanes = on ∧ ∀ l, on.getLsbD l = true → ∀ j, j < 4 →
          (held o x.vd.toNat l).toNat / 2 ^ (8 * j) % 256 =
            if l < 16 then (rankOf (s.core c).captured x.ext.toNat).getD (4 * l + j) 255 % 256 else 255)) ∧
    (s.arrayDue g = true → ∀ i, (i = .tdly x ∨ i = .tlaunch x ∨ i = .tcap x ∨ i = .trank x) →
      LaneReady s g e i x → exec i s = .next (s.updSplit g e fun p => { p with lpark := some .array })) ∧
    (s.arrayDue g = false → (s.core c).camp ≠ some (baseKey g) → ∀ i, (i = .tdly x ∨ i = .tlaunch x ∨ i = .tcap x ∨ i = .trank x) →
      LaneReady s g e i x → exec i s = .next (((s.count g e).advanceLane g e false false).takeTrap g
        { recs := [{ kind := 0x12, split := BitVec.ofNat 8 e, flags := 1, lanePc := (s.head g e).pc
                     scalarPc := (s.head g e).lrunPc }]
          e, lanei := true, src := .lane e (s.head g e) (laneWord i) on }))

/-- The array (R269, R270, R275): an output rises at the earliest sum of an input's tick and its delay, in max mode at the
latest and only when every connected input rises; the capture is that tick less the bias, 0 where it comes before the
bias, 255 where it comes after the span or never; trank ranks by value, then by number. -/
def Says.CampanileArray : Prop :=
  ∀ (k : Core) (x : Nat → Nat) (j : Nat) (tw : BitVec 16), (∀ i, x i ≤ 255) →
    (k.maxMode = false → ∀ t, riseTick k x j = some t ↔
      (∃ i, i < 64 ∧ k.delay i j ≠ 255 ∧ x i ≠ 255 ∧ t = x i + k.delay i j) ∧
        ∀ i, i < 64 → k.delay i j ≠ 255 → x i ≠ 255 → t ≤ x i + k.delay i j) ∧
    (k.maxMode = true → ∀ t, riseTick k x j = some t ↔
      (∃ i, i < 64 ∧ k.delay i j ≠ 255 ∧ t = x i + k.delay i j) ∧
        ∀ i, i < 64 → k.delay i j ≠ 255 → x i ≠ 255 ∧ x i + k.delay i j ≤ t) ∧
    (let span := (tw.extractLsb' 0 8).toNat
     let bias := (tw.extractLsb' 8 8).toNat
     span ≠ 0 → (∀ t, capture tw (some t) =
       (if t < bias then (0, true, false) else if t < bias + span then (t - bias, false, false) else (255, false, true))) ∧
       capture tw none = (255, false, false)) ∧
    ((tw.extractLsb' 0 8).toNat = 0 → ∀ t, capture tw t = (255, false, false)) ∧
    ∀ (c : Nat → Nat) (n : Nat), n ≤ 64 →
      ((rankOf c n).length = min n ((List.range 64).filter fun i => c i ≠ 255).length) ∧ (rankOf c n).Nodup ∧
      (∀ p q, p < q → q < (rankOf c n).length →
        let a := (rankOf c n).getD p 0
        let b := (rankOf c n).getD q 0
        c a < c b ∨ (c a = c b ∧ a < b)) ∧
      ∀ i, i < 64 → c i ≠ 255 → i ∉ rankOf c n → ∀ r ∈ rankOf c n, c r < c i ∨ (c r = c i ∧ r < i)

/-! ## Campanile, history, counters and pages -/

/-- The scalar side of Campanile (R265, R271 to R273, R276, R277), with no lane instruction of the group on it: twin stores
span and bias, clamped; tacq of a free array is granted it cleared, with bit 2 of sr.tstat, and of another group's array
queues and waits; tmode, treset, tchain and trel act on the held array, and fault with kind 0x12 without it. In a
restored group that is still to receive its array again each waits for it (R278). -/
def Says.CampanileScalar : Prop :=
  ∀ (s : State) (g : GKey) (e : Nat), Ready s g e → (s.group g).vec = true →
    s.laneBusy g e .campanile (s.laneMark g e) = false →
    let c := s.coreOf g
    (s.arrayDue g = true → ∀ i, (i = .tacq ∨ i = .treset ∨ i = .trel ∨ (∃ a b, i = .twin a b) ∨ (∃ m, i = .tmode m) ∨
        ∃ n, n ≠ 0 ∧ i = .tchain n) → exec i s = .next (s.park g e .array)) ∧ (s.arrayDue g = false →
    (∀ a b : BitVec 7, Runs (.twin a b) s (s.updGroup g fun x => { x with
        tw := BitVec.ofNat 16 (256 * min (s.getS g e b.toNat).toNat 255 + min (max (s.getS g e a.toNat).toNat 1) 255) }) g e) ∧
    ((s.core c).camp = some (baseKey g) →
      Runs .tacq s (s.updCore c fun x => { x with campQ := x.campQ.filter (· != (g, e)) }) g e ∧
      (∀ m : BitVec 1, Runs (.tmode m) s (s.updCore c fun k => { k with maxMode := m == 1 }) g e) ∧
      Runs .treset s (s.updCore c fun k => { k with latch := [] }) g e ∧
      (s.ordered g = false → (s.core c).campQ = [] → (s.core c).campSaved = [] → ∃ t, exec .trel s = .next t ∧
        (t.core c).camp = none ∧ (t.group g).tstat = (s.group g).tstat &&& 3 ∧ (t.split g e).pc = next s g e) ∧
      ∀ n : BitVec 7, n ≠ 0 → s.ordered g = false → exec (.tchain n) s =
        .next (((s.chainSteps g n.toNat).arrayTime g (n.toNat * launchTime (s.group g).tw)).park g e .arrayBusy)) ∧
    ((s.core c).camp = none → (s.core c).campQ = [] → (s.core c).campSaved = [] → s.ordered g = false →
      ∃ t, exec .tacq s = .next t ∧ (t.core c).camp = some g ∧ (t.core c).delays = [] ∧ (t.core c).latch = [] ∧
        (t.core c).maxMode = false ∧ (t.group g).tstat = (s.group g).tstat ||| 4 ∧ (t.split g e).pc = next s g e) ∧
    (∀ h, (s.core c).camp = some h → h ≠ baseKey g → s.ordered g = false → (s.core c).campQ.contains (g, e) = false →
      exec .tacq s = .next ((s.updCore c fun x => { x with campQ := x.campQ ++ [(g, e)] }).park g e .array)) ∧
    ((s.core c).camp ≠ some (baseKey g) → ∀ i, (i = .treset ∨ i = .trel ∨ (∃ m, i = .tmode m) ∨ ∃ n, n ≠ 0 ∧ i = .tchain n) →
      exec i s = .next (s.scalarFault g e { kind := 0x12 })))

/-- A tchain of n + 1 steps is one of n whose captured values are launched once more (R273); the operation's end retires
it (R276). -/
def Says.CampanileChain : Prop :=
  (∀ (s : State) (g : GKey) (n j : Nat), j < 64 →
    ((s.chainSteps g (n + 1)).core (s.coreOf g)).captured j = (capture (s.group g).tw
      (riseTick (s.core (s.coreOf g)) ((s.chainSteps g n).core (s.coreOf g)).captured j)).1) ∧
  ∀ (s : State) (c b e : Nat) (g : GKey), s.turn = .event (.campanileOperationComplete c) → (s.core c).campBusy = some b →
    b ≤ s.cycle → (s.core c).camp = some g → (s.group g).ents.filter (fun p => decide (p.2.st = .parked .arrayBusy)) = [(e, s.split g e)] →
    (s.split g e).susp = false →
    exec .campanileOperationComplete s =
      .next ((s.updCore c fun x => { x with campBusy := none }).retire g e ((s.split g e).pc + 4))

/-- The Campanile array. -/
def Obligations.Campanile : Prop :=
  Says.CampanileLanes ∧ Says.CampanileArray ∧ Says.CampanileScalar ∧ Says.CampanileChain

/-- hsave stores the 4,096 bytes of the image of the region's bank as one store and, outside ordered mode, waits till it is
written, and then goes on; hload applies an image that its split
reads, hclr clears tables and hwr writes a doubleword (R282, R299 to R301); an image address must be a multiple of 4,096
and at most 56 bits. -/
def Says.HistoryInstructions : Prop :=
  ∀ (s : State) (g : GKey) (e : Nat), Ready s g e →
    (∀ a : BitVec 7,
      let va := (s.getS g e a.toNat).toNat
      (2 ^ 56 ≤ va → exec (.hsave a) s = .next (s.scalarFault g e { kind := 5, addr := va, write := true }) ∧
        exec (.hload a) s = .next (s.scalarFault g e { kind := 5, addr := va })) ∧
      (va < 2 ^ 56 → va % 4096 ≠ 0 → exec (.hsave a) s = .next (s.scalarFault g e { kind := 4, addr := va, write := true }) ∧
        exec (.hload a) s = .next (s.scalarFault g e { kind := 4, addr := va })) ∧
      ∀ s1 cell, va < 2 ^ 56 → va % 4096 = 0 → (∀ i, i < 32 → s1.ownedAt (.mem (cell + 128 * i)) = false) →
        (s.xlate g va false true = (s1, .ok cell) → s.ordered g = false → (∀ n, (s.split g e).st ≠ .parked (.written n)) →
          ∃ t p, exec (.hsave a) s = .next t ∧ t.pend = s1.pend ++ [p] ∧ p.id = s1.nextId ∧ p.g = g ∧ p.e = e ∧ p.lane = false ∧
          p.cells = (Loc.span (.mem cell) 4096).zip ((s1.bankOf g).elim histEmpty histImage) ∧
          t.mem = s1.mem ∧ (t.split g e).st = .parked (.written s1.nextId) ∧ (t.split g e).pc = (s.split g e).pc) ∧
        (s.xlate g va false true = (s1, .ok cell) → s.ordered g = true → (∀ n, (s.split g e).st ≠ .parked (.written n)) →
          let cells := (Loc.span (.mem cell) 4096).zip ((s1.bankOf g).elim histEmpty histImage)
          Runs (.hsave a) s (s1.store g e { cells, e, pc := (s.split g e).pc, va } false) g e) ∧
        (s.xlate g va true false = (s1, .ok cell) → (∀ i, i < 128 → s1.poisonFor g e (.mem (cell + 32 * i)) = false) →
          Runs (.hload a) s (s1.histNow g (.hload ((Loc.span (.mem cell) 4096).map fun l => s1.readByte g e l))) g e)) ∧
    (∀ (a : BitVec 7) (n : Nat), (s.split g e).st = .parked (.written n) → Runs (.hsave a) s s g e) ∧
    (∀ a : BitVec 7, Runs (.hclr a) s (s.histNow g (.hclr (s.getS g e a.toNat))) g e) ∧
    ∀ a b : BitVec 7, Runs (.hwr a b) s (s.histNow g (.hwr (s.getS g e a.toNat) (s.getS g e b.toNat))) g e

/-- qend (R313) ends the quantum of its group in ordered mode and changes nothing else; pgreq (R198) outside ordered mode
marks the page of its address requested when that page is not resident; smark, trace.wr, wpt.set, wpt.clr and brk (R376,
R377, R383): the mark, a trace record, a watchpoint of the low bits of the control word, and a stop of cause 2 with the
immediate when a session is attached, else a count. A trace record goes to the ring at once, in ordered mode at the commit. -/
def Says.QuantumPagesAndDebug : Prop :=
  ∀ (s : State) (g : GKey) (e : Nat), Ready s g e →
    Runs .qend s (if s.ordered g then s.updGroup g fun x => { x with q := { x.q with due := true } } else s) g e ∧
    (∀ a : BitVec 7, s.ordered g = false → ∃ t, exec (.pgreq a) s = .next t ∧ (t.split g e).pc = next s g e ∧
      (t.ctx g.b.r.c).pages = (s.ctx g.b.r.c).pages.map (fun p =>
        if Page.holds p (s.getS g e a.toNat).toNat && !p.res then { p with req := true } else p) ∧ t.mem = s.mem) ∧
    (∀ (n : BitVec 2) (a b : BitVec 7),
      let va := (s.getS g e a.toNat).toNat
      let k := s.getS g e b.toNat
      (2 ^ 56 ≤ va → exec (.wptSet n a b) s = .next (s.scalarFault g e { kind := 5, addr := va })) ∧
      (va < 2 ^ 56 → va % 2 ^ (k.toNat % 8) ≠ 0 → exec (.wptSet n a b) s = .next (s.scalarFault g e { kind := 4, addr := va })) ∧
      (va < 2 ^ 56 → va % 2 ^ (k.toNat % 8) = 0 → Runs (.wptSet n a b) s (s.updGroup g fun x =>
        { x with
          wpts := x.wpts.put n.toNat (if k.getLsbD 5 then
            { en := true, addr := s.getS g e a.toNat, r := k.getLsbD 3, w := k.getLsbD 4, size := k.toNat % 8 } else {}) }) g e)) ∧
    (∀ n : BitVec 2, Runs (.wptClr n) s (s.updGroup g fun x => { x with wpts := x.wpts.put n.toNat {} }) g e) ∧
    (∀ (a : BitVec 7) (i : Instr) (tag val : Nat) (ty : Nat) (u : State),
      (i = .smark a ∧ ty = 2 ∧ tag = (s.getS g e a.toNat).toNat % 65536 ∧ val = 0 ∧
          u = s.updGroup g fun x => { x with mark := (s.getS g e a.toNat).setWidth 16 }) ∨
        (∃ b, i = .traceWr a b ∧ ty = 1 ∧ tag = (s.getS g e b.toNat).toNat % 65536 ∧ val = (s.getS g e a.toNat).toNat ∧ u = s) →
      let v := leBytes 2 ty ++ leBytes 2 tag ++ leBytes 4 0 ++ leBytes 8 (groupName g e).toNat ++ leBytes 8 val ++
        leBytes 8 (s.recTime g)
      let r : RingRec := { e := e, tr := true, bytes := v }
      (s.ordered g = true → Runs i s (u.updGroup g fun x => { x with q := { x.q with recs := x.q.recs ++ [r] } }) g e) ∧
      (s.ordered g = false → Runs i s (u.ringPut g r) g e)) ∧
    ∀ i : BitVec 14,
      ((s.ctx g.b.r.c).attached = none → exec (.brk i) s = .next ((moved s g e (next s g e)).bump g.b.r.c 13 1)) ∧
      ((s.ctx g.b.r.c).attached ≠ none →
        exec (.brk i) s = .next ((moved s g e (next s g e)).halt g e 2 0 0 i.toNat))

/-- A record put in a ring behind none that waits (R380, R383): without a ring nothing changes; with one, the group's
earlier stores are performed, the record's bytes stand at its place and the raised write index in the header,
which the record's split releases at device scope; a record whose store would fault is not made and is counted as lost. -/
def Says.RingRecord : Prop :=
  ∀ (s s1 : State) (g : GKey) (x : RingRec),
    let ring (t : State) : RecRing := if x.tr then (t.ctx g.b.r.c).trace else (t.ctx g.b.r.c).fin
    let r := ring s
    (r.base = 0 → s.ringPut g x = s) ∧
    (r.base ≠ 0 → (s.ctx g.b.r.c).recQ = [] → s.ringOwned g x = false →
      (∀ f, s.access g (r.base + 64 + x.bytes.length * (r.w % 2 ^ r.cap)) 8 false true = (s1, .fault f) →
        (ring (s.ringPut g x)).lost = r.lost + 1 ∧ (ring (s.ringPut g x)).w = r.w) ∧
      ∀ (s2 s3 : State) (cell head : Nat),
        s.access g (r.base + 64 + x.bytes.length * (r.w % 2 ^ r.cap)) 8 false true = (s1, .ok cell) →
        s1.access g r.base 8 false true = (s2, .ok head) →
        (if s.ordered g then s2 else s2.flushGroup g).syncOf g x.e 0 6 false true false (s.ordered g) head = (s3, none) →
        Memory.wf s3.mem = true →
        (∀ a, (s.ringPut g x).rawByte (.mem a) =
          (lastWrite ((Loc.span (.mem cell) x.bytes.length).zip x.bytes ++ cellsOf (.mem head) 8 (r.w + 1)) (.mem a)).getD
            (s3.rawByte (.mem a))) ∧
        (ring (s.ringPut g x)).w = r.w + 1 ∧ (ring (s.ringPut g x)).lost = r.lost)

/-- History banks, page requests, quantum ends and debug instructions. -/
def Obligations.HistoryAndRequests : Prop := Says.HistoryInstructions ∧ Says.QuantumPagesAndDebug ∧ Says.RingRecord

/-! ## Traps and system calls -/

/-- Taking a scalar fault with a handler (R323 to R327): one record with the fault's kind, address and place, the header,
sr.trapkind; the trap split starts at the handler with every lane, level 0, an empty queue and stack, the registers of the
faulted split and its own stack pointer; every other split is suspended; the group's stores are performed. Without a
handler the fault domain ends. -/
def Says.TrapTaken : Prop :=
  ∀ (s : State) (g : GKey) (e : Nat) (f : FaultInfo), g.sh = 0 → (s.group g).fork = none → s.shadows g = [] → (s.group g).halted = false →
    ((s.group g).trap = none → (s.rcb g).handler ≠ 0 → e ≠ 4 → ((s.group g).ents.get? e).isSome = true →
      let t := s.scalarFault g e f
      (t.group g).recs = [{ kind := BitVec.ofNat 8 f.kind, lane := 255, split := BitVec.ofNat 8 e
                            flags := BitVec.ofNat 8 ((if f.write then 2 else 0) + (if f.batch then 8 else 0))
                            extra := BitVec.ofNat 32 f.extra, lanePc := 0, scalarPc := (s.split g e).pc
                            addr := BitVec.ofNat 64 f.addr }] ∧
      (t.group g).hdr = { lanei := false, split := BitVec.ofNat 3 e, count := 1, done := 0 } ∧
      (t.group g).trapkind = BitVec.ofNat 8 f.kind ∧
      (t.group g).trap = some (.scalar e (s.split g e).pc ((s.split g e).pc + 4) true) ∧
      (t.split g 4).pc = BitVec.ofNat 64 (s.rcb g).handler ∧ (t.split g 4).mask = 0xFFFFFFFF ∧ (t.split g 4).st = .running ∧
      (t.split g 4).level = 0 ∧ (t.split g 4).queue = [] ∧ (t.split g 4).stack = [] ∧ (t.split g 4).join = none ∧
      t.getS g 4 15 = (s.group g).stackBase + BitVec.ofNat 64 (s.rcb g).stack ∧
      (∀ n, n < 32 → n ≠ 15 → t.getS g 4 n = s.getS g e n) ∧
      (∀ i, i ≠ 4 → ((s.group g).ents.get? i).isSome = true → (t.split g i).susp = true ∧ (t.split g i).pc = (s.split g i).pc ∧
        (t.split g i).mask = (s.split g i).mask ∧ (t.split g i).stack = (s.split g i).stack) ∧
      (t.group g).vregs = (s.group g).vregs ∧ (t.group g).masks = (s.group g).masks ∧ (t.group g).retired = (s.group g).retired ∧
      t.pend = s.pend.filter fun p => !(decide (p.g.b = g.b) && p.g.gid == g.gid)) ∧
    ((s.rcb g).handler = 0 → (s.group g).trap = none → ∃ r,
      (s.scalarFault g e f).outs.getLast? = some (.domainEnd r (f.kind % 256)))

/-- trap retires and then takes fault 0x0E with its immediate, from the place after it (R329); an illegal word and one of an
unassigned encoding are fault 1 (R28, R34); the three system instructions of a context without the privilege are fault
0x0D (R338, R339). -/
def Says.TrapAndIllegal : Prop :=
  ∀ (s : State) (g : GKey) (e : Nat),
    (∀ i : BitVec 14, Ready s g e → exec (.trap i) s = .next (((moved s g e (next s g e)).endsQuantum g).takeTrap g
      { recs := [{ kind := 0x0E, split := BitVec.ofNat 8 e, extra := i.setWidth 32, scalarPc := (s.split g e).pc }]
        e, src := .scalar e (s.split g e).pc ((s.split g e).pc + 4) false, regs := some (s.split g e).s })) ∧
    (Issues s g e → (∀ x : BitVec 26, exec (.illegal x) s = .next (s.scalarFault g e { kind := 1 }) ∧
        exec (.illegal3f x) s = .next (s.scalarFault g e { kind := 1 })) ∧
      exec .unassignedEncoding s = .next (s.scalarFault g e { kind := 1 }) ∧
      ((s.ctx g.b.r.c).sys = false → ∀ a b : BitVec 7, exec (.ctxSave a b) s = .next (s.scalarFault g e { kind := 0x0D }) ∧
        exec (.ctxLoad a b) s = .next (s.scalarFault g e { kind := 0x0D }) ∧
        exec (.tlbinv a b) s = .next (s.scalarFault g e { kind := 0x0D })))

/-- Traps taken. -/
def Obligations.Traps : Prop := Says.TrapTaken ∧ Says.TrapAndIllegal

/-- rte, rte.skip and rte.re (R330): of another split than the trap split they are illegal; of the trap split whose lanes
are done, with no trap pending, they end it, perform the group's stores, and let the suspended splits go on: at the
faulted scalar instruction, with rte.skip after it, and with rte.re at the faulted lane instruction in the lanes that
the mask names. -/
def Says.TrapReturns : Prop :=
  ∀ (s : State) (g : GKey) (e : Nat) (n : BitVec 4), Issues s g e →
    (e ≠ 4 → exec .rte s = .next (s.scalarFault g e { kind := 1 }) ∧ exec .rteSkip s = .next (s.scalarFault g e { kind := 1 }) ∧
      exec (.rteRe n) s = .next (s.scalarFault g e { kind := 1 })) ∧
    (e = 4 → s.lanesDone g 4 = true → (s.group g).traps = [] → (s.group g).ended = false → s.shadows g = [] →
      (∀ p ∈ (s.group g).ents, p.2.reply = none) → (∀ p ∈ (s.group g).ents, p.2.st ≠ .draining) → (∃ p ∈ (s.group g).ents, p.1 ≠ 4 ∧ p.2.live = true) →
      (s.group g).ents.filter (fun p => p.1 == 4) = [(4, s.split g 4)] →
      ∀ i, (i = .rte ∨ i = .rteSkip ∨ i = .rteRe n) → ∀ src, (s.group g).trap = some src → src ≠ .seq →
        ∃ t, exec i s = .next t ∧ (t.group g).trap = none ∧ (t.group g).ents.get? 4 = none ∧
          (t.group g).retired = (s.group g).retired + 1 ∧
          (∀ j p, j ≠ 4 → (s.group g).ents.get? j = some p → (t.split g j).susp = false) ∧
          t.pend = s.pend.filter (fun p => !(decide (p.g.b = g.b) && p.g.gid == g.gid)) ∧
          (∀ f pc nx again, src = .scalar f pc nx again → f ≠ 4 → (i ≠ .rteSkip ∨ again = false) →
            ∀ j, j ≠ 4 → ((s.group g).ents.get? j).isSome = true → (t.split g j).pc = (s.split g j).pc) ∧
          (∀ f pc nx, src = .scalar f pc nx true → f < 4 → i = .rteSkip → Straight s g f nx (s.split g f).level →
            ((s.group g).ents.get? f).isSome = true → (t.split g f).pc = nx ∧ (t.split g f).st = .running) ∧
          (∀ f blk w m, src = .lane f blk w m → f ≠ 4 → ((s.group g).ents.get? f).isSome = true →
            (t.split g f).queue = if i = .rteRe n then
              { blk with again := some { word := w, lanes := s.getM g (s.split g 4).mask n.toNat &&& m
                                         active := s.getM g (s.split g 4).mask n.toNat &&& m } } :: (s.split g f).queue
            else (s.split g f).queue))

/-- sysc (R331) outside ordered mode performs the split's stores, hands its immediate and s4 to s11 to the Keep, with s14 for
the bind call, sysc 1 (R356), and parks; the reply writes s2 and s3 and lets the split go on, or is the fault that the Keep met, at the sysc; that of a suspended
split waits for the return from the trap (R343), and one that names no kind of fault changes nothing (R48). -/
def Says.SystemCall : Prop :=
  (∀ (s : State) (g : GKey) (e : Nat) (i : BitVec 14), Issues s g e → s.ordered g = false → exec (.sysc i) s =
    .next (({ s.flushSplit g e with
        outs := s.outs ++ [Out.syscall g e i.toNat (((List.range 8).map fun k => s.getS g e (4 + k)) ++
          if i = 1 then [s.getS g e 14] else [])] }).park g e (.sysc i.toNat))) ∧
  ∀ (s : State) (g : GKey) (e i : Nat) (a b : DWord) (f : Option Nat), s.turn = .event (.syscReply g e a b f) →
    (s.split g e).st = .parked (.sysc i) → s.ordered g = false → (s.split g e).reply = none →
    let u := s.updSplit g e fun p => { p with reply := none }
    ((s.split g e).susp = false → f = none →
      exec .syscReply s = .next (((u.setS g e 2 a).setS g e 3 b).retire g e ((s.split g e).pc + 4))) ∧
    ((s.split g e).susp = false → ∀ k, f = some k → faultKind k = true →
      exec .syscReply s = .next (u.scalarFault g e { kind := k, extra := i })) ∧
    ((s.split g e).susp = true → (∀ k, f = some k → faultKind k = true) →
      exec .syscReply s = .next (s.updSplit g e fun p => { p with reply := some ⟨a, b, f, false⟩ })) ∧
    ∀ k, f = some k → faultKind k = false → exec .syscReply s = .next s

/-- Returns from traps, and system calls. -/
def Obligations.ReturnsFromTraps : Prop := Says.TrapReturns ∧ Says.SystemCall

/-- The requests of ctx.save and ctx.load (R338): a request that is not well formed gives −1 and an unknown context −3; a
load of a context that is not absent gives −3; one of an absent context from a readable image makes it present with status
0, as every image of it that this device has written does whatever records that it may skip stand in it (R336), or leaves
it absent with status −5. A save of another context with no block on the cores that it names, into room enough, makes a
whole context absent, with status 0; with too little room it gives −2 and stores the size. Behind an earlier request of its
context an instruction waits, and so does a save while copies own a line that it stores to (R224) and a load whose kernels are to
be translated (R353). tlbinv (R339) removes from every TLB the translations of its range, and performs the
context's stores. -/
def Obligations.ContextInstructions : Prop :=
  ∀ (s : State) (g : GKey) (e : Nat), Ready s g e → (s.ctx g.b.r.c).sys = true →
    (∀ (d a : BitVec 7) (b : List Byte), (s.getS g e a.toNat).toNat < 2 ^ 56 → (s.getS g e a.toNat).toNat % 64 = 0 →
      s.readRec g e (s.getS g e a.toNat).toNat 64 = .ok b →
      let r := sysReq b
      let c : CKey := ⟨g.b.r.c.vf, r.ctx⟩
      let u := (s.enterSys c (.split g e)).leaveSys c (.split g e)
      let at_ := (s.getS g e a.toNat).toNat + 0x30
      (r.ok = false → Runs (.ctxSave d a) s (s.setS g e d.toNat (-1)) g e ∧ Runs (.ctxLoad d a) s (s.setS g e d.toNat (-1)) g e) ∧
      (r.ok = true → s.ctxs.get? c = none →
        Runs (.ctxSave d a) s (s.setS g e d.toNat (-3)) g e ∧ Runs (.ctxLoad d a) s (s.setS g e d.toNat (-3)) g e) ∧
      (r.ok = true → (s.ctxs.get? c).isSome = true → (∃ w q, (s.ctx c).sysq = w :: q ∧ w.1 ≠ .split g e) →
        exec (.ctxSave d a) s = .next ((s.enterSys c (.split g e)).park g e .system) ∧
        exec (.ctxLoad d a) s = .next ((s.enterSys c (.split g e)).park g e .system)) ∧
      (r.ok = true → (s.ctxs.get? c).isSome = true → (s.ctx c).sysq = [] →
        ((s.ctx c).absent = false → Runs (.ctxLoad d a) s (u.setS g e d.toNat (-3)) g e ∧ ∀ k, u.ctx k = s.ctx k) ∧
        (∀ bytes, c ≠ g.b.r.c → (s.ctx c).absent = true → (s.ctx c).bounce = [] → s.leaving c = false →
          parseImage (fun o n => if 2 ^ 56 ≤ r.image + o then .fault { kind := 5, addr := r.image + o }
            else s.readRec g e (r.image + o) n) r.length (r.length / 16 + 1) 0 [] = .ok bytes →
          (u.toTranslate c bytes = [] → ∃ t, exec (.ctxLoad d a) s = .next t ∧
            (((t.ctx c).absent = false ∧ (d ≠ 0 → t.getS g e d.toNat = 0)) ∨
              ((t.ctx c).absent = true ∧ (d ≠ 0 → t.getS g e d.toNat = -5)))) ∧
          ((s.images.any fun im => decide (im.c = c) && decide (im.bytes = bytes)) = true →
            ∃ t, exec (.ctxLoad d a) s = .next t ∧ (t.ctx c).absent = false ∧ (d ≠ 0 → t.getS g e d.toNat = 0) ∧
              (t.split g e).pc = next s g e)) ∧
        (c ≠ g.b.r.c → s.blocksOn c r.whole r.cores = [] → s.writeStop g at_ 8 = none → s.rangeOwned g at_ 8 = false →
          (s.saveSize c r [] ≤ r.length → s.writeStop g r.image (s.saveSize c r []) = none →
            s.rangeOwned g r.image (s.saveSize c r []) = false →
            ∃ t, exec (.ctxSave d a) s = .next t ∧ (r.whole = true → (t.ctx c).absent = true) ∧
              (d ≠ 0 → t.getS g e d.toNat = 0) ∧ (t.split g e).pc = next s g e) ∧
          (r.length < s.saveSize c r [] → Runs (.ctxSave d a) s
            ((u.writeRange g e at_ (leBytes 8 (s.saveSize c r []))).setS g e d.toNat (-2)) g e)))) ∧
    ∀ a b : BitVec 7,
      let v := s.getS g e b.toNat
      let n := pageBytes (v.toNat / 65536 % 4)
      let c : CKey := ⟨g.b.r.c.vf, v.toNat % 65536⟩
      let lo := (s.getS g e a.toNat).toNat / n * n
      let hi := lo + n * (v.toNat / 2 ^ 32 % 65536 + 1)
      v.toNat / 65536 % 4 ≠ 3 → v.extractLsb' 18 14 = 0 → v.extractLsb' 48 15 = 0 → v.getLsbD 63 = false →
      ∃ t, exec (.tlbinv a b) s = .next t ∧ (t.split g e).pc = next s g e ∧
        t.pend = s.pend.filter (fun p => !decide (p.g.b.r.c = c)) ∧
        (∀ k, ∀ x ∈ (t.core k).tlb, x.c = c → x.va + pageBytes x.psize ≤ lo ∨ hi ≤ x.va) ∧
        (∀ k, ∀ x ∈ (t.cluster k).tlb, x.c = c → x.va + pageBytes x.psize ≤ lo ∨ hi ≤ x.va) ∧ ∀ i k, t.getS g i k = s.getS g i k

/-! ## The matrix stream -/

/-- mset, mset.hi, mset.v, madd and mloop (R251) write their q register, a loop that has not reached 0 branches, and
nothing else changes but the place and the count; mend (R252) of a drained sequencer ends the stream and gives the engine
back; an ill-formed word is a sequencer fault of kind 1 and one that names a register above 7 of kind 2 (R29, R45). -/
def Obligations.MatrixRegisters : Prop :=
  ∀ (s : State) (b : BKey) (x : MArgs),
    let q (n : Nat) : Word := (s.seq b).q.get 0 n
    let set (v : Word) : State := s.updSeq b fun y => { y with q := y.q.put x.a.toNat v }
    let pc := (s.seq b).pc
    (SeqReady s b (.mset x) → exec (.mset x) s = .next ((set (x.imm.signExtend 32)).seqRetire b (pc + 8))) ∧
    (SeqReady s b (.msetHi x) → exec (.msetHi x) s =
      .next ((set (BitVec.ofNat 32 (x.imm.toNat % 2 ^ 16 * 2 ^ 16 + (q x.a.toNat).toNat % 2 ^ 16))).seqRetire b (pc + 8))) ∧
    (SeqReady s b (.madd x) → exec (.madd x) s =
      .next ((set (q x.qb.toNat + x.imm.signExtend 32)).seqRetire b (pc + 8))) ∧
    (SeqReady s b (.msetV x) → s.grpOk b x.grp.toNat x.v.toNat = true → exec (.msetV x) s =
      .next ((set (s.getVL ⟨b, x.grp.toNat, 0⟩ x.v.toNat (x.imm.toNat % 32))).seqRetire b (pc + 8))) ∧
    (SeqReady s b (.msetV x) → s.grpOk b x.grp.toNat x.v.toNat = false → exec (.msetV x) s = .next (s.operandFault b)) ∧
    (SeqReady s b (.mloop x) → exec (.mloop x) s = .next ((set (q x.a.toNat - 1)).seqRetire b
      (if q x.a.toNat - 1 = 0 then pc + 8 else pc + 8 * x.imm.signExtend 64))) ∧
    (SeqReady s b (.mend x) → (s.seq b).replays = [] → (s.seq b).audits = [] → (s.seq b).ol = [] →
      exec (.mend x) s = .next
        ((((s.seqRetire b (pc + 8)).freeEngine b).updSeq b fun y => { y with st := .ended }).blockCheck b)) ∧
    ∀ i, (i = .mset x ∨ i = .msetHi x ∨ i = .madd x ∨ i = .mloop x ∨ i = .mzero x ∨ i = .mmul x) → s.turn = .seq b →
      s.seqOrdered b = false → (∀ w ∈ (s.seq b).exec, w.recs = []) →
      (WellFormed i = false → exec i s = .next ((s.updSeq b fun y => { y with cause := .word }).seqFault b { kind := 1 })) ∧
      (WellFormed i = true → 8 ≤ x.a.toNat →
        exec i s = .next ((s.updSeq b fun y => { y with cause := .word }).seqFault b { kind := 2 }))

/-- The engine and the rings (R229, R236, R239, R249, R250): macq of a free engine holds it, of a held one queues and waits;
mrel gives it back; mzero with the engine held clears an accumulator, its kind and scales; mgive and mtake act on a ring's
stage or wait, and a give covers the outlier records that the sequencer has stored (R218, R250). -/
def Obligations.MatrixEngine : Prop :=
  ∀ (s : State) (b : BKey) (x : MArgs),
    let k := (s.block b).seqCore
    let pc := (s.seq b).pc
    (SeqReady s b (.macq x) → ((s.seq b).held = true → exec (.macq x) s = .next (s.seqRetire b (pc + 8))) ∧
      ((s.seq b).held = false → (s.core k).engQ = [] → (s.core k).eng = none → ∃ t, exec (.macq x) s = .next t ∧
        (t.core k).eng = some b ∧ (t.seq b).held = true ∧ (t.seq b).pc = pc + 8) ∧
      (∀ h, (s.seq b).held = false → (s.core k).engQ = [] → (s.core k).eng = some h → exec (.macq x) s =
        .next ((s.updCore k fun y => { y with engQ := y.engQ ++ [b] }).updSeq b fun y => { y with st := .parked .engine }))) ∧
    (SeqReady s b (.mrel x) → ((s.seq b).held = false → exec (.mrel x) s = .next (s.seqRetire b (pc + 8))) ∧
      ((s.seq b).held = true → (s.seq b).replays = [] → exec (.mrel x) s = .next ((s.freeEngine b).seqRetire b (((s.freeEngine b).seq b).pc + 8)))) ∧
    (SeqReady s b (.mzero x) → (s.seq b).held = true → (s.seq b).replays = [] → ∃ t, exec (.mzero x) s = .next t ∧
      (t.seq b).pc = pc + 8 ∧ ((t.seq b).accs.get {} x.a.toNat).isInt = decide (x.ty = .i32) ∧
      (∀ n, ((t.seq b).accs.get {} x.a.toNat).elems.get 0 n = 0 ∧
        ((t.seq b).accs.get {} x.a.toNat).scales.get oneF n = 0x3F800000) ∧
      ∀ n, n ≠ x.a.toNat → (t.seq b).accs.get {} n = (s.seq b).accs.get {} n) ∧
    (let n := x.a.toNat
     let r := ((s.block b).rings.get {} n).fix (x.imm.toNat % 8 + 1)
     let fixed := s.updRing b n fun y => y.fix (x.imm.toNat % 8 + 1)
     (SeqReady s b (.mgive x) →
       (r.givers = [] → r.full.getLsbD r.gi = false → exec (.mgive x) s = .next (((fixed.flushSeq b).updRing b n fun y =>
         { y with full := y.full ||| BitVec.ofNat 8 (2 ^ y.gi), gi := (y.gi + 1) % (r.depth.getD 1) }).seqRetire b (pc + 8))) ∧
       (r.givers ≠ [] ∨ r.full.getLsbD r.gi = true → exec (.mgive x) s = .next ((fixed.updRing b n fun y =>
         { y with givers := y.givers ++ [.seq] }).updSeq b fun y => { y with st := .parked (.ring true n) }))) ∧
     (SeqReady s b (.mtake x) →
       (r.takers = [] → r.full.getLsbD r.ti = true → exec (.mtake x) s = .next ((fixed.updRing b n fun y =>
         { y with full := y.full &&& ~~~(BitVec.ofNat 8 (2 ^ y.ti)), ti := (y.ti + 1) % (r.depth.getD 1) }).seqRetire b (pc + 8))) ∧
       (r.takers ≠ [] ∨ r.full.getLsbD r.ti = false → exec (.mtake x) s = .next ((fixed.updRing b n fun y =>
         { y with takers := y.takers ++ [.seq] }).updSeq b fun y => { y with st := .parked (.ring false n) }))))

/-- Audits and adapters (R254, R257 to R260): maudit sets the rate, the ring and its place from the pair of its q registers,
whose address must be a multiple of 32 (that another address faults with 0x04, the base as its address, is the model's choice: log entry 69);
maudit.off ends auditing; adpf starts the fill of an entry that no way holds and that no block of the region fills there; adinv
and adinv.all drop the entries of the region and mark its fills in flight, and wait while a replay names them. -/
def Obligations.AuditsAndAdapters : Prop :=
  ∀ (s : State) (b : BKey) (x : MArgs),
    let pc := (s.seq b).pc
    let pair (n : Nat) : Nat := (((s.seq b).q.get 0 n).toNat + ((s.seq b).q.get 0 (n + 1)).toNat * 2 ^ 32) % 2 ^ 56
    (SeqReady s b (.maudit x) → pair x.qb.toNat % 32 = 0 → (s.seq b).audits = [] → exec (.maudit x) s =
      .next ((s.updSeq b fun y => { y with
        auditOn := true, auditN := x.imm.toNat % 32, auditBase := pair x.qb.toNat, auditCap := x.imm.toNat / 1024 % 32
        auditW := 0, auditT := 0 }).seqRetire b (pc + 8))) ∧
    (SeqReady s b (.maudit x) → pair x.qb.toNat % 32 ≠ 0 → exec (.maudit x) s =
      .next ((s.updSeq b fun y => { y with cause := .word }).seqFault b { kind := 4, addr := pair x.qb.toNat })) ∧
    (SeqReady s b (.mauditOff x) → (s.seq b).audits = [] → exec (.mauditOff x) s =
      .next ((s.updSeq b fun y => { y with auditOn := false, auditN := 0 }).seqRetire b (pc + 8))) ∧
    (SeqReady s b (.adpf x) →
      let aid := x.imm.toNat % 2 ^ 16
      let tag := (s.seq b).q.get 0 (x.imm.toNat / 2 ^ 16 % 8)
      (aid = 0 ∨ (s.region b.r).rcb.adways = 0 ∨ (s.adFind (s.clOf b) b.r aid tag).isSome = true ∨
          s.fillsHere b aid tag = true →
        exec (.adpf x) s = .next (s.seqRetire b (pc + 8))) ∧
      (aid ≠ 0 → (s.region b.r).rcb.adways ≠ 0 → s.adFind (s.clOf b) b.r aid tag = none → s.fillsHere b aid tag = false →
        (s.seq b).fills = [] →
        ∃ t, exec (.adpf x) s = .next t ∧ (t.seq b).pc = pc + 8 ∧
          (t.seq b).fills = [{ id := (s.seq b).nextId, aid, tag, dir := pair x.qb.toNat }])) ∧
    ∀ i id, (i = .adinv x ∧ id = some (x.imm.toNat % 2 ^ 16) ∨ i = .adinvAll x ∧ id = none) → SeqReady s b i →
      (s.replayNames b.r id = true → exec i s = .next (s.updSeq b fun y => { y with st := .parked (.invalidate id) })) ∧
      (s.replayNames b.r id = false → ∃ t, exec i s = .next t ∧ (t.seq b).pc = pc + 8 ∧
        (∀ c, ∀ p ∈ (t.cluster c).adEnts, p.2.r = b.r → ∃ a, id = some a ∧ p.2.aid ≠ a) ∧
        ∀ f ∈ (t.seq b).fills, (∀ a, id = some a → f.aid = a) → f.drop = true)

/-- mwload (R241, R245) with the engine held latches the tile: element (k, n) of the group's weight registers in their format,
and with scales those of its columns; under tr a code 10 is kept with the word, whose completion sets sr.vstat.trit in the
group; a group or register that does not exist is a matrix operand fault. -/
def Obligations.WeightLoad : Prop :=
  ∀ (s : State) (b : BKey) (sc : Bool) (x : MArgs), SeqReady s b (.mwload sc x) → (s.seq b).held = true →
    let cols := if x.ty.width = 16 then 64 else if x.ty.width = 8 then 128 else 256
    let base := if x.ty = .tr then 32 else 64
    let v (n l : Nat) : Nat := (s.getVL ⟨b, x.grp.toNat, 0⟩ (x.v.toNat + n) l).toNat
    let top := x.v.toNat + base + (if sc then cols / 32 else 0) - 1
    (s.grpOk b x.grp.toNat top = false → exec (.mwload sc x) s = .next (s.operandFault b)) ∧
    (s.grpOk b x.grp.toNat top = true → ∃ t tile, exec (.mwload sc x) s = .next t ∧ (t.seq b).pc = (s.seq b).pc + 8 ∧
      (t.seq b).tile = some tile ∧ tile.ty = x.ty ∧ (t.seq b).accs = (s.seq b).accs ∧
      (∀ k n, k < 64 → n < cols → tile.elems.get 0 (k * 256 + n) =
        if x.ty.width = 16 then v k (n / 2) / 2 ^ (16 * (n % 2)) % 2 ^ 16
        else if x.ty.width = 8 then v k (n / 4) / 2 ^ (8 * (n % 4)) % 2 ^ 8
        else v (k / 2) (16 * (k % 2) + n / 16) / 2 ^ (2 * (n % 16)) % 4) ∧
      (∀ n, n < cols → tile.scale n = if sc then s.getVL ⟨b, x.grp.toNat, 0⟩ (x.v.toNat + base + n / 32) (n % 32) else 0x3F800000) ∧
      ∃ w, (t.seq b).exec = [w] ∧ w.trit =
        if (x.ty == .tr && (List.range 32).any fun n => (List.range 32).any fun l => (List.range 16).any fun i => elGet 2 (v n l) i == 2)
        then some x.grp.toNat else none)

/-- mmul, mmul.scr, and mmula of rows without an adapter (R71, R242, R246, R253), with the engine held, a tile latched of a
format that goes with theirs, auditing off, and their operands within their group or in scratch: each element of the
accumulators' rows receives `accValue`, their columns take the tile's scales, and no other element or accumulator
changes. -/
def Says.MatrixMultiply : Prop :=
  ∀ (s : State) (b : BKey) (i : Instr) (x : MArgs) (t : Tile) (rb : Nat → Nat → Nat),
    let m := x.imm.toNat % 64 + 1
    let ad := ((s.seq b).q.get 0 x.qb.toNat).toNat + 64 * (x.imm.toNat / 64)
    let w := x.ty.width
    let g : GKey := ⟨b, x.grp.toNat, 0⟩
    let accs := mmulAccs t.ty x.ty
    let reg (r k : Nat) : Nat := if w = 16 then (s.getVL g (x.v.toNat + r) (k / 2)).toNat / 2 ^ (16 * (k % 2)) % 2 ^ 16
      else (s.getVL g (x.v.toNat + r) (k / 4)).toNat / 2 ^ (8 * (k % 4)) % 2 ^ 8
    SeqReady s b i → (s.seq b).held = true → (s.seq b).tile = some t → (s.seq b).auditOn = false → (s.seq b).replays = [] →
    accs ≠ 0 → x.a.toNat % accs = 0 →
    ((i = .mmul x ∧ s.grpOk b x.grp.toNat (x.v.toNat + m - 1) = true ∧ rb = reg) ∨
     (i = .mmula x ∧ s.grpOk b x.grp.toNat (x.v.toNat + m - 1) = true ∧ s.grpOk b x.grp.toNat (x.imm.toNat / 64 % 2048) = true ∧
       (∀ r, r < m → (s.getVL g (x.imm.toNat / 64 % 2048) (r / 2)).toNat / 2 ^ (16 * (r % 2)) % 2 ^ 16 = 0) ∧ rb = reg) ∨
     (i = .mmulScr x ∧ ad % 64 = 0 ∧ (s.block b).scratchOk ad (m * 8 * w) = true ∧
       (∀ j, s.poisoned (.scr b j) = false ∧ s.ownedAt (.scr b j) = false) ∧
       rb = fun r k => leNat ((Loc.span (.scr b (ad + r * 8 * w + k * w / 8)) (w / 8)).map s.rawByte))) →
    ∃ u, exec i s = .next u ∧ (u.seq b).pc = (s.seq b).pc + 8 ∧ u.groups = s.groups ∧ u.mem = s.mem ∧
      (∀ j r n, j < accs → r < 64 → n < 64 →
        ((u.seq b).accs.get {} (x.a.toNat + j)).elems.get 0 (64 * r + n) =
          let old := ((s.seq b).accs.get {} (x.a.toNat + j)).elems.get 0 (64 * r + n)
          if r < m then accValue (!Ty.isFloat t.ty) t.ty x.ty (fun k => t.elems.get 0 (k * 256 + (64 * j + n))) (rb r) old
          else old) ∧
      (∀ j n, j < accs → n < 64 → ((u.seq b).accs.get {} (x.a.toNat + j)).scales.get oneF n = t.scale (64 * j + n) ∧
        ((u.seq b).accs.get {} (x.a.toNat + j)).isInt = !Ty.isFloat t.ty) ∧
      ∀ n, (n < x.a.toNat ∨ x.a.toNat + accs ≤ n) → (u.seq b).accs.get {} n = (s.seq b).accs.get {} n

/-- A multiply without a latched tile, with a pair of formats that R246 does not list, or with an accumulator number that is
no multiple of the number it writes, is illegal; one whose operands do not exist is a matrix operand fault; a poisoned
scratch row is a data error, and nothing is written. -/
def Says.MultiplyFaults : Prop :=
  ∀ (s : State) (b : BKey) (i : Instr) (x : MArgs), i = .mmul x ∨ i = .mmulScr x → SeqReady s b i → (s.seq b).held = true →
    let fault (f : FaultInfo) : State := (s.updSeq b fun y => { y with cause := .word }).seqFault b f
    let ad := ((s.seq b).q.get 0 x.qb.toNat).toNat + 64 * (x.imm.toNat / 64)
    let n := (x.imm.toNat % 64 + 1) * 8 * x.ty.width
    ((s.seq b).tile = none → exec i s = .next (fault { kind := 1 })) ∧
    (∀ t, (s.seq b).tile = some t →
      let accs := mmulAccs t.ty x.ty
      (accs = 0 ∨ x.a.toNat % accs ≠ 0 → exec i s = .next (fault { kind := 1 })) ∧
      (accs ≠ 0 → x.a.toNat % accs = 0 → (s.seq b).replays = [] →
        (i = .mmul x → s.grpOk b x.grp.toNat (x.v.toNat + x.imm.toNat % 64) = false → exec i s = .next (s.operandFault b)) ∧
        (i = .mmulScr x → ad % 64 ≠ 0 ∨ (s.block b).scratchOk ad n = false → exec i s = .next (s.operandFault b)) ∧
        (i = .mmulScr x → ad % 64 = 0 → (s.block b).scratchOk ad n = true →
          (∀ k, k < n → s.ownedAt (.scr b (ad + k)) = false) → (∃ k, k < n ∧ s.poisoned (.scr b (ad + k)) = true) →
          ∃ k, k < n ∧ exec i s = .next (fault { kind := 0x0B, addr := ad + k }))))

/-- Matrix multiplication and its faults. -/
def Obligations.Multiplication : Prop := Says.MatrixMultiply ∧ Says.MultiplyFaults

/-- The adapter term of a row (R72): the row times LA is rounded to bf16, and times RA is summed exactly, rounded and added
to the row's elements of the accumulator, which alone change. -/
def Says.AdapterTerm : Prop :=
  ∀ (s : State) (b : BKey) (e : AdEnt) (acc row : Nat) (ty : Ty) (x : List Nat), (s.block b).seq.isSome = true → row < 64 →
    let mid (j : Nat) : Nat := roundTo (Ty.fmt .bf16) .rne false (sumNum ((List.range 64).map fun k =>
      mulNum (readEl ty (x.getD k 0)) (readFloat (Ty.fmt .bf16) (e.la.get 0 (64 * k + j)))))
    let t := s.addTerm b e acc row ty x none
    (∀ n, n < 64 → ((t.seq b).accs.get {} acc).elems.get 0 (64 * row + n) =
      BitVec.ofNat 32 (roundTo fmtF32 .rne false (addNum .rne
        (readFloat fmtF32 (((s.seq b).accs.get {} acc).elems.get 0 (64 * row + n)).toNat)
        (sumNum ((List.range 64).map fun j =>
          mulNum (readFloat (Ty.fmt .bf16) (mid j)) (readFloat (Ty.fmt .bf16) (e.ra.get 0 (64 * j + n)))))))) ∧
    (∀ n, (n < 64 * row ∨ 64 * row + 64 ≤ n) →
      ((t.seq b).accs.get {} acc).elems.get 0 n = ((s.seq b).accs.get {} acc).elems.get 0 n) ∧
    ∀ k, k ≠ acc → (t.seq b).accs.get {} k = (s.seq b).accs.get {} k

/-- mstore (R73, R243, R247, R248): with the engine held and its operands within their group, the word stays in execution with
the writes of its rows and, where its flag o is set, a record of each element that overflows, in row order, of which the written value is 0;
MATRIX_WORD_COMPLETE makes the writes, appends the records as far as none waits, sets the trit flag that the word
carries (R63, R245), and retires it. -/
def Says.StoreWord : Prop :=
  (∀ (s : State) (b : BKey) (f : BitVec 6) (x : MArgs), SeqReady s b (.mstore f x) → (s.seq b).held = true →
    (s.seq b).replays = [] →
    let m := x.imm.toNat % 64 + 1
    let vb := x.imm.toNat / 64 % 2048
    let per := if x.ty.width = 32 then 2 else 1
    let g : GKey := ⟨b, x.grp.toNat, 0⟩
    let a := (s.seq b).accs.get {} x.a.toNat
    let rm : Rm := match (f.extractLsb' 0 2).toNat with | 0 => .rne | 1 => .rtz | 2 => .rup | _ => .rdn
    let one (y : Machine.Num) : Machine.Num := readFloat fmtF32 (roundTo fmtF32 .rne false y)
    let val (r n : Nat) : Machine.Num :=
      let y := readEl (if a.isInt then .i32 else .f32) (a.elems.get 0 (64 * r + n)).toNat
      let y := if f.getLsbD 4 then one (mulNum y (readFloat fmtF32 (a.scales.get 0x3F800000 n).toNat)) else y
      if f.getLsbD 5 then one (addNum .rne y (readFloat fmtF32 (s.getVL g (vb + n / 32) (n % 32)).toNat)) else y
    s.grpOk b x.grp.toNat (x.v.toNat + per * m - 1) = true → (f.getLsbD 5 = true → s.grpOk b x.grp.toNat (vb + 1) = true) →
    let big (r n : Nat) : Bool := f.getLsbD 3 && isOutlier x.ty rm (val r n)
    ∃ t w, exec (.mstore f x) s = .next t ∧ (t.seq b).pc = (s.seq b).pc + 8 ∧ (t.seq b).exec = [w] ∧
      w.recs.map (fun q => (q.1, q.2.index, q.2.value)) = ((List.range m).flatMap fun r =>
        ((List.range 64).filter (big r)).map fun n =>
          (x.grp.toNat, (s.seq b).q.get 0 x.qb.toNat + BitVec.ofNat 32 (64 * r + n),
            BitVec.ofNat 32 (roundTo fmtF32 .rne false (val r n)))) ∧
      w.made = false ∧ t.groups = s.groups ∧
      ∀ r n, r < m → n < 64 → ∃ v ∈ w.writes, v.grp = x.grp.toNat ∧
        v.reg = x.v.toNat + (if x.ty.width = 32 then 2 * r + n / 32 else r) ∧
        let e := 32 / x.ty.width
        ∃ q ∈ v.lanes, q.1 = (if x.ty.width = 32 then n % 32 else n / e) ∧
          q.2.toNat / 2 ^ (x.ty.width * (n % e)) % 2 ^ x.ty.width =
            if big r n then 0 else convEl x.ty rm (f.getLsbD 2) (val r n) % 2 ^ x.ty.width) ∧
  ∀ (s : State) (b : BKey) (w : ExecWord) (rest : List ExecWord), s.turn = .event (.matrixWordComplete b) →
    (s.seq b).exec = w :: rest → s.wordReady b = true → s.seqOrdered b = false → w.made = false → (s.seq b).ol = [] →
    (s.seq b).olFault = none → (s.seq b).halting = none → (s.block b).seq.isSome = true → (∀ p ∈ s.groups, p.2.ol = []) →
    let u := w.writes.foldl (fun s v => s.setVLs ⟨b, v.grp, 0⟩ v.reg v.lanes) s
    ∃ t, exec .matrixWordComplete s = .next t ∧
      ∀ (s1 : State) (left : List (Nat × OlRec)) (k : Option FaultInfo),
        (u.updSeq b fun q => { q with ol := w.recs, exec := { w with made := true } :: rest }).seqDrain b w.recs = (s1, left, k) →
        (left ≠ [] → (t.seq b).exec = { w with made := true } :: rest ∧ (t.seq b).ol = left ∧ t.pend = s1.pend ∧
          (t.seq b).retired = (s.seq b).retired ∧ (∀ g n, t.getV g n = u.getV g n) ∧ ∀ g, t.group g = s1.group g) ∧
        (left = [] → k = none → (t.seq b).exec = rest ∧ (t.seq b).ol = [] ∧ (t.seq b).retired = (s.seq b).retired + 1 ∧
          t.pend = s1.pend ∧ (∀ g n, t.getV g n = u.getV g n) ∧ ∀ g, t.group g =
            if w.trit = some g.gid ∧ g = ⟨b, g.gid, 0⟩ then { s1.group g with vstat := (s1.group g).vstat ||| 1 } else s1.group g)

/-- The records of an mstore taken up (R66, R248): each is appended to its group's list behind the one before it; one that waits
for its page keeps those behind it waiting; one whose store faults is not made, and the others are. -/
def Says.MatrixRecords : Prop :=
  ∀ (s : State) (b : BKey) (r : Nat × OlRec) (rs : List (Nat × OlRec)),
    let a := s.olAppend ⟨b, r.1, 0⟩ 4 true r.2.index r.2.value r.2.at_
    s.seqDrain b [] = (s, [], none) ∧
    (a.2 = .done → s.seqDrain b (r :: rs) = a.1.seqDrain b rs) ∧
    (∀ f, a.2 = .fault f → s.seqDrain b (r :: rs) = ((a.1.seqDrain b rs).1, (a.1.seqDrain b rs).2.1, some f)) ∧
    (a.2 = .wait → s.ordered ⟨b, r.1, 0⟩ = false → s.seqDrain b (r :: rs) =
      (a.1, (r.1, { r.2 with at_ := some (r.2.at_.getD (a.1.group ⟨b, r.1, 0⟩).olPlace) }) :: rs, none))

/-- mstore, its completion and its outlier records. -/
def Obligations.MatrixStore : Prop := Says.StoreWord ∧ Says.MatrixRecords

/-- ADAPTER_FILL_COMPLETE (R255, R256) of a readable entry applies it to every row that waits for it, and of an unreadable one
leaves its fault with them; AUDIT_RECORD (R260) stores the record and the index and goes on to the next. -/
def Says.MatrixEvents : Prop :=
  (∀ (s : State) (b : BKey) (f : AFill), s.turn = .event (.adapterFillComplete b f.id) → (s.block b).seq.isSome = true →
    ((s.seq b).fills.find? fun k => k.id == f.id) = some f → s.fillReady b f.id = true →
    (∀ k, s.fillEntry b f = .error (.fault k) → ∃ t, exec .adapterFillComplete s = .next t ∧
      (t.seq b).replays = (s.seq b).replays.map (fun r => if r.id == f.id then { r with fault := some k } else r) ∧
      (t.seq b).fills = (s.seq b).fills.filter (fun k => k.id != f.id)) ∧
    ∀ e, s.fillEntry b f = .ok e → (s.region b.r).rcb.adways = 0 → ∃ t, exec .adapterFillComplete s = .next t ∧
      (t.seq b).replays = (s.seq b).replays.filter (fun r => r.id != f.id) ∧
      (t.seq b).fills = (s.seq b).fills.filter (fun k => k.id != f.id) ∧
      (t.seq b).accs = ((((s.seq b).replays.filter fun r => r.id == f.id).foldl
        (fun s r => s.addTerm b e r.acc r.row r.ty r.x r.cand) s).seq b).accs) ∧
  ∀ (s : State) (b : BKey) (a : AuditRec) (rest : List AuditRec) (c h : Nat), s.turn = .event (.auditRecord b) →
    (s.block b).seq.isSome = true → (s.seq b).audits = a :: rest → s.auditReady b = true → s.seqOrdered b = false →
    s.auditPlace b ((s.seq b).auditBase + 32 + 32 * ((s.seq b).auditW % 2 ^ (s.seq b).auditCap)) true = .ok c →
    s.auditPlace b (s.seq b).auditBase false = .ok h → (c + 32 ≤ h ∨ h + 8 ≤ c) → Memory.wf s.mem = true → Calm s →
    (((s.flushSeq b).perform ((Loc.span (.mem c) 32).zip (auditBytes b a))).auditSync b h).2 = none →
    ∃ t, exec .auditRecord s = .next t ∧ (t.seq b).audits = rest ∧ (t.seq b).auditW = (s.seq b).auditW + 1 ∧
      (∀ k, k < 32 → t.rawByte (.mem (c + k)) = (auditBytes b a).getD k 0) ∧
      ∀ k, k < 8 → t.rawByte (.mem (h + k)) = BitVec.ofNat 8 (((s.seq b).auditW + 1) / 2 ^ (8 * k))

/-- Adapter terms, adapter fills and audit records. -/
def Obligations.AdaptersAndAuditRecords : Prop := Says.AdapterTerm ∧ Says.MatrixEvents

/-! ## Dispatch, completion, quanta, slices and pages -/

/-- BLOCK_ADMIT and REGION_STARVATION (R87): a die tries its regions with work in priority order, the oldest of a
priority first, and none below any that it has starved or that it has passed over for 100,000 cycles; it places the next block of the first that fits, passing over the others,
and that region runs. Of the priorities 7 is the highest (log entry 7). -/
def Says.BlockAdmission : Prop :=
  (∀ (s : State) (die : Nat) (l : List RKey) (k : RKey) (p : List RKey), s.nextAdmit die l = some (k, p) ↔
    (s.admitOn k die).isSome = true ∧ (∀ x ∈ p, s.admitOn x die = none) ∧ ∃ rest, l = p ++ k :: rest) ∧
  (∀ (s : State) (die : Nat), (s.regions.map (·.1)).Nodup →
    (s.dispatchOrder die).Pairwise (fun a b => (s.region b).rcb.prio < (s.region a).rcb.prio ∨
      ((s.region b).rcb.prio = (s.region a).rcb.prio ∧ (s.region a).seq ≤ (s.region b).seq)) ∧
    ∀ r, r ∈ s.dispatchOrder die ↔ (s.regions.get? r).isSome = true ∧ (s.region r).dies.contains die = true ∧
      s.hasWork (r, s.region r) = true ∧ (∀ q ∈ s.starving.get [] die, q.2 ≤ (s.region r).rcb.prio) ∧
      ∀ p ∈ s.regions, s.starvationReady die p.1 = true → p.2.rcb.prio ≤ (s.region r).rcb.prio) ∧
  (∀ (s t : State) (die : Nat) (r : RKey) (p : List RKey), s.turn = .event (.blockAdmit die r) →
    s.nextAdmit die (s.dispatchOrder die) = some (r, p) → s.admitOn r die = some t → (t.regions.get? r).isSome = true →
    ∃ u, exec .blockAdmit s = .next u ∧ (u.region r).st = .running ∧ u.groups = t.groups ∧ u.blocks = t.blocks ∧ u.mem = t.mem) ∧
  ∀ (s : State) (die : Nat) (r : RKey), s.turn = .event (.regionStarvation die r) → s.starvationReady die r = true →
    (s.regions.map (·.1)).Nodup → (s.regions.get? r).isSome = true →
    ∃ t, exec .regionStarvation s = .next t ∧ t.starving.get [] die = (r, (s.region r).rcb.prio) :: s.starving.get [] die ∧
      ∀ k ∈ t.dispatchOrder die, ∀ q ∈ t.starving.get [] die, q.2 ≤ (t.region k).rcb.prio

/-- The groups of a block that is placed start at the region's entry with every lane in one split, its stack pointer at
the base of its stack, every other scalar register, every vector register and every mask but m0 at zero. -/
def Says.PlacedGroups : Prop :=
  ∀ (s : State) (b : BKey) (cl seqCore gid core : Nat) (place : List (Nat × Nat)), (place.map (·.1)).Nodup → (gid, core) ∈ place →
    let c := (s.region b.r).rcb
    let t := s.putBlock b cl place seqCore 0
    let g : GKey := ⟨b, gid, 0⟩
    (t.group g).ents.map (·.1) = [0] ∧ (t.split g 0).st = .running ∧ (t.split g 0).pc = BitVec.ofNat 64 c.entry ∧
      (t.split g 0).mask = 0xFFFFFFFF ∧
      (∀ n, t.getS g 0 n =
        if n = 15 then BitVec.ofNat 64 (c.stackva + (b.n * c.groups + gid) * 5 * c.stack + c.stack) else 0) ∧
      (∀ n l, t.getVL g n l = 0) ∧ (∀ n, (t.group g).masks.get 0 n = 0) ∧ t.coreOf g = core ∧ t.mem = s.mem

/-- Dispatch of blocks and the start of their groups. -/
def Obligations.Dispatch : Prop := Says.BlockAdmission ∧ Says.PlacedGroups

/-- REGION_COMPLETE (R93): the completion word, where the region has one whose page is resident, receives the region's
id and outcome by a device-scope release of the dispatcher, whose scope check (R218, R223) alone can keep it from memory; the region takes
its final state, and no byte of memory changes but the word. -/
def Obligations.RegionCompletion : Prop :=
  ∀ (s : State) (r : RKey) (o : Nat) (w : Option Nat), s.turn = .event (.regionComplete r) → s.outcome r = some o →
    s.doneWord r = some (.ok w) → s.wordFree r = true → Memory.wf s.mem = true → Calm s →
    let passes (c : Nat) : Prop :=
      (s.syncAccess r.c .dispatch 192 6 false true false (if (s.region r).rcb.ordered then some r else none) none c).2 = none
    ∃ t, exec .regionComplete s = .next t ∧
      (t.region r).st = (if o = 1 then .done else if o = 2 then .faulted else .cancelled) ∧
      (∀ c a, w = some c → passes c → c ≤ a → a < c + 8 →
        t.rawByte (.mem a) = BitVec.ofNat 8 ((r.id + o * 65536) / 2 ^ (8 * (a - c)))) ∧
      (∀ a, (∀ c, w = some c → passes c → ¬(c ≤ a ∧ a < c + 8)) → t.rawByte (.mem a) = s.rawByte (.mem a)) ∧
      t.groups = s.groups ∧ Memory.wf t.mem = true

/-- A request that R204 defines: an op, a type of its width, and operands within it. -/
def Says.fitAtom (r : AtomReq) : Prop :=
  r.op ≤ 8 ∧ ∃ t : Ty, (t = .i32 ∨ t = .n32 ∨ t = .f32 ∨ t = .i64 ∨ t = .n64) ∧ r.ty = t.code.toNat ∧
    r.size = (if t.is64 then 8 else 4) ∧ ∀ l ∈ r.lanes, l.2.1.toNat < 2 ^ t.width ∧ l.2.2.toNat < 2 ^ t.width

/-- The bytes of memory after a request: its lanes have taken effect in their order from the value at its location. -/
def Says.atomDone (m : Nat → Byte) (r : AtomReq) : Nat → Byte :=
  let new := r.lanes.foldl
    (fun cur l => atomValue r.op (Ty.ofCode (BitVec.ofNat 4 r.ty)) cur l.2.1.toNat l.2.2.toNat)
    (leNat ((List.range r.size).map fun i => m (r.loc + i)))
  fun a => if r.loc ≤ a ∧ a < r.loc + r.size then BitVec.ofNat 8 (new / 2 ^ (8 * (a - r.loc))) else m a

/-- QUANTUM_END and QUANTUM_COMMIT (R307 to R310): a group that has retired the quantum's count of instructions has reached
the end; after the last agent the commit begins 96 cycles later, 160 where the region spans dies; the commit performs
the stores of the quantum, the groups' in the order of their ranks and each group's in its own, then the atomic requests in the
rounds of the ordered atomic unit, each on what the one before it has left (`atomDone`), and the next quantum begins. -/
def Obligations.QuantumCommits : Prop :=
  (∀ (s : State) (g : GKey), g.gid ≠ 64 → s.ordered g = true → g.sh = 0 → (s.group g).q.atEnd = false →
    (s.group g).halted = false → (s.group g).ended = false → (s.rcb g).quantum ≤ (s.group g).q.count → s.quantumOver g = true) ∧
  (∀ (s : State) (g : GKey), s.turn = .event (.quantumEnd g) → g.gid ≠ 64 → s.quantumOver g = true →
    let t := s.updGroup g fun x => { x with q := { x.q with atEnd := true } }
    exec .quantumEnd s = .next (if t.allOver g.b.r then t.updRegion g.b.r fun x =>
      { x with commitAt := some (s.cycle + (if x.dies.length > 1 then 160 else 96)) } else t)) ∧
  ∀ (s : State) (r : RKey), s.turn = .event (.quantumCommit r) → s.commitReady r = true → (s.groups.map (·.1)).Nodup →
    let gs := s.ranked r (s.region r).quantum
    (s.region r).inputs = [] → (s.region r).undo = [] → (s.ctx r.c).later = [] → (s.ctx r.c).replay = none →
    s.outcome r = none → (∀ n, (s.cluster n).copyQ = []) → Memory.wf s.mem = true → Calm s →
    (∀ a, s.poisoned (.mem a) = false) → (∀ p ∈ (s.region r).syncs, p.2.1 = 7) →
    (∀ g ∈ gs, (s.block g.b).seq = none ∧ (s.group g).fork = none ∧ (s.group g).ended = false ∧ (s.group g).ol = [] ∧
      (s.group g).outst = [] ∧ (s.group g).batches = [] ∧ (∀ p ∈ (s.group g).ents, p.2.st = .running) ∧
      (∀ x ∈ (s.group g).q.buf, x.sync = none) ∧ (s.group g).q.ops = [] ∧ (s.group g).q.recs = [] ∧
      (s.group g).q.hist = [] ∧ (s.group g).q.fails = [] ∧
      ∀ x ∈ (s.group g).q.atoms, Says.fitAtom x ∧ x.scope = 7 ∧ x.ret = none ∧ x.outst = none) →
    let all := s.atomsOf gs
    let stored (a : Nat) : Byte :=
      (lastWrite (gs.flatMap fun g => (s.group g).q.buf.flatMap (·.cells)) (.mem a)).getD (s.rawByte (.mem a))
    ∃ t, exec .quantumCommit s = .next t ∧ (t.region r).quantum = (s.region r).quantum + 1 ∧
      (∀ g ∈ gs, (t.group g).q.buf = [] ∧ (t.group g).q.atoms = [] ∧ (t.group g).q.count = 0 ∧ (t.group g).q.atEnd = false) ∧
      ∀ a, t.rawByte (.mem a) = ((atomRounds all.length all).map (·.2)).foldl Says.atomDone stored a

/-- The order of a commit (R310, R311): the groups of a region in ascending rank, which quantum q turns by q places;
each sequencer directly after its block's last group; the atomic requests of all in ascending key, and the rounds of the
atomic unit apply every one of them once, those to one address in that order. -/
def Obligations.CommitOrder : Prop :=
  (∀ (s : State) (r : RKey) (q : Nat), (s.ranked r q).Pairwise (fun a b => s.rank a q ≤ s.rank b q) ∧
    ∀ g, g ∈ s.ranked r q ↔ g ∈ s.groups.map (·.1) ∧ g.b.r = r ∧ g.sh = 0) ∧
  (∀ (s : State) (g : GKey) (q : Nat), 0 < (s.rcb g).blocks * (s.rcb g).groups →
    (s.rank g q : Int) = ((g.b.n * (s.rcb g).groups + g.gid : Nat) - (q : Int)) % ((s.rcb g).blocks * (s.rcb g).groups : Nat)) ∧
  (∀ (s : State) (l : List GKey),
    ((s.withSeqs l).filterMap fun a => match a with | .grp g => some g | .seq _ => none) = l ∧
    (∀ g ∈ l, (s.block g.b).seq.isSome = true → CAgent.seq g.b ∈ s.withSeqs l) ∧
    ∀ l1 l2 b, s.withSeqs l = l1 ++ .seq b :: l2 →
      (∃ g, l1.getLast? = some (.grp g) ∧ g.b = b) ∧ ∀ g, CAgent.grp g ∈ l2 → g.b ≠ b) ∧
  (∀ (s : State) (gs : List GKey), gs.Nodup →
    (s.atomsOf gs).Pairwise (fun a b => keyLt (b.2.key (gs.idxOf b.1)) (a.2.key (gs.idxOf a.1)) = false) ∧
    ∀ g r, (g, r) ∈ s.atomsOf gs ↔ g ∈ gs ∧ r ∈ (s.group g).q.atoms) ∧
  ∀ l : List (GKey × AtomReq), (atomRounds l.length l).Perm l ∧
    ∀ a, ((atomRounds l.length l).filter fun r => r.2.loc == a) = l.filter fun r => r.2.loc == a

/-- SLICE_END and GANG_SLICE_START (R334, R341, R342): for a region that needs room a block is told to stop, and, once it has drained,
gives its place: where evictable blocks hold all the room, that parked longest, else the region's own that has run longest; a gang member's
slice schedules its context at its agreed device time. -/
def Says.Slices : Prop :=
  (∀ (s : State) (r : RKey) (b : BKey), s.turn = .event (.sliceEnd r) → (s.region r).rotating = none → s.needsRoom r = true →
    s.slicePick r = some b →
    let t := (s.stopBlocks [b] false).updRegion r fun x => { x with rotating := some b }
    exec .sliceEnd s = .next (if t.drained b then t.rotate r b else t)) ∧
  (∀ (s : State) (r : RKey) (b : BKey), s.slicePick r = some b →
    let held := s.blocks.filter fun p => !p.2.ended && (s.region r).dies.contains (p.2.cluster / 6)
    if held ≠ [] ∧ ∀ p ∈ held, (s.evictable p.1).isSome = true then
      ∃ n, b ∈ held.map (·.1) ∧ s.evictable b = some n ∧ ∀ p ∈ held, ∀ m, s.evictable p.1 = some m → n ≤ m
    else ∃ x, (b, x) ∈ s.standing r ∧ ∀ y ∈ s.standing r, x.placedAt ≤ y.2.placedAt) ∧
  ∀ (s : State) (c : CKey) (a b : Nat), s.turn = .event (.gangSliceStart c) → (s.ctxs.get? c).isSome = true →
    (s.ctx c).gang = some (a, b) → a ≤ s.deviceNs → s.deviceNs < b → (s.ctx c).scheduled = false →
    exec .gangSliceStart s = .next (s.scheduleOn c) ∧ ((s.scheduleOn c).ctx c).scheduled = true

/-- PAGE_MADE_RESIDENT (R196, R209) with room for the page: its mapping names the frame, which holds what the page held, and no
byte of memory outside the frame changes. LINE_FILL_COMPLETE ends a fill and changes no byte and no register: the results
of the cluster's groups that wait for the line wait for it no more. -/
def Says.PagesAndLines : Prop :=
  (∀ (s : State) (c : CKey) (va frame : Nat) (p : Page), s.turn = .event (.pageMadeResident c va frame true) →
    findPage (s.ctx c).pages va = some p → p.res = false → p.peer = none → Memory.wf s.mem = true →
    (∀ n, (s.vf c.vf).burst = some n → s.vfFrames c.vf + Page.size p / 4096 ≤ n) →
    s.allFrames + Page.size p / 4096 ≤ s.frames → (∀ k ∈ s.groups, k.2.ol = []) → s.frameFits p frame = true →
    (p.away.map (·.1)).Nodup → (∀ w ∈ p.away, w.1 < Page.size p) →
    ∃ t, exec .pageMadeResident s = .next t ∧
      findPage (t.ctx c).pages va = some { p with res := true, req := false, frame := frame, away := [], bad := [] } ∧
      (∀ i, i < Page.size p → t.rawByte (.mem (cellOf (frame * 4096 + i))) = Tab.get p.away 0 i) ∧
      (∀ a, (∀ i, i < Page.size p → a ≠ cellOf (frame * 4096 + i)) → t.rawByte (.mem a) = s.rawByte (.mem a)) ∧
      Memory.wf t.mem = true) ∧
  (∀ (s : State) (c : CKey) (va dest : Nat) (p : Page), s.turn = .event (.pageMove c va dest) →
    findPage (s.ctx c).pages va = some p → p.res = true → p.peer = none → s.frameFits p dest = true →
    (∀ x ∈ framesAt dest (Page.size p), x ∉ s.usedFrames (fun _ => true) ∧ x ∉ s.moveFrames) →
    (s.moves.find? fun m => decide (m.c = c) && m.va == p.va) = none →
    let t := s.copyLines c p dest (List.range (Page.size p / 128))
    exec .pageMove s = .next { t with moves := t.moves ++ [{ c, va := p.va, dest }] }) ∧
  ∀ (s : State) (cl line : Nat) (f : Fill), s.turn = .event (.lineFillComplete cl line) →
    ((s.cluster cl).fills.find? fun f => f.line == line) = some f →
    ∃ t, exec .lineFillComplete s = .next t ∧ (∀ k ∈ (t.cluster cl).fills, k.line ≠ line) ∧ KeepsMemory s t ∧
      t.groups = s.groups.map (fun k => if s.clusterOf k.1 = cl then
        (k.1, { k.2 with outst := k.2.outst.map fun o => { o with fills := o.fills.filter fun q => q.2 != line } }) else k) ∧
      t.blocks = s.blocks

/-- Slices, page residence, page moves and line fills. -/
def Obligations.SlicesAndPages : Prop := Says.Slices ∧ Says.PagesAndLines

/-! ## Ports, the Keep and the platform -/

/-- NETWORK_PACKET_RECEIVE (R359, R361): the next packet of a flow is performed and acknowledged; one ahead of a gap, by at
most 256, is held with the port it has come in by, one further ahead is dropped, as is one with a payload that the port does not support
(R358), and one whose turn has passed is answered again as it was; one that its window does not allow is refused with nothing
written; a packet of window 0 adds to what its flow has gathered for the Keep (R362). ACK_RECEIVE and FLOW_RETRY_LIMIT free what a
flow has sent, a refusal leaves a fault with its command, and the retry limit ends the flow. -/
def Says.Packets : Prop :=
  (∀ (s : State) (port : Nat) (p : Packet), s.turn = .event (.networkPacketReceive port p) →
    let r := s.rflows.get {} p.flow
    let e := winEnt (s.ports.get 0 (port * 4096 + p.flow.win))
    (packetOk p = false → exec .networkPacketReceive s = .next s) ∧
    let allowed : Prop := packetOk p = true ∧ e.valid = true ∧ e.w = true ∧ p.off + p.data.length ≤ e.pages * 4096
    (p.seq = r.next → r.held = [] → 0 < p.flow.win → p.flow.win < 4096 → allowed → (s.ctxs.get? e.c).isSome = true →
      (s.ctx e.c).replay = none → e.scr = false → e.bounce = false → Memory.wf s.mem = true → Calm s →
      (∃ q, findPage (s.ctx e.c).pages (e.base + p.off) = some q ∧ q.w = true ∧ q.peer = none) →
      ∀ cells, s.cellsAt e.c (e.base + p.off) p.data = some cells → s.ownedCells cells = false → ∃ t, exec .networkPacketReceive s = .next t ∧
        t.outs = s.outs ++ [.ack p.flow p.seq true] ∧ (t.rflows.get {} p.flow).next = p.seq + 1 ∧
        (t.rflows.get {} p.flow).held = [] ∧
        ∀ a, t.rawByte (.mem a) = (lastWrite cells (.mem a)).getD (s.rawByte (.mem a))) ∧
    (p.seq = r.next → r.held = [] → 0 < p.flow.win → packetOk p = true → ¬allowed → ∃ t, exec .networkPacketReceive s = .next t ∧
      t.outs = s.outs ++ [.ack p.flow p.seq false] ∧ (t.rflows.get {} p.flow).next = p.seq + 1 ∧
      p.seq ∈ (t.rflows.get {} p.flow).refused ∧ t.mem = s.mem ∧ t.blocks = s.blocks ∧ t.ctxs = s.ctxs) ∧
    (p.seq = r.next → r.held = [] → p.flow.win = 0 → packetOk p = true → ∃ t, exec .networkPacketReceive s = .next t ∧
      t.outs = s.outs ++ [.ack p.flow p.seq true] ∧ (t.rflows.get {} p.flow).next = p.seq + 1 ∧
      (t.rflows.get {} p.flow).partial_ = r.partial_ ++ p.data ∧ t.mem = s.mem ∧ t.keepQueue = s.keepQueue) ∧
    (packetOk p = true → 2 ^ 31 ≤ (p.seq - r.next).toNat → exec .networkPacketReceive s =
      .next { s with outs := s.outs ++ [.ack p.flow p.seq (!r.refused.contains p.seq)] }) ∧
    (packetOk p = true → 0 < (p.seq - r.next).toNat → (p.seq - r.next).toNat ≤ 256 → (∀ q ∈ r.held, q.2.seq ≠ r.next ∧ q.2.seq ≠ p.seq) →
      exec .networkPacketReceive s =
        .next { s with rflows := s.rflows.put p.flow { r with held := r.held ++ [(port, p)] } }) ∧
    (256 < (p.seq - r.next).toNat → (p.seq - r.next).toNat < 2 ^ 31 → exec .networkPacketReceive s = .next s)) ∧
  (∀ (s : State) (f : FlowId) (seq : BitVec 32) (ok : Bool) (p : Packet) (cl id va : Nat), s.turn = .event (.ackReceive f seq ok) →
    ((s.sflows.get {} f).sent.find? fun x => x.1.seq == seq) = some (p, cl, id, va) → ∃ t, exec .ackReceive s = .next t ∧
      (t.sflows.get {} f).sent = (s.sflows.get {} f).sent.filter (fun x => x.1.seq != seq) ∧
      ∀ c ∈ (t.cluster cl).copyQ, c.id = id → (f, seq) ∉ c.packets ∧ (ok = false → c.fault.isSome = true)) ∧
  (∀ (s : State) (f : FlowId), s.turn = .event (.flowRetryLimit f) → ∃ t, exec .flowRetryLimit s = .next t ∧
    (t.sflows.get {} f).sent = [] ∧ ((s.sflows.get {} f).sent ≠ [] → (t.sflows.get {} f).dead = true)) ∧
  ∀ (s : State) (f : FlowId) (seq : BitVec 32) (x : Packet × Nat × Nat × Nat), s.turn = .event (.packetRetransmit f seq) →
    ((s.sflows.get {} f).sent.find? fun x => x.1.seq == seq) = some x → exec .packetRetransmit s =
      .next { s with
        sflows := s.sflows.put f { s.sflows.get {} f with retries := (s.sflows.get {} f).retries + 1 }
        outs := s.outs ++ [.packet (Config.portOf f.dstDev) x.1] }

/-- Keep request messages, migration streams and PTP time (R362 to R365): a message, the first bytes that its flow of window 0
has gathered, enters the Keep's queue; a new stream is made upon the other side's signed share, answers with its own, and
sends every page of the context under rising counters, a later round its dirty pages, and freezes the context after one
of at most 64 pages, or the 16th; a received record whose tag or counter fails discards the stream; a message of the chosen
port sets device time slewing, never backward. -/
def Says.MessagesAndMigration : Prop :=
  (∀ (s : State) (f : FlowId) (bs : List Byte), s.turn = .event (.keepRequestMessage f bs none) →
    let r := s.rflows.get {} f
    (f.win = 0 → bs ≠ [] → (∃ rest, r.partial_ = bs ++ rest) → exec .keepRequestMessage s =
      .next { s with
        rflows := s.rflows.put f { r with partial_ := r.partial_.drop bs.length }, keepQueue := s.keepQueue ++ [(f, bs)] }) ∧
    ((f.win ≠ 0 ∨ bs = [] ∨ ∀ rest, r.partial_ ≠ bs ++ rest) → exec .keepRequestMessage s = .next s)) ∧
  (∀ (s : State) (c : CKey) (stream : BitVec 32) (x : KeyOffer) (dst : Nat), s.turn = .event (.migration c stream x dst) →
    s.migrations.get? stream = none → dst ≠ Config.deviceId → (s.ctxs.get? c).isSome = true →
    (Config.rsaVerify x.key (Config.sha512 x.share) x.sig = true →
      ∃ t, exec .migration s = .next t ∧ t.outs.length = s.outs.length + 1 + (s.ctx c).pages.length ∧ t.mem = s.mem ∧
        t.migrations.get? stream = some { c, key := Config.keyAgree (Config.random256 s.free) x.share, peer := x.key
                                          dst, round := 1, ctr := (s.ctx c).pages.length }) ∧
    (Config.rsaVerify x.key (Config.sha512 x.share) x.sig = false → exec .migration s = .next s)) ∧
  (∀ (s : State) (c : CKey) (stream : BitVec 32) (x : KeyOffer) (dst : Nat) (m : Migration),
    s.turn = .event (.migration c stream x dst) → s.migrations.get? stream = some m → m.recv = false → m.sent = false →
    m.freeze = false → ∃ t n, exec .migration s = .next t ∧ t.migrations.get? stream = some n ∧ n.round = m.round + 1 ∧
      n.freeze = (decide (((s.ctx c).pages.filter fun p => s.resends c p).length ≤ 64) || decide (16 ≤ m.round)) ∧
      n.sent = false) ∧
  (∀ (s : State) (c : CKey) (stream : BitVec 32) (ctr : BitVec 64) (bs : List Byte) (tag : BitVec 128) (last : Bool) (m : Migration),
    s.turn = .event (.migrationRecordReceive c stream ctr bs tag last) → s.migrations.get? stream = some m → m.recv = true →
    m.c = c →
    (ctr.toNat ≠ m.ctr ∨ Config.gcmVerify m.key (stream ++ ctr) bs tag = false → exec .migrationRecordReceive s =
      .next { s with migrations := s.migrations.del stream }) ∧
    (ctr.toNat = m.ctr → Config.gcmVerify m.key (stream ++ ctr) bs tag = true → last = false → ∃ t n,
      exec .migrationRecordReceive s = .next t ∧ t.migrations.get? stream = some n ∧ n.ctr = m.ctr + 1 ∧ t.ctxs = s.ctxs)) ∧
  ∀ (s : State) (port time : Nat), s.turn = .event (.ptpMessage port time) →
    ((s.ptp = none ∨ s.ptp = some port) → ∃ t, exec .ptpMessage s = .next t ∧ t.ptp = some port ∧ t.timeNs = s.deviceNs ∧
      t.timeFr = s.deviceFr % 36000000 ∧ t.timeAt = s.cycle ∧ -100 ≤ t.slew ∧ t.slew ≤ 100 ∧ (s.deviceNs < time → 0 ≤ t.slew) ∧ (time < s.deviceNs → t.slew ≤ 0)) ∧
    (∀ q, s.ptp = some q → q ≠ port → exec .ptpMessage s = .next s)

/-- The end of a migration that was sent, and what the Keep carries over and sets (R364, R365): upon the destination's signed report the
context is destroyed here, and a report that does not verify, or is of another device, changes nothing; while a migration is sent and has not ended, its context is
not restored here; a flow's next number continues as it stood; the port chosen for device time is the one written, and time goes on. -/
def Says.MovesAndFlows : Prop :=
  ∀ (s : State) (w : RegWrite), s.turn = .event (.registerWrite w) → s.keepRuns = true → ∃ t, exec .registerWrite s = .next t ∧
    (∀ stream m key sig, w = .migrated stream (some (key, sig)) → s.migrations.get? stream = some m → m.recv = false → m.sent = true →
      (key = m.peer → Config.rsaVerify key (Config.sha512 (bytesOf stream)) sig = true → t.ctxs.get? m.c = none ∧ t.migrations.get? stream = none ∧
        ∀ p ∈ t.groups, p.1.b.r.c ≠ m.c) ∧
      (key ≠ m.peer ∨ Config.rsaVerify key (Config.sha512 (bytesOf stream)) sig = false → t = s)) ∧
    (∀ c, w = .restore c → s.leaving c = true → t = s) ∧
    (∀ f n, w = .flow f true n → (t.rflows.get {} f).next = n ∧ (t.rflows.get {} f).held = (s.rflows.get {} f).held) ∧
    (∀ f n, w = .flow f false n → (t.sflows.get {} f).next = n ∧ (t.sflows.get {} f).sent = (s.sflows.get {} f).sent) ∧
    ∀ p, w = .ptpPort p → t.ptp = some p ∧ t.timeNs = s.deviceNs ∧ t.timeFr = s.deviceFr % 36000000 ∧ t.timeAt = s.cycle

/-- Network flows, Keep messages, migration and time. -/
def Obligations.Network : Prop := Says.Packets ∧ Says.MessagesAndMigration ∧ Says.MovesAndFlows

/-- REGISTER_WRITE (R192, R195, R196, R209, R320, R361) while the Keep runs: a context is created with the identity given; a
mapping that the Keep can make is found at its addresses, and one taken away is not; a shootdown leaves no translation of its range; a tenant's
guarantees never exceed the frames in service; a port's entry keeps its reserved bits zero. TRANSLATION_COMPLETE (R348, R350)
selects an image, or refuses it. -/
def Says.KeepWrites : Prop :=
  (∀ (s : State) (w : RegWrite), s.turn = .event (.registerWrite w) → s.keepRuns = true → ∃ t, exec .registerWrite s = .next t ∧
    (∀ c sys proc thr, w = .ctxCreate c sys proc thr → s.ctxs.get? c = none → s.ctxs.length < 1024 → c.vf < 64 → c.id ≠ 0 →
      (∀ n, (s.vf c.vf).allowance = some n → (s.ctxs.filter fun p => p.1.vf == c.vf).length < n) →
      c.id < 65536 → t.ctxs.get? c = some { sys, proc, thr }) ∧
    (∀ c p, w = .map c p → (s.ctxs.get? c).isSome = true → s.mapFits c p = true → s.mapRoom c w = (s, true) →
      s.runsOrdered c = false → (∀ k ∈ s.groups, k.2.ol = []) →
      ∀ va, Page.holds p va = true → findPage (t.ctx c).pages va = some p) ∧
    (∀ c va p, w = .unmap c va → s.runsOrdered c = false → findPage (s.ctx c).pages va = some p → (∀ k ∈ s.groups, k.2.ol = []) →
      ((s.ctx c).pages.map (·.va)).Nodup → (∀ q ∈ (s.ctx c).pages, q ≠ p → Page.holds q va = false) →
      findPage (t.ctx c).pages va = none) ∧
    (∀ c lo hi, w = .tlbinv c lo hi →
      (∀ k, ∀ e ∈ (t.core k).tlb ++ (t.cluster k).tlb, e.c = c → hi ≤ e.va ∨ e.va + pageBytes e.psize ≤ lo) ∧
      ∀ g n, g.b.r.c = c →
        let b := (s.group g).bregs.get {} n
        let p := pageBytes b.psize.toNat
        ((t.group g).bregs.get {} n).limit =
          if b.base.toNat / p * p < hi ∧ lo < b.base.toNat / p * p + p then 0 else b.limit) ∧
    (∀ vf g b, w = .frames vf g b →
      let sum := (s.vfs.filter fun p => p.1 != vf).foldl (fun n p => n + p.2.guaranteed) g
      (sum ≤ s.frames → (t.vf vf).guaranteed = g ∧ (t.vf vf).burst = some b) ∧ (s.frames < sum → t = s)) ∧
    (∀ p i v, w = .port p i v → i < 4096 → ∀ k, k < 128 → (t.ports.get 0 (p * 4096 + i)).getLsbD k =
      (v.getLsbD k && decide (25 ≤ k) && decide (k ≠ 29) && !(v.getLsbD 28 && decide (72 ≤ k) && decide (k < 80)))) ∧
    (∀ c va bs cells, w = .store c va bs → s.cellsAt c va bs = some cells → s.ownedCells cells = false →
      (s.ctx c).replay = none → Memory.wf s.mem = true →
      ∀ a, t.rawByte (.mem a) = (lastWrite cells (.mem a)).getD (s.rawByte (.mem a))) ∧
    (∀ d n, w = .dirtyWord d n → d < 8 → n < 2 ^ 18 → ∃ v, t.outs = s.outs ++ [.dirtyWord d n v] ∧
      (∀ i, i < 64 → v.getLsbD i = s.dirty.contains (d * 2 ^ 24 + 64 * n + i)) ∧
      ∀ x, x ∈ t.dirty ↔ x ∈ s.dirty ∧ x / 64 ≠ d * 2 ^ 18 + n) ∧
    (∀ c a b, w = .gang c a b → (s.ctxs.get? c).isSome = true → (t.ctx c).gang = some (a, b)) ∧
    ∀ c base bs ks at_, w = .codeObject c base bs ks at_ →
      (parseObject base bs ks at_ = none → t.ctxs = s.ctxs ∧ t.outs = s.outs ++ [.objectRefused c base]) ∧
      ∀ o, parseObject base bs ks at_ = some o → (s.ctxs.get? c).isSome = true → o ∈ (t.ctx c).objects) ∧
  ∀ (s : State) (c : CKey) (k : Nat) (x : XlImg) (o : CodeObj), s.turn = .event (.translationComplete c k x) →
    (s.ctx c).object k = some o → o.busy = true → ∃ t p, exec .translationComplete s = .next t ∧ (t.ctx c).object k = some p ∧
      p.busy = false ∧ (o.hviOk = true → p.use = some (placeXl x o.xlAt) ∧ (o.hvi, x) ∈ t.translated) ∧
      (o.hviOk = false → p.refused = true ∧ t.translated = s.translated)

/-- Code objects (R347 to R350): one that the Keep takes holds one portable image and at most one native image for a revision key; the
native image selected for a revision has its very key, or else is the compatible one of its major with the highest minor below; a legal
container has a kind of 0 to 2, and a lane container is no split's end. -/
def Says.CodeObjects : Prop :=
  (∀ base bs ks at_ o, parseObject base bs ks at_ = some o →
    let es := (List.range (fieldAt bs 6 2)).map (imgEnt bs)
    fieldAt bs 0 4 = 0x4F435A41 ∧ fieldAt bs 4 2 = 1 ∧ fieldAt bs 8 8 = bs.length ∧ 1 ≤ es.length ∧ es.length ≤ 16 ∧
      (∃ h, es.filter (·.kind == 2) = [h] ∧ o.hvi = Config.sha512 (sectBytes bs h.scal) ∧ o.hviOk = hviLegal (sectBytes bs h.scal)) ∧
      (o.natives.map (·.1)).Nodup ∧ o.natives.length = (es.filter (·.kind == 1)).length) ∧
  (∀ (o : CodeObj) (k : Nat × Nat) (m : CodeImg), o.nativeFor k = some m →
    (∃ f, (k, f, m) ∈ o.natives) ∨ ((∀ x ∈ o.natives, x.1 ≠ k) ∧ ∃ n, ((k.1, n), true, m) ∈ o.natives ∧ n < k.2 ∧
      ∀ x ∈ o.natives, x.2.1 = true → x.1.1 = k.1 → x.1.2 < k.2 → x.1.2 ≤ n)) ∧
  (∀ (o : CodeObj) (k : Nat × Nat), o.nativeFor k = none → ∀ x ∈ o.natives, x.1 ≠ k ∧ ¬(x.2.1 = true ∧ x.1.1 = k.1 ∧ x.1.2 < k.2)) ∧
  ∀ x : Hvi, x.legal = true → x.kind ≤ 2 ∧
    (x.kind = 0 → x.major < 64 ∧ x.major ≠ 0x3D ∧ x.major ≠ 0x3E ∧ x.ty = 0 ∧ x.rm = 0 ∧ x.sat = 0 ∧ x.bk = 0) ∧
    (x.kind = 1 → x.bk ≤ 1 → x.b < 2 ^ 18) ∧ (x.kind = 2 → x.high = 0)

/-- Register writes of the Keep, code objects and translations. -/
def Obligations.RegisterWrites : Prop := Says.KeepWrites ∧ Says.CodeObjects

/-- Monitors, errors and maintenance (R199, R389 to R391): a poll caps the clock of each cluster above 95 °C and, at 110 °C, calls
for the shutdown, after which the device is off; a droop stretches a cluster's clock until it recovers; an uncorrected error
in DRAM is poison in its sector, and a corrected one changes no state but a count; a part without blocks, and a die without pages, is
fenced at once, and its return lifts the fence, of a die if its controller runs. -/
def Says.Platform : Prop :=
  (∀ (s : State) (temps : List (Nat × Reading)), s.turn = .event (.monitorPoll temps) → (temps.map (·.1)).Nodup →
    ∃ t, exec .monitorPoll s = .next t ∧ (∀ x ∈ temps, (t.cluster x.1).capped = decide (95 < x.2.temp)) ∧
      t.inputs = (if (temps.any fun x => 110 ≤ x.2.temp) then .junctionShutdown :: s.inputs else s.inputs) ∧
      t.platform.polls = s.platform.polls + 1) ∧
  (∀ (s : State) (n : Nat), s.turn = .event (.droopDetect n) →
    exec .droopDetect s = .next (s.updCluster n fun x => { x with stretched := true })) ∧
  (∀ (s : State) (n : Nat), s.turn = .event (.droopRecover n) →
    exec .droopRecover s = .next (s.updCluster n fun x => { x with stretched := false })) ∧
  (∀ (s : State), s.turn = .event .junctionShutdown →
    exec .junctionShutdown s = .next { s with platform := { s.platform with off := true } }) ∧
  (∀ (s : State) (die off : Nat), s.turn = .event (.softError die off false false) →
    ∃ t, exec .softError s = .next t ∧ (∀ k, k < 32 → t.poisoned (.mem ((die * 2 ^ 36 + off) / 32 * 32 + k)) = true) ∧
      (∀ a, a / 32 ≠ (die * 2 ^ 36 + off) / 32 → t.poisoned (.mem a) = s.poisoned (.mem a)) ∧ t.mem = s.mem ∧ t.groups = s.groups) ∧
  (∀ (s : State) (die off : Nat) (sram : Bool), s.turn = .event (.softError die off sram true) →
    ∃ t, exec .softError s = .next t ∧ KeepsMemory s t ∧ t.groups = s.groups ∧ t.blocks = s.blocks ∧
      ∀ c, (s.errorPlace die off sram).2 = some c → t = s.bump c 11 1) ∧
  ∀ (s : State) (p : Nat),
    (s.turn = .event (.maintenanceFence (.cluster p) true) → s.blocksOfPart (.cluster p) = [] →
      exec .maintenanceFence s = .next (s.updCluster p fun x => { x with fenced := true })) ∧
    (s.turn = .event (.maintenanceFence (.cluster p) false) → s.blocksOfPart (.cluster p) = [] →
      exec .maintenanceFence s = .next (s.updCluster p fun x => { x with fenced := false })) ∧
    (s.turn = .event (.maintenanceFence (.die p) false) → s.blocksOfPart (.die p) = [] → s.liesOn p = false →
      ∃ t, exec .maintenanceFence s = .next t ∧ p ∉ t.platform.maint ∧
        (Component.die p ∉ s.platform.down → p ∉ t.platform.fencedDies))

/-- Boot, firmware and attestation (R386 to R388): power-on clears the device, and each image is measured, then started if its
signature verifies; the first that fails stops the chain, and every component that it has not started is out of service. A die
controller's new image, of a die without blocks and pages, or, where the controller is out of service, the ROM's, is measured while
Belfry runs to verify it, and the controller runs exactly if it is valid and starts; its die is then in service unless maintenance
holds it. A report follows each request while Belfry runs. -/
def Says.Firmware : Prop :=
  (∀ (s : State) (is : List FwImage), s.turn = .event (.boot is) → ∃ t, exec .boot s = .next t ∧ t.mem = [] ∧ t.groups = [] ∧
    t.ctxs = [] ∧ t.regions = [] ∧ t.sessions = [] ∧ t.platform.off = false ∧
    (is.length = 11 → (∀ i ∈ is, FwImage.valid i = true) → t.platform.down = [] ∧ t.platform.stage = 4) ∧
    (∀ i r, is = i :: r → FwImage.valid i = false → t.platform.stage = 0 ∧ t.platform.down = allComponents ∧
      t.platform.meas.get 0 0 = Config.sha512 (bytesOf (0 : BitVec 512) ++ bytesOf (Config.sha512 i.bytes)) ∧
      ∀ n, n ≠ 0 → t.platform.meas.get 0 n = 0)) ∧
  (∀ (s : State) (d : Nat) (i : FwImage) (v : Instr),
    Component.belfry ∉ s.platform.down →
    ((v = .firmwareUpdate ∧ s.turn = .event (.firmwareUpdate (.die d) i) ∧ s.blocksOfPart (.die d) = [] ∧
        s.liesOn d = false ∧ Component.die d ∉ s.platform.down) ∨
      (v = .firmwareRecovery ∧ s.turn = .event (.firmwareRecovery (.die d) i) ∧ Component.die d ∈ s.platform.down)) → ∃ t, exec v s = .next t ∧
    t.platform.meas.get 0 1 = Config.sha512 (bytesOf (s.platform.meas.get 0 1) ++ bytesOf (Config.sha512 i.bytes)) ∧
    (FwImage.valid i = true → i.starts = true → Component.die d ∉ t.platform.down ∧
      (d ∉ s.platform.maint → d ∉ t.platform.fencedDies)) ∧
    ((FwImage.valid i = false ∨ i.starts = false) → Component.die d ∈ t.platform.down ∧
      (v = .firmwareUpdate → d ∈ t.platform.fencedDies))) ∧
  ∀ (s : State) (n : BitVec 256), s.turn = .event (.attestationRequest n) →
    (s.platform.down.contains .belfry = false →
      exec .attestationRequest s = .next { s with outs := s.outs ++ [.report (s.report n)] }) ∧
    (s.platform.down.contains .belfry = true → exec .attestationRequest s = .next s)

/-- Monitors, errors, maintenance, boot and firmware. -/
def Obligations.PlatformAndFirmware : Prop := Says.Platform ∧ Says.Firmware

/-! ## Belfry -/

/-- The session of a command that comes in time, whose tag and counter are right, whose bytes are well-formed and carry what its event
says, and whose sequence number is above those before it. -/
structure Says.Accepted (s : State) (k : Cmd) (code : Nat) (x : Session) (key : BitVec 256) : Prop where
  session : (s.sessions.find? fun y => y.id == k.sess) = some x
  secret : x.key = some key
  counter : k.ctr = x.ctr
  tag : Config.gcmVerify key (BitVec.ofNat 96 k.ctr) k.bytes k.tag = true
  formed : Cmd.wellFormed k code = true
  fresh : s.cycle < x.last + 60 * 3600000000
  args : s.carried k = true
  order : x.seq ≤ k.seq

/-- The state in which a command is executed: its session's counters have moved on. -/
def Says.heard (s : State) (k : Cmd) : State :=
  { s with sessions := s.sessions.map fun y => if y.id = k.sess then
      { y with ctr := y.ctr + 1, seq := max y.seq (k.seq + 1), last := s.cycle } else y }

/-- The reply to a command of a session: its code, its sequence number, its status and its data, in clear and as it leaves, sealed under
the session's next counter (R367, R369). -/
def Says.replied (x : Session) (t : State) (k : Cmd) (code : Nat) (status : Int) (data : List Byte) : State :=
  let y := (t.sessions.find? fun y => y.id == x.id).getD x
  { t with
    outs := t.outs ++ [.reply x.id code k.seq status data, sealMsg y code k.seq status data]
    sessions := t.sessions.map fun y => if y.id = x.id then { y with outCtr := y.outCtr + 1 } else y }

/-- The setup and the ends of sessions (R367, R368): a hello is challenged while fewer than four sessions exist; a proof is
accepted with an installed key, of an operator where its scope is the whole device, and a signature that verifies, and not
otherwise; a session that no message has reached for 60 s ends, by itself or by the message that comes after that, and so does
one whose message has a wrong tag or counter; a malformed command, or one out of sequence (the model's choice, log entry
109), answers −1. -/
def Says.Sessions : Prop :=
  (∀ (s : State) (nc : BitVec 256) (h : BitVec 512) (scope : Nat), s.turn = .event (.hello nc h scope) →
    (s.platform.down.contains .belfry = false → s.sessions.length < 4 → (scope < 64 ∨ scope = 255) → ∃ t,
      exec .hello s = .next t ∧
      t.sessions = s.sessions ++ [{ id := s.nextId, scope, keyHash := h, nc, nd := Config.random256 s.free, last := s.cycle }] ∧
      t.outs = s.outs ++ [.challenge s.nextId (Config.random256 s.free)
        (Config.deviceSign (Config.sha512 (bytesOf nc ++ bytesOf (Config.random256 s.free) ++ leBytes 1 scope)))]) ∧
    (4 ≤ s.sessions.length → exec .hello s = .next s)) ∧
  (∀ (s : State) (id : Nat) (key sig : BitVec 4096) (x : Session), s.turn = .event (.proof id key sig) →
    (s.sessions.find? fun y => y.id == id) = some x →
    let good : Prop := x.key = none ∧ (x.scope = 255 → Config.operatorKey x.keyHash = true) ∧ Config.sha512 (bytesOf key) = x.keyHash ∧ (x.scope, x.keyHash) ∈ s.debugKeys ∧
      Config.rsaVerify key (Config.sha512 (bytesOf x.nd ++ bytesOf x.nc ++ leBytes 1 x.scope)) sig = true
    (x.last + 60 * 3600000000 ≤ s.cycle → exec .proof s = .next (s.endSession id)) ∧
    (s.cycle < x.last + 60 * 3600000000 → ∃ t, exec .proof s = .next t ∧
      (good → t.outs = s.outs ++ [.accept id (Config.oaep key (Config.random256 s.free))] ∧
        ∃ y, (t.sessions.find? fun y => y.id == id) = some y ∧ y.key = some (Config.random256 s.free)) ∧
      (¬good → t.outs = s.outs ∧ ∃ y, (t.sessions.find? fun y => y.id == id) = some y ∧ y.key = x.key))) ∧
  (∀ (s : State) (id : Nat), s.turn = .event (.sessionIdleTimeout id) →
    (∃ x ∈ s.sessions, x.id = id ∧ x.last + 60 * 3600000000 ≤ s.cycle) → ∃ t, exec .sessionIdleTimeout s = .next t ∧
      (∀ y ∈ t.sessions, y.id ≠ id) ∧ (∀ c all, (t.ctx c).attached ≠ some (id, all)) ∧
      ((∀ x ∈ s.sessions, x.id = id → ∀ g ∈ x.halted, (s.group g).traps = []) → t.mem = s.mem)) ∧
  ∀ (s : State) (k : Cmd) (x : Session) (key : BitVec 256), s.turn = .event (.detach k) →
    (s.sessions.find? fun y => y.id == k.sess) = some x → x.key = some key →
    (Says.Accepted s k 2 x key → exec .detach s = .next (Says.replied x ((Says.heard s k).endSession x.id) k 2 0 [])) ∧
    (x.last + 60 * 3600000000 ≤ s.cycle ∨ k.ctr ≠ x.ctr ∨
        Config.gcmVerify key (BitVec.ofNat 96 k.ctr) k.bytes k.tag = false → exec .detach s = .next (s.endSession k.sess)) ∧
    (s.cycle < x.last + 60 * 3600000000 → k.ctr = x.ctr →
      Config.gcmVerify key (BitVec.ofNat 96 k.ctr) k.bytes k.tag = true →
      (Cmd.wellFormed k 2 = false ∨ s.carried k = false ∨ k.seq < x.seq) →
      exec .detach s = .next (Says.replied x (Says.heard s k) k 2 (-1) []))

/-- The commands on contexts (R368 to R370, R374, R377, R380, R385): attach, setbp and clrbp, memrd and memwr, sample, trace and
counters do what they say on a context that the session sees, and answer 0; on one outside its scope they answer −2, on
one that does not exist −3. No copy owns a line of DRAM (R224). -/
def Says.ContextCommands : Prop :=
  ∀ (s : State) (k : Cmd) (x : Session) (key : BitVec 256) (c : CKey), Says.Accepted s k 1 x key ∨
    Says.Accepted s k 8 x key ∨ Says.Accepted s k 9 x key ∨ Says.Accepted s k 10 x key ∨ Says.Accepted s k 11 x key ∨
    Says.Accepted s k 14 x key ∨ Says.Accepted s k 15 x key ∨ Says.Accepted s k 16 x key → (∀ a, s.ownedAt (.mem a) = false) →
    let t := Says.heard s k
    let code := fieldAt k.bytes 0 2
    let own : Prop := (s.ctx c).attached.any (fun a => a.1 == x.id) = true
    (∀ i ev, ((i = .attach ∧ code = 1 ∧ ∃ all, ev = .attach k c all) ∨ (i = .memrd ∧ code = 8 ∧ ∃ va n, ev = .memrd k c va n) ∨
        (i = .memwr ∧ code = 9 ∧ ∃ va bs, ev = .memwr k c va bs) ∨ (i = .counters ∧ code = 16 ∧ ev = .counters k c)) →
      s.turn = .event ev →
      (x.sees c = false → exec i s = .next (Says.replied x t k code (-2) [])) ∧
      (x.sees c = true → s.ctxs.get? c = none → exec i s = .next (Says.replied x t k code (-3) []))) ∧
    (x.sees c = true → (s.ctxs.get? c).isSome = true →
      (∀ all, code = 1 → s.turn = .event (.attach k c all) → ((s.ctx c).attached = none ∨ own) →
        exec .attach s = .next (Says.replied x (t.updCtx c fun y => { y with attached := some (x.id, all) }) k 1 0 [])) ∧
      (∀ va n, code = 8 → s.turn = .event (.memrd k c va n) → 0 < n → n ≤ 4096 → s.pagesHere c va n false = 0 →
        ∃ bs, exec .memrd s = .next (Says.replied x t k 8 0 bs) ∧ bs.length = n ∧
          ∀ i p, i < n → findPage (s.ctx c).pages (va + i) = some p →
            bs.getD i 0 = s.rawByte (.mem (cellOf (Page.pa p (va + i))))) ∧
      (∀ va bs cells, code = 9 → s.turn = .event (.memwr k c va bs) → 0 < bs.length → bs.length ≤ 4096 →
        s.pagesHere c va bs.length true = 0 → s.cellsAt c va bs = some cells →
        exec .memwr s = .next (Says.replied x (t.extWrite c 5 va cells) k 9 0 [])) ∧
      (∀ n a st sel, code = 10 → s.turn = .event (.setbp k c n a st sel) → n ≤ 15 → own →
        exec .setbp s = .next (Says.replied x (t.updCtx c fun y =>
          { y with bps := y.bps.put n { addr := BitVec.ofNat 64 a, st, sel } }) k 10 0 [])) ∧
      (∀ n, code = 11 → s.turn = .event (.clrbp k c n) → n ≤ 15 → own →
        exec .clrbp s = .next (Says.replied x (t.updCtx c fun y => { y with bps := y.bps.del n }) k 11 0 [])) ∧
      (∀ n base cap timed, code = 14 → s.turn = .event (.sample k c n base cap timed) → n ≤ 16 → base % 64 = 0 →
        base < 2 ^ 56 → cap ≤ 20 → exec .sample s = .next (Says.replied x
          ((t.updCtx c fun y => { y with fin := { base, cap, n, timed } }).ringHeader c base) k 14 0 [])) ∧
      (∀ base cap, code = 15 → s.turn = .event (.trace k c base cap) → base % 64 = 0 → base < 2 ^ 56 → cap ≤ 20 →
        exec .trace s = .next (Says.replied x
          ((t.updCtx c fun y => { y with trace := { base, cap } }).ringHeader c base) k 15 0 [])) ∧
      (code = 16 → s.turn = .event (.counters k c) → exec .counters s = .next (Says.replied x t k 16 0
        ((List.range 14).flatMap fun i => leBytes 8 ((s.ctx c).counters.get 0 i).toNat))))

/-- The commands on groups (R370 to R377): halt and resume act on the group that a selector names, step lets one split of a halted
group issue one instruction, read and write reach the records of a halted group, setwp and clrwp set and clear a watchpoint;
of a group that is not halted, step, read and write answer −4. -/
def Says.GroupCommands : Prop :=
  ∀ (s : State) (k : Cmd) (x : Session) (key : BitVec 256) (g : GKey) (e : Nat) (name : BitVec 64) (sel : Selector),
    let t := Says.heard s k
    (Says.Accepted s k 3 x key → s.turn = .event (.halt k sel) → t.pick x sel = .ok ([g], [], []) → (s.group g).halted = false →
      (t.halt g (t.stopEntry g) 0 0 0 0).savedPick x sel = ([], []) → exec .halt s = .next (Says.replied x (t.halt g (t.stopEntry g) 0 0 0 0) k 3 0 [])) ∧
    (Says.Accepted s k 4 x key → s.turn = .event (.resume k sel) → t.pick x sel = .ok ([g], [], []) → (s.group g).halted = true →
      t.savedPick x sel = ([], []) → (s.group g).traps = [] → (s.ctx g.b.r.c).attached = some (x.id, false) → ∃ u, exec .resume s = .next u ∧ (u.group g).halted = false ∧
        (∃ m, u.outs = s.outs ++ [.reply x.id 4 k.seq 0 [], m]) ∧ u.mem = s.mem) ∧
    (Says.Accepted s k 4 x key → s.turn = .event (.resume k sel) → t.pick x sel = .ok ([g], [], []) → (s.group g).halted = false →
      (s.group g).stepping = none → t.savedPick x sel = ([], []) → (s.ctx g.b.r.c).attached = some (x.id, false) →
      exec .resume s = .next (Says.replied x t k 4 (-4) [])) ∧
    (t.byName x name = some (g, e) →
      (Says.Accepted s k 5 x key → s.turn = .event (.step k name) → (s.split g e).live = true →
        (s.ctx g.b.r.c).attached.any (fun a => a.1 == x.id) = true →
        ((s.group g).halted = true → exec .step s = .next (Says.replied x
          ((t.resumeGroup g).updGroup g fun y => { y with stepping := some e, haltedAt := t.cycle }) k 5 0 [])) ∧
        ((s.group g).halted = false → exec .step s = .next (Says.replied x t k 5 (-4) []))) ∧
      (∀ types, Says.Accepted s k 6 x key → s.turn = .event (.read k name types) → types = 2 ^ 4 →
        ((s.group g).halted = true → exec .read s = .next (Says.replied x t k 6 0
          ((t.debugRecs g 4).flatMap recordBytes))) ∧
        ((s.group g).halted = false → exec .read s = .next (Says.replied x t k 6 (-4) []))) ∧
      (∀ i n v, Says.Accepted s k 7 x key → s.turn = .event (.write k name [.s i n v]) → i ≤ 4 → n < 128 →
        (s.split g i).live = true →
        ((s.group g).halted = true → (s.region g.b.r).listens = false →
          exec .write s = .next (Says.replied x (t.setS g i n v) k 7 0 [])) ∧
        ((s.group g).halted = false → exec .write s = .next (Says.replied x t k 7 (-4) []))) ∧
      (∀ n a ctl, Says.Accepted s k 12 x key → s.turn = .event (.setwp k name n a ctl) → n ≤ 3 → a.toNat < 2 ^ 56 →
        a.toNat % 2 ^ (ctl.toNat % 8) = 0 → exec .setwp s = .next (Says.replied x
          ((t.setWpt g n (watchOf a ctl)).noteWpt x.id g n true) k 12 0 [])) ∧
      (∀ n, Says.Accepted s k 13 x key → s.turn = .event (.clrwp k name n) → n ≤ 3 → exec .clrwp s =
        .next (Says.replied x ((t.setWpt g n {}).noteWpt x.id g n false) k 13 0 [])))

/-- BREAKPOINT_MATCH (R374): the group halts before the instruction with the breakpoint's number, and the next issue of that
instruction does not match it again; a sequencer halts alike. -/
def Says.Breakpoints : Prop :=
  (∀ (s : State) (g : GKey) (e n : Nat), g.sh = 0 →
    (s.turn = .event (.breakpointMatch g e n .scalar) → s.scalarBp g e = some n → exec .breakpointMatch s =
      .next ((s.updGroup g fun x => { x with passBp := e :: x.passBp }).halt g e 1 0 0 n)) ∧
    (s.turn = .event (.breakpointMatch g e n .lane) → s.laneBp g e = some n → exec .breakpointMatch s =
      .next ((s.updGroup g fun x => { x with passBp := (e + 5) :: x.passBp }).halt g e 1 0 0 n))) ∧
  (∀ (s : State) (g : GKey) (e n : Nat), s.turn = .event (.breakpointMatch g e n .matrix) → s.seqBp g.b = some n →
    (∀ sess all, (s.ctx g.b.r.c).attached = some (sess, all) → all = false) → exec .breakpointMatch s =
      .next ((s.updSeq g.b fun q => { q with passBp := true }).haltSeq g.b 1 n)) ∧
  ∀ (s : State) (g : GKey) (e n : Nat), s.scalarBp g e = some n →
    ∃ p, (n, p) ∈ (s.ctx g.b.r.c).bps ∧ p.addr = (s.split g e).pc ∧ p.st = .scalar

/-- Debug sessions, commands and breakpoints. -/
def Obligations.Belfry : Prop := Says.Sessions ∧ Says.ContextCommands ∧ Says.GroupCommands ∧ Says.Breakpoints

/-! ## The whole machine -/

/-- Words written out in the spec decode to the instructions that it says they are. -/
def Obligations.DecodedWords : Prop :=
  decodeScalar 0x24200010 = .ldi 4 0x10 ∧
  decodeScalar 0x042860E0 = .add 5 6 7 ∧
  decodeScalar 0x90200280 = .nap 5 ∧
  decodeScalar 0x9040C021 = .splrd 3 0x21 ∧
  decodeScalar 0xBD814486 = .satom 1 4 5 9 6 ∧
  decodeScalar 0xCC014001 = .cntRd 5 1 ∧
  decodeScalar 0xBF600000 = .fenceEng ∧
  decodeLane 0x83F800000000000000000000 = .lend
    { h := true, m := 0, ty := .i32, rm := .rne, sat := false, vd := 0, va := 0, bk := .vreg, b := 0, vc := 0, ext := 0 } ∧
  decodeLane 0xC0042000C00A000000093830 = .vatom 1
    { h := true, m := 0, ty := .f32, rm := .rne, sat := false, vd := 12, va := 5, bk := .vreg, b := 0, vc := 9, ext := 0x3830 } ∧
  decodeLane 0x500C3801F000000000000003 = .trank
    { h := false, m := 0, ty := .tk, rm := .rne, sat := false, vd := 31, va := 0, bk := .vreg, b := 0, vc := 0, ext := 3 } ∧
  decodeMatrix 0x0400000000000000 = .macq { ty := .i32, a := 0, grp := 0, v := 0, qb := 0, imm := 0 } ∧
  decodeMatrix 0x100A10800000003F = .mmul { ty := .bf16, a := 1, grp := 2, v := 0, qb := 0, imm := 63 } ∧
  decodeMatrix 0x2000200000000001 = .mgive { ty := .i32, a := 2, grp := 0, v := 0, qb := 0, imm := 1 }

/-- The word of every well-formed instruction decodes to it, with every operand; jalr s0, 0(s1) is no instruction of its
own, but ret. -/
def Obligations.DecodeOfEncode : Prop :=
  ∀ (i : Instr) (w : Enc), WellFormed i = true → encode i = some w → w.decode = i

/-- Every word that decodes to an instruction is that instruction's word: no two words decode to one instruction, and
no bit of a word is dropped. -/
def Obligations.EncodeOfDecode : Prop :=
  ∀ w : Enc, w.decode ≠ .unassignedEncoding → encode w.decode = some w

/-- A step runs what it fetches (R27, R32, R44): where the four bytes at a scalar stream's pc, the twelve at the head of a
lane queue or the eight at a sequencer's pc decode to an instruction, the step is the execution of that instruction, after
what its turn begins with, and then the choice of the next turn; an event's turn is the execution of its row. A word outside the
scalar section of the region's image is not fetched: the access fault. -/
def Obligations.StepRunsDecoded : Prop :=
  (∀ (s u t : State) (g : GKey) (e a : Nat) (i : Instr), s.turn = .scalar g e → s.platform.off = false →
    let b := s.beginTurn
    let pc := (b.split g e).pc.toNat
    b.inScalar g.b.r pc = true → pc + 4 ≤ 2 ^ 56 → pc % 4096 ≤ 4092 → b.xlate g pc true false = (u, .ok a) →
    (∀ k, k < 4 → u.poisonFor g e (.mem (a + k)) = false ∧ u.ownedAt (.mem (a + k)) = false) →
    decode .scalar ((List.range 4).map fun k => u.readByte g e (.mem (a + k))) = .ok (i, []) → exec i u = .next t →
    step s = .next t.tick) ∧
  (∀ (s u t : State) (g : GKey) (e a : Nat) (i : Instr), s.turn = .lane g e → s.platform.off = false →
    let b := s.beginTurn
    let pc := (b.head g e).pc.toNat
    (b.head g e).again = none → ((b.group g).fork = none ∨ b.regRoom g e = true) → pc + 12 ≤ 2 ^ 56 → pc % 4096 ≤ 4084 → b.xlate g pc true false = (u, .ok a) →
    (∀ k, k < 12 → u.poisonFor g e (.mem (a + k)) = false ∧ u.ownedAt (.mem (a + k)) = false) →
    decode .lane ((List.range 12).map fun k => u.readByte g e (.mem (a + k))) = .ok (i, []) → exec i u = .next t →
    step s = .next t.tick) ∧
  (∀ (s t : State) (b : BKey) (i : Instr) (bs : List Byte), s.turn = .seq b → s.platform.off = false →
    s.beginTurn.inMatrix b.r (s.beginTurn.seq b).pc.toNat = true → s.beginTurn.fillRead b (s.beginTurn.seq b).pc.toNat 8 = .ok bs → decode .matrix bs = .ok (i, []) →
    exec i s.beginTurn = .next t → step s = .next t.tick) ∧
  (∀ (s : State) (g : GKey) (e : Nat), s.turn = .scalar g e → s.platform.off = false →
    let b := s.beginTurn
    let pc := (b.split g e).pc.toNat
    b.inScalar g.b.r pc = false → step s = .next (b.scalarFault g e { kind := 5, addr := pc }).tick) ∧
  ∀ (s t : State) (ev : Event), s.turn = .event ev → (s.platform.off = false ∨ isBoot ev = true) →
    exec ev.row s = .next t → step s = .next t.tick

/-- No instruction and no event stops the machine: each answers a next state from every state. A step stops only for a
device that is off with no power-on to come. -/
def Obligations.EverythingRuns : Prop :=
  (∀ (i : Instr) (s : State), ∃ t, exec i s = .next t) ∧
  ∀ s : State, (∃ t, step s = .next t) ∨
    (step s = .fault .deviceOff ∧ s.platform.off = true ∧ (∀ ev ∈ s.inputs, isBoot ev = false))

/-- The device after reset has no context, region, group or session, its ports' entries are zero (R361) and its four
measurement registers are zero (R386); memory reads as zero, which is the model's choice (log entry 2). -/
def Obligations.ResetState : Prop :=
  State.reset.ctxs = [] ∧ State.reset.regions = [] ∧ State.reset.groups = [] ∧ State.reset.blocks = [] ∧
    State.reset.sessions = [] ∧ State.reset.platform.off = false ∧ (∀ n, State.reset.ports.get 0 n = 0) ∧
    (∀ n, State.reset.platform.meas.get 0 n = 0) ∧ (∀ l, State.reset.rawByte l = 0) ∧ State.reset.memOk

/-- Memory keeps its canonical form: from every state in that form, every step that answers a next state answers one in
that form. -/
def Obligations.MemoryForm : Prop := ∀ s t : State, s.memOk → step s = .next t → t.memOk
end

