-- ==== Sys2Proof/Laws/Maps.lean ====
section
/-! SUPPORT. The laws of tables and of memory: a read after a write, and the canonical form. -/

namespace Sys2Proof

variable {κ α : Type} [DecidableEq κ]

theorem Tab.get?_put (t : Tab κ α) (k k' : κ) (v : α) :
    (t.put k v).get? k' = if k = k' then some v else t.get? k' := by
  induction t with
  | nil => simp [Tab.put, Tab.get?]
  | cons p r ih =>
    obtain ⟨j, w⟩ := p
    by_cases h : j = k
    · subst h; by_cases h' : j = k' <;> simp [Tab.put, Tab.get?, h']
    · by_cases h' : j = k'
      · subst h'; simp [Tab.put, Tab.get?, h, Ne.symm h]
      · simp [Tab.put, Tab.get?, h, h', ih]

@[simp] theorem Tab.get?_put_self (t : Tab κ α) (k : κ) (v : α) : (t.put k v).get? k = some v := by
  simp [Tab.get?_put]
theorem Tab.get?_put_ne (t : Tab κ α) {k k' : κ} (v : α) (h : k ≠ k') : (t.put k v).get? k' = t.get? k' := by
  simp [Tab.get?_put, h]

theorem Tab.get_put (t : Tab κ α) (d : α) (k k' : κ) (v : α) :
    (t.put k v).get d k' = if k = k' then v else t.get d k' := by
  unfold Tab.get; rw [Tab.get?_put]; split <;> rfl
@[simp] theorem Tab.get_put_self (t : Tab κ α) (d : α) (k : κ) (v : α) : (t.put k v).get d k = v := by
  simp [Tab.get_put]
theorem Tab.get_put_ne (t : Tab κ α) (d : α) {k k' : κ} (v : α) (h : k ≠ k') : (t.put k v).get d k' = t.get d k' := by
  simp [Tab.get_put, h]

/-- The second of two puts at one key stands alone. -/
@[simp] theorem Tab.put_put (t : Tab κ α) (k : κ) (v w : α) : (t.put k v).put k w = t.put k w := by
  induction t with
  | nil => simp [Tab.put]
  | cons p r ih =>
    obtain ⟨j, x⟩ := p
    by_cases h : j = k <;> simp [Tab.put, h, ih]

theorem Tab.get_upd (t : Tab κ α) (d : α) (k k' : κ) (f : α → α) :
    (t.upd k f).get d k' = if k = k' ∧ (t.get? k).isSome then f (t.get d k) else t.get d k' := by
  unfold Tab.upd
  cases h : t.get? k with
  | none => simp
  | some v =>
    have hd : t.get d k = v := by simp [Tab.get, h]
    by_cases e : k = k' <;> simp [Tab.get_put, e, ← hd]

@[simp] theorem Tab.get_nil (d : α) (k : κ) : Tab.get ([] : Tab κ α) d k = d := rfl

/-- A row that is found is a member. -/
theorem Tab.mem_of_get? {t : Tab κ α} {k : κ} {v : α} (h : t.get? k = some v) : (k, v) ∈ t := by
  induction t with
  | nil => simp [Tab.get?] at h
  | cons p r ih =>
    obtain ⟨j, w⟩ := p
    by_cases e : j = k
    · subst e; simp [Tab.get?] at h; simp [h]
    · simp [Tab.get?, e] at h; exact List.mem_cons_of_mem _ (ih h)

/-- A row of another key than the one put stood there before. -/
theorem Tab.mem_put_ne {t : Tab κ α} {k : κ} {v : α} {q : κ × α} (h : q ∈ t.put k v) (hk : q.1 ≠ k) : q ∈ t := by
  induction t with
  | nil => simp [Tab.put] at h; subst h; exact absurd rfl hk
  | cons p r ih =>
    obtain ⟨j, w⟩ := p
    by_cases e : j = k
    · simp [Tab.put, e] at h
      rcases h with rfl | h
      · exact absurd rfl hk
      · exact List.mem_cons_of_mem _ h
    · simp [Tab.put, e] at h
      rcases h with rfl | h
      · exact List.mem_cons_self ..
      · exact List.mem_cons_of_mem _ (ih h)

/-- A key's value that is not the default stands in the table. -/
theorem Tab.mem_of_get {t : Tab κ α} {d : α} {k : κ} (h : t.get d k ≠ d) : (k, t.get d k) ∈ t := by
  unfold Tab.get at h ⊢
  cases e : t.get? k with
  | none => simp [e] at h
  | some v => simpa using Tab.mem_of_get? e

namespace Machine

/-! ## Memory -/

theorem Memory.read_cons (x : Nat) (b : Byte) (r : List Host.Cell) (y : Nat) (h : y = x → Memory.read r y = Memory.unlisted) :
    Memory.read (Memory.cons x b r) y = if x = y then b else Memory.read r y := by
  unfold Memory.cons
  by_cases hb : b = Memory.unlisted
  · by_cases e : x = y
    · simp [hb, e, h e.symm]
    · simp [hb, e]
  · simp [hb, Memory.read]

/-- No address below the bound of a form is listed. -/
theorem Memory.read_below {lo : Nat} {m : List Host.Cell} (h : Memory.wfFrom lo m = true) {x : Nat} (hx : x < lo) :
    Memory.read m x = Memory.unlisted := by
  induction m generalizing lo with
  | nil => rfl
  | cons p r ih =>
    obtain ⟨a, v⟩ := p
    simp only [Memory.wfFrom, Bool.and_eq_true, decide_eq_true_eq] at h
    have : a ≠ x := by omega
    simp [Memory.read, this, ih h.2 (by omega)]

theorem Memory.wfFrom_mono {lo lo' : Nat} {m : List Host.Cell} (h : Memory.wfFrom lo m = true) (hl : lo' ≤ lo) :
    Memory.wfFrom lo' m = true := by
  cases m with
  | nil => rfl
  | cons p r =>
    obtain ⟨a, v⟩ := p
    simp only [Memory.wfFrom, Bool.and_eq_true, decide_eq_true_eq] at h ⊢
    exact ⟨⟨by omega, h.1.2⟩, h.2⟩

theorem Memory.wfFrom_cons {lo x : Nat} {b : Byte} {r : List Host.Cell} (h : Memory.wfFrom (x + 1) r = true) (hx : lo ≤ x) :
    Memory.wfFrom lo (Memory.cons x b r) = true := by
  unfold Memory.cons
  by_cases hb : b = Memory.unlisted
  · simpa [hb] using Memory.wfFrom_mono h (by omega)
  · simp [hb, Memory.wfFrom, hx, h]

theorem Memory.wfFrom_write {lo : Nat} {m : List Host.Cell} (h : Memory.wfFrom lo m = true) (x : Nat) (b : Byte) (hx : lo ≤ x) :
    Memory.wfFrom lo (Memory.write m x b) = true := by
  induction m generalizing lo with
  | nil => exact Memory.wfFrom_cons rfl hx
  | cons p r ih =>
    obtain ⟨a, v⟩ := p
    simp only [Memory.wfFrom, Bool.and_eq_true, decide_eq_true_eq] at h
    unfold Memory.write
    split
    · refine Memory.wfFrom_cons ?_ hx
      simp only [Memory.wfFrom, Bool.and_eq_true, decide_eq_true_eq]
      exact ⟨⟨by omega, h.1.2⟩, h.2⟩
    · split
      · next e => subst e; exact Memory.wfFrom_cons h.2 hx
      · simp only [Memory.wfFrom, Bool.and_eq_true, decide_eq_true_eq]
        exact ⟨h.1, ih h.2 (by omega)⟩

/-- A write keeps the canonical form. -/
theorem Memory.wf_write {m : List Host.Cell} (h : Memory.wf m = true) (x : Nat) (b : Byte) :
    Memory.wf (Memory.write m x b) = true := Memory.wfFrom_write h x b (Nat.zero_le x)

theorem Memory.wf_writeAll {m : List Host.Cell} (h : Memory.wf m = true) (ws : List (Nat × Byte)) :
    Memory.wf (Memory.writeAll m ws) = true := by
  unfold Memory.writeAll
  induction ws generalizing m with
  | nil => exact h
  | cons w r ih => exact ih (Memory.wf_write h w.1 w.2)

theorem Memory.wfFrom_filter {lo : Nat} {m : List Host.Cell} (h : Memory.wfFrom lo m = true) (p : Host.Cell → Bool) :
    Memory.wfFrom lo (m.filter p) = true := by
  induction m generalizing lo with
  | nil => rfl
  | cons c r ih =>
    obtain ⟨a, v⟩ := c
    simp only [Memory.wfFrom, Bool.and_eq_true, decide_eq_true_eq] at h
    rw [List.filter_cons]
    split
    · simp only [Memory.wfFrom, Bool.and_eq_true, decide_eq_true_eq]
      exact ⟨h.1, ih h.2⟩
    · exact Memory.wfFrom_mono (ih h.2) (by omega)
/-- Cells left out keep the canonical form. -/
theorem Memory.wf_filter {m : List Host.Cell} (h : Memory.wf m = true) (p : Host.Cell → Bool) :
    Memory.wf (m.filter p) = true := Memory.wfFrom_filter h p

theorem Memory.read_write_from {lo : Nat} {m : List Host.Cell} (h : Memory.wfFrom lo m = true) (x : Nat) (b : Byte) (y : Nat) :
    Memory.read (Memory.write m x b) y = if x = y then b else Memory.read m y := by
  induction m generalizing lo with
  | nil => exact Memory.read_cons x b [] y fun _ => rfl
  | cons p r ih =>
    obtain ⟨a, v⟩ := p
    have h0 := h
    simp only [Memory.wfFrom, Bool.and_eq_true, decide_eq_true_eq] at h
    unfold Memory.write
    split
    · next hlt =>
      refine Memory.read_cons x b _ y fun e => ?_
      have hw : Memory.wfFrom a ((a, v) :: r) = true := by
        simp only [Memory.wfFrom, Bool.and_eq_true, decide_eq_true_eq]
        exact ⟨⟨Nat.le_refl a, h.1.2⟩, h.2⟩
      exact Memory.read_below hw (by omega)
    · split
      · next e =>
        subst e
        rw [Memory.read_cons x b r y fun e => Memory.read_below h.2 (by omega)]
        by_cases e : x = y <;> simp [Memory.read, e]
      · next h1 h2 =>
        by_cases e : a = y
        · have : x ≠ y := by omega
          simp [Memory.read, e, this]
        · simp [Memory.read, e, ih h.2]

/-- A read after a write: the value written at its address, what was there elsewhere. -/
theorem Memory.read_write {m : List Host.Cell} (h : Memory.wf m = true) (x : Nat) (b : Byte) (y : Nat) :
    Memory.read (Memory.write m x b) y = if x = y then b else Memory.read m y := Memory.read_write_from h x b y

end Machine
end Sys2Proof
end

