-- ==== Sys2Proof/Laws/State.lean ====
section
/-! SUPPORT. The laws of the named operations over State: what each field is after each of them, and what each
object reads as. -/

namespace Sys2Proof.Machine

/-! ## setGroup -/

@[simp] theorem State.setGroup_turn (s : State) (g : GKey) (x : Group) : (s.setGroup g x).turn = s.turn := rfl
@[simp] theorem State.setGroup_inputs (s : State) (g : GKey) (x : Group) : (s.setGroup g x).inputs = s.inputs := rfl
@[simp] theorem State.setGroup_cycle (s : State) (g : GKey) (x : Group) : (s.setGroup g x).cycle = s.cycle := rfl
@[simp] theorem State.setGroup_free (s : State) (g : GKey) (x : Group) : (s.setGroup g x).free = s.free := rfl
@[simp] theorem State.setGroup_mem (s : State) (g : GKey) (x : Group) : (s.setGroup g x).mem = s.mem := rfl
@[simp] theorem State.setGroup_poison (s : State) (g : GKey) (x : Group) : (s.setGroup g x).poison = s.poison := rfl
@[simp] theorem State.setGroup_dirty (s : State) (g : GKey) (x : Group) : (s.setGroup g x).dirty = s.dirty := rfl
@[simp] theorem State.setGroup_blocks (s : State) (g : GKey) (x : Group) : (s.setGroup g x).blocks = s.blocks := rfl
@[simp] theorem State.setGroup_regions (s : State) (g : GKey) (x : Group) : (s.setGroup g x).regions = s.regions := rfl
@[simp] theorem State.setGroup_ctxs (s : State) (g : GKey) (x : Group) : (s.setGroup g x).ctxs = s.ctxs := rfl
@[simp] theorem State.setGroup_vfs (s : State) (g : GKey) (x : Group) : (s.setGroup g x).vfs = s.vfs := rfl
@[simp] theorem State.setGroup_cores (s : State) (g : GKey) (x : Group) : (s.setGroup g x).cores = s.cores := rfl
@[simp] theorem State.setGroup_clusters (s : State) (g : GKey) (x : Group) : (s.setGroup g x).clusters = s.clusters := rfl
@[simp] theorem State.setGroup_l2 (s : State) (g : GKey) (x : Group) : (s.setGroup g x).l2 = s.l2 := rfl
@[simp] theorem State.setGroup_starving (s : State) (g : GKey) (x : Group) : (s.setGroup g x).starving = s.starving := rfl
@[simp] theorem State.setGroup_pend (s : State) (g : GKey) (x : Group) : (s.setGroup g x).pend = s.pend := rfl
@[simp] theorem State.setGroup_moves (s : State) (g : GKey) (x : Group) : (s.setGroup g x).moves = s.moves := rfl
@[simp] theorem State.setGroup_ports (s : State) (g : GKey) (x : Group) : (s.setGroup g x).ports = s.ports := rfl
@[simp] theorem State.setGroup_rflows (s : State) (g : GKey) (x : Group) : (s.setGroup g x).rflows = s.rflows := rfl
@[simp] theorem State.setGroup_sflows (s : State) (g : GKey) (x : Group) : (s.setGroup g x).sflows = s.sflows := rfl
@[simp] theorem State.setGroup_keepQueue (s : State) (g : GKey) (x : Group) : (s.setGroup g x).keepQueue = s.keepQueue := rfl
@[simp] theorem State.setGroup_images (s : State) (g : GKey) (x : Group) : (s.setGroup g x).images = s.images := rfl
@[simp] theorem State.setGroup_migrations (s : State) (g : GKey) (x : Group) : (s.setGroup g x).migrations = s.migrations := rfl
@[simp] theorem State.setGroup_translated (s : State) (g : GKey) (x : Group) : (s.setGroup g x).translated = s.translated := rfl
@[simp] theorem State.setGroup_sessions (s : State) (g : GKey) (x : Group) : (s.setGroup g x).sessions = s.sessions := rfl
@[simp] theorem State.setGroup_debugKeys (s : State) (g : GKey) (x : Group) : (s.setGroup g x).debugKeys = s.debugKeys := rfl
@[simp] theorem State.setGroup_outs (s : State) (g : GKey) (x : Group) : (s.setGroup g x).outs = s.outs := rfl
@[simp] theorem State.setGroup_timeNs (s : State) (g : GKey) (x : Group) : (s.setGroup g x).timeNs = s.timeNs := rfl
@[simp] theorem State.setGroup_timeFr (s : State) (g : GKey) (x : Group) : (s.setGroup g x).timeFr = s.timeFr := rfl
@[simp] theorem State.setGroup_timeAt (s : State) (g : GKey) (x : Group) : (s.setGroup g x).timeAt = s.timeAt := rfl
@[simp] theorem State.setGroup_slew (s : State) (g : GKey) (x : Group) : (s.setGroup g x).slew = s.slew := rfl
@[simp] theorem State.setGroup_ptp (s : State) (g : GKey) (x : Group) : (s.setGroup g x).ptp = s.ptp := rfl
@[simp] theorem State.setGroup_platform (s : State) (g : GKey) (x : Group) : (s.setGroup g x).platform = s.platform := rfl
@[simp] theorem State.setGroup_launchSeq (s : State) (g : GKey) (x : Group) : (s.setGroup g x).launchSeq = s.launchSeq := rfl
@[simp] theorem State.setGroup_nextId (s : State) (g : GKey) (x : Group) : (s.setGroup g x).nextId = s.nextId := rfl

/-! ## updGroup -/

@[simp] theorem State.updGroup_turn (s : State) (g : GKey) (f : Group → Group) : (s.updGroup g f).turn = s.turn := rfl
@[simp] theorem State.updGroup_inputs (s : State) (g : GKey) (f : Group → Group) : (s.updGroup g f).inputs = s.inputs := rfl
@[simp] theorem State.updGroup_cycle (s : State) (g : GKey) (f : Group → Group) : (s.updGroup g f).cycle = s.cycle := rfl
@[simp] theorem State.updGroup_free (s : State) (g : GKey) (f : Group → Group) : (s.updGroup g f).free = s.free := rfl
@[simp] theorem State.updGroup_mem (s : State) (g : GKey) (f : Group → Group) : (s.updGroup g f).mem = s.mem := rfl
@[simp] theorem State.updGroup_poison (s : State) (g : GKey) (f : Group → Group) : (s.updGroup g f).poison = s.poison := rfl
@[simp] theorem State.updGroup_dirty (s : State) (g : GKey) (f : Group → Group) : (s.updGroup g f).dirty = s.dirty := rfl
@[simp] theorem State.updGroup_blocks (s : State) (g : GKey) (f : Group → Group) : (s.updGroup g f).blocks = s.blocks := rfl
@[simp] theorem State.updGroup_regions (s : State) (g : GKey) (f : Group → Group) : (s.updGroup g f).regions = s.regions := rfl
@[simp] theorem State.updGroup_ctxs (s : State) (g : GKey) (f : Group → Group) : (s.updGroup g f).ctxs = s.ctxs := rfl
@[simp] theorem State.updGroup_vfs (s : State) (g : GKey) (f : Group → Group) : (s.updGroup g f).vfs = s.vfs := rfl
@[simp] theorem State.updGroup_cores (s : State) (g : GKey) (f : Group → Group) : (s.updGroup g f).cores = s.cores := rfl
@[simp] theorem State.updGroup_clusters (s : State) (g : GKey) (f : Group → Group) : (s.updGroup g f).clusters = s.clusters := rfl
@[simp] theorem State.updGroup_l2 (s : State) (g : GKey) (f : Group → Group) : (s.updGroup g f).l2 = s.l2 := rfl
@[simp] theorem State.updGroup_starving (s : State) (g : GKey) (f : Group → Group) : (s.updGroup g f).starving = s.starving := rfl
@[simp] theorem State.updGroup_pend (s : State) (g : GKey) (f : Group → Group) : (s.updGroup g f).pend = s.pend := rfl
@[simp] theorem State.updGroup_moves (s : State) (g : GKey) (f : Group → Group) : (s.updGroup g f).moves = s.moves := rfl
@[simp] theorem State.updGroup_ports (s : State) (g : GKey) (f : Group → Group) : (s.updGroup g f).ports = s.ports := rfl
@[simp] theorem State.updGroup_rflows (s : State) (g : GKey) (f : Group → Group) : (s.updGroup g f).rflows = s.rflows := rfl
@[simp] theorem State.updGroup_sflows (s : State) (g : GKey) (f : Group → Group) : (s.updGroup g f).sflows = s.sflows := rfl
@[simp] theorem State.updGroup_keepQueue (s : State) (g : GKey) (f : Group → Group) : (s.updGroup g f).keepQueue = s.keepQueue := rfl
@[simp] theorem State.updGroup_images (s : State) (g : GKey) (f : Group → Group) : (s.updGroup g f).images = s.images := rfl
@[simp] theorem State.updGroup_migrations (s : State) (g : GKey) (f : Group → Group) : (s.updGroup g f).migrations = s.migrations := rfl
@[simp] theorem State.updGroup_translated (s : State) (g : GKey) (f : Group → Group) : (s.updGroup g f).translated = s.translated := rfl
@[simp] theorem State.updGroup_sessions (s : State) (g : GKey) (f : Group → Group) : (s.updGroup g f).sessions = s.sessions := rfl
@[simp] theorem State.updGroup_debugKeys (s : State) (g : GKey) (f : Group → Group) : (s.updGroup g f).debugKeys = s.debugKeys := rfl
@[simp] theorem State.updGroup_outs (s : State) (g : GKey) (f : Group → Group) : (s.updGroup g f).outs = s.outs := rfl
@[simp] theorem State.updGroup_timeNs (s : State) (g : GKey) (f : Group → Group) : (s.updGroup g f).timeNs = s.timeNs := rfl
@[simp] theorem State.updGroup_timeFr (s : State) (g : GKey) (f : Group → Group) : (s.updGroup g f).timeFr = s.timeFr := rfl
@[simp] theorem State.updGroup_timeAt (s : State) (g : GKey) (f : Group → Group) : (s.updGroup g f).timeAt = s.timeAt := rfl
@[simp] theorem State.updGroup_slew (s : State) (g : GKey) (f : Group → Group) : (s.updGroup g f).slew = s.slew := rfl
@[simp] theorem State.updGroup_ptp (s : State) (g : GKey) (f : Group → Group) : (s.updGroup g f).ptp = s.ptp := rfl
@[simp] theorem State.updGroup_platform (s : State) (g : GKey) (f : Group → Group) : (s.updGroup g f).platform = s.platform := rfl
@[simp] theorem State.updGroup_launchSeq (s : State) (g : GKey) (f : Group → Group) : (s.updGroup g f).launchSeq = s.launchSeq := rfl
@[simp] theorem State.updGroup_nextId (s : State) (g : GKey) (f : Group → Group) : (s.updGroup g f).nextId = s.nextId := rfl

/-! ## updSplit -/

@[simp] theorem State.updSplit_turn (s : State) (g : GKey) (e : Nat) (f : Split → Split) : (s.updSplit g e f).turn = s.turn := rfl
@[simp] theorem State.updSplit_inputs (s : State) (g : GKey) (e : Nat) (f : Split → Split) : (s.updSplit g e f).inputs = s.inputs := rfl
@[simp] theorem State.updSplit_cycle (s : State) (g : GKey) (e : Nat) (f : Split → Split) : (s.updSplit g e f).cycle = s.cycle := rfl
@[simp] theorem State.updSplit_free (s : State) (g : GKey) (e : Nat) (f : Split → Split) : (s.updSplit g e f).free = s.free := rfl
@[simp] theorem State.updSplit_mem (s : State) (g : GKey) (e : Nat) (f : Split → Split) : (s.updSplit g e f).mem = s.mem := rfl
@[simp] theorem State.updSplit_poison (s : State) (g : GKey) (e : Nat) (f : Split → Split) : (s.updSplit g e f).poison = s.poison := rfl
@[simp] theorem State.updSplit_dirty (s : State) (g : GKey) (e : Nat) (f : Split → Split) : (s.updSplit g e f).dirty = s.dirty := rfl
@[simp] theorem State.updSplit_blocks (s : State) (g : GKey) (e : Nat) (f : Split → Split) : (s.updSplit g e f).blocks = s.blocks := rfl
@[simp] theorem State.updSplit_regions (s : State) (g : GKey) (e : Nat) (f : Split → Split) : (s.updSplit g e f).regions = s.regions := rfl
@[simp] theorem State.updSplit_ctxs (s : State) (g : GKey) (e : Nat) (f : Split → Split) : (s.updSplit g e f).ctxs = s.ctxs := rfl
@[simp] theorem State.updSplit_vfs (s : State) (g : GKey) (e : Nat) (f : Split → Split) : (s.updSplit g e f).vfs = s.vfs := rfl
@[simp] theorem State.updSplit_cores (s : State) (g : GKey) (e : Nat) (f : Split → Split) : (s.updSplit g e f).cores = s.cores := rfl
@[simp] theorem State.updSplit_clusters (s : State) (g : GKey) (e : Nat) (f : Split → Split) : (s.updSplit g e f).clusters = s.clusters := rfl
@[simp] theorem State.updSplit_l2 (s : State) (g : GKey) (e : Nat) (f : Split → Split) : (s.updSplit g e f).l2 = s.l2 := rfl
@[simp] theorem State.updSplit_starving (s : State) (g : GKey) (e : Nat) (f : Split → Split) : (s.updSplit g e f).starving = s.starving := rfl
@[simp] theorem State.updSplit_pend (s : State) (g : GKey) (e : Nat) (f : Split → Split) : (s.updSplit g e f).pend = s.pend := rfl
@[simp] theorem State.updSplit_moves (s : State) (g : GKey) (e : Nat) (f : Split → Split) : (s.updSplit g e f).moves = s.moves := rfl
@[simp] theorem State.updSplit_ports (s : State) (g : GKey) (e : Nat) (f : Split → Split) : (s.updSplit g e f).ports = s.ports := rfl
@[simp] theorem State.updSplit_rflows (s : State) (g : GKey) (e : Nat) (f : Split → Split) : (s.updSplit g e f).rflows = s.rflows := rfl
@[simp] theorem State.updSplit_sflows (s : State) (g : GKey) (e : Nat) (f : Split → Split) : (s.updSplit g e f).sflows = s.sflows := rfl
@[simp] theorem State.updSplit_keepQueue (s : State) (g : GKey) (e : Nat) (f : Split → Split) : (s.updSplit g e f).keepQueue = s.keepQueue := rfl
@[simp] theorem State.updSplit_images (s : State) (g : GKey) (e : Nat) (f : Split → Split) : (s.updSplit g e f).images = s.images := rfl
@[simp] theorem State.updSplit_migrations (s : State) (g : GKey) (e : Nat) (f : Split → Split) : (s.updSplit g e f).migrations = s.migrations := rfl
@[simp] theorem State.updSplit_translated (s : State) (g : GKey) (e : Nat) (f : Split → Split) : (s.updSplit g e f).translated = s.translated := rfl
@[simp] theorem State.updSplit_sessions (s : State) (g : GKey) (e : Nat) (f : Split → Split) : (s.updSplit g e f).sessions = s.sessions := rfl
@[simp] theorem State.updSplit_debugKeys (s : State) (g : GKey) (e : Nat) (f : Split → Split) : (s.updSplit g e f).debugKeys = s.debugKeys := rfl
@[simp] theorem State.updSplit_outs (s : State) (g : GKey) (e : Nat) (f : Split → Split) : (s.updSplit g e f).outs = s.outs := rfl
@[simp] theorem State.updSplit_timeNs (s : State) (g : GKey) (e : Nat) (f : Split → Split) : (s.updSplit g e f).timeNs = s.timeNs := rfl
@[simp] theorem State.updSplit_timeFr (s : State) (g : GKey) (e : Nat) (f : Split → Split) : (s.updSplit g e f).timeFr = s.timeFr := rfl
@[simp] theorem State.updSplit_timeAt (s : State) (g : GKey) (e : Nat) (f : Split → Split) : (s.updSplit g e f).timeAt = s.timeAt := rfl
@[simp] theorem State.updSplit_slew (s : State) (g : GKey) (e : Nat) (f : Split → Split) : (s.updSplit g e f).slew = s.slew := rfl
@[simp] theorem State.updSplit_ptp (s : State) (g : GKey) (e : Nat) (f : Split → Split) : (s.updSplit g e f).ptp = s.ptp := rfl
@[simp] theorem State.updSplit_platform (s : State) (g : GKey) (e : Nat) (f : Split → Split) : (s.updSplit g e f).platform = s.platform := rfl
@[simp] theorem State.updSplit_launchSeq (s : State) (g : GKey) (e : Nat) (f : Split → Split) : (s.updSplit g e f).launchSeq = s.launchSeq := rfl
@[simp] theorem State.updSplit_nextId (s : State) (g : GKey) (e : Nat) (f : Split → Split) : (s.updSplit g e f).nextId = s.nextId := rfl

/-! ## updBlock -/

@[simp] theorem State.updBlock_turn (s : State) (b : BKey) (f : Block → Block) : (s.updBlock b f).turn = s.turn := rfl
@[simp] theorem State.updBlock_inputs (s : State) (b : BKey) (f : Block → Block) : (s.updBlock b f).inputs = s.inputs := rfl
@[simp] theorem State.updBlock_cycle (s : State) (b : BKey) (f : Block → Block) : (s.updBlock b f).cycle = s.cycle := rfl
@[simp] theorem State.updBlock_free (s : State) (b : BKey) (f : Block → Block) : (s.updBlock b f).free = s.free := rfl
@[simp] theorem State.updBlock_mem (s : State) (b : BKey) (f : Block → Block) : (s.updBlock b f).mem = s.mem := rfl
@[simp] theorem State.updBlock_poison (s : State) (b : BKey) (f : Block → Block) : (s.updBlock b f).poison = s.poison := rfl
@[simp] theorem State.updBlock_dirty (s : State) (b : BKey) (f : Block → Block) : (s.updBlock b f).dirty = s.dirty := rfl
@[simp] theorem State.updBlock_groups (s : State) (b : BKey) (f : Block → Block) : (s.updBlock b f).groups = s.groups := rfl
@[simp] theorem State.updBlock_regions (s : State) (b : BKey) (f : Block → Block) : (s.updBlock b f).regions = s.regions := rfl
@[simp] theorem State.updBlock_ctxs (s : State) (b : BKey) (f : Block → Block) : (s.updBlock b f).ctxs = s.ctxs := rfl
@[simp] theorem State.updBlock_vfs (s : State) (b : BKey) (f : Block → Block) : (s.updBlock b f).vfs = s.vfs := rfl
@[simp] theorem State.updBlock_cores (s : State) (b : BKey) (f : Block → Block) : (s.updBlock b f).cores = s.cores := rfl
@[simp] theorem State.updBlock_clusters (s : State) (b : BKey) (f : Block → Block) : (s.updBlock b f).clusters = s.clusters := rfl
@[simp] theorem State.updBlock_l2 (s : State) (b : BKey) (f : Block → Block) : (s.updBlock b f).l2 = s.l2 := rfl
@[simp] theorem State.updBlock_starving (s : State) (b : BKey) (f : Block → Block) : (s.updBlock b f).starving = s.starving := rfl
@[simp] theorem State.updBlock_pend (s : State) (b : BKey) (f : Block → Block) : (s.updBlock b f).pend = s.pend := rfl
@[simp] theorem State.updBlock_moves (s : State) (b : BKey) (f : Block → Block) : (s.updBlock b f).moves = s.moves := rfl
@[simp] theorem State.updBlock_ports (s : State) (b : BKey) (f : Block → Block) : (s.updBlock b f).ports = s.ports := rfl
@[simp] theorem State.updBlock_rflows (s : State) (b : BKey) (f : Block → Block) : (s.updBlock b f).rflows = s.rflows := rfl
@[simp] theorem State.updBlock_sflows (s : State) (b : BKey) (f : Block → Block) : (s.updBlock b f).sflows = s.sflows := rfl
@[simp] theorem State.updBlock_keepQueue (s : State) (b : BKey) (f : Block → Block) : (s.updBlock b f).keepQueue = s.keepQueue := rfl
@[simp] theorem State.updBlock_images (s : State) (b : BKey) (f : Block → Block) : (s.updBlock b f).images = s.images := rfl
@[simp] theorem State.updBlock_migrations (s : State) (b : BKey) (f : Block → Block) : (s.updBlock b f).migrations = s.migrations := rfl
@[simp] theorem State.updBlock_translated (s : State) (b : BKey) (f : Block → Block) : (s.updBlock b f).translated = s.translated := rfl
@[simp] theorem State.updBlock_sessions (s : State) (b : BKey) (f : Block → Block) : (s.updBlock b f).sessions = s.sessions := rfl
@[simp] theorem State.updBlock_debugKeys (s : State) (b : BKey) (f : Block → Block) : (s.updBlock b f).debugKeys = s.debugKeys := rfl
@[simp] theorem State.updBlock_outs (s : State) (b : BKey) (f : Block → Block) : (s.updBlock b f).outs = s.outs := rfl
@[simp] theorem State.updBlock_timeNs (s : State) (b : BKey) (f : Block → Block) : (s.updBlock b f).timeNs = s.timeNs := rfl
@[simp] theorem State.updBlock_timeFr (s : State) (b : BKey) (f : Block → Block) : (s.updBlock b f).timeFr = s.timeFr := rfl
@[simp] theorem State.updBlock_timeAt (s : State) (b : BKey) (f : Block → Block) : (s.updBlock b f).timeAt = s.timeAt := rfl
@[simp] theorem State.updBlock_slew (s : State) (b : BKey) (f : Block → Block) : (s.updBlock b f).slew = s.slew := rfl
@[simp] theorem State.updBlock_ptp (s : State) (b : BKey) (f : Block → Block) : (s.updBlock b f).ptp = s.ptp := rfl
@[simp] theorem State.updBlock_platform (s : State) (b : BKey) (f : Block → Block) : (s.updBlock b f).platform = s.platform := rfl
@[simp] theorem State.updBlock_launchSeq (s : State) (b : BKey) (f : Block → Block) : (s.updBlock b f).launchSeq = s.launchSeq := rfl
@[simp] theorem State.updBlock_nextId (s : State) (b : BKey) (f : Block → Block) : (s.updBlock b f).nextId = s.nextId := rfl

/-! ## updSeq -/

@[simp] theorem State.updSeq_turn (s : State) (b : BKey) (f : Seq → Seq) : (s.updSeq b f).turn = s.turn := rfl
@[simp] theorem State.updSeq_inputs (s : State) (b : BKey) (f : Seq → Seq) : (s.updSeq b f).inputs = s.inputs := rfl
@[simp] theorem State.updSeq_cycle (s : State) (b : BKey) (f : Seq → Seq) : (s.updSeq b f).cycle = s.cycle := rfl
@[simp] theorem State.updSeq_free (s : State) (b : BKey) (f : Seq → Seq) : (s.updSeq b f).free = s.free := rfl
@[simp] theorem State.updSeq_mem (s : State) (b : BKey) (f : Seq → Seq) : (s.updSeq b f).mem = s.mem := rfl
@[simp] theorem State.updSeq_poison (s : State) (b : BKey) (f : Seq → Seq) : (s.updSeq b f).poison = s.poison := rfl
@[simp] theorem State.updSeq_dirty (s : State) (b : BKey) (f : Seq → Seq) : (s.updSeq b f).dirty = s.dirty := rfl
@[simp] theorem State.updSeq_groups (s : State) (b : BKey) (f : Seq → Seq) : (s.updSeq b f).groups = s.groups := rfl
@[simp] theorem State.updSeq_regions (s : State) (b : BKey) (f : Seq → Seq) : (s.updSeq b f).regions = s.regions := rfl
@[simp] theorem State.updSeq_ctxs (s : State) (b : BKey) (f : Seq → Seq) : (s.updSeq b f).ctxs = s.ctxs := rfl
@[simp] theorem State.updSeq_vfs (s : State) (b : BKey) (f : Seq → Seq) : (s.updSeq b f).vfs = s.vfs := rfl
@[simp] theorem State.updSeq_cores (s : State) (b : BKey) (f : Seq → Seq) : (s.updSeq b f).cores = s.cores := rfl
@[simp] theorem State.updSeq_clusters (s : State) (b : BKey) (f : Seq → Seq) : (s.updSeq b f).clusters = s.clusters := rfl
@[simp] theorem State.updSeq_l2 (s : State) (b : BKey) (f : Seq → Seq) : (s.updSeq b f).l2 = s.l2 := rfl
@[simp] theorem State.updSeq_starving (s : State) (b : BKey) (f : Seq → Seq) : (s.updSeq b f).starving = s.starving := rfl
@[simp] theorem State.updSeq_pend (s : State) (b : BKey) (f : Seq → Seq) : (s.updSeq b f).pend = s.pend := rfl
@[simp] theorem State.updSeq_moves (s : State) (b : BKey) (f : Seq → Seq) : (s.updSeq b f).moves = s.moves := rfl
@[simp] theorem State.updSeq_ports (s : State) (b : BKey) (f : Seq → Seq) : (s.updSeq b f).ports = s.ports := rfl
@[simp] theorem State.updSeq_rflows (s : State) (b : BKey) (f : Seq → Seq) : (s.updSeq b f).rflows = s.rflows := rfl
@[simp] theorem State.updSeq_sflows (s : State) (b : BKey) (f : Seq → Seq) : (s.updSeq b f).sflows = s.sflows := rfl
@[simp] theorem State.updSeq_keepQueue (s : State) (b : BKey) (f : Seq → Seq) : (s.updSeq b f).keepQueue = s.keepQueue := rfl
@[simp] theorem State.updSeq_images (s : State) (b : BKey) (f : Seq → Seq) : (s.updSeq b f).images = s.images := rfl
@[simp] theorem State.updSeq_migrations (s : State) (b : BKey) (f : Seq → Seq) : (s.updSeq b f).migrations = s.migrations := rfl
@[simp] theorem State.updSeq_translated (s : State) (b : BKey) (f : Seq → Seq) : (s.updSeq b f).translated = s.translated := rfl
@[simp] theorem State.updSeq_sessions (s : State) (b : BKey) (f : Seq → Seq) : (s.updSeq b f).sessions = s.sessions := rfl
@[simp] theorem State.updSeq_debugKeys (s : State) (b : BKey) (f : Seq → Seq) : (s.updSeq b f).debugKeys = s.debugKeys := rfl
@[simp] theorem State.updSeq_outs (s : State) (b : BKey) (f : Seq → Seq) : (s.updSeq b f).outs = s.outs := rfl
@[simp] theorem State.updSeq_timeNs (s : State) (b : BKey) (f : Seq → Seq) : (s.updSeq b f).timeNs = s.timeNs := rfl
@[simp] theorem State.updSeq_timeFr (s : State) (b : BKey) (f : Seq → Seq) : (s.updSeq b f).timeFr = s.timeFr := rfl
@[simp] theorem State.updSeq_timeAt (s : State) (b : BKey) (f : Seq → Seq) : (s.updSeq b f).timeAt = s.timeAt := rfl
@[simp] theorem State.updSeq_slew (s : State) (b : BKey) (f : Seq → Seq) : (s.updSeq b f).slew = s.slew := rfl
@[simp] theorem State.updSeq_ptp (s : State) (b : BKey) (f : Seq → Seq) : (s.updSeq b f).ptp = s.ptp := rfl
@[simp] theorem State.updSeq_platform (s : State) (b : BKey) (f : Seq → Seq) : (s.updSeq b f).platform = s.platform := rfl
@[simp] theorem State.updSeq_launchSeq (s : State) (b : BKey) (f : Seq → Seq) : (s.updSeq b f).launchSeq = s.launchSeq := rfl
@[simp] theorem State.updSeq_nextId (s : State) (b : BKey) (f : Seq → Seq) : (s.updSeq b f).nextId = s.nextId := rfl

/-! ## updRegion -/

@[simp] theorem State.updRegion_turn (s : State) (r : RKey) (f : Region → Region) : (s.updRegion r f).turn = s.turn := rfl
@[simp] theorem State.updRegion_inputs (s : State) (r : RKey) (f : Region → Region) : (s.updRegion r f).inputs = s.inputs := rfl
@[simp] theorem State.updRegion_cycle (s : State) (r : RKey) (f : Region → Region) : (s.updRegion r f).cycle = s.cycle := rfl
@[simp] theorem State.updRegion_free (s : State) (r : RKey) (f : Region → Region) : (s.updRegion r f).free = s.free := rfl
@[simp] theorem State.updRegion_mem (s : State) (r : RKey) (f : Region → Region) : (s.updRegion r f).mem = s.mem := rfl
@[simp] theorem State.updRegion_poison (s : State) (r : RKey) (f : Region → Region) : (s.updRegion r f).poison = s.poison := rfl
@[simp] theorem State.updRegion_dirty (s : State) (r : RKey) (f : Region → Region) : (s.updRegion r f).dirty = s.dirty := rfl
@[simp] theorem State.updRegion_groups (s : State) (r : RKey) (f : Region → Region) : (s.updRegion r f).groups = s.groups := rfl
@[simp] theorem State.updRegion_blocks (s : State) (r : RKey) (f : Region → Region) : (s.updRegion r f).blocks = s.blocks := rfl
@[simp] theorem State.updRegion_ctxs (s : State) (r : RKey) (f : Region → Region) : (s.updRegion r f).ctxs = s.ctxs := rfl
@[simp] theorem State.updRegion_vfs (s : State) (r : RKey) (f : Region → Region) : (s.updRegion r f).vfs = s.vfs := rfl
@[simp] theorem State.updRegion_cores (s : State) (r : RKey) (f : Region → Region) : (s.updRegion r f).cores = s.cores := rfl
@[simp] theorem State.updRegion_clusters (s : State) (r : RKey) (f : Region → Region) : (s.updRegion r f).clusters = s.clusters := rfl
@[simp] theorem State.updRegion_l2 (s : State) (r : RKey) (f : Region → Region) : (s.updRegion r f).l2 = s.l2 := rfl
@[simp] theorem State.updRegion_starving (s : State) (r : RKey) (f : Region → Region) : (s.updRegion r f).starving = s.starving := rfl
@[simp] theorem State.updRegion_pend (s : State) (r : RKey) (f : Region → Region) : (s.updRegion r f).pend = s.pend := rfl
@[simp] theorem State.updRegion_moves (s : State) (r : RKey) (f : Region → Region) : (s.updRegion r f).moves = s.moves := rfl
@[simp] theorem State.updRegion_ports (s : State) (r : RKey) (f : Region → Region) : (s.updRegion r f).ports = s.ports := rfl
@[simp] theorem State.updRegion_rflows (s : State) (r : RKey) (f : Region → Region) : (s.updRegion r f).rflows = s.rflows := rfl
@[simp] theorem State.updRegion_sflows (s : State) (r : RKey) (f : Region → Region) : (s.updRegion r f).sflows = s.sflows := rfl
@[simp] theorem State.updRegion_keepQueue (s : State) (r : RKey) (f : Region → Region) : (s.updRegion r f).keepQueue = s.keepQueue := rfl
@[simp] theorem State.updRegion_images (s : State) (r : RKey) (f : Region → Region) : (s.updRegion r f).images = s.images := rfl
@[simp] theorem State.updRegion_migrations (s : State) (r : RKey) (f : Region → Region) : (s.updRegion r f).migrations = s.migrations := rfl
@[simp] theorem State.updRegion_translated (s : State) (r : RKey) (f : Region → Region) : (s.updRegion r f).translated = s.translated := rfl
@[simp] theorem State.updRegion_sessions (s : State) (r : RKey) (f : Region → Region) : (s.updRegion r f).sessions = s.sessions := rfl
@[simp] theorem State.updRegion_debugKeys (s : State) (r : RKey) (f : Region → Region) : (s.updRegion r f).debugKeys = s.debugKeys := rfl
@[simp] theorem State.updRegion_outs (s : State) (r : RKey) (f : Region → Region) : (s.updRegion r f).outs = s.outs := rfl
@[simp] theorem State.updRegion_timeNs (s : State) (r : RKey) (f : Region → Region) : (s.updRegion r f).timeNs = s.timeNs := rfl
@[simp] theorem State.updRegion_timeFr (s : State) (r : RKey) (f : Region → Region) : (s.updRegion r f).timeFr = s.timeFr := rfl
@[simp] theorem State.updRegion_timeAt (s : State) (r : RKey) (f : Region → Region) : (s.updRegion r f).timeAt = s.timeAt := rfl
@[simp] theorem State.updRegion_slew (s : State) (r : RKey) (f : Region → Region) : (s.updRegion r f).slew = s.slew := rfl
@[simp] theorem State.updRegion_ptp (s : State) (r : RKey) (f : Region → Region) : (s.updRegion r f).ptp = s.ptp := rfl
@[simp] theorem State.updRegion_platform (s : State) (r : RKey) (f : Region → Region) : (s.updRegion r f).platform = s.platform := rfl
@[simp] theorem State.updRegion_launchSeq (s : State) (r : RKey) (f : Region → Region) : (s.updRegion r f).launchSeq = s.launchSeq := rfl
@[simp] theorem State.updRegion_nextId (s : State) (r : RKey) (f : Region → Region) : (s.updRegion r f).nextId = s.nextId := rfl

/-! ## updCtx -/

@[simp] theorem State.updCtx_turn (s : State) (c : CKey) (f : Context → Context) : (s.updCtx c f).turn = s.turn := rfl
@[simp] theorem State.updCtx_inputs (s : State) (c : CKey) (f : Context → Context) : (s.updCtx c f).inputs = s.inputs := rfl
@[simp] theorem State.updCtx_cycle (s : State) (c : CKey) (f : Context → Context) : (s.updCtx c f).cycle = s.cycle := rfl
@[simp] theorem State.updCtx_free (s : State) (c : CKey) (f : Context → Context) : (s.updCtx c f).free = s.free := rfl
@[simp] theorem State.updCtx_mem (s : State) (c : CKey) (f : Context → Context) : (s.updCtx c f).mem = s.mem := rfl
@[simp] theorem State.updCtx_poison (s : State) (c : CKey) (f : Context → Context) : (s.updCtx c f).poison = s.poison := rfl
@[simp] theorem State.updCtx_dirty (s : State) (c : CKey) (f : Context → Context) : (s.updCtx c f).dirty = s.dirty := rfl
@[simp] theorem State.updCtx_groups (s : State) (c : CKey) (f : Context → Context) : (s.updCtx c f).groups = s.groups := rfl
@[simp] theorem State.updCtx_blocks (s : State) (c : CKey) (f : Context → Context) : (s.updCtx c f).blocks = s.blocks := rfl
@[simp] theorem State.updCtx_regions (s : State) (c : CKey) (f : Context → Context) : (s.updCtx c f).regions = s.regions := rfl
@[simp] theorem State.updCtx_vfs (s : State) (c : CKey) (f : Context → Context) : (s.updCtx c f).vfs = s.vfs := rfl
@[simp] theorem State.updCtx_cores (s : State) (c : CKey) (f : Context → Context) : (s.updCtx c f).cores = s.cores := rfl
@[simp] theorem State.updCtx_clusters (s : State) (c : CKey) (f : Context → Context) : (s.updCtx c f).clusters = s.clusters := rfl
@[simp] theorem State.updCtx_l2 (s : State) (c : CKey) (f : Context → Context) : (s.updCtx c f).l2 = s.l2 := rfl
@[simp] theorem State.updCtx_starving (s : State) (c : CKey) (f : Context → Context) : (s.updCtx c f).starving = s.starving := rfl
@[simp] theorem State.updCtx_pend (s : State) (c : CKey) (f : Context → Context) : (s.updCtx c f).pend = s.pend := rfl
@[simp] theorem State.updCtx_moves (s : State) (c : CKey) (f : Context → Context) : (s.updCtx c f).moves = s.moves := rfl
@[simp] theorem State.updCtx_ports (s : State) (c : CKey) (f : Context → Context) : (s.updCtx c f).ports = s.ports := rfl
@[simp] theorem State.updCtx_rflows (s : State) (c : CKey) (f : Context → Context) : (s.updCtx c f).rflows = s.rflows := rfl
@[simp] theorem State.updCtx_sflows (s : State) (c : CKey) (f : Context → Context) : (s.updCtx c f).sflows = s.sflows := rfl
@[simp] theorem State.updCtx_keepQueue (s : State) (c : CKey) (f : Context → Context) : (s.updCtx c f).keepQueue = s.keepQueue := rfl
@[simp] theorem State.updCtx_images (s : State) (c : CKey) (f : Context → Context) : (s.updCtx c f).images = s.images := rfl
@[simp] theorem State.updCtx_migrations (s : State) (c : CKey) (f : Context → Context) : (s.updCtx c f).migrations = s.migrations := rfl
@[simp] theorem State.updCtx_translated (s : State) (c : CKey) (f : Context → Context) : (s.updCtx c f).translated = s.translated := rfl
@[simp] theorem State.updCtx_sessions (s : State) (c : CKey) (f : Context → Context) : (s.updCtx c f).sessions = s.sessions := rfl
@[simp] theorem State.updCtx_debugKeys (s : State) (c : CKey) (f : Context → Context) : (s.updCtx c f).debugKeys = s.debugKeys := rfl
@[simp] theorem State.updCtx_outs (s : State) (c : CKey) (f : Context → Context) : (s.updCtx c f).outs = s.outs := rfl
@[simp] theorem State.updCtx_timeNs (s : State) (c : CKey) (f : Context → Context) : (s.updCtx c f).timeNs = s.timeNs := rfl
@[simp] theorem State.updCtx_timeFr (s : State) (c : CKey) (f : Context → Context) : (s.updCtx c f).timeFr = s.timeFr := rfl
@[simp] theorem State.updCtx_timeAt (s : State) (c : CKey) (f : Context → Context) : (s.updCtx c f).timeAt = s.timeAt := rfl
@[simp] theorem State.updCtx_slew (s : State) (c : CKey) (f : Context → Context) : (s.updCtx c f).slew = s.slew := rfl
@[simp] theorem State.updCtx_ptp (s : State) (c : CKey) (f : Context → Context) : (s.updCtx c f).ptp = s.ptp := rfl
@[simp] theorem State.updCtx_platform (s : State) (c : CKey) (f : Context → Context) : (s.updCtx c f).platform = s.platform := rfl
@[simp] theorem State.updCtx_launchSeq (s : State) (c : CKey) (f : Context → Context) : (s.updCtx c f).launchSeq = s.launchSeq := rfl
@[simp] theorem State.updCtx_nextId (s : State) (c : CKey) (f : Context → Context) : (s.updCtx c f).nextId = s.nextId := rfl

/-! ## bump -/

@[simp] theorem State.bump_turn (s : State) (c : CKey) (n k : Nat) : (s.bump c n k).turn = s.turn := rfl
@[simp] theorem State.bump_inputs (s : State) (c : CKey) (n k : Nat) : (s.bump c n k).inputs = s.inputs := rfl
@[simp] theorem State.bump_cycle (s : State) (c : CKey) (n k : Nat) : (s.bump c n k).cycle = s.cycle := rfl
@[simp] theorem State.bump_free (s : State) (c : CKey) (n k : Nat) : (s.bump c n k).free = s.free := rfl
@[simp] theorem State.bump_mem (s : State) (c : CKey) (n k : Nat) : (s.bump c n k).mem = s.mem := rfl
@[simp] theorem State.bump_poison (s : State) (c : CKey) (n k : Nat) : (s.bump c n k).poison = s.poison := rfl
@[simp] theorem State.bump_dirty (s : State) (c : CKey) (n k : Nat) : (s.bump c n k).dirty = s.dirty := rfl
@[simp] theorem State.bump_groups (s : State) (c : CKey) (n k : Nat) : (s.bump c n k).groups = s.groups := rfl
@[simp] theorem State.bump_blocks (s : State) (c : CKey) (n k : Nat) : (s.bump c n k).blocks = s.blocks := rfl
@[simp] theorem State.bump_regions (s : State) (c : CKey) (n k : Nat) : (s.bump c n k).regions = s.regions := rfl
@[simp] theorem State.bump_vfs (s : State) (c : CKey) (n k : Nat) : (s.bump c n k).vfs = s.vfs := rfl
@[simp] theorem State.bump_cores (s : State) (c : CKey) (n k : Nat) : (s.bump c n k).cores = s.cores := rfl
@[simp] theorem State.bump_clusters (s : State) (c : CKey) (n k : Nat) : (s.bump c n k).clusters = s.clusters := rfl
@[simp] theorem State.bump_l2 (s : State) (c : CKey) (n k : Nat) : (s.bump c n k).l2 = s.l2 := rfl
@[simp] theorem State.bump_starving (s : State) (c : CKey) (n k : Nat) : (s.bump c n k).starving = s.starving := rfl
@[simp] theorem State.bump_pend (s : State) (c : CKey) (n k : Nat) : (s.bump c n k).pend = s.pend := rfl
@[simp] theorem State.bump_moves (s : State) (c : CKey) (n k : Nat) : (s.bump c n k).moves = s.moves := rfl
@[simp] theorem State.bump_ports (s : State) (c : CKey) (n k : Nat) : (s.bump c n k).ports = s.ports := rfl
@[simp] theorem State.bump_rflows (s : State) (c : CKey) (n k : Nat) : (s.bump c n k).rflows = s.rflows := rfl
@[simp] theorem State.bump_sflows (s : State) (c : CKey) (n k : Nat) : (s.bump c n k).sflows = s.sflows := rfl
@[simp] theorem State.bump_keepQueue (s : State) (c : CKey) (n k : Nat) : (s.bump c n k).keepQueue = s.keepQueue := rfl
@[simp] theorem State.bump_images (s : State) (c : CKey) (n k : Nat) : (s.bump c n k).images = s.images := rfl
@[simp] theorem State.bump_migrations (s : State) (c : CKey) (n k : Nat) : (s.bump c n k).migrations = s.migrations := rfl
@[simp] theorem State.bump_translated (s : State) (c : CKey) (n k : Nat) : (s.bump c n k).translated = s.translated := rfl
@[simp] theorem State.bump_sessions (s : State) (c : CKey) (n k : Nat) : (s.bump c n k).sessions = s.sessions := rfl
@[simp] theorem State.bump_debugKeys (s : State) (c : CKey) (n k : Nat) : (s.bump c n k).debugKeys = s.debugKeys := rfl
@[simp] theorem State.bump_outs (s : State) (c : CKey) (n k : Nat) : (s.bump c n k).outs = s.outs := rfl
@[simp] theorem State.bump_timeNs (s : State) (c : CKey) (n k : Nat) : (s.bump c n k).timeNs = s.timeNs := rfl
@[simp] theorem State.bump_timeFr (s : State) (c : CKey) (n k : Nat) : (s.bump c n k).timeFr = s.timeFr := rfl
@[simp] theorem State.bump_timeAt (s : State) (c : CKey) (n k : Nat) : (s.bump c n k).timeAt = s.timeAt := rfl
@[simp] theorem State.bump_slew (s : State) (c : CKey) (n k : Nat) : (s.bump c n k).slew = s.slew := rfl
@[simp] theorem State.bump_ptp (s : State) (c : CKey) (n k : Nat) : (s.bump c n k).ptp = s.ptp := rfl
@[simp] theorem State.bump_platform (s : State) (c : CKey) (n k : Nat) : (s.bump c n k).platform = s.platform := rfl
@[simp] theorem State.bump_launchSeq (s : State) (c : CKey) (n k : Nat) : (s.bump c n k).launchSeq = s.launchSeq := rfl
@[simp] theorem State.bump_nextId (s : State) (c : CKey) (n k : Nat) : (s.bump c n k).nextId = s.nextId := rfl

/-! ## updVf -/

@[simp] theorem State.updVf_turn (s : State) (n : Nat) (f : VFunc → VFunc) : (s.updVf n f).turn = s.turn := rfl
@[simp] theorem State.updVf_inputs (s : State) (n : Nat) (f : VFunc → VFunc) : (s.updVf n f).inputs = s.inputs := rfl
@[simp] theorem State.updVf_cycle (s : State) (n : Nat) (f : VFunc → VFunc) : (s.updVf n f).cycle = s.cycle := rfl
@[simp] theorem State.updVf_free (s : State) (n : Nat) (f : VFunc → VFunc) : (s.updVf n f).free = s.free := rfl
@[simp] theorem State.updVf_mem (s : State) (n : Nat) (f : VFunc → VFunc) : (s.updVf n f).mem = s.mem := rfl
@[simp] theorem State.updVf_poison (s : State) (n : Nat) (f : VFunc → VFunc) : (s.updVf n f).poison = s.poison := rfl
@[simp] theorem State.updVf_dirty (s : State) (n : Nat) (f : VFunc → VFunc) : (s.updVf n f).dirty = s.dirty := rfl
@[simp] theorem State.updVf_groups (s : State) (n : Nat) (f : VFunc → VFunc) : (s.updVf n f).groups = s.groups := rfl
@[simp] theorem State.updVf_blocks (s : State) (n : Nat) (f : VFunc → VFunc) : (s.updVf n f).blocks = s.blocks := rfl
@[simp] theorem State.updVf_regions (s : State) (n : Nat) (f : VFunc → VFunc) : (s.updVf n f).regions = s.regions := rfl
@[simp] theorem State.updVf_ctxs (s : State) (n : Nat) (f : VFunc → VFunc) : (s.updVf n f).ctxs = s.ctxs := rfl
@[simp] theorem State.updVf_cores (s : State) (n : Nat) (f : VFunc → VFunc) : (s.updVf n f).cores = s.cores := rfl
@[simp] theorem State.updVf_clusters (s : State) (n : Nat) (f : VFunc → VFunc) : (s.updVf n f).clusters = s.clusters := rfl
@[simp] theorem State.updVf_l2 (s : State) (n : Nat) (f : VFunc → VFunc) : (s.updVf n f).l2 = s.l2 := rfl
@[simp] theorem State.updVf_starving (s : State) (n : Nat) (f : VFunc → VFunc) : (s.updVf n f).starving = s.starving := rfl
@[simp] theorem State.updVf_pend (s : State) (n : Nat) (f : VFunc → VFunc) : (s.updVf n f).pend = s.pend := rfl
@[simp] theorem State.updVf_moves (s : State) (n : Nat) (f : VFunc → VFunc) : (s.updVf n f).moves = s.moves := rfl
@[simp] theorem State.updVf_ports (s : State) (n : Nat) (f : VFunc → VFunc) : (s.updVf n f).ports = s.ports := rfl
@[simp] theorem State.updVf_rflows (s : State) (n : Nat) (f : VFunc → VFunc) : (s.updVf n f).rflows = s.rflows := rfl
@[simp] theorem State.updVf_sflows (s : State) (n : Nat) (f : VFunc → VFunc) : (s.updVf n f).sflows = s.sflows := rfl
@[simp] theorem State.updVf_keepQueue (s : State) (n : Nat) (f : VFunc → VFunc) : (s.updVf n f).keepQueue = s.keepQueue := rfl
@[simp] theorem State.updVf_images (s : State) (n : Nat) (f : VFunc → VFunc) : (s.updVf n f).images = s.images := rfl
@[simp] theorem State.updVf_migrations (s : State) (n : Nat) (f : VFunc → VFunc) : (s.updVf n f).migrations = s.migrations := rfl
@[simp] theorem State.updVf_translated (s : State) (n : Nat) (f : VFunc → VFunc) : (s.updVf n f).translated = s.translated := rfl
@[simp] theorem State.updVf_sessions (s : State) (n : Nat) (f : VFunc → VFunc) : (s.updVf n f).sessions = s.sessions := rfl
@[simp] theorem State.updVf_debugKeys (s : State) (n : Nat) (f : VFunc → VFunc) : (s.updVf n f).debugKeys = s.debugKeys := rfl
@[simp] theorem State.updVf_outs (s : State) (n : Nat) (f : VFunc → VFunc) : (s.updVf n f).outs = s.outs := rfl
@[simp] theorem State.updVf_timeNs (s : State) (n : Nat) (f : VFunc → VFunc) : (s.updVf n f).timeNs = s.timeNs := rfl
@[simp] theorem State.updVf_timeFr (s : State) (n : Nat) (f : VFunc → VFunc) : (s.updVf n f).timeFr = s.timeFr := rfl
@[simp] theorem State.updVf_timeAt (s : State) (n : Nat) (f : VFunc → VFunc) : (s.updVf n f).timeAt = s.timeAt := rfl
@[simp] theorem State.updVf_slew (s : State) (n : Nat) (f : VFunc → VFunc) : (s.updVf n f).slew = s.slew := rfl
@[simp] theorem State.updVf_ptp (s : State) (n : Nat) (f : VFunc → VFunc) : (s.updVf n f).ptp = s.ptp := rfl
@[simp] theorem State.updVf_platform (s : State) (n : Nat) (f : VFunc → VFunc) : (s.updVf n f).platform = s.platform := rfl
@[simp] theorem State.updVf_launchSeq (s : State) (n : Nat) (f : VFunc → VFunc) : (s.updVf n f).launchSeq = s.launchSeq := rfl
@[simp] theorem State.updVf_nextId (s : State) (n : Nat) (f : VFunc → VFunc) : (s.updVf n f).nextId = s.nextId := rfl

/-! ## updCore -/

@[simp] theorem State.updCore_turn (s : State) (n : Nat) (f : Core → Core) : (s.updCore n f).turn = s.turn := rfl
@[simp] theorem State.updCore_inputs (s : State) (n : Nat) (f : Core → Core) : (s.updCore n f).inputs = s.inputs := rfl
@[simp] theorem State.updCore_cycle (s : State) (n : Nat) (f : Core → Core) : (s.updCore n f).cycle = s.cycle := rfl
@[simp] theorem State.updCore_free (s : State) (n : Nat) (f : Core → Core) : (s.updCore n f).free = s.free := rfl
@[simp] theorem State.updCore_mem (s : State) (n : Nat) (f : Core → Core) : (s.updCore n f).mem = s.mem := rfl
@[simp] theorem State.updCore_poison (s : State) (n : Nat) (f : Core → Core) : (s.updCore n f).poison = s.poison := rfl
@[simp] theorem State.updCore_dirty (s : State) (n : Nat) (f : Core → Core) : (s.updCore n f).dirty = s.dirty := rfl
@[simp] theorem State.updCore_groups (s : State) (n : Nat) (f : Core → Core) : (s.updCore n f).groups = s.groups := rfl
@[simp] theorem State.updCore_blocks (s : State) (n : Nat) (f : Core → Core) : (s.updCore n f).blocks = s.blocks := rfl
@[simp] theorem State.updCore_regions (s : State) (n : Nat) (f : Core → Core) : (s.updCore n f).regions = s.regions := rfl
@[simp] theorem State.updCore_ctxs (s : State) (n : Nat) (f : Core → Core) : (s.updCore n f).ctxs = s.ctxs := rfl
@[simp] theorem State.updCore_vfs (s : State) (n : Nat) (f : Core → Core) : (s.updCore n f).vfs = s.vfs := rfl
@[simp] theorem State.updCore_clusters (s : State) (n : Nat) (f : Core → Core) : (s.updCore n f).clusters = s.clusters := rfl
@[simp] theorem State.updCore_l2 (s : State) (n : Nat) (f : Core → Core) : (s.updCore n f).l2 = s.l2 := rfl
@[simp] theorem State.updCore_starving (s : State) (n : Nat) (f : Core → Core) : (s.updCore n f).starving = s.starving := rfl
@[simp] theorem State.updCore_pend (s : State) (n : Nat) (f : Core → Core) : (s.updCore n f).pend = s.pend := rfl
@[simp] theorem State.updCore_moves (s : State) (n : Nat) (f : Core → Core) : (s.updCore n f).moves = s.moves := rfl
@[simp] theorem State.updCore_ports (s : State) (n : Nat) (f : Core → Core) : (s.updCore n f).ports = s.ports := rfl
@[simp] theorem State.updCore_rflows (s : State) (n : Nat) (f : Core → Core) : (s.updCore n f).rflows = s.rflows := rfl
@[simp] theorem State.updCore_sflows (s : State) (n : Nat) (f : Core → Core) : (s.updCore n f).sflows = s.sflows := rfl
@[simp] theorem State.updCore_keepQueue (s : State) (n : Nat) (f : Core → Core) : (s.updCore n f).keepQueue = s.keepQueue := rfl
@[simp] theorem State.updCore_images (s : State) (n : Nat) (f : Core → Core) : (s.updCore n f).images = s.images := rfl
@[simp] theorem State.updCore_migrations (s : State) (n : Nat) (f : Core → Core) : (s.updCore n f).migrations = s.migrations := rfl
@[simp] theorem State.updCore_translated (s : State) (n : Nat) (f : Core → Core) : (s.updCore n f).translated = s.translated := rfl
@[simp] theorem State.updCore_sessions (s : State) (n : Nat) (f : Core → Core) : (s.updCore n f).sessions = s.sessions := rfl
@[simp] theorem State.updCore_debugKeys (s : State) (n : Nat) (f : Core → Core) : (s.updCore n f).debugKeys = s.debugKeys := rfl
@[simp] theorem State.updCore_outs (s : State) (n : Nat) (f : Core → Core) : (s.updCore n f).outs = s.outs := rfl
@[simp] theorem State.updCore_timeNs (s : State) (n : Nat) (f : Core → Core) : (s.updCore n f).timeNs = s.timeNs := rfl
@[simp] theorem State.updCore_timeFr (s : State) (n : Nat) (f : Core → Core) : (s.updCore n f).timeFr = s.timeFr := rfl
@[simp] theorem State.updCore_timeAt (s : State) (n : Nat) (f : Core → Core) : (s.updCore n f).timeAt = s.timeAt := rfl
@[simp] theorem State.updCore_slew (s : State) (n : Nat) (f : Core → Core) : (s.updCore n f).slew = s.slew := rfl
@[simp] theorem State.updCore_ptp (s : State) (n : Nat) (f : Core → Core) : (s.updCore n f).ptp = s.ptp := rfl
@[simp] theorem State.updCore_platform (s : State) (n : Nat) (f : Core → Core) : (s.updCore n f).platform = s.platform := rfl
@[simp] theorem State.updCore_launchSeq (s : State) (n : Nat) (f : Core → Core) : (s.updCore n f).launchSeq = s.launchSeq := rfl
@[simp] theorem State.updCore_nextId (s : State) (n : Nat) (f : Core → Core) : (s.updCore n f).nextId = s.nextId := rfl

/-! ## updCluster -/

@[simp] theorem State.updCluster_turn (s : State) (n : Nat) (f : Cluster → Cluster) : (s.updCluster n f).turn = s.turn := rfl
@[simp] theorem State.updCluster_inputs (s : State) (n : Nat) (f : Cluster → Cluster) : (s.updCluster n f).inputs = s.inputs := rfl
@[simp] theorem State.updCluster_cycle (s : State) (n : Nat) (f : Cluster → Cluster) : (s.updCluster n f).cycle = s.cycle := rfl
@[simp] theorem State.updCluster_free (s : State) (n : Nat) (f : Cluster → Cluster) : (s.updCluster n f).free = s.free := rfl
@[simp] theorem State.updCluster_mem (s : State) (n : Nat) (f : Cluster → Cluster) : (s.updCluster n f).mem = s.mem := rfl
@[simp] theorem State.updCluster_poison (s : State) (n : Nat) (f : Cluster → Cluster) : (s.updCluster n f).poison = s.poison := rfl
@[simp] theorem State.updCluster_dirty (s : State) (n : Nat) (f : Cluster → Cluster) : (s.updCluster n f).dirty = s.dirty := rfl
@[simp] theorem State.updCluster_groups (s : State) (n : Nat) (f : Cluster → Cluster) : (s.updCluster n f).groups = s.groups := rfl
@[simp] theorem State.updCluster_blocks (s : State) (n : Nat) (f : Cluster → Cluster) : (s.updCluster n f).blocks = s.blocks := rfl
@[simp] theorem State.updCluster_regions (s : State) (n : Nat) (f : Cluster → Cluster) : (s.updCluster n f).regions = s.regions := rfl
@[simp] theorem State.updCluster_ctxs (s : State) (n : Nat) (f : Cluster → Cluster) : (s.updCluster n f).ctxs = s.ctxs := rfl
@[simp] theorem State.updCluster_vfs (s : State) (n : Nat) (f : Cluster → Cluster) : (s.updCluster n f).vfs = s.vfs := rfl
@[simp] theorem State.updCluster_cores (s : State) (n : Nat) (f : Cluster → Cluster) : (s.updCluster n f).cores = s.cores := rfl
@[simp] theorem State.updCluster_l2 (s : State) (n : Nat) (f : Cluster → Cluster) : (s.updCluster n f).l2 = s.l2 := rfl
@[simp] theorem State.updCluster_starving (s : State) (n : Nat) (f : Cluster → Cluster) : (s.updCluster n f).starving = s.starving := rfl
@[simp] theorem State.updCluster_pend (s : State) (n : Nat) (f : Cluster → Cluster) : (s.updCluster n f).pend = s.pend := rfl
@[simp] theorem State.updCluster_moves (s : State) (n : Nat) (f : Cluster → Cluster) : (s.updCluster n f).moves = s.moves := rfl
@[simp] theorem State.updCluster_ports (s : State) (n : Nat) (f : Cluster → Cluster) : (s.updCluster n f).ports = s.ports := rfl
@[simp] theorem State.updCluster_rflows (s : State) (n : Nat) (f : Cluster → Cluster) : (s.updCluster n f).rflows = s.rflows := rfl
@[simp] theorem State.updCluster_sflows (s : State) (n : Nat) (f : Cluster → Cluster) : (s.updCluster n f).sflows = s.sflows := rfl
@[simp] theorem State.updCluster_keepQueue (s : State) (n : Nat) (f : Cluster → Cluster) : (s.updCluster n f).keepQueue = s.keepQueue := rfl
@[simp] theorem State.updCluster_images (s : State) (n : Nat) (f : Cluster → Cluster) : (s.updCluster n f).images = s.images := rfl
@[simp] theorem State.updCluster_migrations (s : State) (n : Nat) (f : Cluster → Cluster) : (s.updCluster n f).migrations = s.migrations := rfl
@[simp] theorem State.updCluster_translated (s : State) (n : Nat) (f : Cluster → Cluster) : (s.updCluster n f).translated = s.translated := rfl
@[simp] theorem State.updCluster_sessions (s : State) (n : Nat) (f : Cluster → Cluster) : (s.updCluster n f).sessions = s.sessions := rfl
@[simp] theorem State.updCluster_debugKeys (s : State) (n : Nat) (f : Cluster → Cluster) : (s.updCluster n f).debugKeys = s.debugKeys := rfl
@[simp] theorem State.updCluster_outs (s : State) (n : Nat) (f : Cluster → Cluster) : (s.updCluster n f).outs = s.outs := rfl
@[simp] theorem State.updCluster_timeNs (s : State) (n : Nat) (f : Cluster → Cluster) : (s.updCluster n f).timeNs = s.timeNs := rfl
@[simp] theorem State.updCluster_timeFr (s : State) (n : Nat) (f : Cluster → Cluster) : (s.updCluster n f).timeFr = s.timeFr := rfl
@[simp] theorem State.updCluster_timeAt (s : State) (n : Nat) (f : Cluster → Cluster) : (s.updCluster n f).timeAt = s.timeAt := rfl
@[simp] theorem State.updCluster_slew (s : State) (n : Nat) (f : Cluster → Cluster) : (s.updCluster n f).slew = s.slew := rfl
@[simp] theorem State.updCluster_ptp (s : State) (n : Nat) (f : Cluster → Cluster) : (s.updCluster n f).ptp = s.ptp := rfl
@[simp] theorem State.updCluster_platform (s : State) (n : Nat) (f : Cluster → Cluster) : (s.updCluster n f).platform = s.platform := rfl
@[simp] theorem State.updCluster_launchSeq (s : State) (n : Nat) (f : Cluster → Cluster) : (s.updCluster n f).launchSeq = s.launchSeq := rfl
@[simp] theorem State.updCluster_nextId (s : State) (n : Nat) (f : Cluster → Cluster) : (s.updCluster n f).nextId = s.nextId := rfl

/-! ## The objects -/

theorem State.group_setGroup (s : State) (g k : GKey) (x : Group) :
    (s.setGroup g x).group k = if g = k then x else s.group k := Tab.get_put ..
@[simp] theorem State.group_setGroup_self (s : State) (g : GKey) (x : Group) : (s.setGroup g x).group g = x := by
  simp [State.group_setGroup]
theorem State.group_updGroup (s : State) (g k : GKey) (f : Group → Group) :
    (s.updGroup g f).group k = if g = k then f (s.group g) else s.group k := Tab.get_put ..
@[simp] theorem State.group_updGroup_self (s : State) (g : GKey) (f : Group → Group) :
    (s.updGroup g f).group g = f (s.group g) := by simp [State.group_updGroup]
theorem State.group_updGroup_ne (s : State) {g k : GKey} (f : Group → Group) (h : g ≠ k) :
    (s.updGroup g f).group k = s.group k := by simp [State.group_updGroup, h]
@[simp] theorem State.updGroup_updGroup (s : State) (g : GKey) (f h : Group → Group) :
    (s.updGroup g f).updGroup g h = s.updGroup g fun x => h (f x) := by
  simp [State.updGroup, State.setGroup, State.group]
theorem State.updGroup_congr {s : State} {g : GKey} {f h : Group → Group} (e : f (s.group g) = h (s.group g)) :
    s.updGroup g f = s.updGroup g h := by simp [State.updGroup, e]
theorem State.updSplit_bump (s : State) (g : GKey) (e : Nat) (f : Split → Split) (c : CKey) (n k : Nat) :
    (s.bump c n k).updSplit g e f = (s.updSplit g e f).bump c n k := rfl
theorem State.updGroup_bump (s : State) (g : GKey) (f : Group → Group) (c : CKey) (n k : Nat) :
    (s.bump c n k).updGroup g f = (s.updGroup g f).bump c n k := rfl
@[simp] theorem State.group_updSplit_self (s : State) (g : GKey) (e : Nat) (f : Split → Split) :
    (s.updSplit g e f).group g = { s.group g with ents := (s.group g).ents.put e (f (s.split g e)) } := by
  simp [State.updSplit, State.split]
theorem State.group_updSplit_ne (s : State) {g k : GKey} (e : Nat) (f : Split → Split) (h : g ≠ k) :
    (s.updSplit g e f).group k = s.group k := State.group_updGroup_ne s _ h
theorem State.split_updSplit (s : State) (g : GKey) (e i : Nat) (f : Split → Split) :
    (s.updSplit g e f).split g i = if e = i then f (s.split g e) else s.split g i := by
  simp [State.split, Tab.get_put]
@[simp] theorem State.split_updSplit_self (s : State) (g : GKey) (e : Nat) (f : Split → Split) :
    (s.updSplit g e f).split g e = f (s.split g e) := by simp [State.split_updSplit]
@[simp] theorem State.updSplit_updSplit (s : State) (g : GKey) (e : Nat) (f h : Split → Split) :
    (s.updSplit g e f).updSplit g e h = s.updSplit g e fun p => h (f p) := by
  simp [State.updSplit]

theorem State.block_updBlock (s : State) (b k : BKey) (f : Block → Block) :
    (s.updBlock b f).block k = if b = k then f (s.block b) else s.block k := Tab.get_put ..
@[simp] theorem State.block_updBlock_self (s : State) (b : BKey) (f : Block → Block) :
    (s.updBlock b f).block b = f (s.block b) := by simp [State.block_updBlock]
@[simp] theorem State.updBlock_updBlock (s : State) (b : BKey) (f h : Block → Block) :
    (s.updBlock b f).updBlock b h = s.updBlock b fun x => h (f x) := by
  simp [State.updBlock, State.block]
@[simp] theorem State.seq_updSeq_self (s : State) (b : BKey) (f : Seq → Seq) :
    (s.updSeq b f).seq b = f (s.seq b) := by simp [State.updSeq, State.seq]

theorem State.region_updRegion (s : State) (r k : RKey) (f : Region → Region) :
    (s.updRegion r f).region k = if r = k then f (s.region r) else s.region k := Tab.get_put ..
@[simp] theorem State.region_updRegion_self (s : State) (r : RKey) (f : Region → Region) :
    (s.updRegion r f).region r = f (s.region r) := by simp [State.region_updRegion]
theorem State.ctx_updCtx (s : State) (c k : CKey) (f : Context → Context) :
    (s.updCtx c f).ctx k = if c = k then f (s.ctx c) else s.ctx k := Tab.get_put ..
@[simp] theorem State.ctx_updCtx_self (s : State) (c : CKey) (f : Context → Context) :
    (s.updCtx c f).ctx c = f (s.ctx c) := by simp [State.ctx_updCtx]
theorem State.vf_updVf (s : State) (n k : Nat) (f : VFunc → VFunc) :
    (s.updVf n f).vf k = if n = k then f (s.vf n) else s.vf k := Tab.get_put ..
theorem State.core_updCore (s : State) (n k : Nat) (f : Core → Core) :
    (s.updCore n f).core k = if n = k then f (s.core n) else s.core k := Tab.get_put ..
@[simp] theorem State.core_updCore_self (s : State) (n : Nat) (f : Core → Core) :
    (s.updCore n f).core n = f (s.core n) := by simp [State.core_updCore]
theorem State.cluster_updCluster (s : State) (n k : Nat) (f : Cluster → Cluster) :
    (s.updCluster n f).cluster k = if n = k then f (s.cluster n) else s.cluster k := Tab.get_put ..
@[simp] theorem State.cluster_updCluster_self (s : State) (n : Nat) (f : Cluster → Cluster) :
    (s.updCluster n f).cluster n = f (s.cluster n) := by simp [State.cluster_updCluster]

/-! ## Objects under operations on other kinds of object -/

@[simp] theorem State.block_setGroup (s : State) (g : GKey) (x : Group) (k : BKey) : (s.setGroup g x).block k = s.block k := rfl
@[simp] theorem State.seq_setGroup (s : State) (g : GKey) (x : Group) (k : BKey) : (s.setGroup g x).seq k = s.seq k := rfl
@[simp] theorem State.region_setGroup (s : State) (g : GKey) (x : Group) (k : RKey) : (s.setGroup g x).region k = s.region k := rfl
@[simp] theorem State.ctx_setGroup (s : State) (g : GKey) (x : Group) (k : CKey) : (s.setGroup g x).ctx k = s.ctx k := rfl
@[simp] theorem State.vf_setGroup (s : State) (g : GKey) (x : Group) (k : Nat) : (s.setGroup g x).vf k = s.vf k := rfl
@[simp] theorem State.core_setGroup (s : State) (g : GKey) (x : Group) (k : Nat) : (s.setGroup g x).core k = s.core k := rfl
@[simp] theorem State.cluster_setGroup (s : State) (g : GKey) (x : Group) (k : Nat) : (s.setGroup g x).cluster k = s.cluster k := rfl
@[simp] theorem State.block_updGroup (s : State) (g : GKey) (f : Group → Group) (k : BKey) : (s.updGroup g f).block k = s.block k := rfl
@[simp] theorem State.seq_updGroup (s : State) (g : GKey) (f : Group → Group) (k : BKey) : (s.updGroup g f).seq k = s.seq k := rfl
@[simp] theorem State.region_updGroup (s : State) (g : GKey) (f : Group → Group) (k : RKey) : (s.updGroup g f).region k = s.region k := rfl
@[simp] theorem State.ctx_updGroup (s : State) (g : GKey) (f : Group → Group) (k : CKey) : (s.updGroup g f).ctx k = s.ctx k := rfl
@[simp] theorem State.vf_updGroup (s : State) (g : GKey) (f : Group → Group) (k : Nat) : (s.updGroup g f).vf k = s.vf k := rfl
@[simp] theorem State.core_updGroup (s : State) (g : GKey) (f : Group → Group) (k : Nat) : (s.updGroup g f).core k = s.core k := rfl
@[simp] theorem State.cluster_updGroup (s : State) (g : GKey) (f : Group → Group) (k : Nat) : (s.updGroup g f).cluster k = s.cluster k := rfl
@[simp] theorem State.block_updSplit (s : State) (g : GKey) (e : Nat) (f : Split → Split) (k : BKey) : (s.updSplit g e f).block k = s.block k := rfl
@[simp] theorem State.seq_updSplit (s : State) (g : GKey) (e : Nat) (f : Split → Split) (k : BKey) : (s.updSplit g e f).seq k = s.seq k := rfl
@[simp] theorem State.region_updSplit (s : State) (g : GKey) (e : Nat) (f : Split → Split) (k : RKey) : (s.updSplit g e f).region k = s.region k := rfl
@[simp] theorem State.ctx_updSplit (s : State) (g : GKey) (e : Nat) (f : Split → Split) (k : CKey) : (s.updSplit g e f).ctx k = s.ctx k := rfl
@[simp] theorem State.vf_updSplit (s : State) (g : GKey) (e : Nat) (f : Split → Split) (k : Nat) : (s.updSplit g e f).vf k = s.vf k := rfl
@[simp] theorem State.core_updSplit (s : State) (g : GKey) (e : Nat) (f : Split → Split) (k : Nat) : (s.updSplit g e f).core k = s.core k := rfl
@[simp] theorem State.cluster_updSplit (s : State) (g : GKey) (e : Nat) (f : Split → Split) (k : Nat) : (s.updSplit g e f).cluster k = s.cluster k := rfl
@[simp] theorem State.group_updBlock (s : State) (b : BKey) (f : Block → Block) (k : GKey) : (s.updBlock b f).group k = s.group k := rfl
@[simp] theorem State.region_updBlock (s : State) (b : BKey) (f : Block → Block) (k : RKey) : (s.updBlock b f).region k = s.region k := rfl
@[simp] theorem State.ctx_updBlock (s : State) (b : BKey) (f : Block → Block) (k : CKey) : (s.updBlock b f).ctx k = s.ctx k := rfl
@[simp] theorem State.vf_updBlock (s : State) (b : BKey) (f : Block → Block) (k : Nat) : (s.updBlock b f).vf k = s.vf k := rfl
@[simp] theorem State.core_updBlock (s : State) (b : BKey) (f : Block → Block) (k : Nat) : (s.updBlock b f).core k = s.core k := rfl
@[simp] theorem State.cluster_updBlock (s : State) (b : BKey) (f : Block → Block) (k : Nat) : (s.updBlock b f).cluster k = s.cluster k := rfl
@[simp] theorem State.group_updSeq (s : State) (b : BKey) (f : Seq → Seq) (k : GKey) : (s.updSeq b f).group k = s.group k := rfl
@[simp] theorem State.region_updSeq (s : State) (b : BKey) (f : Seq → Seq) (k : RKey) : (s.updSeq b f).region k = s.region k := rfl
@[simp] theorem State.ctx_updSeq (s : State) (b : BKey) (f : Seq → Seq) (k : CKey) : (s.updSeq b f).ctx k = s.ctx k := rfl
@[simp] theorem State.vf_updSeq (s : State) (b : BKey) (f : Seq → Seq) (k : Nat) : (s.updSeq b f).vf k = s.vf k := rfl
@[simp] theorem State.core_updSeq (s : State) (b : BKey) (f : Seq → Seq) (k : Nat) : (s.updSeq b f).core k = s.core k := rfl
@[simp] theorem State.cluster_updSeq (s : State) (b : BKey) (f : Seq → Seq) (k : Nat) : (s.updSeq b f).cluster k = s.cluster k := rfl
@[simp] theorem State.group_updRegion (s : State) (r : RKey) (f : Region → Region) (k : GKey) : (s.updRegion r f).group k = s.group k := rfl
@[simp] theorem State.block_updRegion (s : State) (r : RKey) (f : Region → Region) (k : BKey) : (s.updRegion r f).block k = s.block k := rfl
@[simp] theorem State.seq_updRegion (s : State) (r : RKey) (f : Region → Region) (k : BKey) : (s.updRegion r f).seq k = s.seq k := rfl
@[simp] theorem State.ctx_updRegion (s : State) (r : RKey) (f : Region → Region) (k : CKey) : (s.updRegion r f).ctx k = s.ctx k := rfl
@[simp] theorem State.vf_updRegion (s : State) (r : RKey) (f : Region → Region) (k : Nat) : (s.updRegion r f).vf k = s.vf k := rfl
@[simp] theorem State.core_updRegion (s : State) (r : RKey) (f : Region → Region) (k : Nat) : (s.updRegion r f).core k = s.core k := rfl
@[simp] theorem State.cluster_updRegion (s : State) (r : RKey) (f : Region → Region) (k : Nat) : (s.updRegion r f).cluster k = s.cluster k := rfl
@[simp] theorem State.group_updCtx (s : State) (c : CKey) (f : Context → Context) (k : GKey) : (s.updCtx c f).group k = s.group k := rfl
@[simp] theorem State.block_updCtx (s : State) (c : CKey) (f : Context → Context) (k : BKey) : (s.updCtx c f).block k = s.block k := rfl
@[simp] theorem State.seq_updCtx (s : State) (c : CKey) (f : Context → Context) (k : BKey) : (s.updCtx c f).seq k = s.seq k := rfl
@[simp] theorem State.region_updCtx (s : State) (c : CKey) (f : Context → Context) (k : RKey) : (s.updCtx c f).region k = s.region k := rfl
@[simp] theorem State.vf_updCtx (s : State) (c : CKey) (f : Context → Context) (k : Nat) : (s.updCtx c f).vf k = s.vf k := rfl
@[simp] theorem State.core_updCtx (s : State) (c : CKey) (f : Context → Context) (k : Nat) : (s.updCtx c f).core k = s.core k := rfl
@[simp] theorem State.cluster_updCtx (s : State) (c : CKey) (f : Context → Context) (k : Nat) : (s.updCtx c f).cluster k = s.cluster k := rfl
@[simp] theorem State.group_bump (s : State) (c : CKey) (n j : Nat) (k : GKey) : (s.bump c n j).group k = s.group k := rfl
@[simp] theorem State.block_bump (s : State) (c : CKey) (n j : Nat) (k : BKey) : (s.bump c n j).block k = s.block k := rfl
@[simp] theorem State.seq_bump (s : State) (c : CKey) (n j : Nat) (k : BKey) : (s.bump c n j).seq k = s.seq k := rfl
@[simp] theorem State.region_bump (s : State) (c : CKey) (n j : Nat) (k : RKey) : (s.bump c n j).region k = s.region k := rfl
@[simp] theorem State.vf_bump (s : State) (c : CKey) (n j : Nat) (k : Nat) : (s.bump c n j).vf k = s.vf k := rfl
@[simp] theorem State.core_bump (s : State) (c : CKey) (n j : Nat) (k : Nat) : (s.bump c n j).core k = s.core k := rfl
@[simp] theorem State.cluster_bump (s : State) (c : CKey) (n j : Nat) (k : Nat) : (s.bump c n j).cluster k = s.cluster k := rfl
@[simp] theorem State.group_updVf (s : State) (n : Nat) (f : VFunc → VFunc) (k : GKey) : (s.updVf n f).group k = s.group k := rfl
@[simp] theorem State.block_updVf (s : State) (n : Nat) (f : VFunc → VFunc) (k : BKey) : (s.updVf n f).block k = s.block k := rfl
@[simp] theorem State.seq_updVf (s : State) (n : Nat) (f : VFunc → VFunc) (k : BKey) : (s.updVf n f).seq k = s.seq k := rfl
@[simp] theorem State.region_updVf (s : State) (n : Nat) (f : VFunc → VFunc) (k : RKey) : (s.updVf n f).region k = s.region k := rfl
@[simp] theorem State.ctx_updVf (s : State) (n : Nat) (f : VFunc → VFunc) (k : CKey) : (s.updVf n f).ctx k = s.ctx k := rfl
@[simp] theorem State.core_updVf (s : State) (n : Nat) (f : VFunc → VFunc) (k : Nat) : (s.updVf n f).core k = s.core k := rfl
@[simp] theorem State.cluster_updVf (s : State) (n : Nat) (f : VFunc → VFunc) (k : Nat) : (s.updVf n f).cluster k = s.cluster k := rfl
@[simp] theorem State.group_updCore (s : State) (n : Nat) (f : Core → Core) (k : GKey) : (s.updCore n f).group k = s.group k := rfl
@[simp] theorem State.block_updCore (s : State) (n : Nat) (f : Core → Core) (k : BKey) : (s.updCore n f).block k = s.block k := rfl
@[simp] theorem State.seq_updCore (s : State) (n : Nat) (f : Core → Core) (k : BKey) : (s.updCore n f).seq k = s.seq k := rfl
@[simp] theorem State.region_updCore (s : State) (n : Nat) (f : Core → Core) (k : RKey) : (s.updCore n f).region k = s.region k := rfl
@[simp] theorem State.ctx_updCore (s : State) (n : Nat) (f : Core → Core) (k : CKey) : (s.updCore n f).ctx k = s.ctx k := rfl
@[simp] theorem State.vf_updCore (s : State) (n : Nat) (f : Core → Core) (k : Nat) : (s.updCore n f).vf k = s.vf k := rfl
@[simp] theorem State.cluster_updCore (s : State) (n : Nat) (f : Core → Core) (k : Nat) : (s.updCore n f).cluster k = s.cluster k := rfl
@[simp] theorem State.group_updCluster (s : State) (n : Nat) (f : Cluster → Cluster) (k : GKey) : (s.updCluster n f).group k = s.group k := rfl
@[simp] theorem State.block_updCluster (s : State) (n : Nat) (f : Cluster → Cluster) (k : BKey) : (s.updCluster n f).block k = s.block k := rfl
@[simp] theorem State.seq_updCluster (s : State) (n : Nat) (f : Cluster → Cluster) (k : BKey) : (s.updCluster n f).seq k = s.seq k := rfl
@[simp] theorem State.region_updCluster (s : State) (n : Nat) (f : Cluster → Cluster) (k : RKey) : (s.updCluster n f).region k = s.region k := rfl
@[simp] theorem State.ctx_updCluster (s : State) (n : Nat) (f : Cluster → Cluster) (k : CKey) : (s.updCluster n f).ctx k = s.ctx k := rfl
@[simp] theorem State.vf_updCluster (s : State) (n : Nat) (f : Cluster → Cluster) (k : Nat) : (s.updCluster n f).vf k = s.vf k := rfl
@[simp] theorem State.core_updCluster (s : State) (n : Nat) (f : Cluster → Cluster) (k : Nat) : (s.updCluster n f).core k = s.core k := rfl
@[simp] theorem State.split_updBlock (s : State) (b : BKey) (f : Block → Block) (k : GKey) (i : Nat) : (s.updBlock b f).split k i = s.split k i := rfl
@[simp] theorem State.split_updSeq (s : State) (b : BKey) (f : Seq → Seq) (k : GKey) (i : Nat) : (s.updSeq b f).split k i = s.split k i := rfl
@[simp] theorem State.split_updRegion (s : State) (r : RKey) (f : Region → Region) (k : GKey) (i : Nat) : (s.updRegion r f).split k i = s.split k i := rfl
@[simp] theorem State.split_updCtx (s : State) (c : CKey) (f : Context → Context) (k : GKey) (i : Nat) : (s.updCtx c f).split k i = s.split k i := rfl
@[simp] theorem State.split_bump (s : State) (c : CKey) (n j : Nat) (k : GKey) (i : Nat) : (s.bump c n j).split k i = s.split k i := rfl
@[simp] theorem State.split_updVf (s : State) (n : Nat) (f : VFunc → VFunc) (k : GKey) (i : Nat) : (s.updVf n f).split k i = s.split k i := rfl
@[simp] theorem State.split_updCore (s : State) (n : Nat) (f : Core → Core) (k : GKey) (i : Nat) : (s.updCore n f).split k i = s.split k i := rfl
@[simp] theorem State.split_updCluster (s : State) (n : Nat) (f : Cluster → Cluster) (k : GKey) (i : Nat) : (s.updCluster n f).split k i = s.split k i := rfl

end Sys2Proof.Machine
end

