-- ==== Sys2Proof/Laws/Retire.lean ====
section
/-! SUPPORT. Retiring a scalar instruction: what `retire` and `scalarOp` answer in the plain circumstances of the
statements, and what `moved` leaves unchanged. -/

namespace Sys2Proof.Machine
open Sys2Proof.Terms

theorem State.moved_group (s : State) (g : GKey) (e : Nat) (x : DWord) :
    (moved s g e x).group g =
      { s.group g with
        retired := (s.group g).retired + 1
        q := { (s.group g).q with count := (s.group g).q.count + 1 }
        ents := (s.group g).ents.put e { s.split g e with
          retired := (s.split g e).retired + 1, st := .running, pc := x, ready := s.cycle, front := none } } := by
  simp [moved, State.split]

theorem State.moved_split (s : State) (g : GKey) (e i : Nat) (x : DWord) :
    (moved s g e x).split g i =
      if e = i then { s.split g e with
        retired := (s.split g e).retired + 1, st := .running, pc := x, ready := s.cycle, front := none }
      else s.split g i := by
  simp only [State.split, State.moved_group, Tab.get_put]

/-- What an instruction counts and where its split goes, when nothing reconverges there. -/
theorem State.retire_straight {s : State} {g : GKey} {e : Nat} {x : DWord}
    (he : ((s.group g).ents.get? e).isSome = true) (hg : g.sh = 0) (hs : (s.group g).stepping ≠ some e)
    (hx : Straight s g e x (s.split g e).level) : s.retire g e x = moved s g e x := by
  obtain ⟨p, hp⟩ := Option.isSome_iff_exists.mp he
  have hd : (s.group g).ents.get {} e = p := by simp [Tab.get, hp]
  have hu : ∀ f : Split → Split, (s.group g).ents.upd e f = (s.group g).ents.put e (f p) := by
    intro f; simp [Tab.upd, hp]
  have base : (s.count g e).updSplit g e (fun p => { p with st := .running, pc := x, ready := (s.count g e).cycle, front := none })
      = moved s g e x := by
    simp only [State.count, hg, if_true, moved, State.updSplit_bump]
    rw [State.updSplit, State.updGroup_updGroup]
    exact congrArg (fun t : State => t.bump g.b.r.c 0 1) (State.updGroup_congr (by simp only [hu, hd, Tab.get_put_self, Tab.put_put]; rfl))
  have step : ∀ t, t = moved s g e x → t.stepDone g e = moved s g e x := by
    rintro t rfl
    have : (moved s g e x).group g = _ := State.moved_group s g e x
    simp [State.stepDone, this, hs]
  unfold State.retire
  apply step
  unfold State.goTo
  simp only [base]
  rcases hx with rfl | ⟨h1, h2, h3⟩
  · simp
  · by_cases he4 : e = 4
    · simp [he4]
    · have hsp : (moved s g e x).split g e = { s.split g e with
          retired := (s.split g e).retired + 1, st := .running, pc := x, ready := s.cycle, front := none } := by
        simp [State.moved_split]
      have hpop : (moved s g e x).popStack g e x 18 = (moved s g e x, x) := by
        unfold State.popStack
        simp only [hsp]
        cases hst : (s.split g e).stack with
        | nil => rfl
        | cons t r =>
          by_cases hj : t.j = x
          · have := h1 t r hst hj
            simp [hj, this]
          · simp [hj]
      have hno : ∀ l : List (Nat × Split), (∀ q ∈ l, q.2.waiting = false) → l.filter (fun q => q.2.waiting) = [] := by
        intro l hl; rw [List.filter_eq_nil_iff]; intro q hq; simp [hl q hq]
      have hmem : ∀ q ∈ (s.group g).ents.put e { s.split g e with
          retired := (s.split g e).retired + 1, st := .running, pc := x, ready := s.cycle, front := none },
          q.1 ≠ e → q ∈ (s.group g).ents := by
        intro q hq hne
        exact Tab.mem_put_ne hq hne
      have hgr := State.moved_group s g e x
      have hf : (((moved s g e x).group g).ents.filter fun q => q.1 != e && q.1 != 4 && !q.2.over_ &&
          Split.atPc ((moved s g e x).ordered g) q.2 && decide (q.2.pc = x)).filter (fun q => q.2.waiting) = [] := by
        apply hno
        intro q hq
        rw [List.mem_filter, hgr] at hq
        simp only [Bool.and_eq_true, bne_iff_ne, ne_eq, decide_eq_true_eq] at hq
        exact h3 q (hmem q hq.1 hq.2.1.1.1.1) hq.2.1.1.1.1 hq.2.1.1.1.2 hq.2.2
      have hj : (s.split g e).join.any (·.1 == x) = false := by
        cases hjn : (s.split g e).join with
        | none => rfl
        | some j => simpa using h2 j hjn
      simp [he4, hg, hpop, hsp, hj, hf, partners, fuseUnits]

/-- A scalar instruction whose checks pass, answered by its effect. -/
theorem scalarOp_ok {legal : Bool} {n : Needs} {f : State → GKey → Nat → Ends} {s : State} {g : GKey} {e : Nat}
    (h : Issues s g e) (hc : s.issueCheck g e legal n = none) :
    scalarOp legal n f s = .next (State.finish g e (f s g e)) := by
  simp [scalarOp, State.actor, h.turn, hc, h.noFork]

/-- A scalar instruction that retires to the next word. -/
theorem scalarOp_next {legal : Bool} {n : Needs} {f : State → GKey → Nat → Ends} {s t : State} {g : GKey} {e : Nat}
    (h : Issues s g e) (hc : s.issueCheck g e legal n = none) (hf : f s g e = .next t)
    (he : ((t.group g).ents.get? e).isSome = true) (hs : (t.group g).stepping ≠ some e)
    (hx : Straight t g e ((t.split g e).pc + 4) (t.split g e).level) :
    scalarOp legal n f s = .next (moved t g e ((t.split g e).pc + 4)) := by
  rw [scalarOp_ok h hc, hf]
  simp only [State.finish]
  rw [State.retire_straight he h.home hs hx]

/-- A scalar instruction that retires to another address. -/
theorem scalarOp_goto {legal : Bool} {n : Needs} {f : State → GKey → Nat → Ends} {s t : State} {g : GKey} {e : Nat} {x : DWord}
    (h : Issues s g e) (hc : s.issueCheck g e legal n = none) (hf : f s g e = .goto t x)
    (he : ((t.group g).ents.get? e).isSome = true) (hs : (t.group g).stepping ≠ some e)
    (hx : Straight t g e x (t.split g e).level) : scalarOp legal n f s = .next (moved t g e x) := by
  rw [scalarOp_ok h hc, hf]
  simp only [State.finish]
  rw [State.retire_straight he h.home hs hx]

/-- A scalar instruction that faults. -/
theorem scalarOp_fault {legal : Bool} {n : Needs} {f : State → GKey → Nat → Ends} {s t : State} {g : GKey} {e : Nat} {k : FaultInfo}
    (h : Issues s g e) (hc : s.issueCheck g e legal n = none) (hf : f s g e = .fault t k) :
    scalarOp legal n f s = .next (t.scalarFault g e k) := by
  rw [scalarOp_ok h hc, hf]; rfl

/-- The checks of order 1 to 4 of R29 with nothing required. -/
@[simp] theorem State.issueCheck_plain (s : State) (g : GKey) (e : Nat) : s.issueCheck g e true {} = none := by
  simp [State.issueCheck]

end Sys2Proof.Machine
end

