-- ==== Sys2Proof/Laws/Scalar.lean ====
section
/-! SUPPORT. Reading registers after writes, and what a scalar instruction that writes one register leaves
unchanged. -/

namespace Sys2Proof.Machine
open Sys2Proof.Terms

/-! ## Scalar registers -/

theorem State.getS_setS (s : State) (g : GKey) (e d n : Nat) (v : DWord) :
    (s.setS g e d v).getS g e n = if n = d ∧ n ≠ 0 then v else s.getS g e n := by
  unfold State.setS State.getS
  by_cases hd : d = 0
  · by_cases hn : n = 0
    · simp [hn]
    · have : n ≠ d := by omega
      simp [hd, hn]
  · by_cases hd2 : d < 32
    · by_cases hn : n = 0
      · simp [hn]
      · by_cases hn2 : n < 32
        · by_cases e1 : d = n
          · subst e1; simp [hd, hd2]
          · simp [hd, hd2, hn, hn2, Tab.get_put, e1, Ne.symm e1]
        · have : n ≠ d := by omega
          simp [hd, hd2, hn, hn2, this]
    · by_cases hn : n = 0
      · simp [hn]
      · by_cases hn2 : n < 32
        · have : n ≠ d := by omega
          simp [hd, hd2, hn, hn2, this, State.split]
        · by_cases e1 : d = n
          · subst e1; simp [hd, hd2]
          · simp [hd, hd2, hn, hn2, Tab.get_put, e1, Ne.symm e1]

theorem State.getS_setS_other (s : State) (g : GKey) {e i : Nat} (d n : Nat) (v : DWord) (h : i ≠ e) (hn : n < 32) :
    (s.setS g e d v).getS g i n = s.getS g i n := by
  unfold State.setS State.getS
  by_cases hd : d = 0
  · simp [hd]
  · by_cases hd2 : d < 32
    · simp [hd, hd2, hn, State.split_updSplit, Ne.symm h]
    · simp [hd, hd2, hn, State.split]

/-- What a write of a scalar register does to the objects. -/
theorem State.split_setS (s : State) (g : GKey) (e d i : Nat) (v : DWord) :
    ∃ m, (s.setS g e d v).split g i = { s.split g i with s := m } := by
  unfold State.setS
  by_cases hd : d = 0
  · exact ⟨_, by simp [hd]; rfl⟩
  · by_cases hd2 : d < 32
    · by_cases h : e = i
      · subst h; exact ⟨(s.split g e).s.put d v, by simp [hd, hd2]⟩
      · exact ⟨(s.split g i).s, by simp [hd, hd2, State.split_updSplit, h]⟩
    · exact ⟨_, by simp [hd, hd2, State.split]; rfl⟩

theorem State.group_setS (s : State) (g : GKey) (e d : Nat) (v : DWord) (hf : (s.group g).fork = none) :
    ∃ es ss, (s.setS g e d v).group g = { s.group g with ents := es, sregs := ss } := by
  unfold State.setS
  by_cases hd : d = 0
  · exact ⟨_, _, by simp [hd]; rfl⟩
  · by_cases hd2 : d < 32
    · exact ⟨_, (s.group g).sregs, by simp [hd, hd2]; rfl⟩
    · refine ⟨(s.group g).ents, (s.group g).sregs.put d v, ?_⟩
      simp only [hd, hd2, if_false, State.group_updGroup_self, hf, Option.map_none]

theorem State.setS_rest (s : State) (g : GKey) (e d : Nat) (v : DWord) :
    (s.setS g e d v) = { s with groups := (s.setS g e d v).groups } := by
  unfold State.setS; split
  · rfl
  · split <;> rfl

theorem State.group_setS_ne (s : State) {g k : GKey} (e d : Nat) (v : DWord) (h : k ≠ g) :
    (s.setS g e d v).group k = s.group k := by
  unfold State.setS; split
  · rfl
  · split
    · exact State.group_updSplit_ne _ _ _ (Ne.symm h)
    · exact State.group_updGroup_ne _ _ (Ne.symm h)

/-- A write of a scalar register leaves entries present, and the places of splits. -/
theorem State.ents_setS (s : State) (g : GKey) (e d : Nat) (v : DWord) (h : ((s.group g).ents.get? e).isSome = true) :
    (((s.setS g e d v).group g).ents.get? e).isSome = true := by
  unfold State.setS; split
  · exact h
  · split
    · simp
    · simpa using h

theorem State.straight_setS {s : State} {g : GKey} {e d : Nat} {v x : DWord} {l : BitVec 8} (h : Straight s g e x l) :
    Straight (s.setS g e d v) g e x l := by
  rcases h with h | ⟨h1, h2, h3⟩
  · exact .inl h
  · refine .inr ?_
    obtain ⟨m, hm⟩ := State.split_setS s g e d e v
    rw [hm]
    refine ⟨h1, h2, ?_⟩
    intro q hq hne
    apply h3 q ?_ hne
    unfold State.setS at hq
    split at hq
    · exact hq
    · split at hq
      · simp only [State.group_updSplit_self] at hq; exact Tab.mem_put_ne hq hne
      · simpa using hq

/-! ## The frame -/

theorem State.rawByte_congr {s t : State} (hm : t.mem = s.mem) (hb : t.blocks = s.blocks) (l : Loc) :
    t.rawByte l = s.rawByte l := by
  cases l <;> simp [State.rawByte, hm, hb, State.block]
theorem State.poisoned_congr {s t : State} (hm : t.poison = s.poison) (hb : t.blocks = s.blocks) (l : Loc) :
    t.poisoned l = s.poisoned l := by
  cases l <;> simp [State.poisoned, hm, hb, State.block]

/-- Only the groups differ, and one scalar register in them. -/
theorem Keeps.setS (s : State) (g : GKey) (e d : Nat) (v x : DWord) (hf : (s.group g).fork = none) :
    Keeps s (moved (s.setS g e d v) g e x) g e d := by
  have hr := State.setS_rest s g e d v
  obtain ⟨es, ss, hg⟩ := State.group_setS s g e d v hf
  have hmg := State.moved_group (s.setS g e d v) g e x
  have hms := fun i => State.moved_split (s.setS g e d v) g e i x
  have hother : ∀ k, k ≠ g → (moved (s.setS g e d v) g e x).group k = s.group k := by
    intro k hk
    simp only [moved, State.group_bump]
    rw [State.group_updGroup_ne _ _ (Ne.symm hk), State.group_setS_ne _ _ _ _ hk]
  have hmem : (moved (s.setS g e d v) g e x).mem = s.mem := by rw [hr]; rfl
  have hblk : (moved (s.setS g e d v) g e x).blocks = s.blocks := by rw [hr]; rfl
  have hpoi : (moved (s.setS g e d v) g e x).poison = s.poison := by rw [hr]; rfl
  have hgs : ∀ i n, (moved (s.setS g e d v) g e x).getS g i n = (s.setS g e d v).getS g i n := by
    intro i n
    unfold State.getS
    split
    · rfl
    · split
      · rw [hms]; split
        · next h => subst h; rfl
        · rfl
      · rw [hmg]
  refine ⟨⟨State.rawByte_congr hmem hblk, State.poisoned_congr hpoi hblk, by rw [hr]; rfl⟩, ⟨?_, ?_⟩, ?_, ?_, ?_, ?_⟩
  · intro n hn; rw [hgs, State.getS_setS]; simp [hn]
  · intro i n hi hn; rw [hgs, State.getS_setS_other _ _ _ _ _ hi hn]
  · have h0 := fun i => State.split_setS s g e d i v
    obtain ⟨m, hm⟩ := h0 e
    have he : (moved (s.setS g e d v) g e x).split g e = _ := hms e
    rw [if_pos rfl, hm] at he
    refine ⟨?_, ?_, ?_, ?_, ?_, ?_, ?_⟩
    · intro i hi
      rw [hms, if_neg (Ne.symm hi)]
      unfold State.setS; split
      · rfl
      · split
        · rw [State.split_updSplit, if_neg (Ne.symm hi)]
        · simp [State.split]
    all_goals rw [he]
  · constructor <;> rw [hmg, hg]
  · constructor <;> rw [hmg, hg]
  · refine ⟨hother, hblk, by rw [hr]; rfl, ?_, by rw [hr]; rfl, by rw [hr]; rfl⟩
    intro c
    have hc : (s.setS g e d v).ctxs = s.ctxs := by rw [hr]
    show ((State.bump _ g.b.r.c 0 1).ctx c).pages = _
    unfold State.bump
    rw [State.ctx_updCtx]
    split
    · next h => subst h; simp [State.ctx, hc]
    · simp [State.ctx, hc]

/-- A scalar instruction that writes one register and goes on to the next word: its answer and its frame. -/
theorem scalarOp_setS {legal : Bool} {n : Needs} {f : State → GKey → Nat → Ends} {s : State} {g : GKey} {e d : Nat} {v : DWord}
    (h : Issues s g e) (hc : s.issueCheck g e legal n = none) (hf : f s g e = .next (s.setS g e d v))
    (hx : Straight s g e (next s g e) (s.split g e).level) :
    scalarOp legal n f s = .next (moved (s.setS g e d v) g e (next s g e)) := by
  obtain ⟨m, hm⟩ := State.split_setS s g e d e v
  obtain ⟨es, ss, hg⟩ := State.group_setS s g e d v h.noFork
  have := scalarOp_next h hc hf (State.ents_setS s g e d v h.entry) (by rw [hg]; exact h.noStep)
    (by rw [hm]; exact State.straight_setS hx)
  rw [this, hm]
  rfl

theorem State.getS_moved (s : State) (g : GKey) (e i n : Nat) (x : DWord) : (moved s g e x).getS g i n = s.getS g i n := by
  unfold State.getS
  split
  · rfl
  · split
    · rw [State.moved_split]; split
      · next h => subst h; rfl
      · rfl
    · rw [State.moved_group]

/-- The ALU operations on two registers, on one, and on the destination. -/
theorem alu2_next {f : DWord → DWord → DWord} {d a b : BitVec 7} {s : State} {g : GKey} {e : Nat} (h : Issues s g e)
    (hx : Straight s g e (next s g e) (s.split g e).level) :
    alu2 f d a b s = .next (moved (s.setS g e d.toNat (f (s.getS g e a.toNat) (s.getS g e b.toNat))) g e (next s g e)) :=
  scalarOp_setS h (State.issueCheck_plain ..) rfl hx
theorem alu1_next {f : DWord → DWord} {d a : BitVec 7} {s : State} {g : GKey} {e : Nat} (h : Issues s g e)
    (hx : Straight s g e (next s g e) (s.split g e).level) :
    alu1 f d a s = .next (moved (s.setS g e d.toNat (f (s.getS g e a.toNat))) g e (next s g e)) :=
  scalarOp_setS h (State.issueCheck_plain ..) rfl hx
theorem aluD_next {f : DWord → DWord} {d : BitVec 7} {s : State} {g : GKey} {e : Nat} (h : Issues s g e)
    (hx : Straight s g e (next s g e) (s.split g e).level) :
    aluD f d s = .next (moved (s.setS g e d.toNat (f (s.getS g e d.toNat))) g e (next s g e)) :=
  scalarOp_setS h (State.issueCheck_plain ..) rfl hx

end Sys2Proof.Machine
end

