-- ==== Sys2Proof/Laws/Flow.lean ====
section
/-! SUPPORT. Effects that leave a split where it is: an instruction with such an effect, in the plain circumstances of
the statements, answers the state `moved` from it. -/

namespace Sys2Proof.Terms
open Sys2Proof.Machine

theorem SameFlow.refl (s : State) (g : GKey) (e : Nat) : SameFlow s s g e :=
  ⟨id, rfl, rfl, rfl, rfl, rfl, fun _ h _ => h⟩
theorem SameFlow.trans {s t u : State} {g : GKey} {e : Nat} (h : SameFlow s t g e) (k : SameFlow t u g e) : SameFlow s u g e :=
  ⟨fun x => k.entry (h.entry x), k.stepping.trans h.stepping, k.pc.trans h.pc, k.stack.trans h.stack, k.join.trans h.join,
    k.level.trans h.level, fun q hq hne => h.others q (k.others q hq hne) hne⟩
/-- An effect that leaves the entries of the group as they are. -/
theorem SameFlow.of_ents {s t : State} {g : GKey} {e : Nat} (h : (t.group g).ents = (s.group g).ents)
    (hs : (t.group g).stepping = (s.group g).stepping) : SameFlow s t g e := by
  refine ⟨fun x => h ▸ x, hs, ?_, ?_, ?_, ?_, fun q hq _ => h ▸ hq⟩ <;> simp only [State.split, h]
/-- An effect that leaves the group as it is. -/
theorem SameFlow.of_group {s t : State} {g : GKey} {e : Nat} (h : t.group g = s.group g) : SameFlow s t g e :=
  .of_ents (by rw [h]) (by rw [h])
theorem SameFlow.updGroup (s : State) (g : GKey) (e : Nat) (f : Group → Group) (h : (f (s.group g)).ents = (s.group g).ents)
    (hs : (f (s.group g)).stepping = (s.group g).stepping) : SameFlow s (s.updGroup g f) g e :=
  .of_ents (by rw [State.group_updGroup_self, h]) (by rw [State.group_updGroup_self, hs])
theorem SameFlow.setS (s : State) (g : GKey) (e d : Nat) (v : DWord) : SameFlow s (s.setS g e d v) g e := by
  obtain ⟨m, hm⟩ := State.split_setS s g e d e v
  refine ⟨State.ents_setS s g e d v, ?_, by rw [hm], by rw [hm], by rw [hm], by rw [hm], ?_⟩
  · unfold State.setS
    split
    · rfl
    · split <;> simp
  · intro q hq hne
    unfold State.setS at hq
    split at hq
    · exact hq
    · split at hq
      · simp only [State.group_updSplit_self] at hq; exact Tab.mem_put_ne hq hne
      · simpa using hq
theorem SameFlow.updSplit (s : State) (g : GKey) (e : Nat) (f : Split → Split) (hp : (f (s.split g e)).pc = (s.split g e).pc)
    (hs : (f (s.split g e)).stack = (s.split g e).stack) (hj : (f (s.split g e)).join = (s.split g e).join)
    (hl : (f (s.split g e)).level = (s.split g e).level) : SameFlow s (s.updSplit g e f) g e := by
  refine ⟨fun _ => by simp, by simp, by simp [hp], by simp [hs], by simp [hj], by simp [hl], ?_⟩
  intro q hq hne
  simp only [State.group_updSplit_self] at hq
  exact Tab.mem_put_ne hq hne

theorem SameFlow.straight {s t : State} {g : GKey} {e : Nat} (h : SameFlow s t g e) {x : DWord} {l : BitVec 8}
    (hx : Straight s g e x l) : Straight t g e x l := by
  rcases hx with hx | ⟨h1, h2, h3⟩
  · exact .inl hx
  · refine .inr ⟨?_, ?_, ?_⟩
    · rw [h.stack]; exact h1
    · rw [h.join]; exact h2
    · intro q hq hne; exact h3 q (h.others q hq hne) hne

end Sys2Proof.Terms

namespace Sys2Proof.Machine
open Sys2Proof.Terms

/-- A scalar instruction whose effect leaves its split where it is. -/
theorem scalarOp_run {legal : Bool} {n : Needs} {f : State → GKey → Nat → Ends} {s t : State} {g : GKey} {e : Nat}
    (h : Ready s g e) (hc : s.issueCheck g e legal n = none) (hf : f s g e = .next t) (hs : SameFlow s t g e) :
    scalarOp legal n f s = .next (moved t g e (next s g e)) := by
  have := scalarOp_next h.issues hc hf (hs.entry h.issues.entry) (by rw [hs.stepping]; exact h.issues.noStep)
    (by rw [hs.pc, hs.level]; exact hs.straight h.straight)
  rw [this, hs.pc]; rfl

/-- The same of one that goes elsewhere, and may change its call level. -/
theorem scalarOp_jump {legal : Bool} {n : Needs} {f : State → GKey → Nat → Ends} {s t : State} {g : GKey} {e : Nat} {x : DWord}
    (h : Issues s g e) (hc : s.issueCheck g e legal n = none) (hf : f s g e = .goto t x)
    (he : ((t.group g).ents.get? e).isSome = true) (hs : (t.group g).stepping = (s.group g).stepping)
    (hx : Straight t g e x (t.split g e).level) : scalarOp legal n f s = .next (moved t g e x) :=
  scalarOp_goto h hc hf he (by rw [hs]; exact h.noStep) hx

end Sys2Proof.Machine
end

