-- ==== Sys2Proof/Laws/Lanes.lean ====
section
/-! SUPPORT. What the issue of a lane instruction does that meets no fault: it has its effect, is counted, and its queue
goes on. -/

namespace Sys2Proof.Machine
open Sys2Proof.Terms

/-- The context in which a plain lane instruction acts. -/
def plainCtx (s : State) (g : GKey) (e : Nat) (x : LArgs) : LCtx :=
  { g, e, blk := s.head g e, act := active s g e x, active := active s g e x, src := active s g e x }

theorem lanes_zero : lanesOf 0 = [] := by decide

theorem unknown_zero {s : State} {g e i x r} (h : s.holdFaults g (s.head g e) i r x = 0) :
    s.unknownLanes g (s.head g e) x = 0 := by
  unfold State.holdFaults at h
  generalize s.unknownLanes g (s.head g e) x = u at *
  simp only at h
  ext k hk
  have := congrArg (fun w => w.getLsbD k) h
  simp [BitVec.getLsbD_or] at this
  have h1 := this.1
  rw [BitVec.getLsbD_eq_getElem hk] at h1
  rw [h1]; simp

theorem laneIssue_plain {s t : State} {g : GKey} {e : Nat} {i : Instr} {x : LArgs} {w : Bool} {f : State → LCtx → LEnds}
    (h : LaneReady s g e i x) (hi : ∀ y, i ≠ .lend y) (hf : f s (plainCtx s g e x) = .ok t []) :
    laneIssue i x w f s = .next (((laneMoved t g e x false).stepDone g e).groupCheck g) := by
  obtain ⟨h, hold⟩ := h
  have hr : ∃ r, laneRegs i = some r := by
    have := h.args
    cases i <;> simp_all [laneArgsOf, laneRegs]
  obtain ⟨r, hr⟩ := hr
  have ha : s.actor = (g, e) := by simp [State.actor, h.turn]
  have hh := hold r hr
  have hu := unknown_zero hh
  have hact : s.activeOf g (s.head g e) x.m.toNat = active s g e x := by
    simp [State.activeOf, h.once, active]
  have hb : (r.vd ++ r.vs ++ r.xs ++ r.half).any (fun n => decide (n ≥ (s.group g).budget)) = false := by
    rw [List.any_eq_false]; intro n hn; have := h.budget r hr n hn; simpa using this
  have hp : r.pairs.any (fun n => n % 2 == 1) = false := by
    rw [List.any_eq_false]; intro n hn; have := h.pairs r hr n hn; simp [this]
  unfold laneIssue
  simp only [ha, hr, Option.getD_some, h.formed, h.vec, hb, hp, h.noFork, hh, hu, hact, h.once,
    Option.isSome_none, Bool.not_true, Bool.or_false, Bool.and_false, Bool.false_and, Bool.false_eq_true,
    if_false]
  have z : ∀ w : Word, w ||| 0 = w := by intro w; simp
  have z' : ∀ w : Word, w &&& ~~~(0 : Word) = w := by
    intro w
    exact BitVec.and_allOnes (x := w)
  simp only [z, z']
  simp only [plainCtx] at hf
  rw [hf]
  have hl : (List.range 32).filterMap (fun l => (List.find? (fun p : Nat × FaultInfo => p.1 == l) (([] : List (Nat × FaultInfo)) ++ []))) = [] := by decide
  simp only [lanes_zero, List.map_nil, hl, Option.all_none, if_true]
  cases i <;> first | (exact absurd rfl (hi _)) | simp [laneMoved, State.laneEnd, h.once]

theorem Tab.put_self {κ α : Type} [DecidableEq κ] (t : Tab κ α) (d : α) (k : κ) (h : (t.get? k).isSome = true) :
    t.put k (t.get d k) = t := by
  induction t with
  | nil => simp [Tab.get?] at h
  | cons p r ih =>
    obtain ⟨k', v⟩ := p
    by_cases e : k' = k
    · simp [Tab.put, Tab.get, Tab.get?, e]
    · simp only [Tab.get?, if_neg e] at h
      have := ih h
      simp only [Tab.get] at this
      simp [Tab.put, Tab.get, Tab.get?, e, this]

/-- An entry that is live keeps its group going. -/
theorem State.groupCheck_live {s : State} {g : GKey} (hg : (s.groups.get? g).isSome = true)
    (hd : ∀ p ∈ (s.group g).ents, p.2.st ≠ .draining) (hl : ∃ p ∈ (s.group g).ents, p.2.live = true) :
    s.groupCheck g = s := by
  unfold State.groupCheck
  split
  · rfl
  · have hm : ∀ f : Nat × Split → Bool, (s.group g).ents.map (fun p =>
        if decide (p.2.st = .draining) && f p then (p.1, { p.2 with st := .free, mask := 0 }) else p) = (s.group g).ents := by
      intro f
      rw [List.map_congr_left (g := id), List.map_id]
      intro p hp
      simp [hd p hp]
    have hs : ∀ f : Nat × Split → Bool, s.updGroup g (fun x =>
        { x with
          ents := x.ents.map fun p =>
            if decide (p.2.st = .draining) && f p then (p.1, { p.2 with st := .free, mask := 0 }) else p }) = s := by
      intro f
      show s.setGroup g { s.group g with ents := (s.group g).ents.map _ } = s
      rw [hm]
      have := Tab.put_self s.groups {} g hg
      simp only [State.setGroup, State.group] at this ⊢
      rw [this]
    dsimp only
    rw [hs]
    obtain ⟨p, hp, hl⟩ := hl
    have : ((s.group g).ents.all fun p => decide (p.2.st = .free)) = false := by
      rw [List.all_eq_false]
      refine ⟨p, hp, ?_⟩
      intro h
      simp [Split.live, of_decide_eq_true h] at hl
    simp [this]

theorem Tab.mem_put {κ α : Type} [DecidableEq κ] {t : Tab κ α} {k : κ} {v : α} {q : κ × α} (h : q ∈ t.put k v) :
    q = (k, v) ∨ q ∈ t := by
  induction t with
  | nil => simpa [Tab.put] using h
  | cons p r ih =>
    obtain ⟨j, w⟩ := p
    by_cases e : j = k
    · simp only [Tab.put, if_pos e, List.mem_cons] at h ⊢
      exact h.imp_right .inr
    · simp only [Tab.put, if_neg e, List.mem_cons] at h ⊢
      rcases h with h | h
      · exact .inr (.inl h)
      · exact (ih h).imp_right .inr

/-- The entries of a group after a lane instruction of one of them has moved on: that one is as live as before, and
the others are unchanged. -/
theorem laneMoved_ents (t : State) (g : GKey) (e : Nat) (x : LArgs) (b : Bool) :
    ((laneMoved t g e x b).group g).ents = ((t.group g).ents.upd e fun p => { p with retired := p.retired + 1 }).put e
      (((laneMoved t g e x b).group g).ents.get {} e) := by
  unfold laneMoved State.count State.advanceLane
  dsimp only
  split <;> simp [State.updSplit]

/-- A plain lane instruction of a live split retires, and nothing else happens. -/
theorem laneIssue_run {s t : State} {g : GKey} {e : Nat} {i : Instr} {x : LArgs} {w : Bool} {f : State → LCtx → LEnds}
    (h : LaneReady s g e i x) (hi : ∀ y, i ≠ .lend y) (hf : f s (plainCtx s g e x) = .ok t [])
    (he : (t.group g).ents = (s.group g).ents) (hs : (t.group g).stepping = (s.group g).stepping) :
    laneIssue i x w f s = .next (laneMoved t g e x false) := by
  rw [laneIssue_plain h hi hf]
  have h := h.issues
  have hst : ((laneMoved t g e x false).group g).stepping ≠ some e := by
    have : ((laneMoved t g e x false).group g).stepping = (t.group g).stepping := by
      unfold laneMoved State.count State.advanceLane; dsimp only; split <;> simp [State.updSplit]
    rw [this, hs]; exact h.noStep
  have h1 : (laneMoved t g e x false).stepDone g e = laneMoved t g e x false := by
    unfold State.stepDone; rw [if_neg hst]
  rw [h1]
  have hsome := h.entry
  rw [← he] at hsome
  have hst' : (((laneMoved t g e x false).group g).ents.get {} e).st = (s.split g e).st := by
    have h2 := Tab.get_upd (t.group g).ents ({} : Split) e e fun p => { p with retired := p.retired + 1 }
    rw [if_pos ⟨rfl, hsome⟩] at h2
    have h3 := congrArg Split.st h2
    simp only [State.split, ← he]
    unfold laneMoved State.count State.advanceLane
    dsimp only
    simp at h3
    split <;> simp [State.updSplit, h3]
  rw [State.groupCheck_live]
  · unfold laneMoved State.count State.advanceLane State.updSplit State.updGroup State.setGroup
    dsimp only
    split <;> simp
  · intro p hp
    have hlive : (s.split g e).st ≠ .draining := by
      intro hd
      have := h.live
      rw [Split.live, hd] at this
      exact absurd this (by decide)
    rw [laneMoved_ents] at hp
    rcases Tab.mem_put hp with rfl | hp
    · rw [hst']; exact hlive
    · unfold Tab.upd at hp
      cases hq : (t.group g).ents.get? e with
      | none => rw [hq] at hp; exact h.noDrain p (he ▸ hp)
      | some v =>
        rw [hq] at hp
        rcases Tab.mem_put hp with rfl | hp
        · have := Tab.mem_of_get? hq
          exact h.noDrain (e, v) (he ▸ this)
        · exact h.noDrain p (he ▸ hp)
  · refine ⟨(e, ((laneMoved t g e x false).group g).ents.get {} e), ?_, ?_⟩
    · apply Tab.mem_of_get
      intro hd
      rw [hd] at hst'
      have := h.live
      rw [Split.live, ← hst'] at this
      simp at this
    · show Split.live _ = true
      rw [Split.live, hst']
      exact h.live

end Sys2Proof.Machine
end

