-- ==== Sys2Proof/Laws/Memory.lean ====
section
/-! SUPPORT. What performing stores does: memory keeps its canonical form, each place written holds the last byte written
to it, and every other place of memory is as before. -/

namespace Sys2Proof.Machine

@[simp] theorem State.poke_mem_mem (s : State) (a : Nat) (v : Byte) : (s.poke (.mem a) v).mem = Memory.write s.mem a v := rfl
@[simp] theorem State.poke_scr_mem (s : State) (b : BKey) (a : Nat) (v : Byte) : (s.poke (.scr b a) v).mem = s.mem := rfl

/-- A byte written keeps the form of memory. -/
theorem State.poke_wf {s : State} (h : Memory.wf s.mem = true) (l : Loc) (v : Byte) : Memory.wf (s.poke l v).mem = true := by
  cases l with
  | mem a => exact Memory.wf_write h a v
  | scr b a => exact h

/-- Poison cleared changes no byte. -/
theorem State.clean_mem (s : State) (cells : List (Loc × Byte)) : (s.clean cells).mem = s.mem := by
  unfold State.clean
  suffices H : ∀ (ws : List (Loc × Byte)) (t : State), (ws.foldl (fun (s : State) w =>
      if s.poisoned w.1 && coversSector cells w.1 then
        match w.1 with
        | .mem a => { s with poison := s.poison.filter (· != a / 32) }
        | .scr b a => s.updBlock b fun x => { x with banks := x.banks.modify (a / 131072) fun k =>
            { k with poison := k.poison.filter (· != a % 131072 / 32) } }
      else s) t).mem = t.mem from H cells s
  intro ws
  induction ws with
  | nil => intro t; rfl
  | cons w r ih =>
    intro t
    rw [List.foldl_cons, ih]
    split
    · split <;> rfl
    · rfl

/-- Bytes written one after the other keep the form of memory. -/
theorem State.pokes_wf {s : State} (h : Memory.wf s.mem = true) (ws : List (Loc × Byte)) :
    Memory.wf (ws.foldl (fun s w => s.poke w.1 w.2) s).mem = true := by
  induction ws generalizing s with
  | nil => exact h
  | cons w r ih => exact ih (State.poke_wf h w.1 w.2)

/-- Stores performed keep the form of memory. -/
theorem State.perform_wf {s : State} (h : Memory.wf s.mem = true) (cells : List (Loc × Byte)) :
    Memory.wf (s.perform cells).mem = true :=
  State.pokes_wf (by rw [State.clean_mem]; exact h) cells

theorem State.flush_wf {s : State} (h : Memory.wf s.mem = true) (sel : Pend → Bool) : Memory.wf (s.flush sel).mem = true := by
  unfold State.flush
  suffices H : ∀ (ps : List Pend) (t : State), Memory.wf t.mem = true → Memory.wf (ps.foldl (fun (s : State) p => s.perform p.cells) t).mem = true from
    H _ s h
  intro ps
  induction ps with
  | nil => intro t ht; exact ht
  | cons p r ih => intro t ht; exact ih _ (State.perform_wf ht p.cells)

theorem State.conflicts_mem (s : State) (g : GKey) (e : Nat) (lines : List Nat) : (s.conflicts g e lines).mem = s.mem := by
  unfold State.conflicts
  generalize s.shadows (baseKey g) = ks
  induction ks generalizing s with
  | nil => rfl
  | cons k r ih => rw [List.foldl_cons, ih]; rfl

/-- A store of an instruction is held back, whatever the mode: memory itself changes when it is performed. -/
theorem State.store_mem (s : State) (g : GKey) (e : Nat) (x : QStore) (release : Bool) : (s.store g e x release).mem = s.mem := by
  unfold State.store State.storeAs
  simp only []
  split
  · exact State.conflicts_mem s g e _
  · split
    · exact State.conflicts_mem s g e _
    · exact State.conflicts_mem s g e _

/-- A line that leaves the L2 keeps the form of memory, though it may perform stores (R222). -/
theorem State.l2Evict_wf {s : State} (h : Memory.wf s.mem = true) (row : Nat) : Memory.wf (s.l2Evict row).mem = true := by
  unfold State.l2Evict
  cases e : s.l2.get? row with
  | none => exact h
  | some x =>
    simp only []
    have h1 : Memory.wf (match x.relCore with | some k => s.promote k | none => s : State).mem = true := by
      split
      · exact State.flush_wf h _
      · exact h
    have h2 (t : State) (ht : Memory.wf t.mem = true) : Memory.wf (t.l2Train x false).mem = true := by
      unfold State.l2Train; split
      · exact ht
      · exact ht
    split
    · exact h1
    · exact h2 _ h1

/-- A byte of memory after one write. -/
theorem State.poke_read {s : State} (h : Memory.wf s.mem = true) (l : Loc) (v : Byte) (a : Nat) :
    (s.poke l v).rawByte (.mem a) = if l = .mem a then v else s.rawByte (.mem a) := by
  cases l with
  | mem b =>
    show Memory.read (Memory.write s.mem b v) a = _
    rw [Memory.read_write h]
    by_cases e : b = a
    · simp [e]
    · simp [e, State.rawByte]
  | scr b x => simp [State.rawByte]

theorem lastWrite_cons (w : Loc × Byte) (r : List (Loc × Byte)) (l : Loc) :
    lastWrite (w :: r) l = ((lastWrite r l).orElse fun _ => if w.1 = l then some w.2 else none) := by
  unfold lastWrite
  suffices H : ∀ (ws : List (Loc × Byte)) (o : Option Byte), ws.foldl (fun r w => if w.1 = l then some w.2 else r) o =
      ((ws.foldl (fun r w => if w.1 = l then some w.2 else r) none).orElse fun _ => o) from by
    rw [List.foldl_cons, H]
  intro ws
  induction ws with
  | nil => intro o; cases o <;> rfl
  | cons x y ih =>
    intro o
    rw [List.foldl_cons, List.foldl_cons]
    by_cases e : x.1 = l
    · simp only [e, if_true]; rw [ih (some x.2)]
      cases (y.foldl (fun r w => if w.1 = l then some w.2 else r) none : Option Byte) <;> rfl
    · simp only [e, if_false]; rw [ih o]

theorem State.pokes_read {s : State} (h : Memory.wf s.mem = true) (ws : List (Loc × Byte)) (a : Nat) :
    (ws.foldl (fun s w => s.poke w.1 w.2) s).rawByte (.mem a) = (lastWrite ws (.mem a)).getD (s.rawByte (.mem a)) := by
  induction ws generalizing s with
  | nil => rfl
  | cons w r ih =>
    rw [List.foldl_cons, ih (State.poke_wf h w.1 w.2), State.poke_read h, lastWrite_cons]
    cases lastWrite r (.mem a) with
    | some v => rfl
    | none => by_cases e : w.1 = .mem a <;> simp [e]

/-- Memory after stores have been performed: each byte is the last one written to it, and any other is as before. -/
theorem State.perform_read {s : State} (h : Memory.wf s.mem = true) (cells : List (Loc × Byte)) (a : Nat) :
    (s.perform cells).rawByte (.mem a) = (lastWrite cells (.mem a)).getD (s.rawByte (.mem a)) := by
  unfold State.perform
  rw [State.pokes_read (by rw [State.clean_mem]; exact h)]
  have : (s.clean cells).rawByte (.mem a) = s.rawByte (.mem a) := by
    show Memory.read (s.clean cells).mem a = Memory.read s.mem a
    rw [State.clean_mem]
  rw [this]

end Sys2Proof.Machine
end

