-- ==== Sys2Proof/Tests/Slice0.lean ====
section
/-! SUPPORT. Tests: words written out from the spec's encodings, ill-formed instructions that are refused, and for
each statement a state and operands that meet its hypotheses. -/

set_option Elab.async false

namespace Sys2Proof.Tests
open Sys2Proof Sys2Proof.Machine Sys2Proof.Terms

/-! ## States -/

/-- The placed group, its block, region and context. -/
abbrev g0 : GKey := placedGroup
abbrev b0 : BKey := g0.b
abbrev r0 : RKey := b0.r
abbrev c0 : CKey := r0.c
/-- A scalar stream, a lane queue and a sequencer whose turn it is, at a word of zeros. -/
def sc : State := State.reset.withFetchWord 32 0
def la : State := State.reset.withFetchWord 96 0
def sq : State := State.reset.withFetchWord 64 0

/-- A state whose one split of the placed group issues a scalar instruction, with no join and no stack. -/
def plain (s : State) : Bool :=
  decide (s.turn = .scalar g0 0) && ((s.group g0).ents.get? 0).isSome && (s.split g0 0).live && (s.group g0).fork.isNone &&
    (s.group g0).stepping.isNone && (s.split g0 0).stack.isEmpty && (s.split g0 0).join.isNone &&
    (s.group g0).ents.all (fun q => q.1 == 0)

theorem plain_issues {s : State} (h : plain s = true) : Issues s g0 0 := by
  simp only [plain, Bool.and_eq_true, decide_eq_true_eq, Option.isNone_iff_eq_none] at h
  obtain ⟨⟨⟨⟨⟨⟨⟨a, b⟩, c⟩, d⟩, e⟩, -⟩, -⟩, -⟩ := h
  exact ⟨a, b, c, rfl, d, by simp [e]⟩

theorem plain_straight {s : State} (h : plain s = true) (x : DWord) (l : BitVec 8) : Straight s g0 0 x l := by
  simp only [plain, Bool.and_eq_true, decide_eq_true_eq, Option.isNone_iff_eq_none, List.isEmpty_iff] at h
  obtain ⟨⟨⟨-, a⟩, b⟩, c⟩ := h
  refine .inr ⟨fun t r k => ?_, ?_, fun q hq hn => ?_⟩
  · rw [a] at k; cases k
  · rw [b]; simp
  · exact absurd (by simpa using List.all_eq_true.mp c q hq) hn

theorem plain_ready {s : State} (h : plain s = true) : Ready s g0 0 := ⟨plain_issues h, plain_straight h _ _⟩

theorem sc_plain : plain sc = true := by decide +kernel

/-! ## Witnesses: the scalar stream -/

theorem wit_ScalarAluResult :
    (∃ v, Alu (fun n => sc.getS g0 0 n.toNat) (.div 0 6 7) 0 v) ∧ WellFormed (.div 0 6 7) = true ∧ Ready sc g0 0 ∧ Issues sc g0 0 ∧
    64 < (60 : BitVec 6).toNat + (4 : BitVec 6).toNat + 1 ∧ (0x0400001A : BitVec 32).extractLsb' 26 6 = 0x01 ∧
    26 ≤ ((0x0400001A : BitVec 32).extractLsb' 0 5).toNat ∧ (0x3C000001 : BitVec 32).extractLsb' 26 6 = 0x0F :=
  ⟨⟨_, .div 0 6 7⟩, by decide, plain_ready sc_plain, plain_issues sc_plain, by decide⟩

theorem wit_BranchTarget : (∃ x, Branch (fun n => sc.getS g0 0 n.toNat) (sc.split g0 0).pc (.beq 0 0 (-1)) x) ∧
    Issues sc g0 0 ∧ ∀ x l, Straight sc g0 0 x l :=
  ⟨⟨_, .beq 0 0 (-1)⟩, plain_issues sc_plain, plain_straight sc_plain⟩

/-- s1 = 6: no multiple of 4. -/
def scOdd : State := sc.setS g0 0 1 6
theorem wit_CallAndReturn : Issues sc g0 0 ∧ (∀ x l, Straight sc g0 0 x l) ∧ WellFormed (.jalr 1 2 4) = true ∧
    (sc.getS g0 0 2 + BitVec.signExtend 64 (4 : BitVec 12)).toNat % 4 = 0 ∧ WellFormed (.jalr 0 2 4) = true ∧
    (sc.split g0 0).pendingRc = false ∧ (sc.getS g0 0 1).toNat % 4 = 0 ∧ (sc.split g0 0).calls = [] ∧ (sc.ctx c0).gens = [] :=
  ⟨plain_issues sc_plain, plain_straight sc_plain, by decide +kernel⟩

/-- A split with a pending reconvergence. -/
def scJoin : State := sc.updSplit g0 0 fun p => { p with join := some (8, 0) }
theorem wit_JumpFaults : Issues scOdd g0 0 ∧ WellFormed (.jalr 0 1 4) = true ∧
    (scOdd.getS g0 0 1 + BitVec.signExtend 64 (4 : BitVec 12)).toNat % 4 ≠ 0 ∧ (scOdd.split g0 0).pendingRc = false ∧
    (scOdd.getS g0 0 1).toNat % 4 ≠ 0 ∧ (scJoin.split g0 0).pendingRc = true :=
  ⟨plain_issues (by decide +kernel), by decide +kernel⟩
theorem wit_JumpFaults_pending : Issues scJoin g0 0 := ⟨by decide +kernel, by decide +kernel, by decide +kernel, rfl, by decide +kernel, by decide +kernel⟩

theorem wit_ForkableCall : Issues sc g0 0 ∧ (0 : Nat) ≠ 4 ∧ sc.mayFork g0 false = none :=
  ⟨plain_issues sc_plain, by decide +kernel⟩

theorem wit_ReadIntoRegister : Reads sc g0 0 (.bstat 0 3) 0 (bregWord (sc.ordered g0) ((sc.group g0).bregs.get {} 3)) ∧
    (∃ v, Reads sc g0 0 (.mtestAll 5 0) 5 v) ∧ (∃ v, Reads sc g0 0 (.mcnt 5 15) 5 v) ∧ (∃ v, Reads sc g0 0 (.cntRd 5 3) 5 v) ∧
    WellFormed (.bstat 0 3) = true ∧ WellFormed (.mcnt 5 15) = true ∧ Ready sc g0 0 :=
  ⟨.bstat 0 3, ⟨_, .mtestAll 5 0 (by decide +kernel) (by decide +kernel)⟩,
    ⟨_, .mcnt 5 15 (by decide +kernel) (by decide +kernel)⟩, ⟨_, .cntTime 5⟩, by decide, by decide, plain_ready sc_plain⟩

theorem wit_SpecialRegisters : (∃ v, Special sc g0 0 0x00 v) ∧ (∃ v, Special sc g0 0 0x28 v) ∧
    (∃ t, SpecialSet sc g0 0 5 0x29 t) ∧ (∃ t, SpecialSet sc g0 0 5 0x13 t) ∧ Ready sc g0 0 :=
  ⟨⟨_, .gid⟩, ⟨_, .tw⟩, ⟨_, .tstat (by decide +kernel)⟩, ⟨_, .joinwin⟩, plain_ready sc_plain⟩

/-- s6 beyond 56 bits. -/
def scFar : State := sc.setS g0 0 6 (BitVec.ofNat 64 (2 ^ 56))
theorem wit_TranslationAndWindows : Ready scFar g0 0 ∧ (scFar.getS g0 0 0).toNat < 2 ^ 56 ∧ 2 ^ 56 ≤ (scFar.getS g0 0 6).toNat ∧
    (scFar.getS g0 0 0).toNat % 4 = 0 ∧ scFar.laneBusy g0 0 .any (scFar.laneMark g0 0) = false :=
  ⟨plain_ready (by decide +kernel), by decide +kernel⟩

/-- A second page, which may be written, at 8,192; s8 there. -/
def scMem : State := (sc.updCtx c0 fun x => { x with pages := x.pages ++ [{ placedPage with va := 8192, frame := 2, w := true }] }).setS g0 0 8 8192
def okCell (p : State × Acc) : Option Nat := match p.2 with
  | .ok c => some c
  | _ => none
theorem wit_ScalarMemory : Ready scMem g0 0 ∧ Calm scMem ∧ Memory.wf scMem.mem = true ∧ scMem.ordered g0 = false ∧
    okCell (scMem.access g0 8192 8 true false) = some (cellOf 8192) ∧ okCell (scMem.access g0 8192 8 false true) = some (cellOf 8192) ∧
    scMem.wptHit g0 8192 8 true false = none ∧ scMem.wptHit g0 8192 8 false true = none ∧
    (scMem.getS g0 0 8 + BitVec.signExtend 64 (0 : BitVec 9) * BitVec.ofNat 64 8).toNat = 8192 :=
  ⟨plain_ready (by decide +kernel), fun p h => absurd h (by rw [(by decide +kernel : scMem.l2 = [])]; simp), by decide +kernel⟩

/-- A page at 12,288 that is not resident. -/
def scAway : State := scMem.updCtx c0 fun x => { x with pages := x.pages ++ [{ placedPage with va := 12288, res := false }] }
theorem wit_AccessFaults : (∀ t ∈ (scAway.core (scAway.coreOf g0)).tlb ++ (scAway.cluster (scAway.clusterOf g0)).tlb, TlbEnt.holds t c0 16384 = false) ∧
    findPage (scAway.pagesFor g0) 16384 = none ∧ (findPage (scAway.pagesFor g0) 12288).map (·.res) = some false ∧
    (findPage (scAway.pagesFor g0) 4096).map (·.w) = some false ∧ (16384 : Nat) % 8 = 0 ∧ (4100 : Nat) % 8 ≠ 0 := by decide +kernel

/-! ## Witnesses: splits -/

/-- m1 holds lane 0. -/
def scMask : State := (sc.setM g0 1 0xFFFFFFFF 1).updGroup g0 fun x => { x with joinwin := 0 }
/-- Every entry of the split table taken. -/
def scFull : State := scMask.updGroup g0 fun x => { x with ents := x.ents ++ [(1, { st := .running, mask := 0 }), (2, { st := .running }), (3, { st := .running })] }
theorem wit_SplitDivergence : Issues scMask g0 0 ∧ (scMask.group g0).vec = true ∧ scMask.laneBusy g0 0 (.mask 1) (scMask.laneMark g0 0) = false ∧
    maskBits scMask g0 0 2 = 0 ∧ maskBits scMask g0 0 0 ≠ 0 ∧ (scMask.split g0 0).mask &&& ~~~(maskBits scMask g0 0 0) = 0 ∧
    maskBits scMask g0 0 1 = 1 ∧ scMask.freeEntry g0 = some 1 ∧ (scMask.group g0).joinwin = 0 :=
  ⟨plain_issues (by decide +kernel), by decide +kernel⟩
theorem wit_SplitDivergence_full : (scFull.freeEntry g0 = none ∧ maskBits scFull g0 0 1 = 1 ∧ (scFull.split g0 0).stack.length < 8) ∧
    Issues scFull g0 0 ∧ Issues (scFull.updSplit g0 0 fun p => { p with stack := List.replicate 8 {} }) g0 0 :=
  ⟨by decide +kernel, by constructor <;> decide +kernel, by constructor <;> decide +kernel⟩

/-- A case table of one case of value 7 at 8,192, its default at 4,096. -/
def scSwitch : State := { scMem with mem := Memory.writeAll scMem.mem [(cellOf 8192, 1), (cellOf 8201, 16), (cellOf 8208, 7), (cellOf 8217, 16)] }
theorem wit_Switch : Issues scSwitch g0 0 ∧ (scSwitch.getS g0 0 8).toNat % 8 = 0 ∧
    (match scSwitch.readDwords g0 0 8192 2 with
      | (s1, .ok l) => decide (l = [1, 4096]) && (match s1.readDwords g0 0 8208 2 with
        | (_, .ok tb) => decide (tb = [7, 4096])
        | _ => false)
      | _ => false) = true ∧ (scSwitch.getVL g0 3 0).toNat ≠ 7 ∧ (scSwitch.split g0 0).mask ≠ 0 ∧ (0xFFFFFFFF : Word).getLsbD 31 = true :=
  ⟨plain_issues (by decide +kernel), by decide +kernel⟩

theorem wit_EndsOfSplits : Issues scMask g0 0 ∧ maskBits scMask g0 0 1 ≠ (scMask.split g0 0).mask ∧
    maskBits scMask g0 0 0 = (scMask.split g0 0).mask ∧ (scMask.split g0 0).stack = [] ∧ scMask.ordered g0 = false ∧
    scMask.getS g0 0 0 = 0 ∧ scFar.getS g0 0 6 ≠ 0 :=
  ⟨plain_issues (by decide +kernel), by decide +kernel⟩
/-- The same in an ordered region. -/
def scOrd : State := scFull.updRegion r0 fun x => { x with rcb := { x.rcb with ordered := true, quantum := 16 }, quantum := 1 }
theorem wit_EndOfOneSplit : (scOrd.group g0).ended = false ∧ scOrd.ordered g0 = true ∧ ((scOrd.group g0).ents.get? 1).isSome = true ∧
    (scOrd.split g0 1).live = true := by decide +kernel

/-- Four blocks queued. -/
def scQueue : State := sc.updSplit g0 0 fun p => { p with queue := List.replicate 4 {} }
theorem wit_LaneQueue : Ready sc g0 0 ∧ (sc.split g0 0).queue.length < 4 ∧ (∀ o ∈ (sc.group g0).outst, o.e ≠ 0) ∧
    (∀ o ∈ (sc.group g0).ol, o.e ≠ 0) ∧ Ready scQueue g0 0 ∧ 4 ≤ (scQueue.split g0 0).queue.length :=
  ⟨plain_ready sc_plain, by decide +kernel, by decide +kernel, by decide +kernel, plain_ready (by decide +kernel), by decide +kernel⟩

/-- A state with an event's turn. -/
def at_ (s : State) (ev : Event) : State := { s with turn := .event ev }
def stOf (s : State) (k : SplitSt) : State := s.updSplit g0 0 fun p => { p with st := k }
/-- A nap that has run out; a join window that has, beside one that has not; splits passed over. -/
def scNap : State := at_ (stOf sc (.parked (.nap 0))) (.napExpiry g0 0)
theorem wit_NapExpiry : scNap.turn = .event (.napExpiry g0 0) ∧ (scNap.split g0 0).st = .parked (.nap 0) ∧ scNap.cycle = 0 ∧ g0.sh = 0 ∧
    ((scNap.group g0).ents.get? 0).isSome = true ∧ (scNap.group g0).stepping ≠ some 0 ∧ (scNap.split g0 0).stack = [] ∧
    (scNap.split g0 0).join = none ∧ ((scNap.group g0).ents.all fun q => q.1 == 0) = true := by decide +kernel
def scWin : State := at_ ({ stOf scFull (.waitJoin 0) with cycle := 5 }.updGroup g0 fun x =>
  { x with joinwin := 5, ents := x.ents.upd 1 fun p => { p with st := .waitJoin 1 } }) (.joinWindowExpiry g0 0)
theorem wit_JoinWindowExpiry : scWin.turn = .event (.joinWindowExpiry g0 0) ∧ (scWin.split g0 0).st = .waitJoin 0 ∧
    0 + (scWin.group g0).joinwin.toNat ≤ scWin.windowNow g0 0 ∧ (scWin.split g0 1).st = .waitJoin 1 ∧
    ¬ 1 + (scWin.group g0).joinwin.toNat ≤ scWin.windowNow g0 1 ∧ scWin.mayWait g0 1 = true ∧
    ((scWin.updGroup g0 fun x => { x with joinwin := 0 }).mayWait g0 1) = false := by decide +kernel
def scPassed (e : Nat) : State := at_ ({ sc with cycle := 64 }.updSplit g0 0 fun p => { p with since := some 0, lsince := some 0 }) (.frontListPromotion g0 e)
theorem wit_FrontListPromotion : (scPassed 0).turn = .event (.frontListPromotion g0 0) ∧ ((scPassed 0).split g0 0).front = none ∧
    ((scPassed 0).split g0 0).since = some 0 ∧ 0 + 64 ≤ (scPassed 0).cycle ∧ (scPassed 5).turn = .event (.frontListPromotion g0 5) ∧
    ((scPassed 5).split g0 (5 - 5)).lfront = none ∧ ((scPassed 5).split g0 0).lsince = some 0 := by decide +kernel
/-- Two splits that are to fuse at 4,096. -/
def scFuse : State := at_ (sc.updGroup g0 fun x => { x with ents :=
  [(0, { st := .fusing 3, pc := 4096, mask := 1 }), (1, { st := .fusing 3, pc := 4096, mask := 2 })] }) (.fusion g0 0 1)
theorem wit_Fusion : scFuse.fusePair g0 3 = some (0, 1) ∧ scFuse.turn = .event (.fusion g0 0 1) ∧ (scFuse.split g0 0).st = .fusing 3 ∧
    (scFuse.fuse g0 0 1 3).fusePair g0 3 = none ∧ (scFuse.group g0).ents.Pairwise (fun p q => p.1 ≠ q.1) := by decide +kernel

/-- A fork whose ret has run with the values predicted, or in another mask. -/
def scFork (m : Word) : State := at_
  (sc.setGroup (shadowKey g0 1) { sc.group g0 with fork := some { mask := 0xFFFFFFFF, atRet := some (0, 0, m) } }) (.forkResolve g0 1)
theorem wit_ForkResolution : (scFork 0xFFFFFFFF).forkReady g0 1 = true ∧ (scFork 0).forkReady g0 1 = true ∧
    ((scFork 0).group (shadowKey g0 1)).fork.any (fun f => (scFork 0).forkHolds g0 f) = false ∧
    ((scFork 0xFFFFFFFF).group (shadowKey g0 1)).fork.any (fun f => (scFork 0xFFFFFFFF).forkHolds g0 f) = true := by decide +kernel
/-- A callee split in entry 1 that fuses into entry 0: the fork is entry 0's, whose ret resolves it (R125, R135). -/
theorem test_fusion_keeps_fork :
    let s := (scFork 0xFFFFFFFF).updGroup (shadowKey g0 1) fun x => { x with fork := x.fork.map fun f => { f with own := 1 } }
    let t := (s.updSplit g0 1 fun _ => { st := .fusing 3, mask := 1 }).fuse g0 0 1 3
    (s.group (shadowKey g0 1)).fork.map (·.own) = some 1 ∧ (t.group (shadowKey g0 1)).fork.map (·.own) = some 0 := by decide +kernel

/-! ## Witnesses: launches, copies, banks -/

/-- Another region of the context. -/
def scReg : State := { scMem with regions := scMem.regions.put ⟨c0, 2⟩ {} }.setS g0 0 2 2
/-- A launch record at 8,192 with entry and lane base at 4,096; a region of the context, 2, that runs. -/
def scRec : State := { scReg with mem := Memory.writeAll scReg.mem [(cellOf 8192, 1), (cellOf 8194, 1), (cellOf 8209, 16), (cellOf 8217, 16)] }.updSplit g0 0 fun p => { p with mask := 1 }
theorem wit_LaunchesRegions : Ready scRec g0 0 ∧ scRec.ordered g0 = false ∧ scRec.idUsed c0 r0.id = true ∧
    (match (scRec.walkRecs g0 0 [(scRec.getS g0 0 8).toNat]).launchNow g0 0 [(scRec.getS g0 0 8).toNat] with
      | .ok p => decide (0 < p.2)
      | _ => false) = true ∧ (scRec.group g0).vec = true ∧ 0 < (scRec.group g0).budget ∧
    scRec.laneBusy g0 0 (.vreg 0) (scRec.laneMark g0 0) = false ∧
    (let vas := (lanesOf (scRec.split g0 0).mask).map fun l => (scRec.getS g0 0 8 + (scRec.getVL g0 0 l).setWidth 64).toNat
     match (scRec.walkRecs g0 0 vas).launchNow g0 0 vas with
      | .ok p => decide (0 < p.2)
      | _ => false) = true :=
  ⟨plain_ready (by decide +kernel), by decide +kernel⟩
theorem wit_LaunchEnters : Ready scRec g0 0 ∧ scRec.ordered g0 = false ∧ scRec.idUsed c0 r0.id = true ∧ (scRec.group g0).vec = true ∧
    0 < (scRec.group g0).budget ∧ scRec.laneBusy g0 0 (.vreg 0) (scRec.laneMark g0 0) = false ∧
    (let w := scRec.walkRecs g0 0 [8192]
     let u := w.flushSplit g0 0
     match scRec.regions.get? r0, w.readRec g0 0 8192 256, u.freeIds c0 1 with
      | some own, .ok b, some [id] =>
        let x := effectiveRcb b (some own.rcb)
        decide ((scRec.getS g0 0 8).toNat = 8192) && fieldAt b 8 2 == 0 && x.kdesc == 0 && rcbOk b (some own.rcb) x && decide (24 < x.cores) &&
          decide (w.candidate c0 x.entry = .none) && !x.coresident && !x.persistent &&
          ((aloneWith ⟨c0, 0⟩ { rcb := x, parent := some r0.id, dies := List.range 8 }).fitCluster ⟨c0, 0⟩ x.toPlace x.seq false 0).isSome && id != 0 && (List.range 8).all fun d => u.queueLen d + 1 ≤ 4096
      | _, _, _ => false) = true ∧
    (match (scRec.walkRecs g0 0 [8192]).prepareAll g0 0 [8192] with
      | .ok xs => decide (xs ≠ [])
      | _ => false) = true :=
  ⟨plain_ready (by decide +kernel), by decide +kernel⟩
def scWaits : State := stOf scReg (.parked (.region 2 0))
theorem wit_Rwait : Ready scReg g0 0 ∧ (scReg.split g0 0).st = .running ∧ (scReg.getS g0 0 2).toNat = 2 ∧
    (scReg.named c0 2).any (fun x => !x.ended && x.seq == 0) = true ∧ scReg.isAncestor r0 2 (scReg.regions.length + 1) = false ∧
    scReg.named c0 0 = none ∧ scReg.isAncestor r0 1 1 = true ∧ 2 ^ 16 ≤ (scReg.getS g0 0 8).toNat * 8 ∧ Ready scWaits g0 0 ∧
    (scWaits.split g0 0).st = .parked (.region 2 0) ∧
    ((scWaits.updRegion ⟨c0, 2⟩ fun x => { x with st := .done }).named c0 2).any (fun x => x.ended) = true :=
  ⟨plain_ready (by decide +kernel), by decide +kernel, by decide +kernel, by decide +kernel, by decide +kernel, by decide +kernel,
    by decide +kernel, by decide +kernel, plain_ready (by decide +kernel), by decide +kernel⟩
def prepOf (s : State) (va : Nat) : Option Prep := match (s.walkRecs g0 0 [va]).prepareAll g0 0 [va] with
  | .error p => some p
  | .ok _ => none
/-- A kernel whose code object has no native image. -/
def scXl : State := scRec.updCtx c0 fun x => { x with objects := [{ kernels := [4096] }] }
theorem wit_LaunchStops : Issues scXl g0 0 ∧ scXl.ordered g0 = false ∧
    (match prepOf scXl 8192 with | some (.image 4096) => true | _ => false) = true ∧
    (match prepOf scXl 8196 with | some (.fault _) => true | _ => false) = true ∧
    (match prepOf scXl 4096 with | some (.refused _) => true | _ => false) = true ∧
    (match prepOf scAway 12288 with | some (.nonres _) => true | _ => false) = true :=
  ⟨plain_issues (by decide +kernel), by decide +kernel⟩

/-- A copy group: s8 = s11 = 8,192, s9 = 2³² + 4, s10 = 4, s12 = s9. -/
def scCopy : State := ((((scMem.updGroup g0 fun x => { x with vec := false }).setS g0 0 9 0x100000004).setS g0 0 10 4).setS g0 0 11 8192).setS g0 0 12 0x100000004
def cpyCmd (k : CopyKind) : CopyCmd := { g := g0, kind := k, dst := 8192, src := 8192, len := 4, idx := if k = .cpyg then 8192 else 0, ps := if k = .cpy2d then 4 else 0 }
theorem wit_CopyCommands : Ready scCopy g0 0 ∧ (scCopy.group g0).vec = false ∧ scCopy.ordered g0 = false ∧
    ((scCopy.group g0).batches.filter fun b => !b.cmds.isEmpty).length < 16 ∧ (scCopy.cluster (scCopy.clusterOf g0)).copyQ.length < 256 ∧
    (∀ k ∈ [CopyKind.cpy, .cpy2d, .cpyg], scCopy.copiesSwitch (cpyCmd k) = false ∧ scCopy.copyBad (cpyCmd k) = none) ∧
    scCopy.getS g0 0 8 = (cpyCmd .cpy).dst ∧ (scCopy.getS g0 0 10).toNat = 4 ∧ (scCopy.getS g0 0 9).toNat % 2 ^ 32 = 4 ∧
    (scCopy.getS g0 0 12).toNat / 2 ^ 32 = 1 :=
  ⟨plain_ready (by decide +kernel), by decide +kernel⟩
def scBatch : State := scCopy.updGroup g0 fun x => { x with batches := [{ num := 1, cmds := [7] }], batchNext := 2 }
theorem wit_CopyCommands_wait : Ready scBatch g0 0 ∧ (scBatch.split g0 0).st = .running ∧
    (∃ b ∈ (scBatch.group g0).batches, b.num ≤ (scBatch.getS g0 0 8).toNat ∧ b.num ≤ (scBatch.group g0).batchNext - 1 ∧ b.cmds ≠ []) :=
  ⟨plain_ready (by decide +kernel), by decide +kernel⟩

/-- A copy of one word from 4,096 to 8,192 in the queue. -/
def cpyOne : CopyCmd := { g := g0, id := 7, dst := 8192, src := 4096, len := 4 }
def scCopied : State := at_ (scCopy.updCluster 0 fun x => { x with copyQ := [cpyOne] }) (.copyCommandComplete 0 7)
theorem tab_all {κ α : Type} [DecidableEq κ] (m : Tab κ α) (d : α) (p : α → Bool) (hd : p d = true)
    (h : (m.all fun q => p q.2) = true) (k : κ) : p (m.get d k) = true := by
  unfold Tab.get
  cases e : m.get? k with
  | none => exact hd
  | some v =>
    induction m with
    | nil => simp [Tab.get?] at e
    | cons q r ih =>
      simp only [List.all_cons, Bool.and_eq_true] at h
      simp only [Tab.get?] at e
      split at e
      · cases e; exact h.1
      · exact ih h.2 e
theorem wit_CopyMovesWords : scCopied.turn = .event (.copyCommandComplete 0 cpyOne.id) ∧
    ((scCopied.cluster 0).copyQ.find? fun k => k.id == cpyOne.id) = some cpyOne ∧ scCopied.copyReady cpyOne = true ∧ cpyOne.sent = false ∧ (∀ k ∈ scCopied.groups, k.2.ol = []) ∧
    Memory.wf scCopied.mem = true ∧ scCopied.poison = [] ∧ scCopied.l2 = [] ∧ (scCopied.block b0).banks = [] ∧
    (∀ j, j < cpyOne.len / 4 → scCopied.placeOf cpyOne.g.b (cpyOne.dst.toNat + 4 * j) = some (.mem (cellOf 8192 + 4 * j)) ∧
      scCopied.placeOf cpyOne.g.b (cpyOne.src.toNat + 4 * j) = some (.mem (cellOf 4096 + 4 * j)) ∧
      scCopied.lineFault cpyOne false (cpyOne.dst.toNat + 4 * j) true = none ∧ scCopied.lineFault cpyOne false (cpyOne.src.toNat + 4 * j) false = none) := by
  decide +kernel
/-- A FIFO bank that holds an entry; s1 names it. -/
def scBank : State := (sc.updBlock b0 fun x => { x with banks := [{ mode := .fifo, fifo := [[1, 2, 3, 4]] }] }).setS g0 0 1 1
theorem wit_BankModes : Ready scBank g0 0 ∧ (scBank.split g0 0).st = .running ∧ scBank.cfgTurn g0 0 = true ∧ scBank.ordered g0 = false ∧
    (scBank.getS g0 0 0).toNat < 2 ^ 32 ∧ 2 < (scFar.getS g0 0 6).toNat ∧
    (∀ i, i < 32 → (scBank.getS g0 0 1).toNat.testBit i = true → i < 1) ∧ (scBank.getS g0 0 1).toNat.testBit 0 = true ∧
    ((scBank.block b0).banks.getD 0 {}).mode = .fifo ∧ ((scBank.block b0).banks.getD 0 {}).fifo ≠ [] ∧
    (scMem.getS g0 0 8).toNat % 128 = 0 ∧ (scMem.getS g0 0 8).toNat < 2 ^ 48 :=
  ⟨plain_ready (by decide +kernel), by decide +kernel⟩
def scSwitching : State := sc.updBlock b0 fun x => { x with switchMask := 8, banks := [{ num := 3, switching := some .scratch, doneAt := some 0 }] }
theorem wit_Banks_switch : scSwitching.bankSwitchReady b0 = true ∧
    (scSwitching.block b0).banks[0]?.map (·.switching) = some (some BankMode.scratch) := by decide +kernel
def scSwitched : State := (stOf scBank (.parked (.bankSwitch 0))).updBlock b0 fun x => { x with switched := 1 }
theorem wit_BankModes_done : Ready scSwitched g0 0 ∧ (scSwitched.split g0 0).st = .parked (.bankSwitch 0) ∧ 0 < (scSwitched.block b0).switched :=
  ⟨plain_ready (by decide +kernel), by decide +kernel⟩
/-- An empty FIFO bank, to be switched; a group of an ordered region. -/
def scEmptied : State := scBank.updBlock b0 fun x => { x with banks := [{ mode := .fifo }] }
def scBankOrd : State := scEmptied.updRegion r0 fun x => { x with rcb := { x.rcb with ordered := true, quantum := 16 }, quantum := 1 }
theorem wit_BankModes_switch : Ready scEmptied g0 0 ∧ scEmptied.cfgTurn g0 0 = true ∧ ((scEmptied.block b0).banks.getD 0 {}).mode = .fifo ∧
    ((scEmptied.block b0).banks.getD 0 {}).fifo = [] ∧ BankMode.ofCode (scEmptied.getS g0 0 0).toNat ≠ .fifo ∧ Ready scBankOrd g0 0 ∧
    scBankOrd.ordered g0 = true :=
  ⟨plain_ready (by decide +kernel), by decide +kernel, by decide +kernel, by decide +kernel, by decide +kernel, plain_ready (by decide +kernel),
    by decide +kernel⟩

/-! ## Witnesses: atomics, waits, fences, rings, barriers -/

def scAcc : State := (scMem.access g0 8192 8 true true).1
def scSync : State × Option Nat := (((scAcc.flushScalar g0 0).flushLines g0 0 [cellOf 8192 / 128]).conflicts g0 0 [cellOf 8192 / 128]).syncOf
  g0 0 (scMem.split g0 0).pc.toNat 6 false true true false (cellOf 8192)
theorem wit_ScalarAtomic : Ready scMem g0 0 ∧ scMem.ordered g0 = false ∧ okCell (scMem.access g0 8192 8 true true) = some (cellOf 8192) ∧
    scMem.wptHit g0 8192 8 true true = none ∧ scSync.2 = none ∧ Memory.wf scSync.1.mem = true :=
  ⟨plain_ready (by decide +kernel), by decide +kernel⟩

/-- Reads of a doubleword and of a word, which are zero. -/
def scRead (n : Nat) : State := (scMem.access g0 8192 n true false).1
theorem wit_WaitOnAddress : Ready scMem g0 0 ∧ okCell (scMem.access g0 8192 8 true false) = some (cellOf 8192) ∧
    okCell (scMem.access g0 8192 4 true false) = some (cellOf 8192) ∧ (scRead 8).load g0 0 (.mem (cellOf 8192)) 8 = (scMem.getS g0 0 0).toNat ∧
    (scRead 4).load g0 0 (.mem (cellOf 8192)) 4 ≠ (scMem.getS g0 0 8).toNat % 2 ^ 32 ∧
    (let p := (scRead 8).waitDone g0 0 8192 (cellOf 8192) 6 false false
     p.2.isNone = true ∧ p.1.groups = scMem.groups) :=
  ⟨plain_ready (by decide +kernel), by decide +kernel⟩
def scWait : State := at_ (stOf scMem (.parked (.wait 8192 (cellOf 8192) true true 0 6 false))) (.waitReread g0 0)
theorem wit_WaitReread : scWait.turn = .event (.waitReread g0 0) ∧
    (scWait.split g0 0).st = .parked (.wait 8192 (cellOf 8192) true true 0 6 false) ∧
    okCell (scWait.accessAs g0 0 8192 8 true false) = some (cellOf 8192) ∧
    (let r := (scWait.accessAs g0 0 8192 8 true false).1.settleLoads g0 0 [cellOf 8192] 8
     r.load g0 0 (.mem (cellOf 8192)) 8 = 0 ∧ (r.waitDone g0 0 8192 (cellOf 8192) 6 false false).2.isNone = true) ∧
    ((match ({ scWait with poison := [cellOf 8192 / 32] }.accessAs g0 0 8192 8 true false).2 with
      | .fault _ => true
      | _ => false) = true) := by decide +kernel

/-- A lane store (vst v0, v0, bits of ones) in the queue, and one held back. -/
def scLanes : State := { sc with mem := Memory.writeAll sc.mem ((List.range 12).map fun k => (cellOf 4096 + k, if k < 4 then [0x00, 0x00, 0x00, 0x3C].getD k 0 else 0)) }.updSplit
  g0 0 fun p => { p with queue := [{ addr := 4096, pc := 4096, mask := 1 }] }
def scPend : State := { sc with pend := [{ id := 3, g := g0, e := 0, lane := false, release := false, cells := [(.mem 5, 1), (.mem 5, 2)] }] }
theorem wit_Fences : Ready sc g0 0 ∧ sc.ordered g0 = false ∧ sc.lanesPending g0 0 = false ∧ Ready scLanes g0 0 ∧
    scLanes.lanesPending g0 0 = true ∧ scPend.performReady 3 = true ∧ Memory.wf scPend.mem = true ∧
    (scPend.flush fun p => p.id == 3).rawByte (.mem 5) = 2 :=
  ⟨plain_ready sc_plain, by decide +kernel, by decide +kernel, plain_ready (by decide +kernel), by decide +kernel⟩

/-- Ring 1 full, with a waiter on each side of the rings 1 and 2. -/
def scRing : State := sc.updBlock b0 fun x => { x with rings := [(1, { depth := some 1, full := 1, takers := [.split g0 0] }), (2, { depth := some 1, givers := [.split g0 0] })] }
theorem wit_StageRings : Ready scRing g0 0 ∧ scRing.ordered g0 = false ∧
    (let r := (scRing.block b0).rings.get {} 0
     (r.fix 1).givers = [] ∧ (r.fix 1).full.getLsbD 0 = false ∧ (r.fix 1).takers = []) ∧
    ((scRing.block b0).rings.get {} 1).full.getLsbD 0 = true ∧ (scRing.ring b0 1).canTake = true ∧ (scRing.ring b0 2).canGive = true ∧
    scRing.waiterFree b0 (.split g0 0) = true :=
  ⟨plain_ready (by decide +kernel), by decide +kernel⟩

/-- A region of one tag, on which the group has arrived; a completed instance. -/
def scTag : State := sc.updRegion r0 fun x => { x with rcb := { x.rcb with tags := 1 }, bars := [(0, { last := [(g0, 0)], releases := [(0, 0)] })] }
/-- Two splits that wait for it, of which a trap has suspended one. -/
def scTag2 : State := (scTag.updGroup g0 fun x => { x with ents := [(0, { st := .parked (.barrier (some 0) 0) }), (1, { st := .parked (.barrier (some 0) 0), susp := true })] })
theorem wit_Barriers : Ready scTag g0 0 ∧ scTag.ordered g0 = false ∧ (scTag.bar b0 none).execd = [] ∧ (scTag.rcb g0).tags = 1 ∧
    (scTag.bar b0 (some 0)).execd = [] ∧ (scTag.bar b0 (some 0)).last.get? g0 = some 0 ∧ (scTag.bar b0 (some 0)).inst = 0 ∧
    scTag.releaseDue b0 (some 0) = some (0, 0) ∧ scTag.barWaiters b0 (some 0) 0 = [] ∧ scTag.savedWaiters b0 (some 0) 0 = false ∧
    scTag2.releaseDue b0 (some 0) = some (0, 0) ∧ (scTag2.barWaiters b0 (some 0) 0).length = 2 ∧ (scTag2.released b0 (some 0) 0).length = 1 :=
  ⟨plain_ready (by decide +kernel), by decide +kernel⟩
theorem wit_BarWait : Ready sc g0 0 ∧ (sc.rcb g0).tags = 0 ∧ (sc.bar b0 (some 0)).last = [] := ⟨plain_ready sc_plain, by decide +kernel⟩

/-! ## Witnesses: lane instructions -/

/-- Whether an instruction issues from the queue of the placed group's one split. -/
def lanePlain (s : State) (i : Instr) (x : LArgs) : Bool :=
  decide (s.turn = .lane g0 0) && (s.group g0).vec && decide (laneArgsOf i = some x) && WellFormed i &&
    (laneRegs i).all (fun r => (r.vd ++ r.vs ++ r.xs ++ r.half).all (fun n => decide (n < (s.group g0).budget)) && r.pairs.all (fun n => n % 2 == 0)) &&
    ((s.group g0).ents.get? 0).isSome && (s.split g0 0).live && !(s.split g0 0).queue.isEmpty && (s.head g0 0).again.isNone &&
    !(s.head g0 0).dfault && (s.group g0).fork.isNone && (s.group g0).stepping.isNone && !(s.group g0).ended &&
    (s.group g0).ents.all fun p => decide (p.2.st ≠ .draining)

theorem lane_issues {s : State} {i : Instr} {x : LArgs} (h : lanePlain s i x = true) : LaneIssues s g0 0 i x := by
  simp only [lanePlain, Bool.and_eq_true, decide_eq_true_eq, Option.isNone_iff_eq_none, Bool.not_eq_true', List.all_eq_true,
    Option.all_eq_true, beq_iff_eq, List.isEmpty_eq_false_iff] at h
  obtain ⟨⟨⟨⟨⟨⟨⟨⟨⟨⟨⟨⟨⟨a, b⟩, c⟩, d⟩, r⟩, f⟩, j⟩, k⟩, m⟩, n⟩, o⟩, p⟩, q⟩, u⟩ := h
  exact { turn := a, home := rfl, vec := b, args := c, formed := d, entry := f, live := j, queue := k, once := m, fresh := n
          noFork := o, noStep := by simp [p], going := q, noDrain := u
          budget := fun y hy => (r y hy).1, pairs := fun y hy => (r y hy).2 }

theorem lane_ready {s : State} {i : Instr} {x : LArgs} (h : lanePlain s i x = true)
    (hh : (laneRegs i).all (fun r => s.holdFaults g0 (s.head g0 0) i r x.m.toNat == 0) = true) : LaneReady s g0 0 i x :=
  ⟨lane_issues h, fun r hr => by rw [hr] at hh; simpa using hh⟩

/-- Fields of a lane word: vd = v2, va = v4, b = v6. -/
def la0 : LArgs := { h := false, m := 0, ty := .i32, rm := .rne, sat := false, vd := 2, va := 4, bk := .vreg, b := 6, vc := 0, ext := 0 }
/-- One operand, none, an immediate. -/
def la1 : LArgs := { la0 with b := 0 }
def laN : LArgs := { la0 with vd := 0, va := 0, b := 0 }
def laI : LArgs := { la0 with bk := .imm, b := 3 }
/-- The states: v4 and v6 hold values in lane 0, the block runs in lane 0. -/
def laV : State := (la.updSplit g0 0 fun p => { p with queue := p.queue.map fun b => { b with mask := 1 } }).updGroup g0 fun x =>
  { x with vregs := [(4, 7 :: List.replicate 31 0), (6, 2 :: List.replicate 31 0)] }

theorem wit_LaneIntegerResult : (∃ R, IntLane (.vadd la0) la0 R) ∧ LaneReady laV g0 0 (.vadd la0) la0 ∧
    (∃ b, BOperand laV laV g0 0 la0 .i32 false b) ∧ (∃ R, IntLane (.vadd laI) laI R) ∧ LaneReady laV g0 0 (.vadd laI) laI ∧
    (∃ s' b, BOperand laV s' g0 0 laI .i32 false b) :=
  ⟨⟨_, .vadd la0⟩, lane_ready (by decide +kernel) (by decide +kernel), ⟨_, .inl ⟨rfl, rfl, rfl⟩⟩,
    ⟨_, .vadd laI⟩, lane_ready (by decide +kernel) (by decide +kernel),
    ⟨_, _, .inr (.inr ⟨by decide, by decide +kernel, _, rfl, rfl⟩)⟩⟩

def laF : LArgs := { la0 with ty := .f32, rm := .rup }
theorem wit_LaneFloatResult : (∃ R, FloatLane (.vfadd laF) laF R) ∧ LaneReady laV g0 0 (.vfadd laF) laF ∧
    (∃ b, BOperand laV laV g0 0 laF .f32 true b) :=
  ⟨⟨_, .vfadd laF⟩, lane_ready (by decide +kernel) (by decide +kernel), ⟨_, .inl ⟨rfl, rfl, rfl⟩⟩⟩

def laMovi : LArgs := { laN with vd := 2, bk := .imm, b := 0xFFFF, ext := 0xFFFF }
def laCvt : LArgs := { la1 with ty := .f16, ext := 0 }
def laTern : LArgs := { la1 with ty := .tr, ext := 1 }
theorem wit_LaneMoveResult : LaneReady laV g0 0 (.vmovi laMovi) laMovi ∧ LaneReady laV g0 0 (.vlane { laN with vd := 2 }) { laN with vd := 2 } ∧
    LaneReady laV g0 0 (.vsel { la0 with vc := 1 }) { la0 with vc := 1 } ∧ LaneReady laV g0 0 (.vcvt laCvt) laCvt ∧
    LaneReady laV g0 0 (.vternPack laTern) laTern ∧ LaneReady laV g0 0 (.vternUnpack laTern) laTern ∧
    (∃ b, BOperand laV laV g0 0 { la0 with vc := 1 } .i32 false b) :=
  ⟨lane_ready (by decide +kernel) (by decide +kernel), lane_ready (by decide +kernel) (by decide +kernel),
    lane_ready (by decide +kernel) (by decide +kernel), lane_ready (by decide +kernel) (by decide +kernel),
    lane_ready (by decide +kernel) (by decide +kernel), lane_ready (by decide +kernel) (by decide +kernel), ⟨_, .inl ⟨rfl, rfl, rfl⟩⟩⟩

def laO : LArgs := { laCvt with bk := .imm, ext := 8 }
/-- v4 holds 1e30 in lane 0, which no f16 holds; with a list of one entry at 8,192. -/
def laBig : State := laV.updGroup g0 fun x => { x with vregs := [(4, 0x7149F2CA :: List.replicate 31 0)] }
def laList : State := { laBig with ctxs := scMem.ctxs }.updGroup g0 fun x => { x with ollen := 1, olbase := 1024 }
theorem wit_Outliers : LaneReady laBig g0 0 (.vcvtO laO) laO ∧ (laBig.group g0).ollen = 0 ∧
    isOutlier .f16 .rne (readEl .f32 (elGet 32 (laBig.laneVal g0 .f32 4 0) 0)) = true ∧ (active laBig g0 0 laO).getLsbD 0 = true ∧
    (laBig.group g0).ollen.toNat ≤ (laBig.group g0).olcnt.toNat % 2 ^ 31 ∧ (laList.group g0).olcnt.toNat % 2 ^ 31 < (laList.group g0).ollen.toNat ∧
    laList.ordered g0 = false ∧ okCell (laList.access g0 ((laList.group g0).olbase.toNat * 8 + 8 * 0) 8 false true) = some (cellOf 8192) :=
  ⟨lane_ready (by decide +kernel) (by decide +kernel), by decide +kernel⟩

def laC : LArgs := { la0 with vd := 1 }
theorem wit_LaneMaskResult : (∃ f, MaskLane laV g0 0 (.vcmp 5 laC) laC false f) ∧ LaneReady laV g0 0 (.vcmp 5 laC) laC ∧
    (∃ b, BOperand laV laV g0 0 laC .i32 false b) ∧ (∃ f, MaskLane laV g0 0 (.msetMask laN) laN false f) ∧
    LaneReady laV g0 0 (.msetMask laN) laN ∧ laN.vd.toNat = 0 :=
  ⟨⟨_, .vcmp 5 laC⟩, lane_ready (by decide +kernel) (by decide +kernel), ⟨_, .inl ⟨rfl, rfl, rfl⟩⟩,
    ⟨_, .msetMask laN⟩, lane_ready (by decide +kernel) (by decide +kernel), rfl⟩

/-- Under m1, which is empty. -/
def laNone : LArgs := { laF with m := 1 }
theorem wit_LaneSlowResult : (∃ R, SlowLane (.vfdiv laF) laF true R) ∧ LaneReady laV g0 0 (.vfdiv laF) laF ∧ active laV g0 0 laF ≠ 0 ∧
    LaneReady laV g0 0 (.vfdiv laNone) laNone ∧ active laV g0 0 laNone = 0 ∧ (∃ b, BOperand laV laV g0 0 laF .f32 true b) ∧
    LaneReady laV g0 0 (.vvote 3 { la1 with vd := 1 }) { la1 with vd := 1 } ∧ active laV g0 0 { la1 with vd := 1 } ≠ 0 ∧
    LaneReady laV g0 0 (.vvote 0 { la1 with vd := 0 }) { la1 with vd := 0 } :=
  ⟨⟨_, .vfdiv laF⟩, lane_ready (by decide +kernel) (by decide +kernel), by decide +kernel,
    lane_ready (by decide +kernel) (by decide +kernel), by decide +kernel, ⟨_, .inl ⟨rfl, rfl, rfl⟩⟩,
    lane_ready (by decide +kernel) (by decide +kernel), by decide +kernel, lane_ready (by decide +kernel) (by decide +kernel)⟩

/-- A result for v2 in lane 0 and for m1. -/
def outst0 : Outst := { id := 3, e := 0, lanes := 1, v := [(2, [(0, 9)])], m := [(1, 1)] }
def laOut : State := at_ (laV.updGroup g0 fun x => { x with outst := [outst0] }) (.resultReturn g0 3)
theorem wit_ResultReturn : laOut.turn = .event (.resultReturn g0 outst0.id) ∧ laOut.returnReady g0 outst0.id = true ∧
    ((laOut.group g0).outst.find? fun k => k.id == outst0.id) = some outst0 ∧ outst0.sample = [] ∧ (laOut.group g0).ended = false ∧
    (∀ p ∈ (laOut.group g0).ents, p.2.st ≠ .draining) ∧ (∃ p ∈ (laOut.group g0).ents, p.2.live = true) ∧
    (outst0.v.map (·.1)).Nodup ∧ (∀ w ∈ outst0.v, (w.2.map (·.1)).Nodup ∧ ∀ q ∈ w.2, q.1 < 32) ∧ (outst0.m.map (·.1)).Nodup := by
  decide +kernel

theorem wit_LaneIssue : LaneReady laV g0 0 (.vnop laN) laN ∧ LaneReady laV g0 0 (.lend { laN with h := true }) { laN with h := true } ∧
    laneArgsOf (.vadd { la0 with ext := 1 }) = some { la0 with ext := 1 } ∧ WellFormed (.vadd { la0 with ext := 1 }) = false ∧
    laV.turn = .lane g0 0 ∧ (laV.head g0 0).again = none ∧ (laV.head g0 0).dfault = false ∧ (laV.group g0).vec = true ∧
    WellFormed (.vadd { la0 with vd := 16 }) = true ∧ (laneRegs (.vadd { la0 with vd := 16 })).any (fun r => r.vd == [16]) = true ∧
    (laV.group g0).budget ≤ 16 ∧ WellFormed (.vadd { la0 with ty := .i64, vd := 3 }) = true ∧
    (laneRegs (.vadd { la0 with ty := .i64, vd := 3 })).any (fun r => r.pairs.contains 3) = true :=
  ⟨lane_ready (by decide +kernel) (by decide +kernel), lane_ready (by decide +kernel) (by decide +kernel), by decide +kernel⟩

/-- A lane add whose destination is outstanding in lane 0. -/
def laHold : State := laV.updGroup g0 fun x => { x with outst := [outst0] }
theorem wit_HoldViolation : LaneIssues laHold g0 0 (.vadd la0) la0 ∧ (∃ R, IntLane (.vadd la0) la0 R) ∧ (∃ r, laneRegs (.vadd la0) = some r) ∧
    (laneRegs (.vadd la0)).any (fun r => laHold.holdFaults g0 (laHold.head g0 0) (.vadd la0) r 0 == active laHold g0 0 la0) = true ∧
    active laHold g0 0 la0 ≠ 0 :=
  ⟨lane_issues (by decide +kernel), ⟨_, .vadd la0⟩, ⟨_, rfl⟩, by decide +kernel⟩

/-! ## Witnesses: lane memory -/

/-- b0 holds 64 bytes of the page at 8,192, b1 none of it, b2 a page that is not mapped. -/
def laM : State := ({ laV with ctxs := scMem.ctxs } : State).updSplit g0 0 fun p =>
  { p with
    queue := p.queue.map fun b =>
      { b with
        snapB := [(0, { valid := true, base := 8192, limit := 64, r := true, w := true, frame := 2 }),
          (1, { valid := true, base := 8192 }), (2, { valid := true, base := 16384 })] } }
def laCtx : LCtx := { g := g0, e := 0, blk := laM.head g0 0, act := 1, active := 1, src := 1 }
def xlOk (p : State × Xl) : Option Nat := match p.2 with
  | .ok c => some c
  | .fault k => some (2 ^ 60 + k)
  | .nonres => some (2 ^ 61)
theorem wit_LaneAddress : (laCtx.blk.snapB.get {} 3).valid = false ∧ (laCtx.blk.snapB.get {} 0).valid = true ∧
    (8192 + 2) % 4 ≠ 0 ∧ 60 + 4 ≤ (laCtx.blk.snapB.get {} 0).limit.toNat ∧ (laCtx.blk.snapB.get {} 0).limit.toNat < 61 + 4 ∧
    (laCtx.blk.snapB.get {} 1).limit.toNat < 0 + 4 ∧ xlOk (laM.xlate g0 8192 true false) = some (cellOf 8192) ∧
    xlOk (laM.xlate g0 16384 true false) = some (2 ^ 60 + 5) ∧
    xlOk ((laM.updCtx c0 fun x => { x with pages := [{ placedPage with va := 16384, res := false }] }).xlate g0 16384 true false) = some (2 ^ 61) := by
  decide +kernel

/-- A load, a store, a prefetch at b0 + v8, which is 0. -/
def laLd : LArgs := { la1 with va := 8 }
def laSt : LArgs := { la1 with vd := 0, va := 8, vc := 4 }
def laPf : LArgs := { laSt with vc := 0 }
def laLds : State × LaneAccs := (laM.train g0 true 4096 8192).laneAccs laCtx 0 4 true false fun _ => 0
def laSts : State × LaneAccs := laM.laneAccs laCtx 0 4 false true fun _ => 0
theorem noWpt (s : State) (h : ((s.group g0).wpts.all fun q => !q.2.en) = true) (k : Nat) : ((s.group g0).wpts.get {} k).en = false := by
  simpa using tab_all (s.group g0).wpts {} (fun w => !w.en) rfl h k
theorem calm_of {s : State} (h : s.l2.all (fun p => p.2.relCore.isNone) = true) : Calm s := fun p hp => by
  simpa using List.all_eq_true.mp h p hp
theorem wit_LaneLoad : LaneReady laM g0 0 (.vld laLd) laLd ∧ laM.ordered g0 = false ∧ (laM.ctx c0).fin.base = 0 ∧ Calm laM ∧
    active laM g0 0 laLd = 1 ∧ laLds.2 = { oks := [(0, 8192, cellOf 8192)] } ∧ laLds.1.poisonFor g0 0 (.mem (cellOf 8192)) = false ∧
    laLd.order ≠ 1 ∧ LArgs.breg laLd = 0 ∧ LArgs.scale laLd = 1 ∧ (laM.getVL g0 8 0).toNat = 0 :=
  ⟨lane_ready (by decide +kernel) (by decide +kernel), by decide +kernel, by decide +kernel, calm_of (by decide +kernel), by decide +kernel⟩
theorem wit_LaneStore : LaneReady laM g0 0 (.vst laSt) laSt ∧ laSts.2 = { oks := [(0, 8192, cellOf 8192)] } ∧ Calm laSts.1 ∧
    (∀ k, ((laM.group g0).wpts.get {} k).en = false) ∧ laSts.1.poisonFor g0 0 (.mem (cellOf 8192)) = false ∧ laSt.order ≠ 2 :=
  ⟨lane_ready (by decide +kernel) (by decide +kernel), by decide +kernel, calm_of (by decide +kernel), noWpt _ (by decide +kernel), by decide +kernel⟩
theorem wit_Prefetch : LaneReady laM g0 0 (.vprf laPf) laPf ∧ (laM.ctx c0).fin.base = 0 ∧ Calm laM :=
  ⟨lane_ready (by decide +kernel) (by decide +kernel), by decide +kernel, calm_of (by decide +kernel)⟩

/-- An exchange, and a combined compare-and-swap by two lanes of 64 bits. -/
theorem wit_CombinedRequest : Memory.wf laM.mem = true ∧ (let r : AtomReq := { loc := 8192, op := 8, size := 8, ty := 6, lanes := [(0, 1, 0), (1, 2, 1)] }
    r.op ≤ 8 ∧ r.ty = Ty.i64.code.toNat ∧ r.size = (if Ty.i64.is64 then 8 else 4) ∧
      ∀ l ∈ r.lanes, l.2.1.toNat < 2 ^ Ty.i64.width ∧ l.2.2.toNat < 2 ^ Ty.i64.width) := by decide +kernel
def laAt : LArgs := { laLd with vc := 4 }
def laAts : State × LaneAccs := laM.laneAccs laCtx 0 4 true true fun _ => 0
def laAtd : State × LaneAccs := ((laAts.1.conflicts g0 0 [cellOf 8192 / 128]).flush fun p => decide (p.g = g0) && p.e == 0 &&
  p.cells.any fun w => [cellOf 8192 / 128].contains w.1.line).scopeFaults laCtx laAt false false true laAts.2
theorem wit_LaneAtomic : LaneReady laM g0 0 (.vatom 7 laAt) laAt ∧ LaneReady laM g0 0 (.vatomNr 0 laSt) laSt ∧ laM.ordered g0 = false ∧
    (laM.ctx c0).fin.base = 0 ∧ lanesOf (active laM g0 0 laAt) = [0] ∧ laAts.2 = { oks := [(0, 8192, cellOf 8192)] } ∧
    laAts.1.poisonFor g0 0 (.mem (cellOf 8192)) = false ∧ laAtd.2.faults = [] ∧ Memory.wf laAtd.1.mem = true ∧
    (laAtd.1.l2Find (cellOf 8192 / 128)).isSome = true ∧ (∀ k, ((laM.group g0).wpts.get {} k).en = false) :=
  ⟨lane_ready (by decide +kernel) (by decide +kernel), lane_ready (by decide +kernel) (by decide +kernel), by decide +kernel,
    by decide +kernel, by decide +kernel, by decide +kernel, by decide +kernel, by decide +kernel, by decide +kernel, by decide +kernel,
    noWpt _ (by decide +kernel)⟩

/-- Bank 0 is a scratch bank, bank 1 a FIFO bank of one entry, bank 2 a FIFO bank that is full. -/
def laB : State := laV.updBlock b0 fun x => { x with banks :=
  [{ mode := .scratch }, { mode := .fifo, fifo := [[1, 2, 3, 4]] }, { mode := .fifo, fifo := List.replicate 8192 [] }] }
def laLs : LArgs := { la1 with va := 8, bk := .imm, b := 0 }
def laSs : LArgs := { laSt with bk := .imm, b := 64 }
theorem wit_Scratch : LaneReady laB g0 0 (.vlds laLs) laLs ∧ LaneReady laB g0 0 (.vsts laSs) laSs ∧ laB.ordered g0 = false ∧
    (∃ s' b, BOperand laB s' g0 0 laLs .n32 false b) ∧ lanesOf (active laB g0 0 laLs) = [0] ∧ (laB.block b0).scratchOk 0 4 = true ∧
    laB.poisonFor g0 0 (.scr b0 0) = false ∧ laB.ownedAt (.scr b0 0) = false ∧ (laB.block b0).switchMask = 0 ∧
    (laB.block b0).scratchOk 131068 4 = true ∧ (laB.block b0).scratchOk 131072 4 = false ∧ 2 % 4 ≠ 0 :=
  ⟨lane_ready (by decide +kernel) (by decide +kernel), lane_ready (by decide +kernel) (by decide +kernel), by decide +kernel,
    ⟨_, _, .inr (.inr ⟨by decide, by decide +kernel, _, rfl, rfl⟩)⟩, by decide +kernel⟩

/-- Bank 1, and bank 2, by an immediate. -/
def laPu (n : BitVec 20) : LArgs := { la1 with vd := 0, bk := .imm, b := n }
def laPo (n : BitVec 20) : LArgs := { la1 with va := 0, bk := .imm, b := n }
def laFull : State := at_ (laB.updSplit g0 0 fun p => { p with lpark := some (.fifo 1 1 true) }) (.fifoWaitEnd g0 0)
theorem wit_FifoBanks : LaneReady laB g0 0 (.vfpush (laPu 1)) (laPu 1) ∧ LaneReady laB g0 0 (.vfpop (laPo 1)) (laPo 1) ∧
    LaneReady laB g0 0 (.vfpush (laPu 2)) (laPu 2) ∧ (∃ s' b, BOperand laB s' g0 0 (laPu 1) .n32 false b) ∧
    ((laB.block b0).banks.map fun k => (k.mode, k.switching, k.fifo.length)) = [(.scratch, none, 0), (.fifo, none, 1), (.fifo, none, 8192)] ∧
    (lanesOf (active laB g0 0 (laPu 1))).length = 1 ∧ (laFull.split g0 0).lpark = some (.fifo 1 1 true) :=
  ⟨lane_ready (by decide +kernel) (by decide +kernel), lane_ready (by decide +kernel) (by decide +kernel),
    lane_ready (by decide +kernel) (by decide +kernel), ⟨_, _, .inr (.inr ⟨by decide, by decide +kernel, _, rfl, rfl⟩)⟩, by decide +kernel⟩
/-- Two lanes on a bank of one entry: the pop waits. -/
def laTwo : State := laB.updSplit g0 0 fun p => { p with queue := p.queue.map fun b => { b with mask := 3 } }
theorem wit_FifoBanks_pop : LaneReady laTwo g0 0 (.vfpop (laPo 1)) (laPo 1) ∧ (lanesOf (active laTwo g0 0 (laPo 1))).length = 2 :=
  ⟨lane_ready (by decide +kernel) (by decide +kernel), by decide +kernel⟩

/-! ## Witnesses: Campanile -/

/-- The group holds the array. -/
def laT : State := laV.updCore 0 fun k => { k with camp := some g0 }
def laK : LArgs := { la1 with ty := .tk, vd := 0 }
def laR : LArgs := { laK with vd := 2, va := 0, ext := 64 }
theorem wit_CampanileLanes : (laT.core (laT.coreOf g0)).camp = some (baseKey g0) ∧ (laT.core (laT.coreOf g0)).campBusy = none ∧
    LaneReady laT g0 0 (.tdly { laK with ext := 62 }) { laK with ext := 62 } ∧ LaneReady laT g0 0 (.tlaunch laK) laK ∧
    LaneReady laT g0 0 (.tcap { laR with ext := 0 }) { laR with ext := 0 } ∧ LaneReady laT g0 0 (.trank laR) laR ∧ active laT g0 0 laR ≠ 0 ∧
    (laV.core (laV.coreOf g0)).camp ≠ some (baseKey g0) ∧ LaneReady laV g0 0 (.tlaunch laK) laK :=
  ⟨by decide +kernel, by decide +kernel, lane_ready (by decide +kernel) (by decide +kernel), lane_ready (by decide +kernel) (by decide +kernel),
    lane_ready (by decide +kernel) (by decide +kernel), lane_ready (by decide +kernel) (by decide +kernel), by decide +kernel,
    by decide +kernel, lane_ready (by decide +kernel) (by decide +kernel)⟩
theorem wit_CampanileArray : (∀ i, (fun _ : Nat => 3) i ≤ 255) ∧ ({} : Core).maxMode = false ∧ ({ maxMode := true } : Core).maxMode = true ∧
    ((0x0105 : BitVec 16).extractLsb' 0 8).toNat ≠ 0 ∧ 64 ≤ 64 := ⟨fun _ => by simp, by decide⟩

/-- The scalar side: the array held, free, and another group's. -/
def scT : State := sc.updCore 0 fun k => { k with camp := some g0 }
def scU : State := sc.updCore 0 fun k => { k with camp := some { g0 with gid := 1 } }
theorem wit_CampanileScalar : Ready scT g0 0 ∧ Ready sc g0 0 ∧ Ready scU g0 0 ∧ (scT.group g0).vec = true ∧ scT.laneBusy g0 0 .campanile (scT.laneMark g0 0) = false ∧
    (scT.core (scT.coreOf g0)).camp = some (baseKey g0) ∧ (scT.core (scT.coreOf g0)).campQ = [] ∧ (scT.core (scT.coreOf g0)).campSaved = [] ∧
    scT.ordered g0 = false ∧ (sc.core (sc.coreOf g0)).camp = none ∧ sc.laneBusy g0 0 .campanile (sc.laneMark g0 0) = false ∧ scU.laneBusy g0 0 .campanile (scU.laneMark g0 0) = false ∧
    (scU.core (scU.coreOf g0)).camp = some { g0 with gid := 1 } ∧ (scU.core (scU.coreOf g0)).campQ = [] :=
  ⟨plain_ready (by decide +kernel), plain_ready sc_plain, plain_ready (by decide +kernel), by decide +kernel⟩
def scArr : State := at_ (stOf (sc.updCore 0 fun k => { k with camp := some g0, campBusy := some 0 }) (.parked .arrayBusy)) (.campanileOperationComplete 0)
theorem wit_CampanileChain : (scArr.core 0).campBusy = some 0 ∧ scArr.cycle = 0 ∧ (scArr.core 0).camp = some g0 ∧
    (scArr.group g0).ents.filter (fun p => decide (p.2.st = .parked .arrayBusy)) = [(0, scArr.split g0 0)] := by decide +kernel

/-! ## Witnesses: history, debug, traps, contexts -/

/-- s8 = 8,192 is a page's address, and b far address is in s6. -/
def scHist : State := scMem.setS g0 0 6 (BitVec.ofNat 64 (2 ^ 56))
theorem wit_History : Ready scHist g0 0 ∧ 2 ^ 56 ≤ (scHist.getS g0 0 6).toNat ∧ (scCopy.getS g0 0 10).toNat % 4096 ≠ 0 ∧
    (scHist.getS g0 0 8).toNat % 4096 = 0 ∧ xlOk (scHist.xlate g0 8192 false true) = some (cellOf 8192) ∧
    xlOk (scHist.xlate g0 8192 true false) = some (cellOf 8192) ∧ scHist.ordered g0 = false ∧
    (∀ i, i < 32 → (scHist.xlate g0 8192 false true).1.ownedAt (.mem (cellOf 8192 + 128 * i)) = false ∧
      (scHist.xlate g0 8192 true false).1.ownedAt (.mem (cellOf 8192 + 128 * i)) = false) ∧
    (∀ i, i < 128 → (scHist.xlate g0 8192 true false).1.poisonFor g0 0 (.mem (cellOf 8192 + 32 * i)) = false) :=
  ⟨plain_ready (by decide +kernel), by decide +kernel⟩
def scWritten : State := stOf scHist (.parked (.written 0))
theorem wit_History_written : Ready scWritten g0 0 ∧ (scWritten.split g0 0).st = .parked (.written 0) ∧ (scHist.split g0 0).st = .running :=
  ⟨plain_ready (by decide +kernel), by decide +kernel⟩
/-- The same in ordered mode, and with a session attached. -/
def scQuant : State := scHist.updRegion r0 fun x => { x with rcb := { x.rcb with ordered := true, quantum := 16 } }
def scSess : State := scHist.updCtx c0 fun x => { x with attached := some (1, false) }
theorem wit_QuantumPagesAndDebug : Ready scHist g0 0 ∧ Ready scQuant g0 0 ∧ Ready scSess g0 0 ∧ scHist.ordered g0 = false ∧
    scQuant.ordered g0 = true ∧ (scHist.ctx c0).trace.base = 0 ∧ (scHist.ctx c0).attached = none ∧ (scSess.ctx c0).attached ≠ none ∧
    (scHist.getS g0 0 8).toNat % 2 ^ ((scHist.getS g0 0 8).toNat % 8) = 0 ∧ (scOdd.getS g0 0 1).toNat % 2 ^ ((scOdd.getS g0 0 1).toNat % 8) ≠ 0 :=
  ⟨plain_ready (by decide +kernel), plain_ready (by decide +kernel), plain_ready (by decide +kernel), by decide +kernel⟩

/-- A region with a handler; the group in its trap split after a fault of its scalar stream, of its lane stream. -/
def scHand : State := sc.updRegion r0 fun x => { x with rcb := { x.rcb with handler := 4096 } }
def scTrap : State := { scHand.scalarFault g0 0 { kind := 5 } with turn := .scalar g0 4 }
def laTrap : State := { scTrap with turn := .scalar g0 4 }.updGroup g0 fun x => { x with trap := some (.lane 0 { mask := 1 } 0 1) }
theorem wit_TrapTaken : (scHand.group g0).fork = none ∧ scHand.shadows g0 = [] ∧ (scHand.group g0).trap = none ∧ (scHand.rcb g0).handler ≠ 0 ∧
    (0 : Nat) ≠ 4 ∧ ((scHand.group g0).ents.get? 0).isSome = true ∧ (sc.rcb g0).handler = 0 ∧ (sc.group g0).trap = none ∧
    (sc.group g0).fork = none ∧ sc.shadows g0 = [] := by decide +kernel
theorem wit_TrapAndIllegal : Ready sc g0 0 ∧ Issues sc g0 0 ∧ (sc.ctx c0).sys = false := ⟨plain_ready sc_plain, plain_issues sc_plain, by decide +kernel⟩
theorem wit_TrapReturns : Issues sc g0 0 ∧ Issues scTrap g0 4 ∧ Issues laTrap g0 4 ∧ scTrap.lanesDone g0 4 = true ∧ (scTrap.group g0).traps = [] ∧
    (scTrap.group g0).ended = false ∧ scTrap.shadows g0 = [] ∧ (∀ p ∈ (scTrap.group g0).ents, p.2.reply = none) ∧ (∀ p ∈ (scTrap.group g0).ents, p.2.st ≠ .draining) ∧
    (∃ p ∈ (scTrap.group g0).ents, p.1 ≠ 4 ∧ p.2.live = true) ∧
    (scTrap.group g0).ents.filter (fun p => p.1 == 4) = [(4, scTrap.split g0 4)] ∧
    (scTrap.group g0).trap = some (.scalar 0 4096 4100 true) ∧ (laTrap.group g0).trap = some (.lane 0 { mask := 1 } 0 1) ∧
    (scTrap.split g0 0).stack = [] ∧ (scTrap.split g0 0).join = none :=
  ⟨plain_issues sc_plain, by constructor <;> decide +kernel, by constructor <;> decide +kernel, by decide +kernel⟩
def scReply (f : Option Nat) : State := at_ (stOf sc (.parked (.sysc 3))) (.syscReply g0 0 1 2 f)
theorem wit_SystemCall : Issues sc g0 0 ∧ sc.ordered g0 = false ∧ ((scReply none).split g0 0).st = .parked (.sysc 3) ∧
    (scReply (some 5)).turn = .event (.syscReply g0 0 1 2 (some 5)) ∧ (scReply (some 5)).ordered g0 = false ∧
    ((scReply none).split g0 0).reply = none ∧ ((scReply none).split g0 0).susp = false ∧ faultKind 5 = true ∧ faultKind 0x15 = false ∧
    (((scReply none).updSplit g0 0 fun p => { p with susp := true }).split g0 0).susp = true :=
  ⟨plain_issues sc_plain, by decide +kernel⟩

/-- A system thread; its request names context 2, whole, with an image of 2²¹ bytes at 2²¹, where an end record stands. -/
def imgAt : Nat := 2 ^ 21
def sysPages : List Page := [{ placedPage with va := 8192, frame := 2, w := true }, { placedPage with va := imgAt, psize := 2, frame := 512, w := true }]
def reqBytes (a : Nat) (id : Byte) : List (Nat × Byte) := [(cellOf a, id), (cellOf (a + 2), 1), (cellOf (a + 0x22), 0x20), (cellOf (a + 0x2A), 0x20)]
def endImage : List Byte := [0xFF, 0xFF, 0, 0, 0, 0, 0, 0, 16, 0, 0, 0, 0, 0, 0, 0]
def scSys (away : Bool) (id : Byte) : State :=
  ({ sc with
    ctxs := [(c0, { sys := true, pages := placedPage :: sysPages }), (⟨0, 2⟩, { absent := away })]
    images := [{ c := ⟨0, 2⟩, bytes := endImage }]
    mem := Memory.writeAll sc.mem (reqBytes 8192 id ++ [(cellOf imgAt, 0xFF), (cellOf (imgAt + 1), 0xFF), (cellOf (imgAt + 8), 16)]) } : State).setS
      g0 0 8 8192
def reqOf (s : State) : Option SysReq := match s.readRec g0 0 8192 64 with
  | .ok b => some (sysReq b)
  | _ => none
theorem wit_ContextInstructions : Ready (scSys true 2) g0 0 ∧ ((scSys true 2).ctx c0).sys = true ∧
    reqOf (scSys true 2) = some { ctx := 2, whole := true, safe := false, cores := [], image := imgAt, length := imgAt, ok := true } ∧
    ((scSys true 2).ctx ⟨0, 2⟩).absent = true ∧ ((scSys true 2).ctx ⟨0, 2⟩).bounce = [] ∧ ((scSys true 2).ctx ⟨0, 2⟩).sysq = [] ∧
    ((scSys false 2).ctx ⟨0, 2⟩).absent = false ∧ ((scSys false 2).ctxs.get? ⟨0, 2⟩).isSome = true ∧ (scSys true 3).ctxs.get? ⟨0, 3⟩ = none ∧
    (reqOf (scSys true 3)).map (·.ok) = some true ∧
    (reqOf { scSys true 2 with mem := Memory.write (scSys true 2).mem (cellOf 8196) 1 }).map (·.ok) = some false ∧
    (⟨0, 2⟩ : CKey) ≠ c0 ∧ parseImage (fun o n => if 2 ^ 56 ≤ imgAt + o then .fault { kind := 5, addr := imgAt + o } else (scSys true 2).readRec g0 0 (imgAt + o) n) imgAt (imgAt / 16 + 1) 0 [] = .ok endImage ∧
    (scSys true 2).readRec g0 0 imgAt 16 = .ok endImage ∧
    ((scSys true 2).images.any fun im => decide (im.c = ⟨0, 2⟩) && decide (im.bytes = endImage)) = true ∧
    (let v : DWord := (scSys true 2).getS g0 0 0
     v.toNat / 65536 % 4 ≠ 3 ∧ v.extractLsb' 18 14 = 0 ∧ v.extractLsb' 48 15 = 0 ∧ v.getLsbD 63 = false) :=
  ⟨plain_ready (by decide +kernel), by decide +kernel⟩
/-- R353: at the same safe point of another image the live s5 moves to s7, the PC to the new address; s6 is dead. -/
def oldSite : RetSite := { addr := 0x100, id := 3, live := [⟨0, 40, false, 5⟩] }
def newSite : RetSite := { addr := 0x900, id := 3, live := [⟨0, 40, false, 7⟩] }
def moved : Group := (State.moveSaved { old := [oldSite], new := [newSite] } sc g0
  { ents := [(0, { st := .running, pc := 0x100, s := [(5, 9), (6, 4)] })] }).2
theorem test_live_values_move : (moved.ents.map fun p => (p.2.pc.toNat, p.2.s.get 0 5, p.2.s.get 0 6, p.2.s.get 0 7)) = [(0x900, 0, 0, 9)] := by
  decide +kernel
theorem leBytes_length (n v : Nat) : (leBytes n v).length = n := by
  induction n generalizing v with
  | zero => rfl
  | succ n ih => simp [leBytes, ih]
/-- A whole save of context 2, and one behind an earlier request. -/
def req0 : SysReq := { ctx := 2, whole := true, image := imgAt, length := imgAt }
theorem wit_ContextWaits : ((((scSys true 2).updCtx ⟨0, 2⟩ fun x => { x with sysq := [(.split g0 1, none)] }).ctx ⟨0, 2⟩).sysq).map (·.1) =
    [.split g0 1] ∧ SysWho.split g0 1 ≠ .split g0 0 := by decide +kernel
theorem wit_ContextSave : (scSys false 2).blocksOn ⟨0, 2⟩ true [] = [] ∧ (scSys false 2).writeStop g0 (8192 + 0x30) 8 = none ∧
    (scSys false 2).saveSize ⟨0, 2⟩ req0 [] ≤ imgAt ∧
    (scSys false 2).writeStop g0 imgAt ((scSys false 2).saveSize ⟨0, 2⟩ req0 []) = none := by
  have len : (scSys false 2).saveSize ⟨0, 2⟩ req0 [] ≤ 600000 := by
    have none' : (scSys false 2).regions.all (fun p => decide (p.1.c ≠ ⟨0, 2⟩)) = true := by decide +kernel
    have r (f : RKey × Region → Bool) (h : ∀ p, f p = true → p.1.c = ⟨0, 2⟩) : (scSys false 2).regions.filter f = [] :=
      List.filter_eq_nil_iff.mpr fun p hp k => by
        have := List.all_eq_true.mp none' p hp
        simp [h p k] at this
    unfold State.saveSize State.saveRecs
    dsimp only
    rw [r _ fun p hp => by simp at hp; exact hp.1.1]
    simp only [List.flatMap_nil, List.cons_append, List.nil_append, List.map_cons, List.map_nil, List.sum_cons,
      List.sum_nil, SaveRec.len]
    generalize Config.recordLen _ _ _ = n
    have m := Nat.mod_lt n (by decide : 65536 > 0)
    simp
    omega
  have pages : ∀ i < 512, (match ((scSys false 2).xlate g0 (imgAt + 4096 * i) false true).2 with
      | .ok _ => true
      | _ => false) = true := by decide +kernel
  refine ⟨by decide +kernel, by decide +kernel, by unfold imgAt; omega, ?_⟩
  generalize (scSys false 2).saveSize ⟨0, 2⟩ req0 [] = n at len
  unfold State.writeStop
  rw [List.findSome?_eq_none_iff]
  intro a ha
  obtain ⟨i, hi, rfl⟩ := List.mem_map.mp ha
  have hi := List.mem_range.mp hi
  have e : max imgAt ((imgAt / 4096 + i) * 4096) = imgAt + 4096 * i := by unfold imgAt; omega
  have lt : i < 512 := by unfold imgAt at hi; omega
  have p := pages i lt
  rw [e, if_neg (by unfold imgAt; omega)]
  split at p <;> simp_all

/-! ## Witnesses: the matrix stream -/

/-- Fields of a matrix word: zero. -/
def ma0 : MArgs := { ty := .i32, a := 0, grp := 0, v := 0, qb := 0, imm := 0 }
/-- The engine held, 128 registers in group 0, a latched tile of bf16, three scratch banks. -/
def sqH : State := ((sq.updSeq b0 fun q => { q with held := true, tile := some {} }).updCore 0 fun k => { k with eng := some b0 }).updGroup g0
  fun x => { x with budget := 128 }
def sqNoTile : State := sqH.updSeq b0 fun q => { q with tile := none }
def sqRings : State := sq.updBlock b0 fun x => { x with rings := [(1, { depth := some 1, full := 1 })] }

theorem wit_MatrixRegisters : SeqReady sq b0 (.mset { ma0 with a := 7 }) ∧ SeqReady sq b0 (.msetHi ma0) ∧ SeqReady sq b0 (.madd ma0) ∧
    SeqReady sq b0 (.msetV { ma0 with v := 15 }) ∧ SeqReady sq b0 (.mloop ma0) ∧ SeqReady sq b0 (.mend ma0) ∧
    SeqReady sq b0 (.msetV { ma0 with v := 16 }) :=
  ⟨by constructor <;> decide +kernel, by constructor <;> decide +kernel, by constructor <;> decide +kernel, by constructor <;> decide +kernel,
    by constructor <;> decide +kernel, by constructor <;> decide +kernel, by constructor <;> decide +kernel⟩
theorem wit_MatrixRegisters_faults : sq.grpOk b0 0 15 = true ∧ sq.grpOk b0 0 16 = false ∧ (sq.seq b0).replays = [] ∧ (sq.seq b0).audits = [] ∧
    (sq.seq b0).ol = [] ∧ sq.turn = .seq b0 ∧ sq.seqOrdered b0 = false ∧ WellFormed (.mset { ma0 with grp := 1 }) = false ∧
    WellFormed (.mset { ma0 with a := 8 }) = true := by decide +kernel

theorem wit_MatrixEngine : SeqReady sq b0 (.macq ma0) ∧ SeqReady sqH b0 (.macq ma0) ∧ SeqReady sqH b0 (.mrel ma0) ∧ SeqReady sq b0 (.mrel ma0) ∧
    SeqReady sqH b0 (.mzero ma0) ∧ SeqReady sqRings b0 (.mgive { ma0 with a := 1 }) ∧ SeqReady sqRings b0 (.mtake { ma0 with a := 1 }) ∧
    SeqReady sqRings b0 (.mgive { ma0 with imm := 7 }) :=
  ⟨by constructor <;> decide +kernel, by constructor <;> decide +kernel, by constructor <;> decide +kernel, by constructor <;> decide +kernel,
    by constructor <;> decide +kernel, by constructor <;> decide +kernel, by constructor <;> decide +kernel, by constructor <;> decide +kernel⟩
theorem wit_MatrixEngine_state : (sq.seq b0).held = false ∧ (sq.core 0).eng = none ∧ (sq.core 0).engQ = [] ∧ (sqH.seq b0).held = true ∧
    ((sq.updCore 0 fun k => { k with eng := some { b0 with n := 1 } }).core 0).engQ = [] ∧ (sqH.seq b0).replays = [] ∧
    ((sqRings.block b0).rings.get {} 1).full.getLsbD 0 = true ∧ ((sqRings.block b0).rings.get {} 0).full.getLsbD 0 = false := by decide +kernel

/-- An adapter region: entry 1 is to be filled; a row waits for entry 2. -/
def sqAd : State := (sq.updRegion r0 fun x => { x with rcb := { x.rcb with adways := 1 } })
def sqWait : State := sqAd.updSeq b0 fun q => { q with replays := [{ id := 5, aid := 2 }], fills := [{ id := 5, aid := 2 }] }
theorem wit_AuditsAndAdapters : SeqReady sq b0 (.maudit { ma0 with imm := 5 * 1024 + 16 }) ∧ SeqReady sq b0 (.mauditOff ma0) ∧
    SeqReady sq b0 (.adpf ma0) ∧ SeqReady sqAd b0 (.adpf { ma0 with imm := 1 }) ∧ SeqReady sqWait b0 (.adinv { ma0 with imm := 2 }) ∧
    SeqReady sqWait b0 (.adinv { ma0 with imm := 1 }) ∧ SeqReady sqWait b0 (.adinvAll ma0) ∧
    SeqReady (sq.updSeq b0 fun q => { q with q := [(0, 4)] }) b0 (.maudit ma0) :=
  ⟨by constructor <;> decide +kernel, by constructor <;> decide +kernel, by constructor <;> decide +kernel, by constructor <;> decide +kernel,
    by constructor <;> decide +kernel, by constructor <;> decide +kernel, by constructor <;> decide +kernel, by constructor <;> decide +kernel⟩
theorem wit_AuditsAndAdapters_state : (sqAd.region r0).rcb.adways ≠ 0 ∧ sqAd.adFind (sqAd.clOf b0) r0 1 0 = none ∧ (sqAd.seq b0).fills = [] ∧
    sqWait.replayNames r0 (some 2) = true ∧ sqWait.replayNames r0 (some 1) = false ∧ sqWait.replayNames r0 none = true ∧
    (sq.seq b0).audits = [] := by decide +kernel

theorem wit_WeightLoad : SeqReady sqH b0 (.mwload true { ma0 with ty := .bf16 }) ∧ SeqReady sqH b0 (.mwload false { ma0 with ty := .tr, v := 97 }) ∧
    (sqH.seq b0).held = true ∧ sqH.grpOk b0 0 (0 + 64 + 2 - 1) = true ∧ sqH.grpOk b0 0 (97 + 32 - 1) = false :=
  ⟨by constructor <;> decide +kernel, by constructor <;> decide +kernel, by decide +kernel⟩

def maM : MArgs := { ma0 with ty := .f16, imm := 63 }
def sqScr : State := sqH.updBlock b0 fun x => { x with banks := [{ mode := .scratch }] }
theorem wit_MatrixMultiply : SeqReady sqH b0 (.mmul maM) ∧ SeqReady sqH b0 (.mmula { maM with imm := 127 * 64 + 63 }) ∧ SeqReady sqScr b0 (.mmulScr maM) ∧
    (sqH.seq b0).tile = some {} ∧ (sqH.seq b0).auditOn = false ∧ (sqH.seq b0).replays = [] ∧ mmulAccs .bf16 .f16 ≠ 0 ∧ 0 % mmulAccs .bf16 .f16 = 0 ∧
    sqH.grpOk b0 0 63 = true ∧ sqH.grpOk b0 0 127 = true ∧ (∀ r, r < 64 → (sqH.getVL g0 127 (r / 2)).toNat / 2 ^ (16 * (r % 2)) % 2 ^ 16 = 0) ∧
    (sqScr.block b0).scratchOk 0 8192 = true :=
  ⟨by constructor <;> decide +kernel, by constructor <;> decide +kernel, by constructor <;> decide +kernel, by decide +kernel⟩
theorem wit_MatrixMultiply_clean (j : Nat) : sqScr.poisoned (.scr b0 j) = false := by
  have h : (sqScr.block b0).banks.all (fun k => k.poison.isEmpty) = true := by decide +kernel
  simp only [State.poisoned]
  split
  · rename_i k hk
    rw [List.isEmpty_iff.mp (List.all_eq_true.mp h k (List.mem_of_getElem? hk))]; rfl
  · rfl
def sqPoison : State := sqH.updBlock b0 fun x => { x with banks := [{ mode := .scratch, poison := [3] }] }
theorem wit_MultiplyFaults : SeqReady sqNoTile b0 (.mmul maM) ∧ (sqNoTile.seq b0).tile = none ∧ SeqReady sqH b0 (.mmul { maM with ty := .e4 }) ∧
    mmulAccs .bf16 .e4 = 0 ∧ SeqReady sqH b0 (.mmul { maM with v := 65 }) ∧ sqH.grpOk b0 0 (65 + 63) = false ∧
    SeqReady sqH b0 (.mmulScr maM) ∧ (sqH.block b0).scratchOk 0 8192 = false ∧ SeqReady sqPoison b0 (.mmulScr maM) ∧
    (sqPoison.block b0).scratchOk 0 8192 = true ∧ sqPoison.poisoned (.scr b0 (0 + 96)) = true :=
  ⟨by constructor <;> decide +kernel, by decide +kernel, by constructor <;> decide +kernel, by decide +kernel, by constructor <;> decide +kernel,
    by decide +kernel, by constructor <;> decide +kernel, by decide +kernel, by constructor <;> decide +kernel, by decide +kernel⟩
theorem wit_AdapterTerm : (sqH.block b0).seq.isSome = true ∧ 63 < 64 := by decide +kernel

def maS : MArgs := { ma0 with ty := .f32, imm := 63 + 64 * 126 }
theorem wit_MatrixStore : SeqReady { sqH with groups := sqH.groups } b0 (.mstore 0x32 { maS with v := 0 }) ∧ (sqH.seq b0).held = true ∧
    (0x32 : BitVec 6).getLsbD 3 = false ∧ sqH.grpOk b0 0 (0 + 2 * 64 - 1) = true ∧ sqH.grpOk b0 0 (126 + 1) = true :=
  ⟨by constructor <;> decide +kernel, by decide +kernel⟩
def sqEx : State := at_ (sq.updSeq b0 fun q => { q with exec := [{ writes := [{ grp := 0, reg := 1, lanes := [(0, 5)] }] }] }) (.matrixWordComplete b0)
theorem wit_MatrixStore_complete : sqEx.wordReady b0 = true ∧ sqEx.seqOrdered b0 = false ∧ (sqEx.seq b0).olFault = none ∧
    (sqEx.block b0).seq.isSome = true ∧ (sqEx.seq b0).exec.map (fun w => (w.made, w.recs)) = [(false, [])] := by decide +kernel

/-- A fill whose directory is not mapped; one of zeros at 8,192; an audit record for 8,192. -/
def sqFill (dir : Nat) : State := at_ ({ sq with ctxs := scMem.ctxs }.updSeq b0 fun q => { q with fills := [{ id := 5, aid := 2, dir := dir }] })
  (.adapterFillComplete b0 5)
def sqFillOk : State := at_ (({ sq with
    ctxs := (scSys true 2).ctxs
    mem := Memory.writeAll sq.mem [(cellOf (imgAt + 2), 0x20), (cellOf (imgAt + 34), 0x20), (cellOf (imgAt + 42), 0x20)] } : State).updSeq b0
  fun q => { q with fills := [{ id := 5, aid := 2, dir := imgAt }] }) (.adapterFillComplete b0 5)
theorem wit_MatrixEvents : (sqFill 16384).fillReady b0 5 = true ∧ sqFillOk.fillReady b0 5 = true ∧
    (match (sqFill 16384).fillEntry b0 { id := 5, aid := 2, dir := 16384 } with
      | .error (.fault _) => true
      | _ => false) = true ∧
    (match sqFillOk.fillEntry b0 { id := 5, aid := 2, dir := imgAt } with
      | .ok _ => true
      | _ => false) = true ∧ (sqFillOk.region r0).rcb.adways = 0 := by decide +kernel
def sqAudit : State := at_ ({ sq with ctxs := scMem.ctxs }.updSeq b0 fun q => { q with audits := [{}], auditBase := 8192, auditCap := 1 }) (.auditRecord b0)
theorem wit_MatrixEvents_audit : sqAudit.auditReady b0 = true ∧ sqAudit.seqOrdered b0 = false ∧ (sqAudit.seq b0).audits = [{}] ∧
    (match sqAudit.auditPlace b0 8224 true, sqAudit.auditPlace b0 8192 false with
      | .ok c, .ok h => decide (h + 8 ≤ c)
      | _, _ => false) = true ∧ Memory.wf sqAudit.mem = true := by decide +kernel

/-! ## Witnesses: dispatch, commits, pages -/

/-- A region of two blocks, one of them placed; the die has tried it 100,000 cycles long. -/
def scAdm : State := at_ ({ sc with cycle := 100000 }.updRegion r0 fun x => { x with rcb := { x.rcb with gridx := 2 }, passed := [(0, 0)], seq := 1 }) (.blockAdmit 0 r0)
theorem wit_Dispatch : (scAdm.regions.map (·.1)).Nodup ∧ scAdm.dispatchOrder 0 = [r0] ∧ (scAdm.nextAdmit 0 [r0]).map (·.1) = some r0 ∧
    ((scAdm.admitOn r0 0).map fun t => (t.regions.get? r0).isSome) = some true ∧ scAdm.turn = .event (.blockAdmit 0 r0) ∧
    scAdm.starvationReady 0 r0 = true ∧ (scAdm.regions.get? r0).isSome = true ∧ scAdm.starving.get [] 0 = [] ∧
    (([(0, 0)] : List (Nat × Nat)).map (·.1)).Nodup := by decide +kernel

/-- A region whose one block is done, with a completion word at 8,192, and one without. -/
def scDone (va : DWord) : State := at_ (scMem.updRegion r0 fun x => { x with rcb := { x.rcb with done := va }, doneBlocks := 1 }) (.regionComplete r0)
theorem wit_RegionCompletion : (scDone 8192).outcome r0 = some 1 ∧ (scDone 0).outcome r0 = some 1 ∧
    ((scDone 8192).doneWord r0).map (fun r => match r with
      | .ok w => w
      | .error _ => none) = some (some (cellOf 8192)) ∧ ((scDone 0).doneWord r0).isSome = true ∧ Memory.wf (scDone 8192).mem = true ∧
    (scDone 8192).wordFree r0 = true ∧ (scDone 0).wordFree r0 = true ∧ (scDone 8192).l2 = [] ∧
    ((scDone 8192).syncAccess c0 .dispatch 192 6 false true false none none (cellOf 8192)).2 = none := by decide +kernel

/-- An ordered region whose one group has retired its quantum, and at its commit, with a store. -/
def scEnd : State := at_ (scQuant.updGroup g0 fun x => { x with q := { x.q with count := 16 } }) (.quantumEnd g0)
def scCommit : State := at_ (({ scQuant with cycle := 96 } : State).updGroup g0 fun x => { x with q := { x.q with count := 16, atEnd := true, buf := [{ cells := [(.mem 5, 7)] }] } })
  (.quantumCommit r0) |>.updRegion r0 fun x => { x with commitAt := some 96, quantum := 3 }
theorem wit_QuantumCommits : scEnd.ordered g0 = true ∧ (scEnd.group g0).q.atEnd = false ∧ (scEnd.group g0).halted = false ∧
    (scEnd.group g0).ended = false ∧ (scEnd.rcb g0).quantum ≤ (scEnd.group g0).q.count ∧ scEnd.quantumOver g0 = true ∧ g0.gid ≠ 64 := by decide +kernel
theorem wit_QuantumCommits_commit : scCommit.turn = .event (.quantumCommit r0) ∧ scCommit.commitReady r0 = true ∧
    scCommit.ranked r0 (scCommit.region r0).quantum = [g0] ∧ (scCommit.block b0).seq = none ∧ (scCommit.region r0).inputs = [] ∧
    (scCommit.region r0).undo = [] ∧ (scCommit.ctx c0).later = [] ∧ scCommit.outcome r0 = none ∧ Memory.wf scCommit.mem = true ∧
    (scCommit.group g0).fork = none ∧ (scCommit.group g0).ended = false ∧ (scCommit.group g0).ol = [] ∧ (scCommit.group g0).outst = [] ∧
    (scCommit.group g0).batches = [] ∧ (∀ p ∈ (scCommit.group g0).ents, p.2.st = .running) ∧ (∀ x ∈ (scCommit.group g0).q.buf, x.sync = none) ∧
    (scCommit.group g0).q.atoms = [] ∧ (scCommit.group g0).q.ops = [] ∧ (scCommit.group g0).q.recs = [] ∧ (scCommit.group g0).q.hist = [] ∧
    (scCommit.group g0).q.fails = [] := by decide +kernel
theorem wit_QuantumCommits_copies (n : Nat) : (scCommit.cluster n).copyQ = [] :=
  List.isEmpty_iff.mp (tab_all scCommit.clusters {} (fun x => x.copyQ.isEmpty) rfl (by decide +kernel) n)
theorem wit_CommitOrder : 0 < (scEnd.rcb g0).blocks * (scEnd.rcb g0).groups ∧ (scEnd.groups.map (·.1)).Nodup := by decide +kernel

/-- A saved block waits, and no die has room for it. -/
def scSlice : State := at_ (sc.updRegion r0 fun x => { x with saved := [{ b := { b0 with n := 1 } }], dies := [] }) (.sliceEnd r0)
theorem wit_SlicesAndPages : (scSlice.region r0).rotating = none ∧ scSlice.needsRoom r0 = true ∧ scSlice.slicePick r0 = some b0 ∧
    scSlice.standing r0 ≠ [] ∧ (scSlice.ctxs.get? c0).isSome = true := by decide +kernel
/-- The one block of die 0 is evictable; a gang's slice has begun. -/
def scEvict : State := (stOf sc (.parked (.wait 8192 0 true true 0 6 false))).updRegion r0 fun x => { x with dies := [0] }
theorem wit_Slices_evict : scEvict.slicePick r0 = some b0 ∧ (scEvict.evictable b0).isSome = true ∧
    (scEvict.blocks.filter fun p => !p.2.ended && (scEvict.region r0).dies.contains (p.2.cluster / 6)).map (·.1) = [b0] := by decide +kernel
def scGang : State := at_ (sc.updCtx c0 fun x => { x with gang := some (0, 9), scheduled := false }) (.gangSliceStart c0)
theorem wit_Slices_gang : (scGang.ctxs.get? c0).isSome = true ∧ (scGang.ctx c0).gang = some (0, 9) ∧ 0 ≤ scGang.deviceNs ∧ scGang.deviceNs < 9 ∧
    (scGang.ctx c0).scheduled = false := by decide +kernel
/-- The page at 12,288 is made resident in frame 3; it holds 9 at its first byte. -/
def awayPage : Page := { placedPage with va := 12288, res := false, away := [(0, 9)] }
def scFault : State := at_ (scMem.updCtx c0 fun x => { x with pages := x.pages ++ [awayPage] }) (.pageMadeResident c0 12288 3 true)
theorem wit_SlicesAndPages_page : findPage (scFault.ctx c0).pages 12288 = some awayPage ∧ awayPage.res = false ∧ awayPage.peer = none ∧
    Memory.wf scFault.mem = true ∧ (scFault.vf 0).burst = none ∧ scFault.frameFits awayPage 3 = true ∧ (∀ k ∈ scFault.groups, k.2.ol = []) ∧ scFault.allFrames + Page.size awayPage / 4096 ≤ scFault.frames ∧
    (awayPage.away.map (·.1)).Nodup ∧ (∀ w ∈ awayPage.away, w.1 < Page.size awayPage) ∧
    findPage (scMem.ctx c0).pages 4096 = some placedPage ∧ placedPage.res = true ∧ scMem.frameFits placedPage 9 = true ∧ scMem.moves = [] ∧
    (∀ x ∈ framesAt 9 (Page.size placedPage), x ∉ scMem.usedFrames (fun _ => true) ∧ x ∉ scMem.moveFrames) := by decide +kernel
theorem wit_SlicesAndPages_fill : (((sc.updCluster 0 fun x => { x with fills := [{ line := 5 }] }).cluster 0).fills.find? fun f => f.line == 5) = some { line := 5 } := by
  decide +kernel

/-! ## Witnesses: ports, the Keep, the platform, Belfry -/

def flow0 : FlowId := { srcDev := 1, srcCtx := c0, dstDev := 0, win := 1 }
def pkt (n : BitVec 32) : Packet := { flow := flow0, seq := n, off := 0, data := [7, 8, 9, 10] }
/-- Window 1 of port 0 is the page at 8,192: base, one page, context 1, writable, valid. -/
def win1 : BitVec 128 := BitVec.ofNat 128 (8192 * 2 ^ 72 + 2 ^ 52 + 2 ^ 36 + 3 * 2 ^ 25)
def scPort : State := at_ { scMem with ports := [(1, win1)] } (.networkPacketReceive 0 (pkt 0))
theorem wit_Network : (pkt 0).seq = (scPort.rflows.get {} flow0).next ∧ (scPort.rflows.get {} flow0).held = [] ∧
    winEnt (scPort.ports.get 0 1) = { base := 8192, pages := 1, c := c0, scr := false, bounce := false, w := true, valid := true } ∧
    (scPort.ctxs.get? c0).isSome = true ∧ Memory.wf scPort.mem = true ∧ scPort.l2 = [] ∧ (findPage (scPort.ctx c0).pages 8192).map (fun q => (q.w, q.peer)) = some (true, none) ∧
    packetOk (pkt 0) = true ∧ packetOk { pkt 0 with data := [7] } = false ∧ packetOk { pkt 0 with off := 4094 } = false ∧
    (scPort.cellsAt c0 8192 [7, 8, 9, 10]).any (fun x => decide (x.length = 4) && !scPort.ownedCells x) = true ∧ (winEnt (scMem.ports.get 0 1)).valid = false ∧
    0 < ((pkt 256).seq - 0).toNat ∧ ((pkt 256).seq - 0).toNat ≤ 256 ∧ 256 < ((pkt 257).seq - 0).toNat ∧ ((pkt 257).seq - 0).toNat < 2 ^ 31 := by decide +kernel
def scSent : State := { scMem with sflows := [(flow0, { next := 1, sent := [(pkt 0, 0, 7, 8192)] })] }
theorem wit_Network_sent : ((scSent.sflows.get {} flow0).sent.find? fun x => x.1.seq == 0) = some (pkt 0, 0, 7, 8192) := by decide +kernel
/-- A stream sent once, and one received. -/
def scMig : State := { sc with migrations := [(1, { c := c0, round := 16 }), (2, { c := c0, recv := true })] }
theorem wit_Network_migration : scMig.migrations.get? 3 = none ∧ (scMig.ctxs.get? c0).isSome = true ∧
    scMig.migrations.get? 1 = some { c := c0, round := 16 } ∧ scMig.migrations.get? 2 = some { c := c0, recv := true } ∧
    scMig.leaving c0 = false ∧ ({ scMig with migrations := [(4, { c := c0, sent := true })] } : State).leaving c0 = true ∧ scMig.keepRuns = true ∧
    (1 : BitVec 64).toNat ≠ 0 ∧ sc.ptp = none ∧ ({ sc with ptp := some 1 } : State).ptp = some 1 ∧ (1 : Nat) ≠ 0 := by decide +kernel

theorem wit_RegisterWrites : scMem.keepRuns = true ∧ scMem.mapFits c0 awayPage = true ∧ scMem.mapFits c0 { placedPage with va := 16384, frame := 9 } = true ∧ (scMem.vf 0).allowance = none ∧ scMem.ctxs.get? ⟨0, 5⟩ = none ∧ scMem.ctxs.length < 1024 ∧ (scMem.ctxs.get? c0).isSome = true ∧
    scMem.runsOrdered c0 = false ∧ Page.holds awayPage 12288 = true ∧ ((scMem.ctx c0).pages.map (·.va)).Nodup ∧
    findPage (scMem.ctx c0).pages 4096 = some placedPage ∧ (∀ q ∈ (scMem.ctx c0).pages, q ≠ placedPage → Page.holds q 4096 = false) ∧
    (4095 : Nat) < 4096 ∧ scMem.cellsAt c0 8192 [7] = some [(.mem (cellOf 8192), 7)] ∧ Memory.wf scMem.mem = true ∧
    1 ≤ scMem.frames ∧ scMem.frames < scMem.frames + 1 := by decide +kernel
theorem wit_RegisterWrites_room : scMem.mapRoom c0 (.map c0 awayPage) = (scMem, true) ∧ (∀ k ∈ scMem.groups, k.2.ol = []) ∧
    scMem.ownedCells [(.mem (cellOf 8192), 7)] = false ∧ parseObject 4096 [] [] 0 = none := by decide +kernel
/-- A code object whose translation is under way, and one with native images of AZ9.A0 and of an older minor. -/
def obj0 : CodeObj := { kernels := [9], busy := true }
theorem wit_RegisterWrites_image : ((sc.updCtx c0 fun x => { x with objects := [obj0] }).ctx c0).object 9 = some obj0 ∧ obj0.busy = true ∧
    ({ natives := [((65, 3), true, {}), ((65, 7), false, { mapped := true })] } : CodeObj).nativeFor (65, 7) = some { mapped := true } ∧
    ({ natives := [((65, 3), true, {}), ((65, 2), true, { mapped := true })] } : CodeObj).nativeFor (65, 7) = some {} ∧
    ({ natives := [((65, 3), false, {}), ((66, 2), true, {})] } : CodeObj).nativeFor (65, 7) = none := by decide +kernel
/-- A code object of one portable image of one container at 192, 1,200_0001_4000_0800_0100_0010_0000_0000 (R350): major 0x10, d = 10, a = 1,
b = 2, type 8. -/
def hvi0 : Nat := 0x12000001400008000100001000000000
theorem test_container : hviOf hvi0 = { kind := 1, major := 0x10, sub := 0, d := 10, a := 1, b := 2, c := 0, ty := 8, rm := 0, sat := 0, bk := 0, m := 0, ext := 0
                                        imm28 := 0, low := 0x0100001000000000, high := 0x200000140000800 } ∧ (hviOf hvi0).legal = true := by decide +kernel
def objBytes : List Byte := leBytes 4 0x4F435A41 ++ leBytes 2 1 ++ leBytes 2 1 ++ leBytes 8 144 ++ leBytes 48 0 ++
  leBytes 24 2 ++ leBytes 4 128 ++ leBytes 4 16 ++ leBytes 32 0 ++ leBytes 16 hvi0
theorem test_object : (parseObject 4096 objBytes [4096] 8192).any (fun o => o.base == 4096 && o.natives.isEmpty && o.hviOk) = true := by
  decide +kernel

theorem wit_PlatformAndFirmware : (([(0, { temp := 96 }), (1, { temp := 110 })] : List (Nat × Reading)).map (·.1)).Nodup ∧ sc.blocksOfPart (.cluster 1) = [] ∧
    sc.blocksOfPart (.die 2) = [] ∧ sc.liesOn 2 = false ∧ sc.platform.down.contains .belfry = false ∧
    (sc.errorPlace 0 (cellOf 4096) false).2 = some c0 := by decide +kernel

/-- A session of key 0 and the commands of 16 bytes and their arguments; that a tag verifies is up to `gcmVerify`, of which no value is
known. -/
def sess0 : Session := { id := 1, scope := 255, key := some 0 }
def sel0 : Selector := ⟨false, 0, 0, groupName g0 0, 0xFFFFFFFFFFFFFFFC⟩
def cmd0 (code : Nat) (ev : Cmd → Event) : Cmd :=
  let k : Cmd := { sess := 1, ctr := 0, tag := 0, bytes := [], seq := 0 }
  let a := Event.args (ev k)
  let body := a.2.1 ++ List.replicate ((8 - a.2.1.length % 8) % 8) 0
  { k with bytes := leBytes 2 code ++ leBytes 2 a.1.toNat ++ leBytes 4 0 ++ leBytes 4 (16 + body.length) ++ leBytes 4 0 ++ body }
def commands : List (Nat × (Cmd → Event)) := [(1, (.attach · c0 false)), (2, .detach), (3, (.halt · sel0)), (4, (.resume · sel0)),
  (5, (.step · (groupName g0 0))), (6, (.read · (groupName g0 0) 16)), (7, (.write · (groupName g0 0) [.s 0 5 1])), (8, (.memrd · c0 8192 64)),
  (9, (.memwr · c0 8192 [7])), (10, (.setbp · c0 2 4096 .scalar sel0)), (11, (.clrbp · c0 2)), (12, (.setwp · (groupName g0 0) 1 8192 24)),
  (13, (.clrwp · (groupName g0 0) 1)), (14, (.sample · c0 2 8192 3 true)), (15, (.trace · c0 8192 3)), (16, (.counters · c0))]
def scBel : State := { scMem with sessions := [sess0] }
theorem wit_Belfry : ∀ p ∈ commands,
    Config.gcmVerify 0 (BitVec.ofNat 96 0) (cmd0 p.1 p.2).bytes 0 = true →
    Says.Accepted { scBel with turn := .event (p.2 (cmd0 p.1 p.2)) } (cmd0 p.1 p.2) p.1 sess0 0 := by
  have h : commands.all (fun p => Cmd.wellFormed (cmd0 p.1 p.2) p.1 &&
      State.carried { scBel with turn := .event (p.2 (cmd0 p.1 p.2)) } (cmd0 p.1 p.2)) = true := by decide +kernel
  intro p hp v
  have q := List.all_eq_true.mp h p hp
  rw [Bool.and_eq_true] at q
  exact ⟨rfl, rfl, rfl, v, q.1, by show (0 : Nat) < _; decide, q.2, by exact Nat.zero_le _⟩
theorem wit_Belfry_contexts : sess0.sees c0 = true ∧ ({ sess0 with scope := 5 } : Session).sees c0 = false ∧ (scBel.ctxs.get? c0).isSome = true ∧
    scBel.ctxs.get? ⟨0, 9⟩ = none ∧ (scBel.ctx c0).attached = none ∧ scBel.pagesHere c0 8192 4096 false = 0 ∧ scBel.pagesHere c0 8192 1 true = 0 ∧
    scBel.cellsAt c0 8192 [7] = some [(.mem (cellOf 8192), 7)] ∧ (1 : Nat) ≠ 0 := by decide +kernel
/-- The context attached by the session, its group halted. -/
def scAtt (h : Bool) : State := (scBel.updCtx c0 fun x => { x with attached := some (1, false) }).updGroup g0 fun x => { x with halted := h }
theorem wit_Belfry_groups : (∀ h ∈ [false, true], ((scAtt h).group g0).halted = h ∧ ((scAtt h).ctx c0).attached = some (1, false) ∧
      (match (scAtt h).pick sess0 ⟨false, 0, 0, groupName g0 0, 0xFFFFFFFFFFFFFFFC⟩ with
        | .ok (a, b, c) => decide (a = [g0]) && b.isEmpty && c.isEmpty && decide ((scAtt h).savedPick sess0 sel0 = ([], [])) && ((scAtt h).group g0).traps.isEmpty
        | _ => false) = true ∧
      (scAtt h).byName sess0 (groupName g0 0) = some (g0, 0) ∧ ((scAtt h).split g0 0).live = true ∧ ((scAtt h).group g0).stepping = none ∧ ((scAtt h).region r0).listens = false) := by decide +kernel
theorem wit_Belfry_sessions : sc.sessions.length < 4 ∧ 4 ≤ ({ sc with sessions := List.replicate 4 sess0 } : State).sessions.length ∧
    (scBel.sessions.find? fun y => y.id == 1) = some sess0 ∧
    (∃ x ∈ ({ scBel with cycle := 60 * 3600000000 } : State).sessions, x.id = 1 ∧ x.last + 60 * 3600000000 ≤ ({ scBel with cycle := 60 * 3600000000 } : State).cycle) := by
  decide +kernel
/-- Breakpoints at 4,096 in each stream. -/
def bpAt4096 (s : State) (st : Stream) : State := s.updCtx c0 fun x => { x with attached := some (1, false), bps := [(2, { addr := 4096, st := st, sel := ⟨false, 0, 0, 0, 0⟩ })] }
theorem wit_Belfry_breakpoints : (bpAt4096 sc .scalar).scalarBp g0 0 = some 2 ∧ (bpAt4096 la .lane).laneBp g0 0 = some 2 ∧ (bpAt4096 sq .matrix).seqBp b0 = some 2 := by
  decide +kernel

/-! ## Witnesses: returns, forks, ends of splits -/

/-- A split at call level 1 with a link to 4,096 and one call record. -/
def scRet (r : CallRec) : State := sc.updSplit g0 0 fun p => { p with level := 1, s := p.s.put 1 4096, calls := [r] }
def scRetFork : State := (scRet { id := 1, fork := some 1 }).setGroup (shadowKey g0 1) { sc.group g0 with fork := some {} }
theorem wit_ReturnOfCall : (∀ r : CallRec, r ∈ [{ id := 1, closed := true }, { id := 1 }] → plain (scRet r) = true ∧
      ((scRet r).split g0 0).pendingRc = false ∧ ((scRet r).getS g0 0 1).toNat % 4 = 0 ∧ ((scRet r).ctx c0).gens = [] ∧
      ((scRet r).split g0 0).calls.find? (fun r => r.level == ((scRet r).split g0 0).level - 1) = some r) ∧
    plain scRetFork = true ∧ (scRetFork.split g0 0).calls.find? (fun r => r.level == (scRetFork.split g0 0).level - 1) = some { id := 1, fork := some 1 } ∧
    ((scRetFork.group (shadowKey g0 1)).fork.map (·.parent)) = some 0 := by decide +kernel
def scOldCode : State := (scRet {}).updSplit g0 0 (fun p => { p with calls := [] }) |>.updCtx c0 fun x => { x with gens :=
  [{ lo := 4096, hi := 8192, old := [{ addr := 4096, id := 3, live := [⟨0, 1, false, 5⟩] }], new := [{ addr := 8192, id := 3, live := [⟨0, 1, false, 6⟩] }] }] }
theorem wit_ReturnToOldCode : plain scOldCode = true ∧ (scOldCode.split g0 0).pendingRc = false ∧ (scOldCode.split g0 0).calls = [] ∧
    scOldCode.staleSite c0 (scOldCode.getS g0 0 1).toNat =
      some ({ addr := 4096, id := 3, live := [⟨0, 1, false, 5⟩] }, { addr := 8192, id := 3, live := [⟨0, 1, false, 6⟩] }) := by decide +kernel

/-- A callf whose entry of the RVP matches with confidence. -/
def scFk : State := sc.updCore 0 fun x => { x with hist := [(0, { owner := some r0, rvp := [(0, { valid := true, tag := 16, conf2 := 2, conf3 := 3 })] })] }
theorem wit_Forks_start : scFk.turn = .scalar g0 0 ∧ (scFk.mayFork g0 true).isSome = true ∧ (scFk.mayFork g0 false).isSome = true ∧ g0.sh = 0 := by
  decide +kernel
/-- A continuation at 4,100 that has written s2, s40 and v3, and one store. -/
def fork1 : Fork := { mask := 0xFFFFFFFF, wroteS := [40], wroteV := [0], buf := [{ cells := [(.mem 5, 7)] }] }
def scCmt : State := sc.setGroup (shadowKey g0 1)
  { sc.group g0 with ents := [(0, { st := .running, pc := 4100, mask := 0xFFFFFFFF, s := [(2, 9)] })], sregs := [(40, 6)], fork := some fork1 }
theorem wit_Forks_commit : fork1.parent = 0 ∧ fork1.deferred = none ∧ fork1.traces = [] ∧ fork1.rvp = [] ∧ (scCmt.group g0).fork = none ∧
    scCmt.ordered g0 = false ∧ ((scCmt.group g0).ents.get? fork1.ret).isSome = true ∧ plain scCmt = true ∧
    (((scCmt.group (shadowKey g0 1)).ents.get {} 0).stack, ((scCmt.group (shadowKey g0 1)).ents.get {} 0).join) = ([], none) := by decide +kernel
theorem test_commit_takes_registers :
    let t := scCmt.commitFork g0 1 fork1
    (t.getS g0 0 2, t.getS g0 0 40, (t.split g0 0).pc, t.pend.map (·.cells)) = (9, 6, 4100, [[(.mem 5, 7)]]) := by decide +kernel

theorem wit_EndOfOneSplit_normal : (scFull.group g0).ended = false ∧ scFull.ordered g0 = false ∧ ((scFull.group g0).ents.get? 1).isSome = true ∧
    (scFull.split g0 1).live = true := by decide +kernel
/-- A result outstanding, and an outlier record, of a split whose queue is empty. -/
def scLeft : State := sc.updGroup g0 fun x => { x with outst := [{}], ol := [{}] }
theorem wit_LaneQueue_waits : plain scLeft = true ∧ (scLeft.split g0 0).queue = [] ∧ (∃ o ∈ (scLeft.group g0).outst, o.e = 0) ∧
    (∃ o ∈ (scLeft.group g0).ol, o.e = 0) := by decide +kernel

/-! ## Witnesses: outliers, prefetches, stores performed -/

theorem wit_OutlierConversion : lanePlain laV (.vcvtO laO) laO = true ∧ (outliers laV g0 0 laO).isEmpty = true ∧
    lanePlain laList (.vcvtO laO) laO = true ∧ (laList.group g0).ol = [] ∧ (outliers laList g0 0 laO).map (fun r => (r.index, r.value)) = [(0, 0x7149F2CA)] ∧
    (((laList.updGroup g0 fun y => { y with ol := outliers laList g0 0 laO }).olDrain g0).2).isEmpty = true ∧
    (laBig.group g0).ol = [] ∧ (∀ w ∈ (laBig.seq b0).ol, w.1 ≠ g0.gid) ∧ (∀ p ∈ (laBig.group g0).ents, p.1 ≠ 0 → p.2.queue = []) ∧
    (outliers laBig g0 0 laO).isEmpty = false := by decide +kernel
theorem wit_OutlierConversion_behind : LaneReady (laBig.updGroup g0 fun x => { x with ol := [{}] }) g0 0 (.vcvtO laO) laO :=
  lane_ready (by decide +kernel) (by decide +kernel)
/-- A writable page at 12,288 that is not resident. -/
def awayCtxs : Tab CKey Context := (scMem.updCtx c0 fun x => { x with pages := x.pages ++ [{ placedPage with va := 12288, res := false, w := true }] }).ctxs
/-- One record in the list of one entry; behind it one of a list whose page is away. -/
def laAway : State := { laList with ctxs := awayCtxs }.updGroup g0 fun x => { x with olbase := 1536 }
theorem wit_OutlierDrain : (appended laList g0 [{ index := 1, value := 2 }]).isSome = true ∧ (appended laAway g0 []).isSome = true ∧
    laAway.olBehind g0 { index := 1, value := 2 } = false ∧
    (match (laAway.olAppend g0 0 true 1 2 none).2 with | .wait => true | _ => false) = true := by decide +kernel
theorem wit_Prefetch_owned : (laM.laneAccs laCtx 0 4 true false (laM.dispV laCtx laPf)).2.owned = none ∧ laCtx.g = g0 ∧ laCtx.e = 0 ∧
    laCtx.blk = laM.head g0 0 ∧ laCtx.act = active laM g0 0 laPf := by decide +kernel
/-- A store over an older one of the same split. -/
def pend2 : List Pend := [{ id := 1, g := g0, e := 0, lane := true, release := false, cells := [(.mem 5, 7)] },
  { id := 2, g := g0, e := 0, lane := false, release := false, cells := [(.mem 6, 8)] }]
theorem wit_PerformedStores : (pend2.map (·.id)).Nodup ∧ (takeStores (fun p => p.id == 2) pend2).2 = [] ∧ Memory.wf sc.mem = true := by decide +kernel

/-! ## Witnesses: record rings, traps, matrix stores, commits -/

/-- A trace ring at 8,192; one in a page that does not exist. -/
def scTrace (base : Nat) : State := scHist.updCtx c0 fun x => { x with trace := { base, cap := 3 } }
def rec0 : RingRec := { tr := true, bytes := leBytes 32 1 }
theorem wit_RingRecord : ((scTrace 8192).ctx c0).recQ = [] ∧ (scTrace 8192).ringOwned g0 rec0 = false ∧ (scTrace 65536).ringOwned g0 rec0 = false ∧
    okCell ((scTrace 8192).access g0 8256 8 false true) = some (cellOf 8256) ∧
    okCell (((scTrace 8192).access g0 8256 8 false true).1.access g0 8192 8 false true) = some (cellOf 8192) ∧
    (((((scTrace 8192).access g0 8256 8 false true).1.access g0 8192 8 false true).1.flushGroup g0).syncOf g0 0 0 6 false true false false (cellOf 8192)).2 = none ∧
    (match ((scTrace 65536).access g0 65600 8 false true).2 with | .fault _ => true | _ => false) = true ∧
    (scHist.ctx c0).fin.base = 0 := by decide +kernel
theorem test_trace_record :
    let t := (scTrace 8192).ringPut g0 rec0
    (t.rawByte (.mem (cellOf 8256)), t.rawByte (.mem (cellOf 8192))) = (1, 1) := by decide +kernel
theorem wit_TrapTaken_running : (scHand.group g0).halted = false ∧ (sc.group g0).halted = false := by decide +kernel
theorem wit_CampanileChain_running : (scArr.split g0 0).susp = false := by decide +kernel
theorem wit_ContextLoad : (scSys true 2).leaving ⟨0, 2⟩ = false ∧
    (((scSys true 2).enterSys ⟨0, 2⟩ (.split g0 0)).leaveSys ⟨0, 2⟩ (.split g0 0)).toTranslate ⟨0, 2⟩ endImage = [] := by decide +kernel
theorem wit_ContextSave_free (n : Nat) : (scSys false 2).rangeOwned g0 (8192 + 0x30) 8 = false ∧ (scSys false 2).rangeOwned g0 imgAt n = false := by
  have free (l : Loc) : (scSys false 2).ownedAt l = false := by
    have e : (scSys false 2).clusters.all (fun p => p.2.copyQ.isEmpty) = true := by decide +kernel
    unfold State.ownedAt
    rw [List.any_eq_false]
    intro p hp
    simp [List.isEmpty_iff.mp (List.all_eq_true.mp e p hp)]
  unfold State.rangeOwned
  constructor <;> (rw [List.any_eq_false]; intro i _; split)
  · simpa using free _
  · simp
  · simpa using free _
  · simp
theorem wit_MultiplyFaults_free : sqPoison.clusters.all (fun p => p.2.copyQ.isEmpty) = true := by decide +kernel

/-- An mstore's word with a record for a list of one entry at 8,192, and the same where the page is away. -/
def sqRec (cs : Tab CKey Context) : State := at_ (({ sq with ctxs := cs }.updGroup g0 fun x => { x with ollen := 1, olbase := 1024 }).updSeq b0 fun q =>
  { q with exec := [{ recs := [(0, { index := 1, value := 2, e := 4 })] }] }) (.matrixWordComplete b0)
theorem wit_MatrixStore_records : (sqRec scMem.ctxs).wordReady b0 = true ∧ ((sqRec scMem.ctxs).seq b0).ol = [] ∧
    ((sqRec scMem.ctxs).seq b0).halting = none ∧ (∀ p ∈ (sqRec scMem.ctxs).groups, p.2.ol = []) ∧
    ((sqRec scMem.ctxs).seqDrain b0 [(0, { index := 1, value := 2, e := 4 })]).2.1 = [] ∧ ((sqEx.seq b0).halting, (sqEx.seq b0).ol) = (none, []) := by
  decide +kernel
theorem wit_MatrixRecords : (match ((sqRec scMem.ctxs).olAppend g0 4 true 1 2 none).2 with | .done => true | _ => false) = true ∧
    (match ((sqRec sc.ctxs).olAppend g0 4 true 1 2 none).2 with | .fault _ => true | _ => false) = true ∧
    (match (({ sqRec awayCtxs with turn := .seq b0 }.updGroup g0 fun x => { x with olbase := 1536 }).olAppend g0 4 true 1 2 none).2 with
      | .wait => true
      | _ => false) = true := by decide +kernel
/-- mstore with .o of an accumulator that holds 1e30 in row 0, column 0, to f16. -/
def sqBig : State := sqH.updSeq b0 fun q => { q with accs := [(0, { elems := [(0, 0x7149F2CA)] })] }
theorem test_mstore_outlier :
    (match execMstore 8 { maS with ty := .f16, a := 0, v := 0, imm := 0 } sqBig with
      | .next t => ((t.seq b0).exec.flatMap (·.recs)).map (fun q => (q.1, q.2.index, q.2.value)) == [(0, 0, 0x7149F2CA)]
      | _ => false) = true := by decide +kernel

/-- The same commit with an atomic add of 5 at cell 5 by lane 0. -/
def atom5 : AtomReq := { loc := 5, op := 0, size := 4, ty := Ty.i32.code.toNat, lanes := [(0, 5, 0)], scope := 7 }
def scCommitAtom : State := scCommit.updGroup g0 fun x => { x with q := { x.q with atoms := [atom5] } }
theorem fit_atom5 : Says.fitAtom atom5 := ⟨by decide, .i32, by decide +kernel⟩
theorem wit_QuantumCommits_atoms : scCommitAtom.commitReady r0 = true ∧ scCommitAtom.ranked r0 (scCommitAtom.region r0).quantum = [g0] ∧
    (scCommitAtom.groups.map (·.1)).Nodup ∧ (scCommitAtom.ctx c0).replay = none ∧ scCommitAtom.l2 = [] ∧ scCommitAtom.poison = [] ∧
    (scCommitAtom.region r0).syncs = [] ∧ (scCommitAtom.group g0).q.atoms = [atom5] ∧ (atom5.scope, atom5.ret, atom5.outst) = (7, none, none) := by
  decide +kernel
theorem test_commit_atom : (match execQuantumCommit scCommitAtom with
    | .next t => t.rawByte (.mem 5)
    | _ => 0) = 12 := by decide +kernel

/-! ## Witnesses: packets, firmware -/

def keepFlow : FlowId := { flow0 with win := 0 }
def scKeepMsg : State := at_ { scPort with rflows := [(keepFlow, { partial_ := [1, 2, 3] })] } (.keepRequestMessage keepFlow [1, 2] none)
theorem wit_Network_keep : keepFlow.win = 0 ∧ ([1, 2] : List Byte) ≠ [] ∧ (scKeepMsg.rflows.get {} keepFlow).partial_ = [1, 2] ++ [3] ∧
    flow0.win ≠ 0 ∧ packetOk { pkt 0 with flow := keepFlow } = true ∧ (scPort.ctx c0).replay = none ∧
    2 ^ 31 ≤ ((pkt 0).seq - (1 : BitVec 32)).toNat ∧ (scSent.sflows.get {} flow0).sent ≠ [] := by decide +kernel
theorem wit_Firmware_recovery : Component.belfry ∉ sc.platform.down ∧ Component.die 2 ∉ sc.platform.down ∧
    Component.die 2 ∈ ({ sc with platform := { sc.platform with down := [.die 2] } } : State).platform.down ∧ 2 ∉ sc.platform.maint := by decide +kernel

/-! ## Words written out from the spec's encodings -/

/-- Scalar words (R33 to R37, R113, R128, R132, R84, R98, R105, R110). -/
theorem test_decode_scalar : decodeScalar 0x08283FFC = .addi 5 3 (-4) ∧ decodeScalar 0x40382804 = .sld 7 2 4 4 ∧
    decodeScalar 0x50200FFD = .beq 4 0 (-3) ∧ decodeScalar 0xB0010480 = .launch 4 9 ∧ decodeScalar 0xA800C001 = .srd 3 1 ∧
    decodeScalar 0x98000018 = .lrun 0x18 ∧ decodeScalar 0x28201000 = .ldh1 4 0x1000 ∧ decodeScalar 0x2C23FC00 = .ldh2 4 0x3FC00 ∧
    decodeScalar 0x80C01806 = .split 3 3 6 ∧ decodeScalar 0x84141400 = .switch 40 20 ∧ decodeScalar 0x88014000 = .kill 5 ∧
    decodeScalar 0x8C000000 = .exit ∧ decodeScalar 0x78080040 = .callf1 0x40 ∧ decodeScalar 0x78100040 = .callf2 0x40 := by decide +kernel
/-- Banks, copies, pages, waits, fences, rings, barriers and Campanile (R174, R184, R198, R208, R221, R234, R271). -/
theorem test_decode_shared : decodeScalar 0xB8020480 = .bankcfg 8 9 ∧ decodeScalar 0xB4010286 = .cpy 4 5 6 ∧
    decodeScalar 0xB461C000 = .cbatch 7 ∧ decodeScalar 0xB4800380 = .cwait 7 ∧ decodeScalar 0xB441C308 = .cpyg 7 6 8 ∧
    decodeScalar 0xD020C480 = .pgq 3 9 ∧ decodeScalar 0xBF224306 = .waitne 9 6 6 ∧ decodeScalar 0xBF400007 = .fence 7 ∧
    decodeScalar 0xC0000012 = .ringGive 1 2 ∧ decodeScalar 0xC0200012 = .ringTake 1 2 ∧ decodeScalar 0xC0414002 = .ringPeek 5 2 ∧
    decodeScalar 0xC0600000 = .barBlk ∧ decodeScalar 0xC0800001 = .barArrive 1 ∧ decodeScalar 0xC0A00001 = .barWait 1 ∧
    decodeScalar 0xC0C00000 = .barRoute 0 ∧ decodeScalar 0xC4000000 = .tacq ∧ decodeScalar 0xC4200000 = .trel ∧
    decodeScalar 0xC4414300 = .twin 5 6 ∧ decodeScalar 0xC4600001 = .tmode 1 ∧ decodeScalar 0xC4800000 = .treset ∧
    decodeScalar 0xC4A00002 = .tchain 2 := by decide +kernel
/-- Lane words (R42, R44, R151, R204, R274). -/
theorem test_decode_lane : decodeLane 0x90002000A002000010000000 = .vfadd { la0 with h := true, ty := .f32, vd := 10, va := 1, b := 2 } ∧
    decodeLane 0x38002000800A0000000028C0 = .vld { laN with ty := .f32, vd := 8, va := 5, ext := 0x28C0 } ∧
    decodeLane 0xC02040044087800000421800 = .vatom 8 { laN with h := true, m := 1, vd := 68, va := 67, bk := .imm, vc := 66, ext := 0x1800 } ∧
    decodeLane 0x500038000008000000000006 = .tdly { laK with vd := 0, va := 4, ext := 6 } ∧
    decodeLane 0x500438000028000000000000 = .tlaunch { laK with va := 20 } ∧
    decodeLane 0xD0083801E000000000000000 = .tcap { laK with h := true, vd := 30, va := 0 } := by decide +kernel
/-- Matrix words (R45, R240). -/
theorem test_decode_matrix : decodeMatrix 0x3400000000000000 = .mend ma0 ∧
    decodeMatrix 0x0C1A008200000000 = .mwload true { ma0 with ty := .bf16, grp := 2, v := 64 } ∧
    decodeMatrix 0x140A204006081003 = .mmula { ma0 with ty := .bf16, a := 2, grp := 1, qb := 6, imm := 0x81003 } ∧
    decodeMatrix 0x180910C64000003F = .mstore 0 { ma0 with ty := .f16, a := 1, grp := 3, v := 200, imm := 63 } ∧
    decodeMatrix 0x1C08100000000000 = .mzero { ma0 with ty := .f32, a := 1 } ∧
    decodeMatrix 0x2400300000000001 = .mtake { ma0 with a := 3, imm := 1 } ∧
    decodeMatrix 0x2800200000FFFFFB = .mloop { ma0 with a := 2, imm := -5 } := by decide +kernel
/-- Reserved words: major 0 of each stream, a field that must be zero, an undefined special register (R28, R34, R46). -/
theorem test_decode_refuses : decodeScalar 0x00000000 = .illegal 0 ∧ decodeScalar 0xC0000092 = .unassignedEncoding ∧
    decodeLane 0x000000000000000000000000 = .unassignedEncoding ∧ decodeMatrix 0x0000000000000000 = .unassignedEncoding ∧
    decodeMatrix 0x4400000000000000 = .unassignedEncoding := by decide +kernel

/-! ## Ill-formed instructions are refused, one for each check -/

theorem test_refuses_scalar : ∀ i ∈ [Instr.jalr 0 1 0, .bfx 1 2 60 4, .bfi 1 2 63 1, .sld 1 2 7 0, .sst 1 2 1 0, .splrd 1 27, .srd 1 0x15, .swr 1 0x00,
    .cpy2d 1 2 127, .cpyg 1 2 127, .satom 3 0 1 2 3, .satom 1 7 1 2 3, .scas 3 1 2 3, .tchain 0, .cntRd 1 4, .unassignedEncoding], WellFormed i = false := by
  decide +kernel
theorem test_refuses_lane : ∀ i ∈ [Instr.vadd { la0 with ty := .f32 }, .vadd { la0 with rm := .rtz }, .vadd { la0 with b := 2048 }, .vadd { la0 with vc := 1 },
    .vadd { la0 with ext := 1 }, .vmulh { la0 with sat := true }, .vmad { la0 with ext := 1 }, .vabs la0, .vand { la0 with sat := true }, .vnot la0,
    .vbfx { la1 with ext := 1 + 31 * 32 }, .vbfi { la1 with ty := .i16 }, .vmov la0, .vmovi { laN with vd := 2 }, .vsel { la0 with vc := 16 },
    .vlane { laN with ty := .n32 }, .lend { laN with m := 1 }, .vnop { laN with vd := 1 }, .vcmp 6 laC, .vcmp 0 { laC with vd := 16 }, .vfadd la0,
    .vffma { laF with ext := 1 }, .vfmin laF, .vfabs laF, .vfdiv { laF with vc := 1 }, .vfsqrt laF, .vfcmp 8 { laC with ty := .f32 }, .vfclass laF,
    .vdot4 la0, .vdot2 la0, .vcvt { laCvt with ext := 0x20 }, .vcvtO { laO with sat := true }, .vternPack { laTern with ext := 2 }], WellFormed i = false := by
  decide +kernel
theorem test_refuses_lane_memory : ∀ i ∈ [Instr.mand { la0 with vd := 1, va := 16 }, .mnot { la1 with vd := 1, va := 1, b := 1 }, .msetMask { laN with va := 1 },
    .vshfl { la0 with ty := .i16 }, .vbcast la0, .vvote 4 { la1 with vd := 1 }, .vred 9 { la1 with ty := .f32 }, .vscan 0 { la1 with ext := 2 },
    .vld { laLd with ext := 4 }, .vst { laSt with vd := 1 }, .vldu { laLd with va := 0 }, .vstu laSt, .vprf { laPf with ext := 2 }, .vatom 9 laAt,
    .vatom 1 laAt, .vatomNr 0 laAt, .vlds { laLs with ext := 1 }, .vsts { laSs with vd := 1 }, .vfpush la1, .vfpop { laPo 1 with va := 1 },
    .tdly { laK with ext := 63 }, .tlaunch { laK with ext := 1 }, .tcap { laR with va := 1, ext := 0 }, .trank { laR with ext := 65 }], WellFormed i = false := by
  decide +kernel
theorem test_refuses_matrix : ∀ i ∈ [Instr.macq { ma0 with a := 1 }, .mwload false ma0, .mmul { maM with ty := .tr }, .mmulScr { maM with grp := 1 },
    .mmula { maM with qb := 1 }, .mstore 0x0C { maS with ty := .i8 }, .mzero { ma0 with ty := .bf16 }, .mgive { ma0 with imm := 8 }, .mloop { ma0 with v := 1 },
    .mset { ma0 with grp := 1 }, .msetHi { ma0 with imm := 65536 }, .msetV { ma0 with imm := 32 }, .madd { ma0 with grp := 1 }, .maudit { ma0 with imm := 17 },
    .adpf { ma0 with qb := 1 }, .adinv { ma0 with imm := 65536 }], WellFormed i = false := by decide +kernel

/-! ## Values from the spec's worked examples -/

/-- Conversions of f32 to e4 and bf16 (R56 to R61), by the worked tables. -/
theorem test_conversions : [Rm.rne, .rtz, .rup, .rdn].map (fun rm => [0x3F880000, 0x3F980000, 0x43E80000, 0x43EB0000, 0x3A800000, 0xBA800000].map
      fun v => convEl .e4 rm false (readEl .f32 v)) =
      [[0x38, 0x3A, 0x7E, 0x7F, 0x00, 0x80], [0x38, 0x39, 0x7E, 0x7E, 0x00, 0x80], [0x39, 0x3A, 0x7F, 0x7F, 0x01, 0x80], [0x38, 0x39, 0x7E, 0x7E, 0x00, 0x81]] ∧
    [Rm.rne, .rtz, .rup, .rdn].map (fun rm => [0x3F808000, 0x3F818000].map fun v => convEl .bf16 rm false (readEl .f32 v)) =
      [[0x3F80, 0x3F82], [0x3F80, 0x3F81], [0x3F81, 0x3F82], [0x3F80, 0x3F81]] := by decide +kernel
/-- A lane register after one instruction. -/
def laAfter (i : Instr) (s : State) (n : Nat) : Word := match exec i s with
  | .next t => t.getVL g0 n 0
  | _ => 0
/-- vcvt.e4 of 1.5 into part 2 of 0x1122_3344 (R160). -/
theorem test_vcvt : laAfter (.vcvt { la1 with ty := .e4, vd := 6, va := 2, ext := 0x28 }) (laV.updGroup g0 fun x =>
    { x with vregs := [(2, 0x3FC00000 :: List.replicate 31 0), (6, 0x11223344 :: List.replicate 31 0)] }) 6 = 0x113C3344 := by decide +kernel
/-- vmov.i8 of −1 writes every element (R154). -/
theorem test_vmov : laAfter (.vmov { laN with ty := .i8, vd := 3, bk := .imm, b := 0xFFFFF }) laV 3 = 0xFFFFFFFF := by decide +kernel
/-- A scalar register after one instruction. -/
def scAfter (i : Instr) (s : State) (n : Nat) : DWord := match exec i s with
  | .next t => t.getS g0 0 n
  | _ => 0
/-- Division corners, high products, shifts by the low six bits (R109, R111). -/
theorem test_alu : scAfter (.div 5 6 0) (sc.setS g0 0 6 7) 5 = 0xFFFFFFFFFFFFFFFF ∧ scAfter (.rem 5 6 0) (sc.setS g0 0 6 7) 5 = 7 ∧
    scAfter (.mulh 5 6 6) (sc.setS g0 0 6 (-1)) 5 = 0 ∧ scAfter (.mulhn 5 6 6) (sc.setS g0 0 6 (-1)) 5 = 0xFFFFFFFFFFFFFFFE ∧
    scAfter (.sar 5 6 6) (sc.setS g0 0 6 (-1)) 5 = -1 ∧ scAfter (.add 0 6 6) (sc.setS g0 0 6 1) 0 = 0 ∧
    scAfter (.ldh1 4 0x1000) (sc.setS g0 0 4 0x10) 4 = 0x80000010 ∧ scAfter (.ldh2 4 0x3FC00) (sc.setS g0 0 4 0x80000010) 4 = 0x00FF000080000010 := by
  decide +kernel

/-! ## The whole machine -/

theorem wit_DecodeOfEncode : WellFormed (.add 5 6 7) = true ∧ encode (.add 5 6 7) = some (.scalar 0x042860E0) ∧
    (Enc.scalar 0x042860E0).decode ≠ .unassignedEncoding := by decide +kernel
/-- The words of add, of vfadd and of macq where each stream fetches. -/
def stA : State := State.reset.withFetchWord 32 0x042860E0
def stV : State := State.reset.withFetchWord 96 0x90002000A002000010000000
def stM : State := State.reset.withFetchWord 64 0x0400000000000000
def decodesTo (r : Except DecodeError (Instr × List Byte)) : Option Instr := match r with
  | .ok (i, []) => some i
  | _ => none
/-- A region of a kernel whose image's scalar section does not hold its word. -/
def stOut : State := stA.updCtx c0 fun x => { x with objects := [{ kernels := [(stA.region r0).rcb.entry], use := some { scal := [⟨0, 64⟩] } }] }
theorem wit_StepRunsDecoded : stA.turn = .scalar g0 0 ∧ stA.platform.off = false ∧ stA.beginTurn.inScalar r0 4096 = true ∧
    (∀ k, k < 4 → (stA.beginTurn.xlate g0 4096 true false).1.ownedAt (.mem (cellOf 4096 + k)) = false) ∧ (stV.beginTurn.group g0).fork = none ∧
    (∀ k, k < 12 → (stV.beginTurn.xlate g0 4096 true false).1.ownedAt (.mem (cellOf 4096 + k)) = false) ∧ stM.beginTurn.inMatrix b0.r 4096 = true ∧
    stOut.turn = .scalar g0 0 ∧ stOut.platform.off = false ∧ stOut.beginTurn.inScalar r0 (stOut.beginTurn.split g0 0).pc.toNat = false ∧ (stA.split g0 0).pc = 4096 ∧
    xlOk (stA.beginTurn.xlate g0 4096 true false) = some (cellOf 4096) ∧
    (∀ k, k < 4 → (stA.beginTurn.xlate g0 4096 true false).1.poisonFor g0 0 (.mem (cellOf 4096 + k)) = false) ∧
    decodesTo (decode .scalar ((List.range 4).map fun k => (stA.beginTurn.xlate g0 4096 true false).1.readByte g0 0 (.mem (cellOf 4096 + k)))) =
      some (.add 5 6 7) ∧
    stV.turn = .lane g0 0 ∧ (stV.head g0 0).again = none ∧ xlOk (stV.beginTurn.xlate g0 4096 true false) = some (cellOf 4096) ∧
    (decodesTo (decode .lane ((List.range 12).map fun k => (stV.beginTurn.xlate g0 4096 true false).1.readByte g0 0 (.mem (cellOf 4096 + k))))).isSome = true ∧
    stM.turn = .seq b0 ∧ (match stM.beginTurn.fillRead b0 4096 8 with
      | .ok bs => decodesTo (decode .matrix bs) == some (.macq ma0)
      | _ => false) = true ∧ (at_ sc .junctionShutdown).turn = .event .junctionShutdown := by decide +kernel
theorem wit_EverythingRuns : ({ sc with platform := { sc.platform with off := true } } : State).platform.off = true ∧ sc.inputs = [] := by decide +kernel
theorem wit_MemoryForm : State.reset.memOk := by unfold State.memOk; decide +kernel

end Sys2Proof.Tests
end

section
/-! The results of the ALU, immediate, constant, bit-field and conditional-move instructions (R33, R109 to R111), and
the scalar words of those majors that name no operation (R34). -/

namespace Sys2Proof.Machine
open Sys2Proof.Terms

/-! ## Values of the ALU (R109, R110) -/

theorem boolWord_eq_ite {p : Prop} [Decidable p] {b : Bool} (h : b = true ↔ p) : boolWord b = if p then 1 else 0 := by
  simp only [boolWord, h]

theorem divN_eq (a b : DWord) :
    divN a b = if b = 0 then BitVec.allOnes 64 else BitVec.ofNat 64 (a.toNat / b.toNat) := by
  rw [divN, BitVec.udiv_def]

theorem remN_eq (a b : DWord) : remN a b = if b = 0 then a else BitVec.ofNat 64 (a.toNat % b.toNat) := by
  rw [remN, BitVec.umod_def]

theorem minS_eq (a b : DWord) : minS a b = BitVec.ofInt 64 (min a.toInt b.toInt) := by
  simp only [minS, BitVec.slt_iff_toInt_lt]
  split
  · rw [Int.min_eq_left (by omega), BitVec.ofInt_toInt]
  · rw [Int.min_eq_right (by omega), BitVec.ofInt_toInt]

theorem maxS_eq (a b : DWord) : maxS a b = BitVec.ofInt 64 (max a.toInt b.toInt) := by
  simp only [maxS, BitVec.slt_iff_toInt_lt]
  split
  · rw [Int.max_eq_right (by omega), BitVec.ofInt_toInt]
  · rw [Int.max_eq_left (by omega), BitVec.ofInt_toInt]

theorem minN_eq (a b : DWord) : minN a b = BitVec.ofNat 64 (min a.toNat b.toNat) := by
  simp only [minN, BitVec.ult_iff_toNat_lt]
  split
  · rw [Nat.min_eq_left (by omega), BitVec.ofNat_toNat, BitVec.setWidth_eq]
  · rw [Nat.min_eq_right (by omega), BitVec.ofNat_toNat, BitVec.setWidth_eq]

theorem maxN_eq (a b : DWord) : maxN a b = BitVec.ofNat 64 (max a.toNat b.toNat) := by
  simp only [maxN, BitVec.ult_iff_toNat_lt]
  split
  · rw [Nat.max_eq_right (by omega), BitVec.ofNat_toNat, BitVec.setWidth_eq]
  · rw [Nat.max_eq_left (by omega), BitVec.ofNat_toNat, BitVec.setWidth_eq]

theorem toInt_imm12 (i : BitVec 12) : (imm12 i).toInt = i.toInt := BitVec.toInt_signExtend_of_le (by decide)

/-! ## Bit fields (R33, R111) -/

theorem getLsbD_fieldMask {len k : Nat} (hk : k < 64) :
    (BitVec.ofNat 64 (2 ^ len - 1)).getLsbD k = decide (k < len) := by
  rw [BitVec.getLsbD_ofNat, Nat.testBit_two_pow_sub_one, decide_eq_true hk, Bool.true_and]

theorem getLsbD_putBits {k : Nat} (x : DWord) (lo len : Nat) (v : DWord) (hk : k < 64) :
    (putBits x lo len v).getLsbD k = if lo ≤ k ∧ k < lo + len then v.getLsbD (k - lo) else x.getLsbD k := by
  have hm : (BitVec.ofNat 64 (2 ^ len - 1)).getLsbD (k - lo) = decide (k - lo < len) := getLsbD_fieldMask (by omega)
  simp only [putBits, BitVec.getLsbD_or, BitVec.getLsbD_and, BitVec.getLsbD_not, BitVec.getLsbD_shiftLeft, hm, hk,
    decide_true, Bool.true_and]
  by_cases hlo : k < lo
  · simp [hlo, show ¬lo ≤ k by omega]
  · by_cases hlen : k - lo < len
    · simp [hlo, hlen, show lo ≤ k ∧ k < lo + len by omega]
    · simp [hlo, hlen, show ¬k < lo + len by omega]

/-- A bit field replaced is known by its bits. -/
theorem putBits_eq {x v w : DWord} {lo len : Nat}
    (h : ∀ k < 64, w.getLsbD k = if lo ≤ k ∧ k < lo + len then v.getLsbD (k - lo) else x.getLsbD k) :
    putBits x lo len v = w :=
  BitVec.eq_of_getLsbD_eq fun k hk => (getLsbD_putBits x lo len v hk).trans (h k hk).symm

/-- The bits of a word of which a middle field is replaced. -/
theorem getLsbD_replaceField {n hi len k : Nat} (lo : Nat) (x : BitVec n) (v : BitVec len) (hk : k < hi + len + lo) :
    (x.extractLsb' (lo + len) hi ++ v ++ x.extractLsb' 0 lo).getLsbD k =
      if lo ≤ k ∧ k < lo + len then v.getLsbD (k - lo) else x.getLsbD k := by
  simp only [BitVec.getLsbD_append, BitVec.getLsbD_extractLsb']
  by_cases hlo : k < lo
  · simp [hlo, show ¬lo ≤ k by omega]
  · by_cases hlen : k - lo < len
    · simp [hlo, hlen, show lo ≤ k ∧ k < lo + len by omega]
    · simp [hlo, hlen, show ¬k < lo + len by omega, show k - lo - len < hi by omega,
        show lo + len + (k - lo - len) = k by omega]

/-- The bits of a word of which the top field is replaced. -/
theorem getLsbD_replaceTop {n len k : Nat} (lo : Nat) (x : BitVec n) (v : BitVec len) (hk : k < lo + len) :
    (v ++ x.extractLsb' 0 lo).getLsbD k =
      if lo ≤ k ∧ k < lo + len then v.getLsbD (k - lo) else x.getLsbD k := by
  simp only [BitVec.getLsbD_append, BitVec.getLsbD_extractLsb']
  by_cases hlo : k < lo
  · simp [hlo, show ¬lo ≤ k by omega]
  · simp [hlo, hk, show lo ≤ k by omega]

theorem getLsbD_setWidth_dword {n k : Nat} (i : BitVec n) (hk : k < 64) :
    (i.setWidth 64 : DWord).getLsbD k = i.getLsbD k := by simp [hk]

/-! The fields that ldh1, ldh2 and ldh3 replace (R33). -/

theorem putBits_ldh1 (x : DWord) (i : BitVec 19) :
    putBits x 19 19 (i.setWidth 64) = x.extractLsb' 38 26 ++ i ++ x.extractLsb' 0 19 :=
  putBits_eq fun k hk => by
    rw [getLsbD_setWidth_dword i (by omega)]
    exact getLsbD_replaceField (hi := 26) 19 x i hk

theorem putBits_ldh2 (x : DWord) (i : BitVec 19) :
    putBits x 38 19 (i.setWidth 64) = x.extractLsb' 57 7 ++ i ++ x.extractLsb' 0 38 :=
  putBits_eq fun k hk => by
    rw [getLsbD_setWidth_dword i (by omega)]
    exact getLsbD_replaceField (hi := 7) 38 x i hk

theorem putBits_ldh3 (x : DWord) (i : BitVec 7) : putBits x 57 7 (i.setWidth 64) = i ++ x.extractLsb' 0 57 :=
  putBits_eq fun k hk => by
    rw [getLsbD_setWidth_dword i (by omega)]
    exact getLsbD_replaceTop 57 x i hk

theorem getBits_eq (x : DWord) (lo len : Nat) (hlen : len ≤ 64) :
    getBits x lo len = BitVec.ofNat 64 (x.toNat / 2 ^ lo % 2 ^ len) := by
  have hm : 2 ^ len - 1 < 2 ^ 64 := by
    have := Nat.pow_le_pow_right (n := 2) (by decide) hlen
    omega
  have hx : x.toNat / 2 ^ lo % 2 ^ len < 2 ^ 64 :=
    Nat.lt_of_le_of_lt (Nat.le_trans (Nat.mod_le _ _) (Nat.div_le_self _ _)) x.isLt
  apply BitVec.eq_of_toNat_eq
  rw [getBits, BitVec.toNat_and, BitVec.toNat_ushiftRight, BitVec.toNat_ofNat, BitVec.toNat_ofNat, Nat.mod_eq_of_lt hm,
    Nat.mod_eq_of_lt hx, Nat.shiftRight_eq_div_pow, Nat.and_two_pow_sub_one_eq_mod]

/-! ## One register written -/

/-- An instruction leaves a value in a register, s0 apart, and its split at the next word; nothing else changes. -/
def Leaves (i : Instr) (s : State) (g : GKey) (e : Nat) (d : BitVec 7) (v : DWord) : Prop :=
  ∃ t, exec i s = .next t ∧ t.getS g e d.toNat = (if d = 0 then 0 else v) ∧ (t.split g e).pc = next s g e ∧
    Keeps s t g e d.toNat

theorem State.getS_zero (s : State) (g : GKey) (e : Nat) : s.getS g e 0 = 0 := rfl

/-- A frame that changes s0 alone is that of any register. -/
theorem Keeps.of_zero {s t : State} {g : GKey} {e : Nat} (h : Keeps s t g e 0) (d : Nat) : Keeps s t g e d := by
  refine { h with scalar := ⟨fun n _ => ?_, h.scalar.2⟩ }
  by_cases hn : n = 0
  · subst hn; rfl
  · exact h.scalar.1 n hn

section
variable {i : Instr} {s : State} {g : GKey} {e : Nat} {d a b : BitVec 7} {v w : DWord}

/-- An instruction that answers with its register written. -/
theorem Leaves.of_setS (h : Ready s g e) (hi : exec i s = .next (moved (s.setS g e d.toNat w) g e (next s g e)))
    (hv : w = v) : Leaves i s g e d v := by
  refine ⟨_, hi, ?_, by simp [State.moved_split], Keeps.setS s g e d.toNat w _ h.issues.noFork⟩
  rw [State.getS_moved, State.getS_setS]
  by_cases hd : d = 0
  · subst hd; simp [State.getS_zero]
  · have hn : d.toNat ≠ 0 := fun h => hd (BitVec.eq_of_toNat_eq h)
    rw [if_pos ⟨rfl, hn⟩, if_neg hd, hv]

/-- An instruction that writes nothing, where its register holds the value already (cmov). -/
theorem Leaves.of_unwritten (h : Ready s g e) (hi : exec i s = .next (moved s g e (next s g e)))
    (hv : s.getS g e d.toNat = v) : Leaves i s g e d v := by
  refine ⟨_, hi, ?_, by simp [State.moved_split], Keeps.of_zero (Keeps.setS s g e 0 0 _ h.issues.noFork) _⟩
  rw [State.getS_moved]
  by_cases hd : d = 0
  · subst hd; rfl
  · rw [if_neg hd, hv]

theorem Leaves.of_alu2 (f : DWord → DWord → DWord) (h : Ready s g e) (hi : exec i s = alu2 f d a b s)
    (hv : f (s.getS g e a.toNat) (s.getS g e b.toNat) = v) : Leaves i s g e d v :=
  .of_setS h (hi.trans (alu2_next h.issues h.straight)) hv

theorem Leaves.of_alu1 (f : DWord → DWord) (h : Ready s g e) (hi : exec i s = alu1 f d a s)
    (hv : f (s.getS g e a.toNat) = v) : Leaves i s g e d v :=
  .of_setS h (hi.trans (alu1_next h.issues h.straight)) hv

theorem Leaves.of_aluD (f : DWord → DWord) (h : Ready s g e) (hi : exec i s = aluD f d s)
    (hv : f (s.getS g e d.toNat) = v) : Leaves i s g e d v :=
  .of_setS h (hi.trans (aluD_next h.issues h.straight)) hv

end

theorem exec_bfx (d a : BitVec 7) (p l : BitVec 6) (s : State) : exec (.bfx d a p l) s = execBfx d a p l s := rfl
theorem exec_bfi (d a : BitVec 7) (p l : BitVec 6) (s : State) : exec (.bfi d a p l) s = execBfi d a p l s := rfl
theorem exec_cmov (d a b : BitVec 7) (s : State) : exec (.cmov d a b) s = execCmov d a b s := rfl

theorem Leaves.bfx {s : State} {g : GKey} {e : Nat} (h : Ready s g e) (d a : BitVec 7) (p l : BitVec 6)
    (hw : WellFormed (.bfx d a p l) = true) :
    Leaves (.bfx d a p l) s g e d
      (BitVec.ofNat 64 ((s.getS g e a.toNat).toNat / 2 ^ p.toNat % 2 ^ (l.toNat + 1))) :=
  .of_setS h ((exec_bfx ..).trans
    (scalarOp_setS h.issues (by rw [hw]; exact State.issueCheck_plain ..) rfl h.straight)) (getBits_eq _ _ _ l.isLt)

theorem Leaves.bfi {s : State} {g : GKey} {e : Nat} (h : Ready s g e) (d a : BitVec 7) (p l : BitVec 6) (v : DWord)
    (hw : WellFormed (.bfi d a p l) = true)
    (hv : ∀ k < 64, v.getLsbD k = if p.toNat ≤ k ∧ k ≤ p.toNat + l.toNat
      then (s.getS g e a.toNat).getLsbD (k - p.toNat) else (s.getS g e d.toNat).getLsbD k) :
    Leaves (.bfi d a p l) s g e d v :=
  .of_setS h ((exec_bfi ..).trans
    (scalarOp_setS h.issues (by rw [hw]; exact State.issueCheck_plain ..) rfl h.straight))
    (putBits_eq fun k hk => by simp only [hv k hk, ← Nat.add_assoc, Nat.lt_succ_iff])

/-- cmov writes its register by a non-zero condition, and leaves it by a zero one (R109). -/
theorem Leaves.cmov {s : State} {g : GKey} {e : Nat} (h : Ready s g e) (d a b : BitVec 7) :
    Leaves (.cmov d a b) s g e d (if s.getS g e b.toNat ≠ 0 then s.getS g e a.toNat else s.getS g e d.toNat) := by
  by_cases hb : s.getS g e b.toNat = 0
  · rw [if_neg (not_not_intro hb)]
    exact .of_unwritten h ((exec_cmov ..).trans
      (scalarOp_run h (State.issueCheck_plain ..) (by simp [hb]) (SameFlow.refl s g e))) rfl
  · rw [if_pos hb]
    exact .of_setS h ((exec_cmov ..).trans
      (scalarOp_setS h.issues (State.issueCheck_plain ..) (by rw [if_pos (bne_iff_ne.mpr hb)]) h.straight)) rfl

/-- Every row of the table `Alu`: the value that its instruction computes is the one that the row states. -/
theorem Leaves.of_alu {s : State} {g : GKey} {e : Nat} {i : Instr} {d : BitVec 7} {v : DWord}
    (ha : Alu (fun n => s.getS g e n.toNat) i d v) (hw : WellFormed i = true) (h : Ready s g e) : Leaves i s g e d v := by
  cases ha with
  | add d a b => exact .of_alu2 (fun x y => x + y) h rfl rfl
  | sub d a b => exact .of_alu2 (fun x y => x - y) h rfl rfl
  | and d a b => exact .of_alu2 (fun x y => x &&& y) h rfl rfl
  | or d a b => exact .of_alu2 (fun x y => x ||| y) h rfl rfl
  | xor d a b => exact .of_alu2 (fun x y => x ^^^ y) h rfl rfl
  | andn d a b => exact .of_alu2 andN h rfl rfl
  | shl d a b => exact .of_alu2 shLeft h rfl rfl
  | shr d a b => exact .of_alu2 shRight h rfl rfl
  | sar d a b => exact .of_alu2 shRightS h rfl rfl
  | mul d a b => exact .of_alu2 (fun x y => x * y) h rfl rfl
  | mulh d a b => exact .of_alu2 mulHigh h rfl rfl
  | mulhn d a b => exact .of_alu2 mulHighN h rfl rfl
  | div d a b => exact .of_alu2 divS h rfl rfl
  | divn d a b => exact .of_alu2 divN h rfl (divN_eq _ _)
  | rem d a b => exact .of_alu2 remS h rfl rfl
  | remn d a b => exact .of_alu2 remN h rfl (remN_eq _ _)
  | min d a b => exact .of_alu2 minS h rfl (minS_eq _ _)
  | max d a b => exact .of_alu2 maxS h rfl (maxS_eq _ _)
  | minn d a b => exact .of_alu2 minN h rfl (minN_eq _ _)
  | maxn d a b => exact .of_alu2 maxN h rfl (maxN_eq _ _)
  | slt d a b => exact .of_alu2 (fun x y => boolWord (x.slt y)) h rfl (boolWord_eq_ite BitVec.slt_iff_toInt_lt)
  | sltn d a b => exact .of_alu2 (fun x y => boolWord (x.ult y)) h rfl (boolWord_eq_ite BitVec.ult_iff_toNat_lt)
  | seq d a b => exact .of_alu2 (fun x y => boolWord (x == y)) h rfl (boolWord_eq_ite beq_iff_eq)
  | popc d a => exact .of_alu1 popCount h rfl rfl
  | clz d a => exact .of_alu1 leadZeros h rfl rfl
  | ctz d a => exact .of_alu1 trailZeros h rfl rfl
  | addi d a i => exact .of_alu1 (fun x => x + imm12 i) h rfl rfl
  | andi d a i => exact .of_alu1 (fun x => x &&& imm12 i) h rfl rfl
  | ori d a i => exact .of_alu1 (fun x => x ||| imm12 i) h rfl rfl
  | xori d a i => exact .of_alu1 (fun x => x ^^^ imm12 i) h rfl rfl
  | slti d a i =>
    exact .of_alu1 (fun x => boolWord (x.slt (imm12 i))) h rfl
      (boolWord_eq_ite (by rw [BitVec.slt_iff_toInt_lt, toInt_imm12]))
  | sltni d a i =>
    exact .of_alu1 (fun x => boolWord (x.ult (imm12 i))) h rfl (boolWord_eq_ite BitVec.ult_iff_toNat_lt)
  | shli d a n => exact .of_alu1 (fun x => x <<< n.toNat) h rfl rfl
  | shri d a n => exact .of_alu1 (fun x => x >>> n.toNat) h rfl rfl
  | sari d a n => exact .of_alu1 (fun x => x.sshiftRight n.toNat) h rfl rfl
  | ldi d i => exact .of_aluD (fun _ => i.signExtend 64) h rfl rfl
  | ldh1 d i => exact .of_aluD (fun x => putBits x 19 19 (i.setWidth 64)) h rfl (putBits_ldh1 _ i)
  | ldh2 d i => exact .of_aluD (fun x => putBits x 38 19 (i.setWidth 64)) h rfl (putBits_ldh2 _ i)
  | ldh3 d i => exact .of_aluD (fun x => putBits x 57 7 (i.setWidth 64)) h rfl (putBits_ldh3 _ i)
  | bfx d a p l => exact .bfx h d a p l hw
  | bfi d a p l v hv => exact .bfi h d a p l v hw hv
  | cmov d a b => exact .cmov h d a b

/-! ## Illegal forms (R34, R111) -/

/-- An instruction that is not well formed faults as illegal before anything else is checked (R29). -/
theorem scalarOp_illegal {n : Needs} {f : State → GKey → Nat → Ends} {s : State} {g : GKey} {e : Nat}
    (h : Issues s g e) : scalarOp false n f s = .next (s.scalarFault g e { kind := 1 }) := by
  simp [scalarOp, State.actor, h.turn, State.issueCheck]

theorem wellFormed_bfx_of_beyond {d a : BitVec 7} {p l : BitVec 6} (h : 64 < p.toNat + l.toNat + 1) :
    WellFormed (.bfx d a p l) = false := decide_eq_false (Nat.not_le.mpr h)

theorem wellFormed_bfi_of_beyond {d a : BitVec 7} {p l : BitVec 6} (h : 64 < p.toNat + l.toNat + 1) :
    WellFormed (.bfi d a p l) = false := decide_eq_false (Nat.not_le.mpr h)

/-- A bit field that ends beyond bit 63 (R111). -/
theorem exec_bitField_of_beyond {s : State} {g : GKey} {e : Nat} (h : Issues s g e) (d a : BitVec 7) {p l : BitVec 6}
    (hp : 64 < p.toNat + l.toNat + 1) :
    exec (.bfx d a p l) s = .next (s.scalarFault g e { kind := 1 }) ∧
      exec (.bfi d a p l) s = .next (s.scalarFault g e { kind := 1 }) := by
  constructor
  · rw [exec_bfx, execBfx, wellFormed_bfx_of_beyond hp, scalarOp_illegal h]
  · rw [exec_bfi, execBfi, wellFormed_bfi_of_beyond hp, scalarOp_illegal h]

theorem decodeScalar_alu {w : BitVec 32} (h : sOp w = 0x01) : decodeScalar w = decodeAlu w := by
  simp [decodeScalar, h]

theorem decodeAlu_of_noFn {w : BitVec 32} (h : 26 ≤ (sFn w).toNat) : decodeAlu w = .unassignedEncoding := by
  unfold decodeAlu
  split
  case h_27 => rfl
  all_goals omega

theorem decodeAlu_of_sb {w : BitVec 32} (h : 23 ≤ (sFn w).toNat) (hb : sB w ≠ 0) :
    decodeAlu w = .unassignedEncoding := by
  by_cases h26 : 26 ≤ (sFn w).toNat
  · exact decodeAlu_of_noFn h26
  · obtain h | h | h : (sFn w).toNat = 23 ∨ (sFn w).toNat = 24 ∨ (sFn w).toNat = 25 := by omega
    all_goals simpa [decodeAlu, h] using hb

theorem decodeScalar_cmov {w : BitVec 32} (h : sOp w = 0x0F) (hf : sFn w ≠ 0) :
    decodeScalar w = .unassignedEncoding := by
  simpa [decodeScalar, h] using hf

/-- Settles O1: the rows of `Alu` by the value of each, the bit fields beyond bit 63 by the check of their encoding, the
words without an operation by the decoder's major and fn. -/
theorem scalarAluResult : Obligations.ScalarAluResult := by
  unfold Obligations.ScalarAluResult
  refine ⟨fun s g e i d v ha hw h => Leaves.of_alu ha hw h,
    fun s g e d a p l h hp => exec_bitField_of_beyond h d a hp, ?_⟩
  rintro w (⟨hop, hfn | ⟨hfn, hb⟩⟩ | ⟨hop, hfn⟩)
  · exact (decodeScalar_alu hop).trans (decodeAlu_of_noFn hfn)
  · exact (decodeScalar_alu hop).trans (decodeAlu_of_sb hfn hb)
  · exact decodeScalar_cmov hop hfn

end Sys2Proof.Machine
end

section
/-! Branches, jumps, calls and returns, and their faults (R113, R117, R126, R354, R392). -/

namespace Sys2Proof.Machine
open Sys2Proof.Terms

/-! ## Tables of which the rows are changed or left out -/

section
variable {κ α : Type} [DecidableEq κ]

theorem Tab.get?_map_rows (t : Tab κ α) (f : κ → α → α) (k : κ) :
    Tab.get? (t.map fun p => (p.1, f p.1 p.2)) k = (t.get? k).map (f k) := by
  induction t with
  | nil => rfl
  | cons p r ih =>
    obtain ⟨j, v⟩ := p
    by_cases h : j = k
    · subst h; simp [Tab.get?]
    · simpa [Tab.get?, h] using ih

/-- A change of rows that keeps the default reads as the change of what was read. -/
theorem Tab.get_map_rows (t : Tab κ α) (f : κ → α → α) {d : α} {k : κ} (hd : f k d = d) :
    Tab.get (t.map fun p => (p.1, f p.1 p.2)) d k = f k (t.get d k) := by
  unfold Tab.get
  rw [Tab.get?_map_rows]
  cases t.get? k with
  | none => exact hd.symm
  | some v => rfl

theorem Tab.get?_filter_key (t : Tab κ α) {c : κ → Bool} {k : κ} (hk : c k = true) :
    Tab.get? (t.filter fun p => c p.1) k = t.get? k := by
  induction t with
  | nil => rfl
  | cons p r ih =>
    obtain ⟨j, v⟩ := p
    by_cases h : j = k
    · subst h; simp [Tab.get?, hk]
    · cases hj : c j <;> simpa [List.filter_cons, hj, Tab.get?, h] using ih

/-- A row put at a key that a filter leaves out. -/
theorem Tab.filter_put_key (t : Tab κ α) {c : κ → Bool} {k : κ} (v : α) (hk : c k = false) :
    (t.put k v).filter (fun p => c p.1) = t.filter fun p => c p.1 := by
  induction t with
  | nil => simp [Tab.put, hk]
  | cons p r ih =>
    obtain ⟨j, w⟩ := p
    by_cases h : j = k
    · subst h; simp [Tab.put, hk]
    · simp [Tab.put, h, List.filter_cons, ih]

/-- A search by what a put leaves as it was finds the same key. -/
theorem Tab.find?_put_key (t : Tab κ α) (c : α → Bool) (k : κ) {v : α}
    (hv : ∀ w, t.get? k = some w → c v = c w) (hd : t.get? k = none → c v = false) :
    ((t.put k v).find? fun p => c p.2).map (·.1) = (t.find? fun p => c p.2).map (·.1) := by
  induction t with
  | nil => simp [Tab.put, hd rfl]
  | cons p r ih =>
    obtain ⟨j, w⟩ := p
    by_cases h : j = k
    · subst h
      have hw : c v = c w := hv w (by simp [Tab.get?])
      cases hc : c w <;> simp [Tab.put, hw, hc]
    · have ih := ih (by simpa [Tab.get?, h] using hv) (by simpa [Tab.get?, h] using hd)
      cases hc : c w <;> simp [Tab.put, h, hc, ih]

end

end Sys2Proof.Machine

namespace Sys2Proof.Terms
open Sys2Proof.Machine

/-! ## Where a split may go (R123) -/

/-- An address is straight for a split whose stack and join are as before, if no entry waits that did not before. -/
theorem Straight.of_same {s t : State} {g : GKey} {e : Nat} {x : DWord} {l : BitVec 8}
    (hx : Straight s g e x l) (hs : (t.split g e).stack = (s.split g e).stack) (hj : (t.split g e).join = (s.split g e).join)
    (ho : ∀ q ∈ (t.group g).ents, q.1 ≠ e →
      ∃ p ∈ (s.group g).ents, p.1 = q.1 ∧ p.2.pc = q.2.pc ∧ (p.2.waiting = false → q.2.waiting = false)) :
    Straight t g e x l := by
  rcases hx with hx | ⟨hstack, hjoin, hothers⟩
  · exact .inl hx
  · refine .inr ⟨by rwa [hs], by rwa [hj], fun q hq hne h4 hpc => ?_⟩
    obtain ⟨p, hp, hk, hppc, hw⟩ := ho q hq hne
    exact hw (hothers p hp (hk ▸ hne) (hk ▸ h4) (hppc.trans hpc))

/-- The same of a split of which other fields are changed. -/
theorem Straight.updSplit {s : State} {g : GKey} {e : Nat} {x : DWord} {l : BitVec 8} (hx : Straight s g e x l)
    (f : Split → Split) (hs : (f (s.split g e)).stack = (s.split g e).stack)
    (hj : (f (s.split g e)).join = (s.split g e).join) : Straight (s.updSplit g e f) g e x l := by
  refine hx.of_same (by simpa using hs) (by simpa using hj) fun q hq hne => ⟨q, ?_, rfl, rfl, id⟩
  simp only [State.group_updSplit_self] at hq
  exact Tab.mem_put_ne hq hne

/-! ## Memory under operations on other objects -/

/-- Memory, poison, scratch and held stores are these four fields. -/
theorem KeepsMemory.of_fields {s t : State} (hm : t.mem = s.mem) (hb : t.blocks = s.blocks) (hp : t.poison = s.poison)
    (hs : t.pend = s.pend) : KeepsMemory s t :=
  ⟨State.rawByte_congr hm hb, State.poisoned_congr hp hb, hs⟩

theorem KeepsMemory.refl (s : State) : KeepsMemory s s := .of_fields rfl rfl rfl rfl

theorem KeepsMemory.trans {s t u : State} (h : KeepsMemory s t) (k : KeepsMemory t u) : KeepsMemory s u :=
  ⟨fun l => (k.bytes l).trans (h.bytes l), fun l => (k.poison l).trans (h.poison l), k.pend.trans h.pend⟩

end Sys2Proof.Terms

namespace Sys2Proof.Machine
open Sys2Proof.Terms

/-! ## Branches and jumps (R113) -/

section
variable {s : State} {g : GKey} {e : Nat}

theorem scalarOp_goto_here {f : State → GKey → Nat → Ends} {x : DWord} (h : Issues s g e) (hf : f s g e = .goto s x)
    (hx : Straight s g e x (s.split g e).level) : scalarOp true {} f s = .next (moved s g e x) :=
  scalarOp_jump h (State.issueCheck_plain ..) hf h.entry rfl hx

/-- A branch goes by its condition to its target or to the next word. -/
theorem branch_eq_moved {f : DWord → DWord → Bool} {a b : BitVec 7} {o : BitVec 12} {p : Prop} [Decidable p]
    (h : Issues s g e) (hp : f (s.getS g e a.toNat) (s.getS g e b.toNat) = true ↔ p)
    (hx : Straight s g e (if p then (s.split g e).pc + 4 * o.signExtend 64 else (s.split g e).pc + 4) (s.split g e).level) :
    branch f a b o s =
      .next (moved s g e (if p then (s.split g e).pc + 4 * o.signExtend 64 else (s.split g e).pc + 4)) := by
  by_cases hc : p
  · rw [if_pos hc] at hx ⊢
    exact scalarOp_goto_here h (if_pos (hp.mpr hc)) hx
  · rw [if_neg hc] at hx ⊢
    exact scalarOp_next h (State.issueCheck_plain ..) (if_neg fun hf => hc (hp.mp hf)) h.entry h.noStep hx

theorem not_slt_iff_toInt_le {n : Nat} {x y : BitVec n} : (!x.slt y) = true ↔ y.toInt ≤ x.toInt := by
  simp [BitVec.slt]

theorem not_ult_iff_toNat_le {n : Nat} {x y : BitVec n} : (!x.ult y) = true ↔ y.toNat ≤ x.toNat := by
  simp [BitVec.ult]

theorem exec_jmp (o : BitVec 26) (s : State) : exec (.jmp o) s = execJmp o s := rfl

/-- Every row of the table `Branch`. -/
theorem exec_of_branch {i : Instr} {x : DWord} (hb : Branch (fun n => s.getS g e n.toNat) (s.split g e).pc i x)
    (h : Issues s g e) (hx : Straight s g e x (s.split g e).level) : exec i s = .next (moved s g e x) := by
  cases hb with
  | beq a b o => exact branch_eq_moved h beq_iff_eq hx
  | bne a b o => exact branch_eq_moved h bne_iff_ne hx
  | blt a b o => exact branch_eq_moved h BitVec.slt_iff_toInt_lt hx
  | bge a b o => exact branch_eq_moved (f := fun x y => !x.slt y) h not_slt_iff_toInt_le hx
  | bltn a b o => exact branch_eq_moved h BitVec.ult_iff_toNat_lt hx
  | bgen a b o => exact branch_eq_moved (f := fun x y => !x.ult y) h not_ult_iff_toNat_le hx
  | jmp o => exact (exec_jmp o s).trans (scalarOp_goto_here h rfl hx)

/-- A split that moves on keeps every register, and all else that `Keeps` names. -/
theorem Keeps.moved (x : DWord) (h : Issues s g e) : Keeps s (moved s g e x) g e 0 := Keeps.setS s g e 0 0 x h.noFork

/-! ## Calls (R117) -/

/-- A linking jump: the link written, the call level raised. -/
theorem scalarOp_link {legal : Bool} {f : State → GKey → Nat → Ends} {d : Nat} {v x : DWord} (h : Issues s g e)
    (hl : legal = true) (hf : f s g e = .goto ((s.setS g e d v).deeper g e) x)
    (hx : Straight s g e x ((s.split g e).level + 1)) :
    scalarOp legal {} f s = .next (moved ((s.setS g e d v).deeper g e) g e x) := by
  subst hl
  refine scalarOp_jump h (State.issueCheck_plain ..) hf (by simp [State.deeper])
    (by simp [State.deeper, (SameFlow.setS s g e d v).stepping]) ?_
  have hl : (((s.setS g e d v).deeper g e).split g e).level = (s.split g e).level + 1 := by
    simp [State.deeper, (SameFlow.setS s g e d v).level]
  rw [hl]
  exact (State.straight_setS hx).updSplit _ rfl rfl

theorem exec_jal (o : BitVec 26) (s : State) : exec (.jal o) s = execJal o s := rfl

theorem exec_jal_link {o : BitVec 26} (h : Issues s g e)
    (hx : Straight s g e ((s.split g e).pc + 4 * o.signExtend 64) ((s.split g e).level + 1)) :
    exec (.jal o) s = .next (moved ((s.setS g e 1 (next s g e)).deeper g e) g e ((s.split g e).pc + 4 * o.signExtend 64)) :=
  (exec_jal o s).trans (scalarOp_link h rfl rfl hx)

theorem exec_jalr (d a : BitVec 7) (i : BitVec 12) (s : State) : exec (.jalr d a i) s = execJalr d a i s := rfl

theorem exec_jalr_link {d a : BitVec 7} {i : BitVec 12} (h : Issues s g e) (hw : WellFormed (.jalr d a i) = true)
    (hd : d ≠ 0) (ha : (s.getS g e a.toNat + i.signExtend 64).toNat % 4 = 0)
    (hx : Straight s g e (s.getS g e a.toNat + i.signExtend 64) ((s.split g e).level + 1)) :
    exec (.jalr d a i) s =
      .next (moved ((s.setS g e d.toNat (next s g e)).deeper g e) g e (s.getS g e a.toNat + i.signExtend 64)) :=
  (exec_jalr ..).trans (scalarOp_link h hw ((if_neg fun hn => bne_iff_ne.mp hn ha).trans (by rw [if_neg hd]; rfl)) hx)

theorem exec_jalr_plain {a : BitVec 7} {i : BitVec 12} (h : Issues s g e) (hw : WellFormed (.jalr 0 a i) = true)
    (ha : (s.getS g e a.toNat + i.signExtend 64).toNat % 4 = 0)
    (hx : Straight s g e (s.getS g e a.toNat + i.signExtend 64) (s.split g e).level) :
    exec (.jalr 0 a i) s = .next (moved s g e (s.getS g e a.toNat + i.signExtend 64)) := by
  rw [exec_jalr, execJalr, hw]
  exact scalarOp_goto_here h (if_neg fun hn => bne_iff_ne.mp hn ha) hx

theorem exec_jalr_misaligned {d a : BitVec 7} {i : BitVec 12} (h : Issues s g e) (hw : WellFormed (.jalr d a i) = true)
    (ha : (s.getS g e a.toNat + i.signExtend 64).toNat % 4 ≠ 0) :
    exec (.jalr d a i) s =
      .next (s.scalarFault g e { kind := 4, addr := (s.getS g e a.toNat + i.signExtend 64).toNat }) := by
  rw [exec_jalr, execJalr, hw]
  exact scalarOp_fault h (State.issueCheck_plain ..) (if_pos (bne_iff_ne.mpr ha))

end

/-! ## Changes of call records alone (R392) -/

/-- The groups differ in the call records of their entries, and in what is kept for the end of a quantum. -/
structure CallsOnly (s t : State) (g : GKey) (e : Nat) : Prop where
  group : ∀ k, ∃ es q, t.group k = { s.group k with ents := es, q := q }
  split : ∀ k i, ∃ cs, t.split k i = { s.split k i with calls := cs }
  entry : ((s.group g).ents.get? e).isSome = true → ((t.group g).ents.get? e).isSome = true
  others : ∀ q ∈ (t.group g).ents, q.1 ≠ e → ∃ p ∈ (s.group g).ents, p.1 = q.1 ∧ ∃ cs, q.2 = { p.2 with calls := cs }
  memory : KeepsMemory s t

namespace CallsOnly
variable {s t u : State} {g : GKey} {e : Nat}

theorem trans (h : CallsOnly s t g e) (k : CallsOnly t u g e) : CallsOnly s u g e where
  group j := by
    obtain ⟨es, q, h⟩ := h.group j
    obtain ⟨es', q', k⟩ := k.group j
    exact ⟨es', q', by rw [k, h]⟩
  split j i := by
    obtain ⟨cs, h⟩ := h.split j i
    obtain ⟨cs', k⟩ := k.split j i
    exact ⟨cs', by rw [k, h]⟩
  entry x := k.entry (h.entry x)
  others q hq hne := by
    obtain ⟨p, hp, hk, cs, k⟩ := k.others q hq hne
    obtain ⟨o, ho, hj, cs', h⟩ := h.others p hp (hk ▸ hne)
    exact ⟨o, ho, hj.trans hk, cs, by rw [k, h]⟩
  memory := h.memory.trans k.memory

/-- An effect that leaves the entries of every group as they are. -/
theorem of_group (h : ∀ k, ∃ q, t.group k = { s.group k with q := q }) (hm : KeepsMemory s t) : CallsOnly s t g e := by
  have hents : ∀ k, (t.group k).ents = (s.group k).ents := by
    intro k
    obtain ⟨q, h⟩ := h k
    rw [h]
  refine ⟨fun k => ?_, fun k i => ⟨(s.split k i).calls, ?_⟩, fun x => by rwa [hents], fun q hq _ => ?_, hm⟩
  · obtain ⟨q, h⟩ := h k
    exact ⟨_, q, h⟩
  · unfold State.split
    rw [hents]
  · exact ⟨q, hents g ▸ hq, rfl, _, rfl⟩

/-- The call records of the split itself replaced. -/
theorem updSplit (s : State) (g : GKey) (e : Nat) (f : Split → Split)
    (hf : ∃ cs, f (s.split g e) = { s.split g e with calls := cs }) : CallsOnly s (s.updSplit g e f) g e where
  group k := by
    by_cases hk : g = k
    · subst hk
      exact ⟨_, _, State.group_updSplit_self ..⟩
    · exact ⟨_, _, State.group_updSplit_ne _ _ _ hk⟩
  split k i := by
    by_cases hk : g = k
    · subst hk
      rw [State.split_updSplit]
      split
      · next h => subst h; exact hf
      · exact ⟨_, rfl⟩
    · exact ⟨_, by unfold State.split; rw [State.group_updSplit_ne _ _ _ hk]⟩
  entry _ := by simp
  others q hq hne := by
    rw [State.group_updSplit_self] at hq
    exact ⟨q, Tab.mem_put_ne hq hne, rfl, _, rfl⟩
  memory := .of_fields rfl rfl rfl rfl

theorem getS (h : CallsOnly s t g e) (i n : Nat) : t.getS g i n = s.getS g i n := by
  obtain ⟨es, q, hg⟩ := h.group g
  obtain ⟨cs, hs⟩ := h.split g i
  unfold State.getS
  rw [hg, hs]

theorem coreOf (h : CallsOnly s t g e) : t.coreOf g = s.coreOf g := by
  obtain ⟨es, q, hg⟩ := h.group g
  unfold State.coreOf
  rw [hg]

/-- An address stays straight. -/
theorem straight (h : CallsOnly s t g e) {x : DWord} {l : BitVec 8} (hx : Straight s g e x l) : Straight t g e x l := by
  obtain ⟨cs, hs⟩ := h.split g e
  refine hx.of_same (by rw [hs]) (by rw [hs]) fun q hq hne => ?_
  obtain ⟨p, hp, hk, cs', hq'⟩ := h.others q hq hne
  exact ⟨p, hp, hk, by rw [hq'], fun hw => by rw [hq']; exact hw⟩

end CallsOnly

/-! ## The return value predictor (R289) -/

/-- The event of a return: the call that it returns to, and the values returned. -/
def returnEvent (s : State) (g : GKey) (e : Nat) (r : CallRec) : HEvent := .rvp r.pc.toNat r.two (s.getS g e 2) (s.getS g e 3)

theorem State.rvpReturn_of_noFork {s : State} {g : GKey} (e : Nat) (r : CallRec) (h : (s.group g).fork = none) :
    s.rvpReturn g e r = s.histNow g (returnEvent s g e r) := by
  simp [State.rvpReturn, returnEvent, h]

/-- A return's event decides on no prefetch; it trains a bank, is kept for the commit, or finds no bank. -/
theorem State.histNow_returnEvent_cases (s : State) (g : GKey) (e : Nat) (r : CallRec) :
    s.histNow g (returnEvent s g e r) = s ∨
    s.histNow g (returnEvent s g e r) =
      s.updGroup g (fun x => { x with q := { x.q with hist := x.q.hist ++ [returnEvent s g e r] } }) ∨
    ∃ h, s.histNow g (returnEvent s g e r) = s.updHbank (s.coreOf g) h fun b => histApply b (returnEvent s g e r) := by
  unfold State.histNow
  cases s.histIdx g.b.r (s.coreOf g) with
  | none => exact .inl rfl
  | some h =>
    cases ho : s.ordered g with
    | true => exact .inr (.inl (by simp [returnEvent, State.histPrefetch]))
    | false => exact .inr (.inr ⟨h, by simp [returnEvent, State.histPrefetch]⟩)

theorem CallsOnly.histNow_returnEvent (s : State) (g : GKey) (e : Nat) (r : CallRec) :
    CallsOnly s (s.histNow g (returnEvent s g e r)) g e := by
  rcases State.histNow_returnEvent_cases s g e r with h | h | ⟨h', h⟩ <;> rw [h]
  · exact .of_group (fun k => ⟨_, rfl⟩) (.refl s)
  · refine .of_group (fun k => ?_) (.of_fields rfl rfl rfl rfl)
    by_cases hk : g = k
    · subst hk
      exact ⟨_, State.group_updGroup_self ..⟩
    · exact ⟨_, State.group_updGroup_ne _ _ hk⟩
  · exact .of_group (fun k => ⟨_, rfl⟩) (.of_fields rfl rfl rfl rfl)

theorem State.bankOf_congr {s t : State} {g : GKey} (hc : t.coreOf g = s.coreOf g) (hs : t.cores = s.cores) :
    t.bankOf g = s.bankOf g := by
  simp only [State.bankOf, State.histIdx, State.hbank, State.core, hc, hs]

/-- A change of a bank that keeps its owner leaves each region the bank that it has. -/
theorem State.histIdx_updHbank (s : State) (k h : Nat) (f : HBank → HBank) (r : RKey) (hf : ∀ b : HBank, (f b).owner = b.owner) :
    (s.updHbank k h f).histIdx r k = s.histIdx r k := by
  simp only [State.histIdx, State.updHbank, State.core_updCore_self]
  refine Tab.find?_put_key _ (fun b : HBank => decide (b.owner = some r)) h (fun w hw => ?_) fun hn => ?_
  · simp [hf, Tab.get, hw]
  · simp [hf, Tab.get, hn]

/-- Outside ordered mode the bank of the region is trained at once. -/
theorem State.bankOf_histNow_returnEvent {s : State} {g : GKey} {e : Nat} {r : CallRec} {b : HBank}
    (ho : s.ordered g = false) (hb : s.bankOf g = some b) :
    (s.histNow g (returnEvent s g e r)).bankOf g =
      some (rvpEvent b r.pc.toNat r.two (s.getS g e 2) (s.getS g e 3)) := by
  obtain ⟨h, hi, rfl⟩ := Option.map_eq_some_iff.mp hb
  have hn : s.histNow g (returnEvent s g e r) = s.updHbank (s.coreOf g) h fun b => histApply b (returnEvent s g e r) := by
    simp [State.histNow, hi, ho, returnEvent, State.histPrefetch]
  have hc : (s.updHbank (s.coreOf g) h fun b => histApply b (returnEvent s g e r)).coreOf g = s.coreOf g := rfl
  rw [hn, State.bankOf, hc, State.histIdx_updHbank s (s.coreOf g) h (fun b => histApply b (returnEvent s g e r)) g.b.r
    fun _ => rfl, hi]
  simp [State.hbank, State.updHbank, histApply, returnEvent]

/-! ## Call records closed (R392) -/

/-- A record closed, if it is the one of a number. -/
def CallRec.close (id : Nat) (r : CallRec) : CallRec := if r.id = id then { r with closed := true } else r
/-- The records of an entry, of which those of a number are closed. -/
def Split.close (id : Nat) (p : Split) : Split := { p with calls := p.calls.map (CallRec.close id) }
/-- The entries of a group, of which the records of a number are closed. -/
def Group.close (id : Nat) (x : Group) : Group := { x with ents := x.ents.map fun q => (q.1, Split.close id q.2) }
/-- Whether a group has its records closed with those of another: itself and its continuations. -/
def closesIn (g k : GKey) : Bool := decide (k.b = g.b) && k.gid == g.gid && (g.sh == 0 || k.sh == g.sh)

@[simp] theorem CallRec.close_id (id : Nat) (r : CallRec) : (r.close id).id = r.id := by unfold CallRec.close; split <;> rfl
theorem CallRec.close_of_ne {id : Nat} {r : CallRec} (h : r.id ≠ id) : r.close id = r := if_neg h
theorem CallRec.close_closed {id : Nat} {r : CallRec} (h : r.id = id) : (r.close id).closed = true := by
  simp [CallRec.close, h]

theorem closesIn_self {g : GKey} (h : g.sh = 0) : closesIn g g = true := by simp [closesIn, h]

theorem Split.get_close (t : SMap Split) (id i : Nat) :
    Tab.get (t.map fun q => (q.1, Split.close id q.2)) {} i = Split.close id (t.get {} i) :=
  Tab.get_map_rows t (fun _ p => Split.close id p) rfl

theorem State.closeCall_eq (s : State) (g : GKey) (id : Nat) :
    s.closeCall g id =
      { s with groups := s.groups.map fun p => (p.1, if closesIn g p.1 then p.2.close id else p.2) } := by
  unfold State.closeCall
  congr 1
  refine List.map_congr_left fun p _ => ?_
  show (if closesIn g p.1 = true then (p.1, Group.close id p.2) else p) = _
  split <;> rfl

theorem State.group_closeCall (s : State) (g k : GKey) (id : Nat) :
    (s.closeCall g id).group k = if closesIn g k then (s.group k).close id else s.group k := by
  rw [State.closeCall_eq]
  exact Tab.get_map_rows s.groups (fun k x => if closesIn g k then x.close id else x) (by split <;> rfl)

theorem State.group_closeCall_self (s : State) {g : GKey} (id : Nat) (h : g.sh = 0) :
    (s.closeCall g id).group g = (s.group g).close id := by
  rw [State.group_closeCall, closesIn_self h, if_pos rfl]

theorem State.split_closeCall_self (s : State) {g : GKey} (id i : Nat) (h : g.sh = 0) :
    (s.closeCall g id).split g i = (s.split g i).close id := by
  unfold State.split
  rw [State.group_closeCall_self s id h]
  exact Split.get_close ..

theorem CallsOnly.closeCall (s : State) (g : GKey) (e id : Nat) (h : g.sh = 0) : CallsOnly s (s.closeCall g id) g e where
  group k := by
    rw [State.group_closeCall]
    split <;> exact ⟨_, _, rfl⟩
  split k i := by
    unfold State.split
    rw [State.group_closeCall]
    split
    · exact ⟨_, Split.get_close ..⟩
    · exact ⟨_, rfl⟩
  entry x := by
    rw [State.group_closeCall_self s id h]
    show (Tab.get? ((s.group g).ents.map fun q => (q.1, Split.close id q.2)) e).isSome = true
    rw [Tab.get?_map_rows _ (fun _ p => Split.close id p), Option.isSome_map]
    exact x
  others q hq _ := by
    rw [State.group_closeCall_self s id h] at hq
    obtain ⟨p, hp, rfl⟩ := List.mem_map.mp hq
    exact ⟨p, hp, rfl, _, rfl⟩
  memory := by
    rw [State.closeCall_eq]
    exact .of_fields rfl rfl rfl rfl

theorem mem_of_mem_pruneCalls {q : CallRec} {rs : List CallRec} (h : q ∈ pruneCalls rs) : q ∈ rs := by
  induction rs with
  | nil => exact h
  | cons r rs ih =>
    rcases List.mem_cons.mp h with rfl | h
    · exact List.mem_cons_self ..
    · exact List.mem_cons_of_mem _ (ih (List.mem_filter.mp h).1)

/-- Records without a fork are abandoned without more. -/
theorem State.abandonCalls_of_noFork (s : State) (g : GKey) {cs : List CallRec} (h : ∀ q ∈ cs, q.fork = none) :
    s.abandonCalls g cs = s := by
  unfold State.abandonCalls
  induction cs with
  | nil => rfl
  | cons r rs ih =>
    rw [List.foldl_cons, h r (List.mem_cons_self ..)]
    exact ih fun q hq => h q (List.mem_cons_of_mem _ hq)

/-! ## ret outside superseded code (R117, R126, R392) -/

theorem State.staleSite_of_gens_nil {s : State} {c : CKey} (h : (s.ctx c).gens = []) (t : Nat) : s.staleSite c t = none := by
  simp [State.staleSite, h]

theorem exec_ret (s : State) : exec .ret s = execRet s := rfl

section
variable {s : State} {g : GKey} {e : Nat}

theorem exec_ret_pending (h : Issues s g e) (hp : (s.split g e).pendingRc = true) :
    exec .ret s = .next (s.scalarFault g e { kind := 8 }) :=
  (exec_ret s).trans (scalarOp_fault h (State.issueCheck_plain ..) (if_pos hp))

theorem exec_ret_misaligned (h : Issues s g e) (hp : (s.split g e).pendingRc = false) (ha : (s.getS g e 1).toNat % 4 ≠ 0) :
    exec .ret s = .next (s.scalarFault g e { kind := 4, addr := (s.getS g e 1).toNat }) :=
  (exec_ret s).trans (scalarOp_fault h (State.issueCheck_plain ..) (by simp [hp, ha]))

/-- A ret that goes to an address one call level down. -/
theorem exec_ret_of_goto {t : State} {x : DWord} (h : Issues s g e) {f : State → GKey → Nat → Ends}
    (hr : exec .ret s = scalarOp true {} f s) (hf : f s g e = .goto (t.shallower g e) x)
    (hs : (t.group g).stepping = (s.group g).stepping) (hx : Straight t g e x ((t.split g e).level - 1)) :
    exec .ret s = .next (moved (t.shallower g e) g e x) := by
  refine hr.trans (scalarOp_jump h (State.issueCheck_plain ..) hf (by simp [State.shallower])
    (by simpa [State.shallower] using hs) ?_)
  have hl : ((t.shallower g e).split g e).level = (t.split g e).level - 1 := by simp [State.shallower]
  rw [hl]
  exact hx.updSplit _ rfl rfl

/-- A ret that meets no open record of the level below. -/
theorem exec_ret_plain (h : Issues s g e) (hp : (s.split g e).pendingRc = false) (ha : (s.getS g e 1).toNat % 4 = 0)
    (hg : (s.ctx g.b.r.c).gens = [])
    (hc : ∀ r, (s.split g e).calls.find? (fun r => r.level == (s.split g e).level - 1) = some r → r.closed = true)
    (hx : Straight s g e (s.getS g e 1) ((s.split g e).level - 1)) :
    exec .ret s = .next (moved (s.shallower g e) g e (s.getS g e 1)) := by
  refine exec_ret_of_goto h (exec_ret s) ?_ rfl hx
  simp only [hp, ha, h.noFork, State.staleSite_of_gens_nil hg]
  cases hf : (s.split g e).calls.find? (fun r => r.level == (s.split g e).level - 1) with
  | none => rfl
  | some r => simp [hc r hf]

/-- The records made after one. -/
def laterCalls (p : Split) (r : CallRec) : List CallRec := p.calls.takeWhile fun q => q.id != r.id

/-- What a return to an open record does before its split goes on or waits: the predictor is trained, the record is
closed and the later ones are dropped, and `keep` says which of the others stay. -/
def State.answered (s : State) (g : GKey) (e : Nat) (r : CallRec) (keep : List CallRec → List CallRec) : State :=
  ((s.histNow g (returnEvent s g e r)).closeCall g r.id).updSplit g e fun p =>
    { p with calls := keep (p.calls.drop (laterCalls (s.split g e) r).length) }

/-- The ret that resolves a fork made known to it, with the values that it returns (R135). -/
def State.tellFork (s : State) (g : GKey) (e k : Nat) : State :=
  s.updGroup (shadowKey g k) fun x => { x with fork := x.fork.map fun f =>
    { f with ret := e, atRet := some (s.getS g e 2, s.getS g e 3, (s.split g e).mask) } }

section
variable {r : CallRec} (h : Issues s g e) (hp : (s.split g e).pendingRc = false) (ha : (s.getS g e 1).toNat % 4 = 0)
  (hg : (s.ctx g.b.r.c).gens = [])
  (hc : (s.split g e).calls.find? (fun r => r.level == (s.split g e).level - 1) = some r) (ho : r.closed = false)
  (hl : ∀ q ∈ laterCalls (s.split g e) r, q.fork = none)
include h hp ha hg hc ho hl

/-- A ret that meets an open record whose callf forked nothing. -/
theorem exec_ret_open (hf : r.fork = none)
    (hx : Straight (s.answered g e r pruneCalls) g e (s.getS g e 1) (((s.answered g e r pruneCalls).split g e).level - 1))
    (hs : ((s.answered g e r pruneCalls).group g).stepping = (s.group g).stepping) :
    exec .ret s = .next (moved ((s.answered g e r pruneCalls).shallower g e) g e (s.getS g e 1)) := by
  refine exec_ret_of_goto h (exec_ret s) ?_ hs hx
  have hab : s.abandonCalls g (laterCalls (s.split g e) r) = s := State.abandonCalls_of_noFork s g hl
  rw [laterCalls] at hab
  simp only [hp, ha, h.noFork, State.staleSite_of_gens_nil hg, hc, ho, hf, hab, State.rvpReturn_of_noFork e r h.noFork]
  rfl

/-- A ret that meets an open record whose callf forked. -/
theorem exec_ret_fork {k : Nat} {f : Fork} (hf : r.fork = some k) (hk : (s.group (shadowKey g k)).fork = some f)
    (h0 : f.parent = 0) :
    exec .ret s = .next (((s.answered g e r id).updSplit g e fun p => { p with st := .waitFork }).tellFork g e k) := by
  have hab : s.abandonCalls g (laterCalls (s.split g e) r) = s := State.abandonCalls_of_noFork s g hl
  rw [laterCalls] at hab
  rw [exec_ret, execRet, scalarOp_ok h (State.issueCheck_plain ..)]
  simp only [hp, ha, h.noFork, State.staleSite_of_gens_nil hg, hc, ho, hf, hk, h0, h.home, hab,
    State.rvpReturn_of_noFork e r h.noFork, State.answered, State.tellFork, State.updSplit_updSplit, Option.map_some]
  rfl

end
end

/-! ## What a return to an open record leaves (R392) -/

section
variable (s : State) {g : GKey} (e : Nat) (r : CallRec) {keep : List CallRec → List CallRec}

theorem CallsOnly.answered (keep : List CallRec → List CallRec) (h : g.sh = 0) :
    CallsOnly s (s.answered g e r keep) g e :=
  ((CallsOnly.histNow_returnEvent s g e r).trans (.closeCall _ g e r.id h)).trans (.updSplit _ g e _ ⟨_, rfl⟩)

/-- The records of an entry after the history has been trained and a record closed. -/
theorem State.calls_closeCall_histNow (h : g.sh = 0) (i : Nat) :
    (((s.histNow g (returnEvent s g e r)).closeCall g r.id).split g i).calls =
      (s.split g i).calls.map (CallRec.close r.id) := by
  rw [State.split_closeCall_self _ _ _ h]
  rcases State.histNow_returnEvent_cases s g e r with hn | hn | ⟨_, hn⟩ <;> rw [hn]
  · rfl
  · simp [Split.close, State.split]
  · rfl

theorem State.calls_answered (keep : List CallRec → List CallRec) (h : g.sh = 0) (i : Nat) :
    ((s.answered g e r keep).split g i).calls =
      if e = i then keep (((s.split g e).calls.map (CallRec.close r.id)).drop (laterCalls (s.split g e) r).length)
      else (s.split g i).calls.map (CallRec.close r.id) := by
  unfold State.answered
  rw [State.split_updSplit]
  split
  · rw [← State.calls_closeCall_histNow s e r h]
  · exact State.calls_closeCall_histNow s e r h i

/-- No copy of the record is open in a split of the group. -/
theorem State.closed_of_mem_answered (h : g.sh = 0) (hk : ∀ l, ∀ q ∈ keep l, q ∈ l) (i : Nat) {q : CallRec}
    (hq : q ∈ ((s.answered g e r keep).split g i).calls) (hi : q.id = r.id) : q.closed = true := by
  have hm : q ∈ (s.split g i).calls.map (CallRec.close r.id) := by
    rw [State.calls_answered s e r keep h] at hq
    split at hq
    · next he => exact he ▸ List.mem_of_mem_drop (hk _ _ hq)
    · exact hq
  obtain ⟨o, _, rfl⟩ := List.mem_map.mp hm
  exact CallRec.close_closed ((CallRec.close_id ..).symm.trans hi)

/-- What the split keeps beside the record stood before it. -/
theorem State.kept_of_mem_answered (h : g.sh = 0) (hk : ∀ l, ∀ q ∈ keep l, q ∈ l) {q : CallRec}
    (hq : q ∈ ((s.answered g e r keep).split g e).calls) :
    q.id = r.id ∨ q ∈ (s.split g e).calls.drop (laterCalls (s.split g e) r).length := by
  rw [State.calls_answered s e r keep h, if_pos rfl] at hq
  have hm := hk _ _ hq
  rw [← List.map_drop] at hm
  obtain ⟨o, ho, rfl⟩ := List.mem_map.mp hm
  by_cases hi : o.id = r.id
  · exact .inl ((CallRec.close_id ..).trans hi)
  · exact .inr (by rwa [CallRec.close_of_ne hi])

theorem State.cores_closeCall (s : State) (g : GKey) (id : Nat) : (s.closeCall g id).cores = s.cores := by
  rw [State.closeCall_eq]

theorem State.bankOf_answered (h : g.sh = 0) {b : HBank} (ho : s.ordered g = false) (hb : s.bankOf g = some b) :
    (s.answered g e r keep).bankOf g = some (rvpEvent b r.pc.toNat r.two (s.getS g e 2) (s.getS g e 3)) := by
  have hc : (s.answered g e r keep).coreOf g = (s.histNow g (returnEvent s g e r)).coreOf g :=
    (CallsOnly.answered s e r keep h).coreOf.trans (CallsOnly.histNow_returnEvent s g e r).coreOf.symm
  have hs : (s.answered g e r keep).cores = (s.histNow g (returnEvent s g e r)).cores := State.cores_closeCall _ g r.id
  rw [State.bankOf_congr hc hs, State.bankOf_histNow_returnEvent ho hb]

end

/-- A change of a split that keeps its registers. -/
theorem State.getS_updSplit (s : State) (g : GKey) (e : Nat) (f : Split → Split) (h : (f (s.split g e)).s = (s.split g e).s)
    (i n : Nat) : (s.updSplit g e f).getS g i n = s.getS g i n := by
  unfold State.getS
  rw [State.split_updSplit, State.group_updSplit_self]
  split
  · rfl
  · split
    · split
      · next he => subst he; rw [h]
      · rfl
    · rfl

/-! ## What a split that goes on one call level down keeps -/

section
variable (s : State) (g : GKey) (e : Nat) (x : DWord)

theorem State.moved_shallower_split (i : Nat) :
    (moved (s.shallower g e) g e x).split g i =
      if e = i then { s.split g e with
        level := (s.split g e).level - 1, retired := (s.split g e).retired + 1
        st := .running, pc := x, ready := s.cycle, front := none }
      else s.split g i := by
  rw [State.moved_split]
  unfold State.shallower
  split
  · simp
  · next h => rw [State.split_updSplit, if_neg h]

theorem State.group_moved_shallower : ∃ es q, (moved (s.shallower g e) g e x).group g =
    { s.group g with ents := es, q := q, retired := (s.group g).retired + 1 } := by
  have hg : (s.shallower g e).group g = _ := State.group_updSplit_self ..
  rw [State.moved_group, hg]
  exact ⟨_, _, rfl⟩

theorem State.moved_shallower_getS (i n : Nat) : (moved (s.shallower g e) g e x).getS g i n = s.getS g i n := by
  rw [State.getS_moved]
  exact State.getS_updSplit s g e _ rfl i n

theorem State.moved_shallower_bankOf : (moved (s.shallower g e) g e x).bankOf g = s.bankOf g := by
  refine State.bankOf_congr ?_ rfl
  obtain ⟨es, q, hg⟩ := State.group_moved_shallower s g e x
  rw [State.coreOf, hg, State.coreOf]

theorem KeepsMemory.moved_shallower : KeepsMemory s (moved (s.shallower g e) g e x) :=
  .of_fields rfl rfl rfl rfl

end

/-! ## What a ret that waits for its fork leaves (R135) -/

theorem State.group_tellFork_ne (s : State) {g : GKey} (e : Nat) {k : Nat} (h : shadowKey g k ≠ g) :
    (s.tellFork g e k).group g = s.group g := State.group_updGroup_ne _ _ h

theorem State.group_tellFork_self (s : State) (g : GKey) (e k : Nat) :
    (s.tellFork g e k).group (shadowKey g k) = { s.group (shadowKey g k) with
      fork := (s.group (shadowKey g k)).fork.map fun f =>
        { f with ret := e, atRet := some (s.getS g e 2, s.getS g e 3, (s.split g e).mask) } } :=
  State.group_updGroup_self ..

theorem State.split_tellFork (s : State) {g : GKey} (e : Nat) {k : Nat} (h : shadowKey g k ≠ g) (i : Nat) :
    (s.tellFork g e k).split g i = s.split g i := by
  unfold State.split
  rw [State.group_tellFork_ne s e h]

theorem State.getS_tellFork (s : State) {g : GKey} (e : Nat) {k : Nat} (h : shadowKey g k ≠ g) (i n : Nat) :
    (s.tellFork g e k).getS g i n = s.getS g i n := by
  unfold State.getS
  rw [State.split_tellFork s e h, State.group_tellFork_ne s e h]

section
variable {s : State} {g : GKey} {e : Nat} {r : CallRec}

/-- The return to an open record without a fork, of which `t` is the state after the record is answered. -/
theorem returns_of_answered {x : DWord} (h : g.sh = 0) :
    let t := moved ((s.answered g e r pruneCalls).shallower g e) g e x
    (t.split g e).pc = x ∧ (t.split g e).level = (s.split g e).level - 1 ∧ (t.split g e).mask = (s.split g e).mask ∧
      (∀ i, ∀ q ∈ (t.split g i).calls, q.id = r.id → q.closed = true) ∧
      (∀ q ∈ (t.split g e).calls, q.id = r.id ∨ q ∈ (s.split g e).calls.drop (laterCalls (s.split g e) r).length) ∧
      (∀ b, s.ordered g = false → s.bankOf g = some b →
        t.bankOf g = some (rvpEvent b r.pc.toNat r.two (s.getS g e 2) (s.getS g e 3))) ∧
      (t.group g).retired = (s.group g).retired + 1 ∧ (∀ i n, t.getS g i n = s.getS g i n) ∧ KeepsMemory s t := by
  have hco := CallsOnly.answered s e r pruneCalls h
  obtain ⟨cs, hsplit⟩ := hco.split g e
  obtain ⟨es, q, hgroup⟩ := hco.group g
  have hprune : ∀ l, ∀ q ∈ pruneCalls l, q ∈ l := fun l q hq => mem_of_mem_pruneCalls hq
  have hmoved := State.moved_shallower_split (s.answered g e r pruneCalls) g e x
  refine ⟨?_, ?_, ?_, fun i q hq hi => ?_, fun q hq => ?_, fun b hord hb => ?_, ?_, fun i n => ?_, ?_⟩
  · rw [hmoved, if_pos rfl]
  · rw [hmoved, if_pos rfl, hsplit]
  · rw [hmoved, if_pos rfl, hsplit]
  · refine State.closed_of_mem_answered s e r h hprune i ?_ hi
    rw [hmoved] at hq
    split at hq
    · next he => exact he ▸ hq
    · exact hq
  · rw [hmoved, if_pos rfl] at hq
    exact State.kept_of_mem_answered s e r h hprune hq
  · rw [State.moved_shallower_bankOf, State.bankOf_answered s e r h hord hb]
  · obtain ⟨_, _, hm⟩ := State.group_moved_shallower (s.answered g e r pruneCalls) g e x
    rw [hm, hgroup]
  · rw [State.moved_shallower_getS, hco.getS]
  · exact hco.memory.trans (KeepsMemory.moved_shallower ..)

/-- A ret whose record's fork is its own waits, and the fork has the values of the ret. -/
theorem waits_of_answered {k : Nat} {f : Fork} (h : Issues s g e) (hk : (s.group (shadowKey g k)).fork = some f) :
    let t := ((s.answered g e r id).updSplit g e fun p => { p with st := .waitFork }).tellFork g e k
    (t.split g e).st = .waitFork ∧ (t.split g e).pc = (s.split g e).pc ∧
      (t.group (shadowKey g k)).fork =
        some { f with ret := e, atRet := some (s.getS g e 2, s.getS g e 3, (s.split g e).mask) } ∧
      (∀ i n, t.getS g i n = s.getS g i n) ∧ KeepsMemory s t := by
  have hne : shadowKey g k ≠ g := fun hg => by rw [hg, h.noFork] at hk; cases hk
  have hco := CallsOnly.answered s e r id h.home
  obtain ⟨cs, hsplit⟩ := hco.split g e
  obtain ⟨es, q, hshadow⟩ := hco.group (shadowKey g k)
  have hregs : ∀ i n, ((s.answered g e r id).updSplit g e fun p => { p with st := .waitFork }).getS g i n = s.getS g i n :=
    fun i n => (State.getS_updSplit _ g e (fun p => { p with st := .waitFork }) rfl i n).trans (hco.getS i n)
  refine ⟨?_, ?_, ?_, fun i n => ?_, ?_⟩
  · rw [State.split_tellFork _ _ hne, State.split_updSplit_self]
  · rw [State.split_tellFork _ _ hne, State.split_updSplit_self, hsplit]
  · rw [State.group_tellFork_self, hregs, hregs, State.split_updSplit_self, State.group_updSplit_ne _ _ _ hne.symm,
      hshadow, hk, hsplit]
    rfl
  · rw [State.getS_tellFork _ _ hne, hregs]
  · exact hco.memory.trans (.of_fields rfl rfl rfl rfl)

end

theorem returnOfCall : Says.ReturnOfCall := by
  intro s g e r h hp ha hg hc later
  refine ⟨fun hclosed hx => ?_, fun ho hf hl hx => ?_, fun k f ho hf hk h0 hl => ?_⟩
  · exact exec_ret_plain h hp ha hg (fun q hq => by rw [hc] at hq; exact Option.some.inj hq ▸ hclosed) hx
  · have hco := CallsOnly.answered s e r pruneCalls h.home
    obtain ⟨cs, hsplit⟩ := hco.split g e
    obtain ⟨es, q, hgroup⟩ := hco.group g
    exact ⟨_, exec_ret_open h hp ha hg hc ho hl hf (by rw [hsplit]; exact hco.straight hx) (by rw [hgroup]),
      returns_of_answered h.home⟩
  · exact ⟨_, exec_ret_fork h hp ha hg hc ho hl hf hk h0, waits_of_answered h hk⟩

/-! ## Fork shadows discarded (R135, R137) -/

/-- Whether a key is that of a fork shadow of a group. -/
def isShadow (g k : GKey) : Bool := decide (k.b = g.b) && k.gid == g.gid && k.sh != 0

theorem isShadow_self {g : GKey} (h : g.sh = 0) : isShadow g g = false := by simp [isShadow, h]

theorem State.shadows_eq (s : State) (g : GKey) : s.shadows g = (s.groups.filter fun p => isShadow g p.1).map (·.1) := rfl

/-- A change of the group itself leaves its shadows. -/
theorem State.shadows_updGroup (s : State) {g : GKey} (f : Group → Group) (h : g.sh = 0) :
    (s.updGroup g f).shadows g = s.shadows g := by
  rw [State.shadows_eq, State.shadows_eq]
  exact congrArg _ (Tab.filter_put_key s.groups _ (isShadow_self h))

@[simp] theorem State.shadows_bump (s : State) (c : CKey) (n k : Nat) (g : GKey) : (s.bump c n k).shadows g = s.shadows g := rfl

theorem State.shadows_filter (s : State) (g : GKey) :
    State.shadows { s with groups := s.groups.filter fun p => !(s.shadows g).contains p.1 } g = [] := by
  rw [State.shadows_eq, List.map_eq_nil_iff, List.filter_eq_nil_iff]
  intro p hp hs
  obtain ⟨hp, hn⟩ := List.mem_filter.mp hp
  have hm : p.1 ∈ s.shadows g := List.mem_map_of_mem (List.mem_filter.mpr ⟨hp, hs⟩)
  simp [hm] at hn

theorem State.group_filter_shadows (s : State) {g : GKey} (h : g.sh = 0) :
    State.group { s with groups := s.groups.filter fun p => !(s.shadows g).contains p.1 } g = s.group g := by
  have hn : (s.shadows g).contains g = false := by
    rw [Bool.eq_false_iff, ne_eq, List.contains_iff_mem]
    intro hm
    obtain ⟨p, hp, rfl⟩ := List.mem_map.mp hm
    simpa [isShadow, h] using (List.mem_filter.mp hp).2
  show (Tab.get? (s.groups.filter fun p => !(s.shadows g).contains p.1) g).getD {} = _
  rw [Tab.get?_filter_key s.groups (c := fun k => !(s.shadows g).contains k) (by rw [hn]; rfl)]
  rfl

/-- An entry of a group of which the shadows are gone: it waits for none, and none of its calls has a fork. -/
def Split.unforked (p : Split) : Split :=
  { p with
    st := if p.st = .waitFork then .running else p.st
    calls := p.calls.map fun r => { r with fork := none } }

theorem Split.waiting_unforked {p : Split} (h : p.waiting = false) : p.unforked.waiting = false := by
  by_cases hw : p.st = .waitFork
  · simp [Split.waiting, Split.unforked, hw]
  · simpa [Split.waiting, Split.unforked, hw] using h

/-- A group whose shadows are discarded. -/
def Group.unforked (n : Nat) (x : Group) : Group :=
  { x with squashed := x.squashed + n, ents := x.ents.map fun p => (p.1, p.2.unforked) }

theorem State.squash_cases (s : State) (g : GKey) :
    (s.shadows g = [] ∧ s.squash g = s) ∨
      s.squash g = State.updGroup { s with groups := s.groups.filter fun p => !(s.shadows g).contains p.1 } g
        (Group.unforked (s.shadows g).length) := by
  unfold State.squash
  cases hs : s.shadows g with
  | nil => exact .inl ⟨rfl, rfl⟩
  | cons k ks => exact .inr rfl

theorem State.group_squash (s : State) {g : GKey} (h : g.sh = 0) :
    (s.squash g).group g = s.group g ∨ ∃ n, (s.squash g).group g = (s.group g).unforked n := by
  rcases State.squash_cases s g with ⟨_, hs⟩ | hs <;> rw [hs]
  · exact .inl rfl
  · exact .inr ⟨_, by rw [State.group_updGroup_self, State.group_filter_shadows s h]⟩

theorem State.shadows_squash (s : State) {g : GKey} (h : g.sh = 0) : (s.squash g).shadows g = [] := by
  rcases State.squash_cases s g with ⟨hn, hs⟩ | hs <;> rw [hs]
  · exact hn
  · rw [State.shadows_updGroup _ _ h, State.shadows_filter]

theorem State.split_of_group_unforked {s t : State} {g : GKey} {n : Nat} (h : t.group g = (s.group g).unforked n) (i : Nat) :
    t.split g i = (s.split g i).unforked := by
  unfold State.split
  rw [h]
  exact Tab.get_map_rows (s.group g).ents (fun _ p => p.unforked) rfl

theorem State.getS_squash (s : State) {g : GKey} (h : g.sh = 0) (i n : Nat) : (s.squash g).getS g i n = s.getS g i n := by
  unfold State.getS
  rcases State.group_squash s h with hg | ⟨n, hg⟩
  · simp only [State.split, hg]
  · rw [State.split_of_group_unforked hg, hg]
    rfl

/-! ## The place of a split, under changes of registers and the end of forks (R354) -/

/-- What a return to superseded code does before the split goes to its new site keeps the place of the split, where
others wait, and what faults and counts the group has; it starts no fork. -/
structure KeepsPlace (s t : State) (g : GKey) (e : Nat) : Prop where
  entry : ((s.group g).ents.get? e).isSome = true → ((t.group g).ents.get? e).isSome = true
  stepping : (t.group g).stepping = (s.group g).stepping
  recs : (t.group g).recs = (s.group g).recs
  trapkind : (t.group g).trapkind = (s.group g).trapkind
  retired : (t.group g).retired = (s.group g).retired
  stack : (t.split g e).stack = (s.split g e).stack
  join : (t.split g e).join = (s.split g e).join
  level : (t.split g e).level = (s.split g e).level
  mask : (t.split g e).mask = (s.split g e).mask
  calls : (s.split g e).calls = [] → (t.split g e).calls = []
  others : ∀ q ∈ (t.group g).ents, q.1 ≠ e →
    ∃ p ∈ (s.group g).ents, p.1 = q.1 ∧ p.2.pc = q.2.pc ∧ (p.2.waiting = false → q.2.waiting = false)
  shadows : s.shadows g = [] → t.shadows g = []
  memory : KeepsMemory s t

namespace KeepsPlace
variable {s t u : State} {g : GKey} {e : Nat}

theorem refl (s : State) (g : GKey) (e : Nat) : KeepsPlace s s g e :=
  ⟨id, rfl, rfl, rfl, rfl, rfl, rfl, rfl, rfl, id, fun q hq _ => ⟨q, hq, rfl, rfl, id⟩, id, .refl s⟩

theorem trans (h : KeepsPlace s t g e) (k : KeepsPlace t u g e) : KeepsPlace s u g e where
  entry x := k.entry (h.entry x)
  stepping := k.stepping.trans h.stepping
  recs := k.recs.trans h.recs
  trapkind := k.trapkind.trans h.trapkind
  retired := k.retired.trans h.retired
  stack := k.stack.trans h.stack
  join := k.join.trans h.join
  level := k.level.trans h.level
  mask := k.mask.trans h.mask
  calls x := k.calls (h.calls x)
  others q hq hne := by
    obtain ⟨p, hp, hk, hpc, hw⟩ := k.others q hq hne
    obtain ⟨o, ho, hk', hpc', hw'⟩ := h.others p hp (hk ▸ hne)
    exact ⟨o, ho, hk'.trans hk, hpc'.trans hpc, fun x => hw (hw' x)⟩
  shadows x := k.shadows (h.shadows x)
  memory := h.memory.trans k.memory

theorem straight (h : KeepsPlace s t g e) {x : DWord} {l : BitVec 8} (hx : Straight s g e x l) : Straight t g e x l :=
  hx.of_same h.stack h.join h.others

/-- An effect on the state outside the group, and on the group outside its entries. -/
theorem of_ents (hents : (t.group g).ents = (s.group g).ents) (hstep : (t.group g).stepping = (s.group g).stepping)
    (hrecs : (t.group g).recs = (s.group g).recs) (htrap : (t.group g).trapkind = (s.group g).trapkind)
    (hret : (t.group g).retired = (s.group g).retired) (hsh : s.shadows g = [] → t.shadows g = []) (hm : KeepsMemory s t) :
    KeepsPlace s t g e := by
  have hsplit : t.split g e = s.split g e := by unfold State.split; rw [hents]
  exact ⟨fun x => by rwa [hents], hstep, hrecs, htrap, hret, by rw [hsplit], by rw [hsplit], by rw [hsplit], by rw [hsplit],
    fun x => by rwa [hsplit], fun q hq _ => ⟨q, hents ▸ hq, rfl, rfl, id⟩, hsh, hm⟩

theorem updGroup (s : State) {g : GKey} (e : Nat) (f : Group → Group) (h : g.sh = 0)
    (hents : (f (s.group g)).ents = (s.group g).ents) (hstep : (f (s.group g)).stepping = (s.group g).stepping)
    (hrecs : (f (s.group g)).recs = (s.group g).recs) (htrap : (f (s.group g)).trapkind = (s.group g).trapkind)
    (hret : (f (s.group g)).retired = (s.group g).retired) : KeepsPlace s (s.updGroup g f) g e := by
  rw [← State.group_updGroup_self s g f] at hents hstep hrecs htrap hret
  exact .of_ents hents hstep hrecs htrap hret (State.shadows_updGroup s f h).trans (.of_fields rfl rfl rfl rfl)

theorem updSplit (s : State) {g : GKey} (e : Nat) (f : Split → Split) (h : g.sh = 0)
    (hstack : (f (s.split g e)).stack = (s.split g e).stack) (hjoin : (f (s.split g e)).join = (s.split g e).join)
    (hlevel : (f (s.split g e)).level = (s.split g e).level) (hmask : (f (s.split g e)).mask = (s.split g e).mask)
    (hcalls : (f (s.split g e)).calls = (s.split g e).calls) : KeepsPlace s (s.updSplit g e f) g e where
  entry _ := by simp
  stepping := by simp
  recs := by simp
  trapkind := by simp
  retired := by simp
  stack := by simpa using hstack
  join := by simpa using hjoin
  level := by simpa using hlevel
  mask := by simpa using hmask
  calls x := by simpa [hcalls] using x
  others q hq hne := by
    rw [State.group_updSplit_self] at hq
    exact ⟨q, Tab.mem_put_ne hq hne, rfl, rfl, id⟩
  shadows x := (State.shadows_updGroup s _ h).trans x
  memory := .of_fields rfl rfl rfl rfl

theorem squash (s : State) {g : GKey} (e : Nat) (h : g.sh = 0) : KeepsPlace s (s.squash g) g e := by
  have hmem : KeepsMemory s (s.squash g) := by
    rcases State.squash_cases s g with ⟨_, hs⟩ | hs <;> rw [hs] <;> exact .of_fields rfl rfl rfl rfl
  have hnone := fun _ : s.shadows g = [] => State.shadows_squash s h
  rcases State.group_squash s h with hg | ⟨n, hg⟩
  · exact .of_ents (by rw [hg]) (by rw [hg]) (by rw [hg]) (by rw [hg]) (by rw [hg]) hnone hmem
  · have hsplit := State.split_of_group_unforked hg e
    refine ⟨fun x => ?_, by rw [hg]; rfl, by rw [hg]; rfl, by rw [hg]; rfl, by rw [hg]; rfl, by rw [hsplit]; rfl,
      by rw [hsplit]; rfl, by rw [hsplit]; rfl, by rw [hsplit]; rfl, fun x => ?_, fun q hq _ => ?_, hnone, hmem⟩
    · rw [hg]
      show (Tab.get? ((s.group g).ents.map fun p => (p.1, p.2.unforked)) e).isSome = true
      rw [Tab.get?_map_rows (s.group g).ents (fun _ p => p.unforked), Option.isSome_map]
      exact x
    · rw [hsplit, Split.unforked, x]
      rfl
    · rw [hg] at hq
      obtain ⟨p, hp, rfl⟩ := List.mem_map.mp hq
      exact ⟨p, hp, rfl, rfl, Split.waiting_unforked⟩

theorem setS (s : State) {g : GKey} (e d : Nat) (v : DWord) (h : g.sh = 0) : KeepsPlace s (s.setS g e d v) g e := by
  unfold State.setS
  split
  · exact .refl s g e
  · split
    · exact .updSplit s e _ h rfl rfl rfl rfl rfl
    · exact .updGroup s e _ h rfl rfl rfl rfl rfl

end KeepsPlace

/-! ## Live values moved (R353, R354) -/

/-- A live value of a scalar register. -/
def InScalar (v : LiveVal) : Prop := v.cls = 0 ∧ v.spill = false ∧ 0 < v.loc ∧ v.loc < 64

/-- The registers of a split and its group as `moveLive` clears them (DEDUCED, log entry 35). -/
def State.clearRegs (s : State) (g : GKey) (e : Nat) : State :=
  (s.updSplit g e fun p => { p with s := [] }).updGroup g fun x =>
    { x with sregs := [], vregs := [], masks := [], bregs := [], wins := [] }

/-- The values of the old site's live values, by class and HVI register. -/
def State.liveVals (s : State) (g : GKey) (e : Nat) (old : RetSite) : List ((Nat × Nat) × List Nat) :=
  old.live.map fun v => ((v.cls, v.vreg), s.liveGet g e v)

/-- One live value of the new site put at its place, if the old site has it. -/
def placeLive (g : GKey) (e : Nat) (sp : DWord) (vals : List ((Nat × Nat) × List Nat)) (s : State) (v : LiveVal) : State :=
  match vals.find? fun p => p.1 == (v.cls, v.vreg) with
  | some p => s.livePut g e v sp p.2
  | none => s

theorem State.moveLive_eq (s : State) (g : GKey) (e : Nat) (old new : RetSite) :
    s.moveLive g e old new = new.live.foldl (placeLive g e (s.getS g e 15) (s.liveVals g e old)) (s.clearRegs g e) := rfl

@[simp] theorem State.getS_clearRegs (s : State) (g : GKey) (e n : Nat) : (s.clearRegs g e).getS g e n = 0 := by
  unfold State.clearRegs State.getS
  split
  · rfl
  · split
    · simp [State.split]
    · simp

theorem KeepsPlace.clearRegs (s : State) {g : GKey} (e : Nat) (h : g.sh = 0) : KeepsPlace s (s.clearRegs g e) g e :=
  (KeepsPlace.updSplit s e (fun p => { p with s := [] }) h rfl rfl rfl rfl rfl).trans
    (.updGroup _ e _ h rfl rfl rfl rfl rfl)

section
variable {g : GKey} {e : Nat} {sp : DWord} {vals : List ((Nat × Nat) × List Nat)}

/-- A live value of a scalar register is put by a write of the register. -/
theorem placeLive_of_find {s : State} {v : LiveVal} {x : List Nat} (hv : InScalar v)
    (hf : vals.find? (fun p => p.1 == (0, v.vreg)) = some ((0, v.vreg), x)) :
    placeLive g e sp vals s v = s.setS g e v.loc.toNat (BitVec.ofNat 64 (x.getD 0 0)) := by
  obtain ⟨hcls, hspill, _, _⟩ := hv
  unfold placeLive State.livePut
  rw [hcls, hspill, hf]
  rfl

theorem placeLive_cases (s : State) {v : LiveVal} (hv : InScalar v) :
    placeLive g e sp vals s v = s ∨ ∃ w, placeLive g e sp vals s v = s.setS g e v.loc.toNat w := by
  obtain ⟨hcls, hspill, _, _⟩ := hv
  unfold placeLive State.livePut
  rw [hcls, hspill]
  cases vals.find? fun p => p.1 == (0, v.vreg) with
  | none => exact .inl rfl
  | some p => exact .inr ⟨_, rfl⟩

theorem KeepsPlace.foldl_placeLive (h : g.sh = 0) {vs : List LiveVal} (hv : ∀ v ∈ vs, InScalar v) (s : State) :
    KeepsPlace s (vs.foldl (placeLive g e sp vals) s) g e := by
  induction vs generalizing s with
  | nil => exact .refl s g e
  | cons v vs ih =>
    have hstep : KeepsPlace s (placeLive g e sp vals s v) g e := by
      rcases placeLive_cases s (hv v (List.mem_cons_self ..)) with hp | ⟨w, hp⟩ <;> rw [hp]
      · exact .refl s g e
      · exact .setS s e _ w h
    exact hstep.trans (ih (fun u hu => hv u (List.mem_cons_of_mem _ hu)) _)

/-- A register that no live value is in stays. -/
theorem State.getS_foldl_placeLive_of_ne {vs : List LiveVal} (hv : ∀ v ∈ vs, InScalar v) (s : State) {n : Nat}
    (hn : ∀ v ∈ vs, v.loc.toNat ≠ n) : (vs.foldl (placeLive g e sp vals) s).getS g e n = s.getS g e n := by
  induction vs generalizing s with
  | nil => rfl
  | cons v vs ih =>
    have hne : n ≠ v.loc.toNat := (hn v (List.mem_cons_self ..)).symm
    have hstep : (placeLive g e sp vals s v).getS g e n = s.getS g e n := by
      rcases placeLive_cases s (hv v (List.mem_cons_self ..)) with hp | ⟨w, hp⟩ <;> rw [hp]
      rw [State.getS_setS, if_neg fun hh => hne hh.1]
    rw [List.foldl_cons, ih (fun u hu => hv u (List.mem_cons_of_mem _ hu)) _ (fun u hu => hn u (List.mem_cons_of_mem _ hu)),
      hstep]

/-- A register that a live value is in holds it, as no other live value is in it. -/
theorem State.getS_foldl_placeLive_of_mem {vs : List LiveVal} (hv : ∀ v ∈ vs, InScalar v)
    (hd : vs.Pairwise fun u v => u.loc ≠ v.loc) (s : State) {v : LiveVal} {x : List Nat} (hm : v ∈ vs)
    (hf : vals.find? (fun p => p.1 == (0, v.vreg)) = some ((0, v.vreg), x)) :
    (vs.foldl (placeLive g e sp vals) s).getS g e v.loc.toNat = BitVec.ofNat 64 (x.getD 0 0) := by
  induction vs generalizing s with
  | nil => cases hm
  | cons u vs ih =>
    obtain ⟨hu, hd⟩ := List.pairwise_cons.mp hd
    have hvs : ∀ w ∈ vs, InScalar w := fun w hw => hv w (List.mem_cons_of_mem _ hw)
    rcases List.mem_cons.mp hm with rfl | hm
    · obtain ⟨_, _, hpos, _⟩ := hv v (List.mem_cons_self ..)
      have hothers : ∀ w ∈ vs, w.loc.toNat ≠ v.loc.toNat := by
        intro w hw
        obtain ⟨_, _, hwpos, _⟩ := hvs w hw
        have := hu w hw
        omega
      rw [List.foldl_cons, State.getS_foldl_placeLive_of_ne hvs _ hothers,
        placeLive_of_find (hv v (List.mem_cons_self ..)) hf, State.getS_setS, if_pos ⟨rfl, by omega⟩]
    · rw [List.foldl_cons]
      exact ih hvs hd _ hm

theorem State.liveGet_of_inScalar (s : State) (g : GKey) (e : Nat) {v : LiveVal} (hv : InScalar v) :
    s.liveGet g e v = [(s.getS g e v.loc.toNat).toNat] := by
  obtain ⟨hcls, hspill, _, _⟩ := hv
  simp [State.liveGet, hcls, hspill]

/-- A search by HVI register finds the one live value that has it. -/
theorem find?_of_vreg_ne {vs : List LiveVal} (hd : vs.Pairwise fun u v => u.vreg ≠ v.vreg) {u : LiveVal} (hu : u ∈ vs)
    {c : LiveVal → Bool} (hc : ∀ v, c v = true ↔ v.vreg = u.vreg) : vs.find? c = some u := by
  induction vs with
  | nil => cases hu
  | cons v vs ih =>
    obtain ⟨hv, hd⟩ := List.pairwise_cons.mp hd
    rcases List.mem_cons.mp hu with rfl | hu
    · rw [List.find?_cons_of_pos ((hc u).mpr rfl)]
    · rw [List.find?_cons_of_neg fun h => hv u hu ((hc v).mp h), ih hd hu]

/-- The value of a live value of the old site, of which no other has the HVI register. -/
theorem State.find?_liveVals (s : State) (g : GKey) (e : Nat) {old : RetSite} (hv : ∀ v ∈ old.live, InScalar v)
    (hd : old.live.Pairwise fun u v => u.vreg ≠ v.vreg) {u : LiveVal} (hu : u ∈ old.live) :
    (s.liveVals g e old).find? (fun p => p.1 == (0, u.vreg)) = some ((0, u.vreg), [(s.getS g e u.loc.toNat).toNat]) := by
  have hval : ∀ v ∈ old.live, ((v.cls, v.vreg), s.liveGet g e v) = ((0, v.vreg), [(s.getS g e v.loc.toNat).toNat]) :=
    fun v h => by rw [State.liveGet_of_inScalar s g e (hv v h), (hv v h).1]
  unfold State.liveVals
  rw [List.map_congr_left hval, List.find?_map]
  exact congrArg _ (find?_of_vreg_ne hd hu fun v => by simp)

end

section
variable {s : State} {g : GKey} {e : Nat} {o n : RetSite}

/-- Live values of scalar registers moved keep the place of the split. -/
theorem KeepsPlace.moveLive (s : State) {g : GKey} (e : Nat) (o : RetSite) {n : RetSite} (h : g.sh = 0)
    (hn : ∀ v ∈ n.live, InScalar v) : KeepsPlace s (s.moveLive g e o n) g e := by
  rw [State.moveLive_eq]
  exact (KeepsPlace.clearRegs s e h).trans (.foldl_placeLive h hn _)

/-- The register of a live value of both sites. -/
theorem State.getS_moveLive_of_shared (ho : ∀ v ∈ o.live, InScalar v) (hn : ∀ v ∈ n.live, InScalar v)
    (hod : o.live.Pairwise fun u v => u.vreg ≠ v.vreg) (hnd : n.live.Pairwise fun u v => u.loc ≠ v.loc)
    {u v : LiveVal} (hu : u ∈ o.live) (hv : v ∈ n.live) (huv : u.vreg = v.vreg) :
    (s.moveLive g e o n).getS g e v.loc.toNat = s.getS g e u.loc.toNat := by
  have hf := State.find?_liveVals s g e ho hod hu
  rw [huv] at hf
  rw [State.moveLive_eq, State.getS_foldl_placeLive_of_mem hn hnd _ hv hf]
  simp

/-- A register that no live value of the new site is in (DEDUCED, log entry 35). -/
theorem State.getS_moveLive_of_unplaced (hn : ∀ v ∈ n.live, InScalar v) {r : Nat} (hr : ∀ v ∈ n.live, v.loc.toNat ≠ r) :
    (s.moveLive g e o n).getS g e r = 0 := by
  rw [State.moveLive_eq, State.getS_foldl_placeLive_of_ne hn _ hr, State.getS_clearRegs]

/-! ## ret to superseded code (R354) -/

/-- The state of a return to superseded code, before the split goes to the site in the current code. -/
def State.resited (s : State) (g : GKey) (e : Nat) (o n : RetSite) : State := (s.squash g).moveLive g e o n

/-- A ret to a return site of superseded code goes to the site of its id in the current code. -/
theorem exec_ret_stale (h : Issues s g e) (hp : (s.split g e).pendingRc = false) (ha : (s.getS g e 1).toNat % 4 = 0)
    (hst : s.staleSite g.b.r.c (s.getS g e 1).toNat = some (o, n)) (hc : ((s.resited g e o n).split g e).calls = [])
    (hs : ((s.resited g e o n).group g).stepping = (s.group g).stepping)
    (hx : Straight (s.resited g e o n) g e (BitVec.ofNat 64 n.addr) (((s.resited g e o n).split g e).level - 1)) :
    exec .ret s = .next (moved ((s.resited g e o n).shallower g e) g e (BitVec.ofNat 64 n.addr)) := by
  refine exec_ret_of_goto h (exec_ret s) ?_ hs hx
  unfold State.resited at hc
  simp only [hp, ha, h.noFork, hst, hc]
  rfl

theorem State.shadows_moved_shallower (s : State) {g : GKey} (e : Nat) (x : DWord) (h : g.sh = 0) :
    (moved (s.shallower g e) g e x).shadows g = s.shadows g :=
  calc (moved (s.shallower g e) g e x).shadows g
    _ = (s.shallower g e).shadows g := by rw [moved, State.shadows_bump, State.shadows_updGroup _ _ h]
    _ = s.shadows g := State.shadows_updGroup s _ h

end

theorem returnToOldCode : Says.ReturnToOldCode := by
  intro s g e o n h hp ha hc hst hv hod hnd hx
  have ho : ∀ v ∈ o.live, InScalar v := fun v hm => hv v (List.mem_append_left _ hm)
  have hn : ∀ v ∈ n.live, InScalar v := fun v hm => hv v (List.mem_append_right _ hm)
  have hk : KeepsPlace s (s.resited g e o n) g e := (KeepsPlace.squash s e h.home).trans (.moveLive _ e o h.home hn)
  have hsh : (s.resited g e o n).shadows g = [] := (KeepsPlace.moveLive _ e o h.home hn).shadows (s.shadows_squash h.home)
  have hmoved := State.moved_shallower_split (s.resited g e o n) g e (BitVec.ofNat 64 n.addr)
  obtain ⟨es, q, hgroup⟩ := State.group_moved_shallower (s.resited g e o n) g e (BitVec.ofNat 64 n.addr)
  refine ⟨_, exec_ret_stale h hp ha hst (hk.calls hc) hk.stepping (by rw [hk.level]; exact hk.straight hx),
    ?_, ?_, ?_, ?_, fun u hu v hv huv => ?_, fun r _ hr => ?_, ?_, ?_, ?_, ?_⟩
  · rw [hmoved, if_pos rfl]
  · rw [hmoved, if_pos rfl, ← hk.level]
  · rw [hmoved, if_pos rfl, ← hk.mask]
  · rw [State.shadows_moved_shallower _ e _ h.home, hsh]
  · rw [State.moved_shallower_getS, State.resited, State.getS_moveLive_of_shared ho hn hod hnd hu hv huv,
      State.getS_squash s h.home]
  · rw [State.moved_shallower_getS, State.resited, State.getS_moveLive_of_unplaced hn hr]
  · rw [hgroup, ← hk.recs]
  · rw [hgroup, ← hk.trapkind]
  · rw [hgroup, ← hk.retired]
  · exact hk.memory.trans (KeepsMemory.moved_shallower ..)

/-! ## The obligation -/

theorem branchTarget : Says.BranchTarget := fun _ _ _ _ x hb h hx => ⟨exec_of_branch hb h hx, Keeps.moved x h⟩

theorem callAndReturn : Says.CallAndReturn := by
  intro s g e h
  refine ⟨fun o hx => exec_jal_link h hx, fun d a i hw hd ha hx => exec_jalr_link h hw hd ha hx,
    fun a i hw ha hx => exec_jalr_plain h hw ha hx, fun hp ha hc hg hx => exec_ret_plain h hp ha hg (fun r hr => ?_) hx⟩
  rw [hc] at hr
  cases hr

theorem jumpFaults : Says.JumpFaults := fun _ _ _ h =>
  ⟨fun _ _ _ hw ha => exec_jalr_misaligned h hw ha, exec_ret_pending h, exec_ret_misaligned h⟩

/-- Settles O2: the branches and jumps by the table `Branch`; the faults of jalr and ret in the order of their checks; ret
by the call record that it meets, and a return to superseded code by the live values of its site. -/
theorem branchesAndJumps : Obligations.BranchesAndJumps := by
  unfold Obligations.BranchesAndJumps
  exact ⟨branchTarget, callAndReturn, jumpFaults, returnOfCall, returnToOldCode⟩

end Sys2Proof.Machine
end

section
/-! How a matrix word ends (R238, R262): each outcome of its effect as one next state, in a sequencer outside ordered mode
with nothing in execution; and what the interlocks of such a sequencer answer. -/

namespace Sys2Proof.Machine
open Sys2Proof.Terms

/-! ## A sequencer with nothing under way (R238, R256) -/

theorem Seq.writing_of_alone {q : Seq} (h : q.exec = []) : q.writing = false := by simp [Seq.writing, h]
theorem Seq.fillFault_of_noReplays {q : Seq} (h : q.replays = []) (js : List Nat) : q.fillFault js = none := by
  simp [Seq.fillFault, h]
theorem Seq.busyAccs_of_idle {q : Seq} (he : q.exec = []) (hr : q.replays = []) (js : List Nat) : q.busyAccs js = false := by
  simp [Seq.busyAccs, he, hr]

section
variable {s : State} {b : BKey}

theorem State.awaitAccs_of_idle (he : (s.seq b).exec = []) (hr : (s.seq b).replays = []) (js : List Nat) (k : MEnds) :
    s.awaitAccs b js k = k := by
  simp [State.awaitAccs, Seq.fillFault_of_noReplays hr, Seq.busyAccs_of_idle he hr]

theorem State.seqGo_of_alone (h : (s.seq b).exec = []) (pc : DWord) : s.seqGo b pc = s.seqRetire b pc := by
  simp [State.seqGo, h]

/-- Two changes of a sequencer, one after the other. -/
@[simp] theorem State.updSeq_updSeq (s : State) (b : BKey) (f h : Seq → Seq) :
    (s.updSeq b f).updSeq b h = s.updSeq b fun q => h (f q) := by
  simp [State.updSeq]

/-- A change of a sequencer depends on what it makes of the present one. -/
theorem State.updSeq_congr {f h : Seq → Seq} (e : f (s.seq b) = h (s.seq b)) : s.updSeq b f = s.updSeq b h := by
  simp only [State.updSeq, State.updBlock]
  exact congrArg (fun q => { s with blocks := s.blocks.put b { s.block b with seq := some q } }) e

@[simp] theorem State.seq_seqRetire (s : State) (b : BKey) (pc : DWord) : (s.seqRetire b pc).seq b =
    { s.seq b with
      st := .running, pc := pc, retired := (s.seq b).retired + 1
      quant := { (s.seq b).quant with count := (s.seq b).quant.count + 1 } } := by
  simp [State.seqRetire]
@[simp] theorem State.core_seqRetire (s : State) (b : BKey) (pc : DWord) (k : Nat) :
    (s.seqRetire b pc).core k = s.core k := rfl

/-! ## The engine (R236, R239) -/

theorem State.claimEngine_of_held (h : (s.seq b).held = true) : s.claimEngine b = s := by simp [State.claimEngine, h]

theorem State.withEngine_of_held (h : (s.seq b).held = true) (k : State → MEnds) : s.withEngine b k = k s := by
  simp [State.withEngine, State.claimEngine_of_held h, h]

end

/-! ## The outcomes of a word -/

section
variable {s t : State} {b : BKey} {i : Instr} {f : State → BKey → MEnds}

/-- A word whose checks pass, answered by its effect. -/
theorem matOp_ready (h : SeqReady s b i) : matOp i f s = .next (State.seqFinish b (f s b) s) := by
  have hb : s.seqActor = b := by simp [State.seqActor, h.turn]
  simp [matOp, hb, h.plain, h.alone, h.formed, h.regs]

theorem matOp_next (h : SeqReady s b i) (hf : f s b = .next t) (he : (t.seq b).exec = []) :
    matOp i f s = .next (t.seqRetire b ((t.seq b).pc + 8)) := by
  rw [matOp_ready h, hf, State.seqFinish, State.seqGo_of_alone he]

theorem matOp_park {p : SPark} (h : SeqReady s b i) (hf : f s b = .park t p) :
    matOp i f s = .next (t.updSeq b fun y => { y with st := .parked p }) := by
  rw [matOp_ready h, hf]; rfl

theorem matOp_operand (h : SeqReady s b i) (hf : f s b = .operand) : matOp i f s = .next (s.operandFault b) := by
  rw [matOp_ready h, hf]; rfl

/-- A fault outside ordered mode leaves the sequencer at its word, which is the cause (R238). -/
theorem State.seqRaise_word (hp : s.seqOrdered b = false) (x : FaultInfo) :
    s.seqRaise b (s.seq b).pc x .word = (s.updSeq b fun y => { y with cause := .word }).seqFault b x := by
  have ho : ∀ q, (s.updSeq b q).seqOrdered b = false := fun _ => hp
  have hq : s.updSeq b (fun y => { y with pc := (s.seq b).pc, cause := .word }) =
      s.updSeq b fun y => { y with cause := .word } := State.updSeq_congr rfl
  simp [State.seqRaise, ho, hq]

theorem matOp_fault {k : Nat} (h : SeqReady s b i) (hf : f s b = .fault s k) :
    matOp i f s = .next ((s.updSeq b fun y => { y with cause := .word }).seqFault b { kind := k }) := by
  rw [matOp_ready h, hf, State.seqFinish, State.seqRaise_word h.plain]

theorem matOp_data {x : FaultInfo} (h : SeqReady s b i) (hf : f s b = .data s x) :
    matOp i f s = .next ((s.updSeq b fun y => { y with cause := .word }).seqFault b x) := by
  rw [matOp_ready h, hf, State.seqFinish, State.seqRaise_word h.plain]

/-- A sequencer whose word enters execution for `busy` cycles of issue. -/
def Seq.enters (w : ExecWord) (free : Nat) (q : Seq) : Seq :=
  { q with st := .running, pc := q.pc + 8, exec := q.exec ++ [{ w with pc := q.pc }], busy := free }

theorem matOp_exec {w : ExecWord} {busy : Nat} (h : SeqReady s b i) (hf : f s b = .exec t w busy) :
    matOp i f s = .next (t.updSeq b (Seq.enters w (t.cycle + busy))) := by
  rw [matOp_ready h, hf]; rfl

end
end Sys2Proof.Machine
end

section
/-! The engine claimed and given back, accumulators cleared, and the rings of the sequencer (R229, R236, R239, R249, R250). -/

namespace Sys2Proof.Machine
open Sys2Proof.Terms

/-! ## Stores performed change of a block only its banks -/

/-- The blocks of two states differ in their banks alone. -/
def BanksOnly (s t : State) : Prop := ∀ b, ∃ k, t.block b = { s.block b with banks := k }

namespace BanksOnly

theorem refl (s : State) : BanksOnly s s := fun b => ⟨(s.block b).banks, rfl⟩

theorem trans {s t u : State} (h : BanksOnly s t) (k : BanksOnly t u) : BanksOnly s u := fun b => by
  obtain ⟨x, hx⟩ := h b
  obtain ⟨y, hy⟩ := k b
  exact ⟨y, by rw [hy, hx]⟩

theorem foldl {α : Type} {f : State → α → State} (h : ∀ s x, BanksOnly s (f s x)) (l : List α) (s : State) :
    BanksOnly s (l.foldl f s) := by
  induction l generalizing s with
  | nil => exact refl s
  | cons x l ih => exact (h s x).trans (ih _)

theorem updBlock (s : State) (b : BKey) (f : List Bank → List Bank) :
    BanksOnly s (s.updBlock b fun x => { x with banks := f x.banks }) := fun c => by
  by_cases h : b = c
  · subst h; exact ⟨f (s.block b).banks, by simp⟩
  · exact ⟨(s.block c).banks, by simp [State.block_updBlock, h]⟩

theorem poke (s : State) (l : Loc) (v : Byte) : BanksOnly s (s.poke l v) := by
  cases l with
  | mem a => exact refl s
  | scr b a => exact updBlock s b _

theorem clean (s : State) (cells : List (Loc × Byte)) : BanksOnly s (s.clean cells) := by
  refine foldl (fun s w => ?_) cells s
  split
  · split
    · exact refl s
    · exact updBlock s _ _
  · exact refl s

theorem perform (s : State) (cells : List (Loc × Byte)) : BanksOnly s (s.perform cells) :=
  (clean s cells).trans (foldl (fun s w => poke s w.1 w.2) cells _)

theorem flush (s : State) (sel : Pend → Bool) : BanksOnly s (s.flush sel) := fun b =>
  foldl (f := fun s (p : Pend) => s.perform p.cells) (fun s p => perform s p.cells) (takeStores sel s.pend).1 s b

theorem seq {s t : State} (h : BanksOnly s t) (b : BKey) : t.seq b = s.seq b := by
  obtain ⟨k, hk⟩ := h b
  simp [State.seq, hk]

theorem ring {s t : State} (h : BanksOnly s t) (b : BKey) (n : Nat) : t.ring b n = s.ring b n := by
  obtain ⟨k, hk⟩ := h b
  simp [State.ring, hk]

end BanksOnly

/-! ## Rings (R229) -/

@[simp] theorem State.ring_updRing (s : State) (b : BKey) (n : Nat) (f : Ring → Ring) :
    (s.updRing b n f).ring b n = f (s.ring b n) := by simp [State.ring, State.updRing]
@[simp] theorem State.seq_updRing (s : State) (b : BKey) (n : Nat) (f : Ring → Ring) : (s.updRing b n f).seq b = s.seq b := by
  simp [State.seq, State.updRing]
theorem State.updRing_congr {s : State} {b : BKey} {n : Nat} {f h : Ring → Ring} (e : f (s.ring b n) = h (s.ring b n)) :
    s.updRing b n f = s.updRing b n h := by
  simp only [State.updRing, State.updBlock]
  exact congrArg (fun r => { s with blocks := s.blocks.put b { s.block b with rings := (s.block b).rings.put n r } }) e

/-! ## The engine (R236, R239) -/

/-- The words in execution stay when the engine goes to the oldest waiter. -/
theorem State.exec_grantEngine (s : State) (k : Nat) (b : BKey) : ((s.grantEngine k).seq b).exec = (s.seq b).exec := by
  unfold State.grantEngine
  split
  · next c r _ =>
    by_cases h : c = b
    · subst h; simp
    · simp [State.seq, State.updSeq, State.block_updBlock, h, State.block_updCore]
  · rfl

theorem State.exec_freeEngine (s : State) (b : BKey) : ((s.freeEngine b).seq b).exec = (s.seq b).exec := by
  unfold State.freeEngine
  simp only []
  split
  · simp [State.exec_grantEngine]
  · rfl

/-- The claim of a free engine for which nobody waits. -/
theorem State.claimEngine_of_free {s : State} {b : BKey} (hh : (s.seq b).held = false)
    (hq : (s.core (s.block b).seqCore).engQ = []) (he : (s.core (s.block b).seqCore).eng = none) :
    s.claimEngine b = (s.updCore (s.block b).seqCore fun x => { x with eng := some b }).updSeq b fun q =>
      { q with held := true, heldSince := s.cycle, tile := q.relatch, relatch := none, reclaims := false } := by
  simp [State.claimEngine, hh, hq, he]

/-- The claim of a held engine for which nobody waits. -/
theorem State.claimEngine_of_taken {s : State} {b c : BKey} (hh : (s.seq b).held = false)
    (hq : (s.core (s.block b).seqCore).engQ = []) (he : (s.core (s.block b).seqCore).eng = some c) :
    s.claimEngine b = s.updCore (s.block b).seqCore fun x => { x with engQ := x.engQ ++ [b] } := by
  simp [State.claimEngine, hh, hq, he]

/-! ## The words -/

theorem exec_macq (x : MArgs) (s : State) : exec (.macq x) s = execMacq x s := rfl
theorem exec_mrel (x : MArgs) (s : State) : exec (.mrel x) s = execMrel x s := rfl
theorem exec_mzero (x : MArgs) (s : State) : exec (.mzero x) s = execMzero x s := rfl
theorem exec_mgive (x : MArgs) (s : State) : exec (.mgive x) s = execMgive x s := rfl
theorem exec_mtake (x : MArgs) (s : State) : exec (.mtake x) s = execMtake x s := rfl

section
variable {s : State} {b : BKey} {x : MArgs}

theorem exec_macq_of_held (h : SeqReady s b (.macq x)) (hh : (s.seq b).held = true) :
    exec (.macq x) s = .next (s.seqRetire b ((s.seq b).pc + 8)) := by
  rw [exec_macq]
  exact matOp_next h (State.withEngine_of_held hh .next) h.alone

theorem exec_macq_of_free (h : SeqReady s b (.macq x)) (hh : (s.seq b).held = false)
    (hq : (s.core (s.block b).seqCore).engQ = []) (he : (s.core (s.block b).seqCore).eng = none) :
    exec (.macq x) s = .next ((s.claimEngine b).seqRetire b ((s.seq b).pc + 8)) := by
  have hc := State.claimEngine_of_free hh hq he
  have hf : s.withEngine b .next = .next (s.claimEngine b) := by simp [State.withEngine, hc]
  rw [exec_macq]
  refine (matOp_next h hf ?_).trans ?_
  · simp [hc, h.alone]
  · simp [hc]

theorem exec_macq_of_taken {c : BKey} (h : SeqReady s b (.macq x)) (hh : (s.seq b).held = false)
    (hq : (s.core (s.block b).seqCore).engQ = []) (he : (s.core (s.block b).seqCore).eng = some c) :
    exec (.macq x) s = .next ((s.updCore (s.block b).seqCore fun y => { y with engQ := y.engQ ++ [b] }).updSeq b
      fun y => { y with st := .parked .engine }) := by
  have hf : s.withEngine b .next = .park (s.claimEngine b) .engine := by
    simp [State.withEngine, State.claimEngine_of_taken hh hq he, hh]
  rw [exec_macq, ← State.claimEngine_of_taken hh hq he]
  exact matOp_park h hf

theorem exec_mrel_of_unheld (h : SeqReady s b (.mrel x)) (hh : (s.seq b).held = false) :
    exec (.mrel x) s = .next (s.seqRetire b ((s.seq b).pc + 8)) := by
  rw [exec_mrel]
  exact matOp_next h (by simp [hh]) h.alone

theorem exec_mrel_of_held (h : SeqReady s b (.mrel x)) (hh : (s.seq b).held = true) (hr : (s.seq b).replays = []) :
    exec (.mrel x) s = .next ((s.freeEngine b).seqRetire b (((s.freeEngine b).seq b).pc + 8)) := by
  rw [exec_mrel]
  refine matOp_next h ?_ ((State.exec_freeEngine s b).trans h.alone)
  simp [hh, Seq.fillFault_of_noReplays hr, h.alone, hr]

theorem exec_mzero_of_held (h : SeqReady s b (.mzero x)) (hh : (s.seq b).held = true) (hr : (s.seq b).replays = []) :
    exec (.mzero x) s = .next ((s.updSeq b fun q =>
      { q with accs := q.accs.put x.a.toNat { isInt := x.ty == .i32 } }).seqRetire b ((s.seq b).pc + 8)) := by
  have hf := (State.withEngine_of_held hh fun s => s.awaitAccs b [x.a.toNat] <|
      .next (s.updSeq b fun q => { q with accs := q.accs.put x.a.toNat { isInt := x.ty == .i32 } })).trans
    (State.awaitAccs_of_idle h.alone hr _ _)
  rw [exec_mzero]
  refine (matOp_next h hf ?_).trans ?_
  · simp [h.alone]
  · simp

/-- What a mzero leaves: its accumulator cleared, and the others as they were. -/
theorem mzero_clears (h : SeqReady s b (.mzero x)) (hh : (s.seq b).held = true) (hr : (s.seq b).replays = []) :
    ∃ t, exec (.mzero x) s = .next t ∧
      (t.seq b).pc = (s.seq b).pc + 8 ∧ ((t.seq b).accs.get {} x.a.toNat).isInt = decide (x.ty = .i32) ∧
      (∀ n, ((t.seq b).accs.get {} x.a.toNat).elems.get 0 n = 0 ∧
        ((t.seq b).accs.get {} x.a.toNat).scales.get oneF n = 0x3F800000) ∧
      ∀ n, n ≠ x.a.toNat → (t.seq b).accs.get {} n = (s.seq b).accs.get {} n := by
  refine ⟨_, exec_mzero_of_held h hh hr, by simp, ?_, fun n => ?_, fun n hn => ?_⟩
  · rw [State.seq_seqRetire, State.seq_updSeq_self, Tab.get_put_self]
    rfl
  · simp [oneF]
  · simp [Tab.get_put_ne _ _ _ hn.symm]

end

/-! ## The rings (R229, R250) -/

/-- The ring that a mgive or mtake names, its depth fixed; and the state with that ring in place. -/
def State.ringOf (s : State) (b : BKey) (x : MArgs) : Ring := (s.ring b x.a.toNat).fix (x.imm.toNat % 8 + 1)
def State.fixRing (s : State) (b : BKey) (x : MArgs) : State := s.updRing b x.a.toNat fun y => y.fix (x.imm.toNat % 8 + 1)

section
variable {s : State} {b : BKey} {x : MArgs}

@[simp] theorem State.ring_fixRing (s : State) (b : BKey) (x : MArgs) : (s.fixRing b x).ring b x.a.toNat = s.ringOf b x := by
  simp [State.fixRing, State.ringOf]
@[simp] theorem State.seq_fixRing (s : State) (b : BKey) (x : MArgs) : (s.fixRing b x).seq b = s.seq b := by
  simp [State.fixRing]
@[simp] theorem State.ring_flushSeq (s : State) (b : BKey) (n : Nat) : (s.flushSeq b).ring b n = s.ring b n :=
  (BanksOnly.flush s _).ring b n
@[simp] theorem State.seq_flushSeq (s : State) (b : BKey) : (s.flushSeq b).seq b = s.seq b := (BanksOnly.flush s _).seq b

/-- The state that the effects of mgive and mtake go on from. -/
theorem State.fixRing_eq (s : State) (b : BKey) (x : MArgs) :
    (s.updRing b x.a.toNat fun y => y.fix (x.immF 0 3 + 1)) = s.fixRing b x := by
  simp [State.fixRing, MArgs.immF]

theorem exec_mgive_of_room (h : SeqReady s b (.mgive x)) (hg : (s.ringOf b x).givers = [])
    (hc : (s.ringOf b x).canGive = true) : exec (.mgive x) s =
      .next ((((s.fixRing b x).flushSeq b).updRing b x.a.toNat Ring.give).seqRetire b ((s.seq b).pc + 8)) := by
  rw [exec_mgive]
  refine (matOp_next (t := ((s.fixRing b x).flushSeq b).updRing b x.a.toNat Ring.give) h ?_ ?_).trans ?_
  · simp [Seq.writing_of_alone h.alone, h.plain, State.fixRing_eq, hg, hc]
  · simp [h.alone]
  · simp

theorem exec_mgive_of_noRoom (h : SeqReady s b (.mgive x))
    (hg : (s.ringOf b x).givers ≠ [] ∨ (s.ringOf b x).canGive = false) : exec (.mgive x) s =
      .next (((s.fixRing b x).updRing b x.a.toNat fun y => { y with givers := y.givers ++ [.seq] }).updSeq b
        fun y => { y with st := .parked (.ring true x.a.toNat) }) := by
  rw [exec_mgive]
  refine matOp_park h ?_
  have hw : ((s.ringOf b x).givers.isEmpty && (s.ringOf b x).canGive) = false := by
    rcases hg with hg | hg
    · simp [hg]
    · simp [hg]
  simp [Seq.writing_of_alone h.alone, h.plain, State.fixRing_eq, hw]

theorem exec_mtake_of_full (h : SeqReady s b (.mtake x)) (ht : (s.ringOf b x).takers = [])
    (hc : (s.ringOf b x).canTake = true) : exec (.mtake x) s =
      .next (((s.fixRing b x).updRing b x.a.toNat Ring.take).seqRetire b ((s.seq b).pc + 8)) := by
  rw [exec_mtake]
  refine (matOp_next (t := (s.fixRing b x).updRing b x.a.toNat Ring.take) h ?_ ?_).trans ?_
  · simp [h.plain, State.fixRing_eq, ht, hc]
  · simp [h.alone]
  · simp

theorem exec_mtake_of_notFull (h : SeqReady s b (.mtake x))
    (ht : (s.ringOf b x).takers ≠ [] ∨ (s.ringOf b x).canTake = false) : exec (.mtake x) s =
      .next (((s.fixRing b x).updRing b x.a.toNat fun y => { y with takers := y.takers ++ [.seq] }).updSeq b
        fun y => { y with st := .parked (.ring false x.a.toNat) }) := by
  rw [exec_mtake]
  refine matOp_park h ?_
  have hw : ((s.ringOf b x).takers.isEmpty && (s.ringOf b x).canTake) = false := by
    rcases ht with ht | ht
    · simp [ht]
    · simp [ht]
  simp [h.plain, State.fixRing_eq, hw]

/-- A give and a take written out, by the depth of the ring at hand. -/
theorem State.updRing_give {r : Ring} {n : Nat} (h : s.ring b n = r) : s.updRing b n Ring.give = s.updRing b n fun y =>
    { y with full := y.full ||| BitVec.ofNat 8 (2 ^ y.gi), gi := (y.gi + 1) % (r.depth.getD 1) } :=
  State.updRing_congr (by rw [h]; rfl)
theorem State.updRing_take {r : Ring} {n : Nat} (h : s.ring b n = r) : s.updRing b n Ring.take = s.updRing b n fun y =>
    { y with full := y.full &&& ~~~(BitVec.ofNat 8 (2 ^ y.ti)), ti := (y.ti + 1) % (r.depth.getD 1) } :=
  State.updRing_congr (by rw [h]; rfl)

theorem Ring.canGive_eq_true {r : Ring} : r.canGive = true ↔ r.full.getLsbD r.gi = false := by simp [Ring.canGive]
theorem Ring.canGive_eq_false {r : Ring} : r.canGive = false ↔ r.full.getLsbD r.gi = true := by simp [Ring.canGive]

end

/-- Settles O38, by the outcome of each word in a sequencer with nothing in execution. -/
theorem matrixEngine : Obligations.MatrixEngine := by
  unfold Obligations.MatrixEngine
  intro s b x
  refine ⟨fun h => ⟨exec_macq_of_held h, fun hh hq he => ⟨_, exec_macq_of_free h hh hq he, ?_⟩,
      fun _ hh hq he => exec_macq_of_taken h hh hq he⟩,
    fun h => ⟨exec_mrel_of_unheld h, exec_mrel_of_held h⟩, mzero_clears,
    fun h => ⟨fun hg hf => ?_, fun hg => ?_⟩, fun h => ⟨fun ht hf => ?_, fun ht => ?_⟩⟩
  · simp [State.claimEngine_of_free hh hq he]
  · rw [exec_mgive_of_room h hg (Ring.canGive_eq_true.mpr hf), State.updRing_give (r := s.ringOf b x) (by simp)]
    rfl
  · exact exec_mgive_of_noRoom h (hg.imp_right Ring.canGive_eq_false.mpr)
  · rw [exec_mtake_of_full h ht hf, State.updRing_take (State.ring_fixRing s b x)]
    rfl
  · exact exec_mtake_of_notFull h ht

end Sys2Proof.Machine
end

section
/-! Tables as the matrix engine builds them: rows put, or listed, over ranges of keys. -/

namespace Sys2Proof

section
variable {κ α β : Type} [DecidableEq κ]

/-- A table of one row for each key of a list. -/
theorem Tab.get_map_keys (l : List κ) (f : κ → α) (d : α) (k : κ) :
    Tab.get (l.map fun n => (n, f n)) d k = if k ∈ l then f k else d := by
  induction l with
  | nil => rfl
  | cons n l ih =>
    by_cases h : n = k
    · simp [Tab.get, Tab.get?, h]
    · simpa [Tab.get, Tab.get?, h, Ne.symm h] using ih

/-- Rows put one after the other, of which those at a key agree. -/
theorem Tab.get_foldl_put (l : List β) (key : β → κ) (val : β → α) (t : Tab κ α) (d : α) {k : κ} {v : α}
    (hv : ∀ y ∈ l, key y = k → val y = v) (hk : (∃ y ∈ l, key y = k) ∨ t.get d k = v) :
    (l.foldl (fun m y => m.put (key y) (val y)) t).get d k = v := by
  induction l generalizing t with
  | nil => simpa using hk
  | cons y l ih =>
    refine ih (t.put (key y) (val y)) (fun z hz => hv z (List.mem_cons_of_mem _ hz)) ?_
    by_cases h : key y = k
    · exact .inr (by rw [h, Tab.get_put_self, hv y List.mem_cons_self h])
    · rw [Tab.get_put_ne _ _ _ h]
      refine hk.imp_left ?_
      rintro ⟨z, hz, e⟩
      exact ⟨z, (List.mem_cons.mp hz).resolve_left fun hy => h (hy ▸ e), e⟩

/-- Rows at other keys leave a key's value. -/
theorem Tab.get_foldl_put_ne (l : List β) (key : β → κ) (val : β → α) (t : Tab κ α) (d : α) {k : κ}
    (h : ∀ y ∈ l, key y ≠ k) : (l.foldl (fun m y => m.put (key y) (val y)) t).get d k = t.get d k :=
  Tab.get_foldl_put l key val t d (fun y hy e => absurd e (h y hy)) (.inr rfl)

/-- Each row of a range of numbers replaced by a function of itself. -/
theorem Tab.get_foldl_range_put (t : SMap α) (d : α) (f : Nat → α → α) (n0 c k : Nat) :
    ((List.range c).foldl (fun m j => m.put (n0 + j) (f j (m.get d (n0 + j)))) t).get d k =
      if n0 ≤ k ∧ k < n0 + c then f (k - n0) (t.get d k) else t.get d k := by
  induction c generalizing k with
  | zero => exact (if_neg (by omega)).symm
  | succ c ih =>
    rw [List.range_succ, List.foldl_append, List.foldl_cons, List.foldl_nil, Tab.get_put, ih (n0 + c), ih k]
    by_cases h : n0 + c = k
    · subst h; simp
    · have : (n0 ≤ k ∧ k < n0 + (c + 1)) ↔ n0 ≤ k ∧ k < n0 + c := by omega
      simp [h, this]

/-- The value at a key of the rows that are not zero, of which those at the key agree. -/
theorem Tab.get_nonzero_rows (l : List β) (key : β → κ) (val : β → Nat) {k : κ} {v : Nat}
    (hv : ∀ y ∈ l, key y = k → val y = v) (hk : (∃ y ∈ l, key y = k) ∨ v = 0) :
    Tab.get ((l.filter fun y => val y ≠ 0).map fun y => (key y, val y)) 0 k = v := by
  induction l with
  | nil => simpa [eq_comm] using hk
  | cons y l ih =>
    have hl := ih fun z hz => hv z (List.mem_cons_of_mem _ hz)
    by_cases h0 : val y = 0
    · rw [List.filter_cons_of_neg (by simpa using h0)]
      refine hl (hk.elim ?_ .inr)
      rintro ⟨z, hz, e⟩
      rcases List.mem_cons.mp hz with rfl | hz
      · exact .inr (hv z hz e ▸ h0)
      · exact .inl ⟨z, hz, e⟩
    · rw [List.filter_cons_of_pos (by simpa using h0)]
      by_cases h : key y = k
      · simp [Tab.get, Tab.get?, h, hv y List.mem_cons_self h]
      · have hr := hl <| hk.imp_left fun ⟨z, hz, e⟩ => ⟨z, (List.mem_cons.mp hz).resolve_left fun hy => h (hy ▸ e), e⟩
        simpa [Tab.get, Tab.get?, h] using hr

end

/-- The rows of values other than zero, in the order of a list. -/
theorem foldl_nonzero_rows {κ β : Type} (l : List β) (key : β → κ) (val : β → Nat) (t : Tab κ Nat) :
    l.foldl (fun m y => if val y = 0 then m else (key y, val y) :: m) t =
      ((l.filter fun y => val y ≠ 0).map fun y => (key y, val y)).reverse ++ t := by
  induction l generalizing t with
  | nil => rfl
  | cons y l ih => by_cases h : val y = 0 <;> simp [h, ih]

/-- The pairs of two lists, in the order of the first. -/
def pairs {α β : Type} (l : List α) (r : List β) : List (α × β) := l.flatMap fun a => r.map (Prod.mk a)

theorem mem_pairs {α β : Type} {l : List α} {r : List β} {a : α} {b : β} : (a, b) ∈ pairs l r ↔ a ∈ l ∧ b ∈ r := by
  simp [pairs]

/-- One fold within another, as a fold over pairs. -/
theorem foldl_foldl_product {α β γ : Type} (l : List α) (r : List β) (f : γ → α → β → γ) (z : γ) :
    l.foldl (fun m a => r.foldl (fun m b => f m a b) m) z = (pairs l r).foldl (fun m p => f m p.1 p.2) z := by
  simp only [pairs, List.foldl_flatMap, List.foldl_map]

end Sys2Proof
end

section
/-! The weight tile latched by a mwload, and its faults (R241, R245). -/

namespace Sys2Proof.Machine
open Sys2Proof.Terms

/-- Outside ordered mode the sequencer reads a group's register as it stands (R309). -/
theorem State.seqV_plain {s : State} {b : BKey} (h : s.seqOrdered b = false) (grp n l : Nat) :
    s.seqV b grp n l = (s.getVL ⟨b, grp, 0⟩ n l).toNat := by simp [State.seqV, h, State.getVL, State.getV]

theorem tileCols_eq (t : Ty) : tileCols t = if t.width = 16 then 64 else if t.width = 8 then 128 else 256 := by
  unfold tileCols
  split <;> simp_all

theorem tileCols_le (t : Ty) : tileCols t ≤ 256 := by
  rw [tileCols_eq]
  split
  · omega
  · split <;> omega

theorem tileRegs_eq (t : Ty) : tileRegs t = if t = .tr then 32 else 64 := by simp [tileRegs]

/-- Element (k, n) of a weight fragment, outside ordered mode (R241). -/
theorem State.weight_plain {s : State} {b : BKey} (h : s.seqOrdered b = false) (grp vx : Nat) (t : Ty) (k n : Nat) :
    s.weight b grp vx t k n =
      if t.width = 16 then (s.getVL ⟨b, grp, 0⟩ (vx + k) (n / 2)).toNat / 2 ^ (16 * (n % 2)) % 2 ^ 16
      else if t.width = 8 then (s.getVL ⟨b, grp, 0⟩ (vx + k) (n / 4)).toNat / 2 ^ (8 * (n % 4)) % 2 ^ 8
      else (s.getVL ⟨b, grp, 0⟩ (vx + k / 2) (16 * (k % 2) + n / 16)).toNat / 2 ^ (2 * (n % 16)) % 4 := by
  unfold State.weight
  simp only [State.seqV_plain h, elGet]
  split <;> simp_all

/-- The elements of a tile as a mwload lists them: those other than zero, by row and column. -/
def tileElems (w : Nat → Nat → Nat) (cols : Nat) : SMap Nat :=
  ((List.range 64).foldl (fun m k => (List.range cols).foldl (fun m n =>
    if w k n = 0 then m else (k * 256 + n, w k n) :: m) m) []).reverse

theorem get_tileElems (w : Nat → Nat → Nat) {cols k n : Nat} (hc : cols ≤ 256) (hk : k < 64) (hn : n < cols) :
    (tileElems w cols).get 0 (k * 256 + n) = w k n := by
  have hrows : tileElems w cols = ((pairs (List.range 64) (List.range cols)).filter fun p => w p.1 p.2 ≠ 0).map
      fun p => (p.1 * 256 + p.2, w p.1 p.2) := by
    rw [tileElems, foldl_foldl_product _ _ fun m k n => if w k n = 0 then m else (k * 256 + n, w k n) :: m,
      foldl_nonzero_rows _ (fun p : Nat × Nat => p.1 * 256 + p.2) fun p => w p.1 p.2]
    simp
  rw [hrows]
  refine Tab.get_nonzero_rows _ (fun p : Nat × Nat => p.1 * 256 + p.2) (fun p => w p.1 p.2) ?_ (.inl ⟨(k, n), ?_, rfl⟩)
  · rintro ⟨k', n'⟩ hp e
    have hn' : n' < cols := by simpa using (mem_pairs.mp hp).2
    obtain ⟨rfl, rfl⟩ : k' = k ∧ n' = n := by simp only at e; omega
    rfl
  · exact mem_pairs.mpr ⟨List.mem_range.mpr hk, List.mem_range.mpr hn⟩

/-- The tile that a mwload latches, and the group whose flag its completion sets (R63, R245). -/
def State.tileOf (s : State) (b : BKey) (sc : Bool) (x : MArgs) : Tile :=
  { ty := x.ty
    elems := tileElems (s.weight b x.grp.toNat x.v.toNat x.ty) (tileCols x.ty)
    scales := if sc then (List.range (tileCols x.ty)).map fun n =>
        (n, BitVec.ofNat 32 (s.seqV b x.grp.toNat (x.v.toNat + tileRegs x.ty + n / 32) (n % 32))) else [] }
def State.tritGroup (s : State) (b : BKey) (x : MArgs) : Option Nat :=
  if x.ty == .tr && (List.range 32).any fun r => (List.range 32).any fun l => hasTen (s.seqV b x.grp.toNat (x.v.toNat + r) l)
  then some x.grp.toNat else none
/-- The number of registers that a mwload reads (R241). -/
def mwloadRegs (sc : Bool) (x : MArgs) : Nat := tileRegs x.ty + (if sc then tileCols x.ty / 32 else 0)

theorem exec_mwload (sc : Bool) (x : MArgs) (s : State) : exec (.mwload sc x) s = execMwload sc x s := rfl

section
variable {s : State} {b : BKey} {sc : Bool} {x : MArgs}

theorem exec_mwload_of_noGroup (h : SeqReady s b (.mwload sc x)) (hh : (s.seq b).held = true)
    (hg : s.grpOk b x.grp.toNat (x.v.toNat + mwloadRegs sc x - 1) = false) :
    exec (.mwload sc x) s = .next (s.operandFault b) := by
  rw [exec_mwload]
  refine matOp_operand h ((State.withEngine_of_held hh _).trans ?_)
  simp only [Seq.writing_of_alone h.alone]
  unfold mwloadRegs at hg
  simp [hg]

theorem exec_mwload_of_group (h : SeqReady s b (.mwload sc x)) (hh : (s.seq b).held = true)
    (hg : s.grpOk b x.grp.toNat (x.v.toNat + mwloadRegs sc x - 1) = true) :
    exec (.mwload sc x) s = .next ((s.updSeq b fun q => { q with tile := some (s.tileOf b sc x) }).updSeq b
      (Seq.enters { ready := s.cycle + mwloadRegs sc x, trit := s.tritGroup b x } (s.cycle + mwloadRegs sc x))) := by
  rw [exec_mwload]
  refine matOp_exec h ((State.withEngine_of_held hh _).trans ?_)
  simp only [Seq.writing_of_alone h.alone]
  unfold mwloadRegs at hg ⊢
  simp only [hg]
  rfl

theorem State.scale_tileOf (hp : s.seqOrdered b = false) {n : Nat} (hn : n < tileCols x.ty) :
    (s.tileOf b sc x).scale n = if sc then
      s.getVL ⟨b, x.grp.toNat, 0⟩ (x.v.toNat + tileRegs x.ty + n / 32) (n % 32) else 0x3F800000 := by
  cases sc with
  | false => rfl
  | true => simp [Tile.scale, State.tileOf, Tab.get_map_keys, hn, State.seqV_plain hp]

end

/-- Settles O40: the tile's elements are read back at their row and column, which name no other element. -/
theorem weightLoad : Obligations.WeightLoad := by
  unfold Obligations.WeightLoad
  intro s b sc x h hh
  have htop : x.v.toNat + tileRegs x.ty + (if sc then tileCols x.ty / 32 else 0) - 1 = x.v.toNat + mwloadRegs sc x - 1 := by
    rw [Nat.add_assoc, mwloadRegs]
  simp only [← tileCols_eq, ← tileRegs_eq, htop]
  refine ⟨exec_mwload_of_noGroup h hh, fun hg => ⟨_, s.tileOf b sc x, exec_mwload_of_group h hh hg, ?_, ?_, rfl, ?_,
    fun k n hk hn => ?_, fun n hn => State.scale_tileOf h.plain hn,
    { ready := s.cycle + mwloadRegs sc x, trit := s.tritGroup b x, pc := (s.seq b).pc }, ?_, ?_⟩⟩
  · simp [Seq.enters]
  · simp [Seq.enters]
  · simp [Seq.enters]
  · rw [← State.weight_plain h.plain]
    exact get_tileElems _ (tileCols_le _) hk hn
  · simp [Seq.enters, h.alone]
  · simp only [State.tritGroup, State.seqV_plain h.plain, hasTen]

end Sys2Proof.Machine
end

section
/-! Multiplication by the latched tile, and its faults (R71, R242, R246, R253). -/

namespace Sys2Proof

theorem MArgs.immF_toNat (x : MArgs) (lo n : Nat) : x.immF lo n = x.imm.toNat / 2 ^ lo % 2 ^ n := by
  simp [MArgs.immF, Nat.shiftRight_eq_div_pow]

/-- The rows that a multiplication takes (R246). -/
def MArgs.rows (x : MArgs) : Nat := x.imm.toNat % 64 + 1

/-- The fields of the immediate of a multiplication (R240): rows, the offset in scratch, the register of the ids. -/
theorem MArgs.immF_rows (x : MArgs) : x.immF 0 6 + 1 = x.rows := by simp [MArgs.immF_toNat, MArgs.rows]
theorem MArgs.immF_offset (x : MArgs) : x.immF 6 18 = x.imm.toNat / 64 := by
  rw [MArgs.immF_toNat]
  exact Nat.mod_eq_of_lt (by have := x.imm.isLt; omega)
theorem MArgs.immF_ids (x : MArgs) : x.immF 6 11 = x.imm.toNat / 64 % 2048 := by simp [MArgs.immF_toNat]

end Sys2Proof

namespace Sys2Proof.Machine
open Sys2Proof.Terms

/-! ## An accumulator multiplied (R71, R246) -/

/-- Rows of activations by their values. -/
def rowsOf (m : Nat) (a : Nat → Nat → Nat) : List (List Nat) := (List.range m).map fun r => (List.range 64).map (a r)

theorem zip_rowsOf (m : Nat) (a : Nat → Nat → Nat) : (List.range (rowsOf m a).length).zip (rowsOf m a) =
    (List.range m).map fun r => (r, (List.range 64).map (a r)) := by
  simp [rowsOf, ← List.map_prod_left_eq_zip]

/-- The new value of an element, by the values of the activations. -/
theorem accStep_products (isInt : Bool) (t : Tile) (ty : Ty) (a : Nat → Nat) (n : Nat) (old : Word) :
    accStep isInt old (t.products ty ((List.range 64).map a) n) =
      accValue isInt t.ty ty (fun k => t.elems.get 0 (k * 256 + n)) a old := by
  have hp : t.products ty ((List.range 64).map a) n =
      (List.range 64).map fun k => mulNum (readEl t.ty (t.elems.get 0 (k * 256 + n))) (readEl ty (a k)) :=
    List.map_congr_left fun k hk => by simp [List.getD_eq_getElem?_getD, List.mem_range.mp hk]
  rw [hp]
  rfl

/-- The accumulator that takes columns 64 × j to 64 × j + 63 of the tile, after rows are multiplied. -/
def Tile.accAfter (t : Tile) (ty : Ty) (rows : List (List Nat)) (j : Nat) (old : AccReg) : AccReg :=
  { isInt := !Ty.isFloat t.ty
    elems := ((List.range rows.length).zip rows).foldl (fun (m : SMap Word) r => (List.range 64).foldl (fun m n =>
      m.put (r.1 * 64 + n) (accStep (!Ty.isFloat t.ty) (old.elems.get 0 (r.1 * 64 + n))
        (t.products ty r.2 (64 * j + n)))) m) old.elems
    scales := (List.range 64).map fun n => (n, t.scale (64 * j + n)) }

/-- Element (r, n) of that accumulator, if row r is multiplied. -/
def Tile.newElem (t : Tile) (ty : Ty) (a : Nat → Nat → Nat) (j : Nat) (old : AccReg) (r n : Nat) : Word :=
  accValue (!Ty.isFloat t.ty) t.ty ty (fun k => t.elems.get 0 (k * 256 + (64 * j + n))) (a r) (old.elems.get 0 (r * 64 + n))

/-- The elements of the rows multiplied, put row by row. -/
theorem Tile.elems_accAfter (t : Tile) (ty : Ty) (m : Nat) (a : Nat → Nat → Nat) (j : Nat) (old : AccReg) :
    (t.accAfter ty (rowsOf m a) j old).elems = (pairs (List.range m) (List.range 64)).foldl
      (fun m p => m.put (p.1 * 64 + p.2) (t.newElem ty a j old p.1 p.2)) old.elems := by
  simp only [Tile.accAfter, zip_rowsOf, List.foldl_map, accStep_products]
  exact foldl_foldl_product _ _ (fun (m : SMap Word) r n => m.put (r * 64 + n) (t.newElem ty a j old r n)) _

theorem Tile.get_elems_accAfter (t : Tile) (ty : Ty) (m : Nat) (a : Nat → Nat → Nat) (j : Nat) (old : AccReg) {r n : Nat}
    (hn : n < 64) : (t.accAfter ty (rowsOf m a) j old).elems.get 0 (r * 64 + n) =
      if r < m then t.newElem ty a j old r n else old.elems.get 0 (r * 64 + n) := by
  rw [Tile.elems_accAfter]
  split
  · next hr =>
    refine Tab.get_foldl_put _ (fun p : Nat × Nat => p.1 * 64 + p.2) (fun p => t.newElem ty a j old p.1 p.2) _ _ ?_
      (.inl ⟨(r, n), mem_pairs.mpr ⟨List.mem_range.mpr hr, List.mem_range.mpr hn⟩, rfl⟩)
    rintro ⟨r', n'⟩ hp e
    have hn' : n' < 64 := by simpa using (mem_pairs.mp hp).2
    obtain ⟨rfl, rfl⟩ : r' = r ∧ n' = n := by simp only at e; omega
    rfl
  · next hr =>
    refine Tab.get_foldl_put_ne _ (fun p : Nat × Nat => p.1 * 64 + p.2) (fun p => t.newElem ty a j old p.1 p.2) _ _ ?_
    rintro ⟨r', n'⟩ hp e
    obtain ⟨hr', hn'⟩ := mem_pairs.mp hp
    rw [List.mem_range] at hr' hn'
    simp only at e
    omega

theorem Tile.scales_accAfter (t : Tile) (ty : Ty) (rows : List (List Nat)) (j : Nat) (old : AccReg) {n : Nat} (hn : n < 64) :
    (t.accAfter ty rows j old).scales.get oneF n = t.scale (64 * j + n) := by
  simp [Tile.accAfter, Tab.get_map_keys, hn]

/-- The base step without an audit changes the accumulators it writes, and nothing else. -/
theorem State.mmulBase_none (s : State) (b : BKey) (t : Tile) (ty : Ty) (n0 : Nat) (rows : List (List Nat)) :
    s.mmulBase b t ty n0 rows none = s.updSeq b fun q =>
      { q with accs := (List.range (mmulAccs t.ty ty)).foldl (fun m j =>
          m.put (n0 + j) (t.accAfter ty rows j (m.get {} (n0 + j)))) q.accs } := by
  unfold State.mmulBase
  refine State.updSeq_congr ?_
  dsimp only
  refine List.foldl_hom (fun a => { s.seq b with accs := a })
    (g₁ := fun m j => m.put (n0 + j) (t.accAfter ty rows j (m.get {} (n0 + j)))) fun a j => ?_
  rfl

theorem State.accs_mmulBase_none (s : State) (b : BKey) (t : Tile) (ty : Ty) (n0 : Nat) (rows : List (List Nat)) (k : Nat) :
    ((s.mmulBase b t ty n0 rows none).seq b).accs.get {} k =
      if n0 ≤ k ∧ k < n0 + mmulAccs t.ty ty then t.accAfter ty rows (k - n0) ((s.seq b).accs.get {} k)
      else (s.seq b).accs.get {} k := by
  rw [State.mmulBase_none, State.seq_updSeq_self]
  exact Tab.get_foldl_range_put _ _ (t.accAfter ty rows) n0 _ k

/-! ## The checks that the multiplications share (R246) -/

/-- A multiplication of which the checks pass: the engine is held, a tile is latched of a format that goes with its own, its
accumulator is a multiple of the number it writes, and no row waits for an adapter. -/
structure Multiplies (s : State) (b : BKey) (i : Instr) (x : MArgs) (t : Tile) : Prop where
  ready : SeqReady s b i
  held : (s.seq b).held = true
  tile : (s.seq b).tile = some t
  pair : mmulAccs t.ty x.ty ≠ 0
  place : x.a.toNat % mmulAccs t.ty x.ty = 0
  idle : (s.seq b).replays = []

section
variable {s : State} {b : BKey} {i : Instr} {x : MArgs} {t : Tile} {k : State → Tile → List Nat → MEnds}

theorem State.mmulCheck_of_noTile (hh : (s.seq b).held = true) (ht : (s.seq b).tile = none) :
    s.mmulCheck b x k = .fault s 1 := by
  simp [State.mmulCheck, State.withEngine_of_held hh, ht]

theorem State.mmulCheck_of_noPair (hh : (s.seq b).held = true) (ht : (s.seq b).tile = some t)
    (hn : mmulAccs t.ty x.ty = 0 ∨ x.a.toNat % mmulAccs t.ty x.ty ≠ 0) : s.mmulCheck b x k = .fault s 1 := by
  have hc : (decide (mmulAccs t.ty x.ty = 0) || x.a.toNat % mmulAccs t.ty x.ty != 0) = true := by simpa using hn
  simp only [State.mmulCheck, State.withEngine_of_held hh, ht, hc, if_true]

theorem Multiplies.mmulCheck (h : Multiplies s b i x t) :
    s.mmulCheck b x k = k s t ((List.range (mmulAccs t.ty x.ty)).map (x.a.toNat + ·)) := by
  simp [State.mmulCheck, State.withEngine_of_held h.held, h.tile, h.pair, h.place,
    State.awaitAccs_of_idle h.ready.alone h.idle, Seq.writing_of_alone h.ready.alone]

theorem State.nextCand_of_off (ha : (s.seq b).auditOn = false) (acc fmt : Nat) : s.nextCand b acc fmt = (s, none) := by
  simp [State.nextCand, ha]

end

/-! ## The three multiplications -/

theorem exec_mmul (x : MArgs) (s : State) : exec (.mmul x) s = execMmul x s := rfl
theorem exec_mmulScr (x : MArgs) (s : State) : exec (.mmulScr x) s = execMmulScr x s := rfl
theorem exec_mmula (x : MArgs) (s : State) : exec (.mmula x) s = execMmula x s := rfl

/-- The activations of a multiplication by row and column: from registers, and from scratch from an address on (R242). -/
def State.regEl (s : State) (b : BKey) (x : MArgs) (r k : Nat) : Nat :=
  if x.ty.width = 16 then (s.getVL ⟨b, x.grp.toNat, 0⟩ (x.v.toNat + r) (k / 2)).toNat / 2 ^ (16 * (k % 2)) % 2 ^ 16
  else (s.getVL ⟨b, x.grp.toNat, 0⟩ (x.v.toNat + r) (k / 4)).toNat / 2 ^ (8 * (k % 4)) % 2 ^ 8
def State.scrAddr (s : State) (b : BKey) (x : MArgs) : Nat := ((s.seq b).q.get 0 x.qb.toNat).toNat + 64 * (x.imm.toNat / 64)
def State.scrEl (s : State) (b : BKey) (x : MArgs) (r k : Nat) : Nat :=
  leNat ((Loc.span (.scr b (s.scrAddr b x + r * 8 * x.ty.width + k * x.ty.width / 8)) (x.ty.width / 8)).map s.rawByte)

/-- The state after a multiplication of rows of activations, whose word enters execution. -/
def State.Multiplied (s u : State) (b : BKey) (x : MArgs) (t : Tile) (a : Nat → Nat → Nat) : Prop :=
  ∃ w free, u = (s.mmulBase b t x.ty x.a.toNat (rowsOf x.rows a) none).updSeq b (Seq.enters w free)

section
variable {s : State} {b : BKey} {i : Instr} {x : MArgs} {t : Tile}

theorem State.regRow_plain (hp : s.seqOrdered b = false) (r : Nat) :
    s.regRow b x.grp.toNat x.v.toNat x.ty r = (List.range 64).map (s.regEl b x r) :=
  List.map_congr_left fun k _ => by simp only [State.seqV_plain hp, elGet]; rfl

/-- Rows of activations from registers, as mmul and mmula read them. -/
theorem State.regRows_plain (hp : s.seqOrdered b = false) :
    ((List.range x.rows).map fun r => s.regRow b x.grp.toNat x.v.toNat x.ty r) = rowsOf x.rows (s.regEl b x) := by
  simp only [State.regRow_plain hp]
  rfl

theorem exec_mmul_of_group (h : Multiplies s b (.mmul x) x t) (ha : (s.seq b).auditOn = false)
    (hg : s.grpOk b x.grp.toNat (x.v.toNat + x.rows - 1) = true) :
    ∃ u, exec (.mmul x) s = .next u ∧ s.Multiplied u b x t (s.regEl b x) := by
  rw [exec_mmul]
  refine ⟨_, matOp_exec (w := { ready := s.cycle + x.rows + 24, accs := (List.range (mmulAccs t.ty x.ty)).map (x.a.toNat + ·) })
    (busy := x.rows) h.ready (h.mmulCheck.trans ?_), _, _, rfl⟩
  simp [State.nextCand_of_off ha, MArgs.immF_rows, State.regRows_plain h.ready.plain, hg]

theorem exec_mmul_of_noGroup (h : Multiplies s b (.mmul x) x t)
    (hg : s.grpOk b x.grp.toNat (x.v.toNat + x.rows - 1) = false) :
    exec (.mmul x) s = .next (s.operandFault b) := by
  rw [exec_mmul]
  refine matOp_operand h.ready (h.mmulCheck.trans ?_)
  simp [MArgs.immF_rows, hg]

/-! ## Activations in scratch (R199, R242) -/

/-- The bytes of the rows in scratch. -/
def scrBytes (x : MArgs) : Nat := x.rows * 8 * x.ty.width

/-- An operand of a multiplication has elements of 8 or 16 bits, so its rows are whole sectors (R246). -/
theorem width_of_mmulAccs {w a : Ty} (h : mmulAccs w a ≠ 0) : a.width = 8 ∨ a.width = 16 := by
  unfold mmulAccs at h
  split at h <;> simp_all [Ty.width]
theorem scrBytes_mod (h : Multiplies s b i x t) : scrBytes x % 32 = 0 := by
  rcases width_of_mmulAccs h.pair with hw | hw <;> rw [scrBytes, hw] <;> omega

/-- The poison of a place is that of its sector (R199). -/
theorem State.poisoned_sector {a : Nat} (ha : a % 32 = 0) (k : Nat) :
    s.poisoned (.scr b (a + 32 * (k / 32))) = s.poisoned (.scr b (a + k)) := by
  have h1 : (a + 32 * (k / 32)) / 131072 = (a + k) / 131072 := by omega
  have h2 : (a + 32 * (k / 32)) % 131072 / 32 = (a + k) % 131072 / 32 := by omega
  simp only [State.poisoned, h1, h2]

/-- The address and the length of the rows, as the effect of mmul.scr computes them. -/
theorem State.scrAddr_eq (s : State) (b : BKey) (x : MArgs) :
    ((s.seq b).q.get 0 x.qb.toNat).toNat + 64 * x.immF 6 18 = s.scrAddr b x := by rw [MArgs.immF_offset]; rfl
theorem scrBytes_eq (x : MArgs) : x.rows * (8 * x.ty.width) = scrBytes x := (Nat.mul_assoc ..).symm

theorem exec_mmulScr_of_noScratch (h : Multiplies s b (.mmulScr x) x t)
    (hs : s.scrAddr b x % 64 ≠ 0 ∨ (s.block b).scratchOk (s.scrAddr b x) (scrBytes x) = false) :
    exec (.mmulScr x) s = .next (s.operandFault b) := by
  have hc : (s.scrAddr b x % 64 != 0 || !(s.block b).scratchOk (s.scrAddr b x) (scrBytes x)) = true := by simpa using hs
  rw [exec_mmulScr]
  refine matOp_operand h.ready (h.mmulCheck.trans ?_)
  simp only [MArgs.immF_rows, State.scrAddr_eq, scrBytes_eq, hc, if_true]

/-- No copy command owns a sector of the rows. -/
theorem find?_ownedAt_eq_none (ho : ∀ k, k < scrBytes x → s.ownedAt (.scr b (s.scrAddr b x + k)) = false) :
    ((List.range (scrBytes x / 32)).find? fun i => s.ownedAt (.scr b (s.scrAddr b x + 32 * i))) = none := by
  rw [List.find?_eq_none]
  intro i hi
  have hi : i < scrBytes x / 32 := List.mem_range.mp hi
  simp [ho (32 * i) (by omega)]

/-- Rows of activations from scratch, as mmul.scr reads them. -/
theorem State.scrRows_eq (s : State) (b : BKey) (x : MArgs) :
    ((List.range x.rows).map fun r => (List.range 64).map fun k => leNat ((Loc.span (.scr b (s.scrAddr b x +
      (r * (8 * x.ty.width) + k * x.ty.width / 8))) (x.ty.width / 8)).map s.rawByte)) = rowsOf x.rows (s.scrEl b x) :=
  List.map_congr_left fun r _ => List.map_congr_left fun k _ => by simp only [State.scrEl, Nat.mul_assoc, Nat.add_assoc]

theorem exec_mmulScr_of_clean (h : Multiplies s b (.mmulScr x) x t) (ha : (s.seq b).auditOn = false)
    (hal : s.scrAddr b x % 64 = 0) (hs : (s.block b).scratchOk (s.scrAddr b x) (scrBytes x) = true)
    (hc : ∀ j, s.poisoned (.scr b j) = false ∧ s.ownedAt (.scr b j) = false) :
    ∃ u, exec (.mmulScr x) s = .next u ∧ s.Multiplied u b x t (s.scrEl b x) := by
  have hp : ((List.range (scrBytes x / 32)).find? fun i => s.poisoned (.scr b (s.scrAddr b x + 32 * i))) = none :=
    List.find?_eq_none.mpr fun i _ => by simp [(hc _).1]
  rw [exec_mmulScr]
  refine ⟨_, matOp_exec (w := { ready := s.cycle + x.rows + 24, accs := (List.range (mmulAccs t.ty x.ty)).map (x.a.toNat + ·) })
    (busy := x.rows) h.ready (h.mmulCheck.trans ?_), _, _, rfl⟩
  simp only [MArgs.immF_rows, State.scrAddr_eq, scrBytes_eq, hal, hs, find?_ownedAt_eq_none fun k _ => (hc _).2, hp,
    State.scrRows_eq, State.nextCand_of_off ha]
  rfl

theorem exec_mmulScr_of_poisoned (h : Multiplies s b (.mmulScr x) x t) (hal : s.scrAddr b x % 64 = 0)
    (hs : (s.block b).scratchOk (s.scrAddr b x) (scrBytes x) = true)
    (ho : ∀ k, k < scrBytes x → s.ownedAt (.scr b (s.scrAddr b x + k)) = false)
    (hp : ∃ k, k < scrBytes x ∧ s.poisoned (.scr b (s.scrAddr b x + k)) = true) :
    ∃ k, k < scrBytes x ∧ exec (.mmulScr x) s = .next ((s.updSeq b fun y => { y with cause := .word }).seqFault b
      { kind := 0x0B, addr := s.scrAddr b x + k }) := by
  obtain ⟨k, hk, hp⟩ := hp
  have hsect : k / 32 < scrBytes x / 32 := by
    have := scrBytes_mod h
    omega
  have hfound : ((List.range (scrBytes x / 32)).find? fun i => s.poisoned (.scr b (s.scrAddr b x + 32 * i))).isSome = true :=
    List.find?_isSome.mpr ⟨k / 32, List.mem_range.mpr hsect, by rw [State.poisoned_sector (by omega), hp]⟩
  obtain ⟨i, hi⟩ := Option.isSome_iff_exists.mp hfound
  have hlt : i < scrBytes x / 32 := List.mem_range.mp (List.mem_of_find?_eq_some hi)
  refine ⟨32 * i, by omega, ?_⟩
  rw [exec_mmulScr]
  refine matOp_data h.ready (h.mmulCheck.trans ?_)
  simp only [MArgs.immF_rows, State.scrAddr_eq, scrBytes_eq, hal, hs, find?_ownedAt_eq_none ho, hi]
  rfl

/-! ## Rows without an adapter (R253) -/

/-- The ids of the rows are zero. -/
def State.NoAdapters (s : State) (b : BKey) (x : MArgs) : Prop := ∀ r, r < x.rows →
  (s.getVL ⟨b, x.grp.toNat, 0⟩ (x.imm.toNat / 64 % 2048) (r / 2)).toNat / 2 ^ (16 * (r % 2)) % 2 ^ 16 = 0

theorem State.ids_of_noAdapters (hp : s.seqOrdered b = false) (h0 : s.NoAdapters b x) :
    ((List.range x.rows).map fun r => elGet 16 (s.seqV b x.grp.toNat (x.imm.toNat / 64 % 2048) (r / 2)) (r % 2)) =
      (List.range x.rows).map fun _ => 0 :=
  List.map_congr_left fun r hr => by
    rw [State.seqV_plain hp]
    exact h0 r (List.mem_range.mp hr)

/-- No row of id 0 waits for a fill. -/
theorem filter_noAdapters (m : Nat) (f : Nat → Bool) :
    (((List.range m).map fun _ => 0).filter fun i => i != 0 && f i) = [] :=
  List.filter_eq_nil_iff.mpr fun i hi => by
    obtain ⟨_, _, rfl⟩ := List.mem_map.mp hi
    exact Bool.false_ne_true

/-- A row of id 0 takes no term: what is done for each row with an adapter is done for none. -/
theorem foldl_noAdapters (m : Nat) (a : Nat → Nat → Nat) (f : State → Nat × Nat × List Nat → State) (u : State) :
    ((List.range m).zip (((List.range m).map fun _ => 0).zip (rowsOf m a))).foldl
      (fun s r => if r.2.1 = 0 then s else f s r) u = u := by
  simp only [rowsOf, List.zip_map', ← List.map_prod_left_eq_zip, List.foldl_map, if_true]
  induction List.range m with
  | nil => rfl
  | cons r l ih => exact ih

theorem exec_mmula_of_noAdapters (h : Multiplies s b (.mmula x) x t) (ha : (s.seq b).auditOn = false)
    (hg : s.grpOk b x.grp.toNat (x.v.toNat + x.rows - 1) = true)
    (hi : s.grpOk b x.grp.toNat (x.imm.toNat / 64 % 2048) = true) (h0 : s.NoAdapters b x) :
    ∃ u, exec (.mmula x) s = .next u ∧ s.Multiplied u b x t (s.regEl b x) := by
  rw [exec_mmula]
  refine ⟨_, matOp_exec (w := { ready := s.cycle + 2 * x.rows + 24, accs := (List.range (mmulAccs t.ty x.ty)).map (x.a.toNat + ·) })
    (busy := 2 * x.rows) h.ready (h.mmulCheck.trans ?_), _, _, rfl⟩
  simp only [MArgs.immF_rows, MArgs.immF_ids, hg, hi, State.ids_of_noAdapters h.ready.plain h0,
    State.regRows_plain h.ready.plain, h.idle, State.nextCand_of_off ha, filter_noAdapters, foldl_noAdapters]
  simp [State.mmulBase_none]

end

/-! ## What a multiplication leaves -/

section
variable {s u : State} {b : BKey} {i : Instr} {x : MArgs} {t : Tile} {a : Nat → Nat → Nat}

theorem State.Multiplied.pc (h : s.Multiplied u b x t a) : (u.seq b).pc = (s.seq b).pc + 8 := by
  obtain ⟨w, free, rfl⟩ := h
  simp [State.mmulBase_none, Seq.enters]

theorem State.Multiplied.groups (h : s.Multiplied u b x t a) : u.groups = s.groups := by
  obtain ⟨w, free, rfl⟩ := h
  simp [State.mmulBase_none]

theorem State.Multiplied.mem (h : s.Multiplied u b x t a) : u.mem = s.mem := by
  obtain ⟨w, free, rfl⟩ := h
  simp [State.mmulBase_none]

theorem State.Multiplied.accs (h : s.Multiplied u b x t a) (k : Nat) : (u.seq b).accs.get {} k =
    if x.a.toNat ≤ k ∧ k < x.a.toNat + mmulAccs t.ty x.ty then
      t.accAfter x.ty (rowsOf x.rows a) (k - x.a.toNat) ((s.seq b).accs.get {} k)
    else (s.seq b).accs.get {} k := by
  obtain ⟨w, free, rfl⟩ := h
  rw [State.seq_updSeq_self, ← State.accs_mmulBase_none]
  rfl

/-- Accumulator j of those written. -/
theorem State.Multiplied.accs_written (h : s.Multiplied u b x t a) {j : Nat} (hj : j < mmulAccs t.ty x.ty) :
    (u.seq b).accs.get {} (x.a.toNat + j) =
      t.accAfter x.ty (rowsOf x.rows a) j ((s.seq b).accs.get {} (x.a.toNat + j)) := by
  rw [h.accs, if_pos (by omega), Nat.add_sub_cancel_left]

/-- Every multiplication of the statement, as one. -/
theorem Multiplies.exec (h : Multiplies s b i x t) (ha : (s.seq b).auditOn = false)
    (hi : (i = .mmul x ∧ s.grpOk b x.grp.toNat (x.v.toNat + x.rows - 1) = true ∧ a = s.regEl b x) ∨
      (i = .mmula x ∧ s.grpOk b x.grp.toNat (x.v.toNat + x.rows - 1) = true ∧
        s.grpOk b x.grp.toNat (x.imm.toNat / 64 % 2048) = true ∧ s.NoAdapters b x ∧ a = s.regEl b x) ∨
      (i = .mmulScr x ∧ s.scrAddr b x % 64 = 0 ∧ (s.block b).scratchOk (s.scrAddr b x) (scrBytes x) = true ∧
        (∀ j, s.poisoned (.scr b j) = false ∧ s.ownedAt (.scr b j) = false) ∧ a = s.scrEl b x)) :
    ∃ u, exec i s = .next u ∧ s.Multiplied u b x t a := by
  rcases hi with ⟨rfl, hg, rfl⟩ | ⟨rfl, hg, hids, h0, rfl⟩ | ⟨rfl, hal, hs, hc, rfl⟩
  · exact exec_mmul_of_group h ha hg
  · exact exec_mmula_of_noAdapters h ha hg hids h0
  · exact exec_mmulScr_of_clean h ha hal hs hc

end

theorem matrixMultiply : Says.MatrixMultiply := by
  unfold Says.MatrixMultiply
  intro s b i x t a m ad w g accs reg hr hh ht ha hre hn hm hi
  have h : Multiplies s b i x t := ⟨hr, hh, ht, hn, hm, hre⟩
  obtain ⟨u, hu, hM⟩ := h.exec ha hi
  refine ⟨u, hu, hM.pc, hM.groups, hM.mem, fun j r n hj _ hn => ?_, fun j n hj hn => ?_, fun n hn => ?_⟩
  · rw [hM.accs_written hj, Nat.mul_comm 64 r]
    exact t.get_elems_accAfter x.ty x.rows a j _ hn
  · rw [hM.accs_written hj]
    exact ⟨t.scales_accAfter x.ty _ j _ hn, rfl⟩
  · rw [hM.accs, if_neg (by omega)]

/-- A mmul and a mmul.scr begin with the same checks. -/
theorem exec_eq_mmulCheck {i : Instr} {x : MArgs} (hi : i = .mmul x ∨ i = .mmulScr x) (s : State) :
    ∃ k : BKey → State → Tile → List Nat → MEnds, exec i s = matOp i (fun s b => s.mmulCheck b x (k b)) s := by
  rcases hi with rfl | rfl
  · exact ⟨_, exec_mmul x s⟩
  · exact ⟨_, exec_mmulScr x s⟩

theorem multiplyFaults : Says.MultiplyFaults := by
  unfold Says.MultiplyFaults
  intro s b i x hi hr hh fault ad n
  obtain ⟨k, hk⟩ := exec_eq_mmulCheck hi s
  refine ⟨fun ht => ?_, fun t ht => ⟨fun hn => ?_, fun hn hm hre => ?_⟩⟩
  · exact hk.trans (matOp_fault hr (State.mmulCheck_of_noTile hh ht))
  · exact hk.trans (matOp_fault hr (State.mmulCheck_of_noPair hh ht hn))
  · have h : Multiplies s b i x t := ⟨hr, hh, ht, hn, hm, hre⟩
    refine ⟨?_, ?_, ?_⟩
    · rintro rfl hg
      exact exec_mmul_of_noGroup h hg
    · rintro rfl hs
      exact exec_mmulScr_of_noScratch h hs
    · rintro rfl hal hs ho hp
      exact exec_mmulScr_of_poisoned h hal hs ho hp

/-- Settles O41: each row put into an accumulator is read back at its element, and each check comes before the operands. -/
theorem multiplication : Obligations.Multiplication := ⟨matrixMultiply, multiplyFaults⟩

end Sys2Proof.Machine
end

section
/-! The Campanile array as arithmetic (R266, R269, R270, R275): the tick at which an output rises, what is captured of
it, and the order of the ranks. -/

namespace Sys2Proof.Machine

/-! ## Rise ticks (R269) -/

/-- In min mode an output rises at the least sum over the inputs that are connected to it and rise. -/
theorem riseTick_minMode {k : Core} (h : k.maxMode = false) (x : Nat → Nat) (j : Nat) :
    riseTick k x j = ((((List.range 64).filter fun i => k.delay i j != 255).filter fun i => x i != 255).map
      fun i => x i + k.delay i j).min? := by
  unfold riseTick
  simp only [h]
  cases ((List.range 64).filter fun i => k.delay i j != 255).filter fun i => x i != 255 with
  | nil => rfl
  | cons i r => rw [List.map_cons, List.min?_cons', List.foldl_map]; rfl

/-- In max mode an output rises at the greatest sum over the inputs that are connected to it, if all of them rise. -/
theorem riseTick_maxMode {k : Core} (h : k.maxMode = true) (x : Nat → Nat) (j : Nat) :
    riseTick k x j = if ((List.range 64).filter fun i => k.delay i j != 255).any fun i => x i == 255 then none
      else (((List.range 64).filter fun i => k.delay i j != 255).map fun i => x i + k.delay i j).max? := by
  unfold riseTick
  simp only [h]
  cases (List.range 64).filter fun i => k.delay i j != 255 with
  | nil => rfl
  | cons i r => rw [List.map_cons, List.max?_cons', List.foldl_map, List.foldl_cons, Nat.zero_max]; rfl

theorem riseTick_minMode_eq_some {k : Core} (h : k.maxMode = false) (x : Nat → Nat) (j t : Nat) :
    riseTick k x j = some t ↔
      (∃ i, i < 64 ∧ k.delay i j ≠ 255 ∧ x i ≠ 255 ∧ t = x i + k.delay i j) ∧
        ∀ i, i < 64 → k.delay i j ≠ 255 → x i ≠ 255 → t ≤ x i + k.delay i j := by
  rw [riseTick_minMode h, List.min?_eq_some_iff]
  simp only [List.mem_map, List.mem_filter, List.mem_range, bne_iff_ne, and_assoc]
  refine and_congr (exists_congr fun i => by rw [eq_comm (b := t)]) ⟨fun hm i hi hc hx => hm _ ⟨i, hi, hc, hx, rfl⟩, ?_⟩
  rintro hm _ ⟨i, hi, hc, hx, rfl⟩
  exact hm i hi hc hx

theorem riseTick_maxMode_eq_some {k : Core} (h : k.maxMode = true) (x : Nat → Nat) (j t : Nat) :
    riseTick k x j = some t ↔
      (∃ i, i < 64 ∧ k.delay i j ≠ 255 ∧ t = x i + k.delay i j) ∧
        ∀ i, i < 64 → k.delay i j ≠ 255 → x i ≠ 255 ∧ x i + k.delay i j ≤ t := by
  have hall : (((List.range 64).filter fun i => k.delay i j != 255).any fun i => x i == 255) = false ↔
      ∀ i, i < 64 → k.delay i j ≠ 255 → x i ≠ 255 := by simp
  rw [riseTick_maxMode h]
  split
  · next hany =>
    have hn : ¬ ∀ i, i < 64 → k.delay i j ≠ 255 → x i ≠ 255 := fun hr => by simp [hall.mpr hr] at hany
    exact ⟨nofun, fun ht => absurd (fun i hi hc => (ht.2 i hi hc).1) hn⟩
  · next hany =>
    have hr := hall.mp (by simpa using hany)
    rw [List.max?_eq_some_iff]
    simp only [List.mem_map, List.mem_filter, List.mem_range, bne_iff_ne, and_assoc]
    refine and_congr (exists_congr fun i => by rw [eq_comm (b := t)]) ⟨fun hm i hi hc => ⟨hr i hi hc, hm _ ⟨i, hi, hc, rfl⟩⟩, ?_⟩
    rintro hm _ ⟨i, hi, hc, rfl⟩
    exact (hm i hi hc).2

/-! ## Captures (R270) -/

theorem capture_of_span {tw : BitVec 16} (h : (tw.extractLsb' 0 8).toNat ≠ 0) (t : Nat) :
    capture tw (some t) =
      if t < (tw.extractLsb' 8 8).toNat then (0, true, false)
      else if t < (tw.extractLsb' 8 8).toNat + (tw.extractLsb' 0 8).toNat then (t - (tw.extractLsb' 8 8).toNat, false, false)
      else (255, false, true) := if_neg h

theorem capture_of_noSpan {tw : BitVec 16} (h : (tw.extractLsb' 0 8).toNat = 0) (t : Option Nat) :
    capture tw t = (255, false, false) := by
  cases t with
  | none => rfl
  | some t => exact if_pos h

theorem capture_none (tw : BitVec 16) : capture tw none = (255, false, false) := rfl

/-- A captured value is a byte. -/
theorem capture_lt (tw : BitVec 16) (t : Option Nat) : (capture tw t).1 < 256 := by
  cases t with
  | none => exact Nat.lt_succ_self 255
  | some t =>
    by_cases h : (tw.extractLsb' 0 8).toNat = 0
    · rw [capture_of_noSpan h]; decide
    · have hs : (tw.extractLsb' 0 8).toNat < 256 := (tw.extractLsb' 0 8).isLt
      rw [capture_of_span h]
      split
      · decide
      · split
        · show t - _ < 256
          omega
        · decide

/-! ## Ranks (R275) -/

/-- The order of the ranks: by value, then by number. -/
def RankedBefore (c : Nat → Nat) (i j : Nat) : Prop := c i < c j ∨ (c i = c j ∧ i < j)

/-- An output put behind those that are not after it. -/
def rankInsert (c : Nat → Nat) (j : Nat) (l : List Nat) : List Nat :=
  (l.takeWhile fun i => c i ≤ c j) ++ j :: l.dropWhile fun i => c i ≤ c j

/-- Outputs put into a list one after the other. -/
def rankAll (c : Nat → Nat) (js l : List Nat) : List Nat := js.foldl (fun l j => rankInsert c j l) l

theorem rankOf_eq_take (c : Nat → Nat) (n : Nat) :
    rankOf c n = (rankAll c ((List.range 64).filter fun j => c j ≠ 255) []).take n := by
  have hf : ((List.range 64).filter fun j => decide (c j ≠ 255)) = (List.range 64).filter fun j => c j != 255 :=
    List.filter_congr fun j _ => by simp only [bne, Bool.beq_eq_decide_eq, ne_eq, decide_not]
  rw [hf]
  rfl

theorem rankInsert_perm (c : Nat → Nat) (j : Nat) (l : List Nat) : (rankInsert c j l).Perm (j :: l) := by
  have h := List.perm_middle (a := j) (l₁ := l.takeWhile fun i => c i ≤ c j) (l₂ := l.dropWhile fun i => c i ≤ c j)
  rwa [List.takeWhile_append_dropWhile] at h

theorem rankAll_perm (c : Nat → Nat) (js l : List Nat) : (rankAll c js l).Perm (js ++ l) := by
  induction js generalizing l with
  | nil => exact .refl l
  | cons j js ih => exact (ih (rankInsert c j l)).trans (((rankInsert_perm c j l).append_left js).trans List.perm_middle)

/-- An output that comes after the listed ones by number keeps a list in the order of the ranks. -/
theorem rankInsert_ordered {c : Nat → Nat} {j : Nat} {l : List Nat} (h : l.Pairwise (RankedBefore c))
    (hj : ∀ i ∈ l, i < j) : (rankInsert c j l).Pairwise (RankedBefore c) := by
  induction l with
  | nil => exact List.pairwise_singleton ..
  | cons a l ih =>
    obtain ⟨ha, hl⟩ := List.pairwise_cons.mp h
    by_cases hc : c a ≤ c j
    · have hr : rankInsert c j (a :: l) = a :: rankInsert c j l := by simp [rankInsert, hc]
      rw [hr, List.pairwise_cons]
      refine ⟨fun b hb => ?_, ih hl fun i hi => hj i (List.mem_cons_of_mem _ hi)⟩
      rcases List.mem_cons.mp ((rankInsert_perm c j l).mem_iff.mp hb) with rfl | hb
      · have := hj a List.mem_cons_self
        unfold RankedBefore
        omega
      · exact ha b hb
    · have hr : rankInsert c j (a :: l) = j :: a :: l := by simp [rankInsert, hc]
      rw [hr, List.pairwise_cons]
      refine ⟨fun b hb => .inl ?_, h⟩
      rcases List.mem_cons.mp hb with rfl | hb
      · omega
      · have := ha b hb
        unfold RankedBefore at this
        omega

theorem rankAll_ordered {c : Nat → Nat} {js l : List Nat} (hjs : js.Pairwise (· < ·)) (h : l.Pairwise (RankedBefore c))
    (hl : ∀ i ∈ l, ∀ j ∈ js, i < j) : (rankAll c js l).Pairwise (RankedBefore c) := by
  induction js generalizing l with
  | nil => exact h
  | cons j js ih =>
    obtain ⟨hj, hjs⟩ := List.pairwise_cons.mp hjs
    refine ih hjs (rankInsert_ordered h fun i hi => hl i hi j List.mem_cons_self) fun i hi k hk => ?_
    rcases List.mem_cons.mp ((rankInsert_perm c j l).mem_iff.mp hi) with rfl | hi
    · exact hj k hk
    · exact hl i hi k (List.mem_cons_of_mem _ hk)

section
variable (c : Nat → Nat) (n : Nat)

/-- The outputs that have a value, by number, and all of them in the order of the ranks. -/
theorem rankAll_values_perm : (rankAll c ((List.range 64).filter fun j => c j ≠ 255) []).Perm
    ((List.range 64).filter fun j => c j ≠ 255) := by
  simpa using rankAll_perm c ((List.range 64).filter fun j => c j ≠ 255) []

theorem rankAll_values_ordered :
    (rankAll c ((List.range 64).filter fun j => c j ≠ 255) []).Pairwise (RankedBefore c) :=
  rankAll_ordered (List.pairwise_lt_range.filter _) .nil nofun

theorem rankOf_length : (rankOf c n).length = min n ((List.range 64).filter fun i => c i ≠ 255).length := by
  rw [rankOf_eq_take, List.length_take, (rankAll_values_perm c).length_eq]

theorem rankOf_nodup : (rankOf c n).Nodup := by
  rw [rankOf_eq_take]
  exact ((rankAll_values_perm c).nodup_iff.mpr (List.nodup_range.filter _)).sublist (List.take_sublist ..)

theorem rankOf_ordered : (rankOf c n).Pairwise (RankedBefore c) := by
  rw [rankOf_eq_take]
  exact (rankAll_values_ordered c).sublist (List.take_sublist ..)

/-- An output with a value that is not among the ranks comes after all of them. -/
theorem rankedBefore_of_not_mem {i r : Nat} (hi : i < 64) (hv : c i ≠ 255) (hn : i ∉ rankOf c n) (hr : r ∈ rankOf c n) :
    RankedBefore c r i := by
  have hm : i ∈ rankAll c ((List.range 64).filter fun j => c j ≠ 255) [] :=
    (rankAll_values_perm c).mem_iff.mpr (by simp [hi, hv])
  have ho := rankAll_values_ordered c
  rw [rankOf_eq_take] at hn hr
  rw [← List.take_append_drop n (rankAll c _ [])] at hm ho
  exact (List.pairwise_append.mp ho).2.2 r hr i ((List.mem_append.mp hm).resolve_left hn)

end

theorem campanileArray : Says.CampanileArray := by
  intro k x j tw _
  refine ⟨fun h t => riseTick_minMode_eq_some h x j t, fun h t => riseTick_maxMode_eq_some h x j t,
    fun h => ⟨fun t => capture_of_span h t, capture_none tw⟩, capture_of_noSpan, fun c n _ => ⟨rankOf_length c n,
      rankOf_nodup c n, fun p q hpq hq => ?_, fun i hi hv hn r hr => rankedBefore_of_not_mem c n hi hv hn hr⟩⟩
  have hp : p < (rankOf c n).length := by omega
  simpa only [RankedBefore, ← List.getElem_eq_getD (h := hp) 0, ← List.getElem_eq_getD (h := hq) 0] using
    List.pairwise_iff_getElem.mp (rankOf_ordered c n) p q hp hq hpq

end Sys2Proof.Machine
end

section
/-! Launches of the Campanile array, the chains of them, and the end of an operation (R270, R273, R276, R277). -/

namespace Sys2Proof.Machine

/-! ## A launch (R269, R270) -/

section
variable (s : State) (g : GKey) (x : Nat → Nat)

/-- The latch that a launch leaves, and the flags that it raises. -/
theorem State.core_launchArray : (s.launchArray g x).core (s.coreOf g) =
    { s.core (s.coreOf g) with
      latch := (List.range 64).map fun j =>
        (j, BitVec.ofNat 8 (capture (s.group g).tw (riseTick (s.core (s.coreOf g)) x j)).1) } := by
  simp [State.launchArray, Function.comp_def]

theorem State.group_launchArray : (s.launchArray g x).group g =
    { s.group g with
      tstat := (s.group g).tstat ||| (0#1 ++
        BitVec.ofBool ((List.range 64).any fun j => (capture (s.group g).tw (riseTick (s.core (s.coreOf g)) x j)).2.2) ++
        BitVec.ofBool ((List.range 64).any fun j => (capture (s.group g).tw (riseTick (s.core (s.coreOf g)) x j)).2.1)) } := by
  simp [State.launchArray, Function.comp_def]

theorem State.captured_launchArray {j : Nat} (hj : j < 64) : ((s.launchArray g x).core (s.coreOf g)).captured j =
    (capture (s.group g).tw (riseTick (s.core (s.coreOf g)) x j)).1 := by
  rw [State.core_launchArray, Core.captured, Tab.get_map_keys, if_pos (List.mem_range.mpr hj), BitVec.toNat_ofNat]
  exact Nat.mod_eq_of_lt (capture_lt ..)

/-- The flags of a launch, early in bit 0 and over in bit 1. -/
theorem getLsbD_launchFlags (early passed : Bool) : (0#1 ++ BitVec.ofBool passed ++ BitVec.ofBool early).getLsbD 0 = early ∧
    (0#1 ++ BitVec.ofBool passed ++ BitVec.ofBool early).getLsbD 1 = passed := by
  cases early <;> cases passed <;> decide

theorem State.tstat_early_launchArray : ((s.launchArray g x).group g).tstat.getLsbD 0 = ((s.group g).tstat.getLsbD 0 ||
    (List.range 64).any fun j => (capture (s.group g).tw (riseTick (s.core (s.coreOf g)) x j)).2.1) := by
  rw [State.group_launchArray]
  exact (BitVec.getLsbD_or ..).trans (congrArg _ (getLsbD_launchFlags ..).1)

theorem State.tstat_over_launchArray : ((s.launchArray g x).group g).tstat.getLsbD 1 = ((s.group g).tstat.getLsbD 1 ||
    (List.range 64).any fun j => (capture (s.group g).tw (riseTick (s.core (s.coreOf g)) x j)).2.2) := by
  rw [State.group_launchArray]
  exact (BitVec.getLsbD_or ..).trans (congrArg _ (getLsbD_launchFlags ..).2)

end

/-- A group's time on the array changes no group, and of a core the end of the operation alone. -/
theorem State.group_arrayTime (s : State) (g k : GKey) (n : Nat) : (s.arrayTime g n).group k = s.group k := by
  unfold State.arrayTime
  split <;> rfl
theorem State.core_arrayTime (s : State) (g : GKey) (n c : Nat) :
    ∃ b, (s.arrayTime g n).core c = { s.core c with campBusy := b } := by
  unfold State.arrayTime
  split
  · exact ⟨_, rfl⟩
  · rw [State.core_updCore]
    split
    · next h => subst h; exact ⟨_, rfl⟩
    · exact ⟨_, rfl⟩
theorem State.delay_arrayTime (s : State) (g : GKey) (n c i j : Nat) :
    ((s.arrayTime g n).core c).delay i j = (s.core c).delay i j := by
  obtain ⟨b, hcore⟩ := s.core_arrayTime g n c
  rw [hcore]
  rfl
theorem State.captured_arrayTime (s : State) (g : GKey) (n c j : Nat) :
    ((s.arrayTime g n).core c).captured j = (s.core c).captured j := by
  obtain ⟨b, hcore⟩ := s.core_arrayTime g n c
  rw [hcore]
  rfl
@[simp] theorem State.ordered_arrayTime (s : State) (g k : GKey) (n : Nat) : (s.arrayTime g n).ordered k = s.ordered k := by
  unfold State.arrayTime
  split <;> rfl

/-! ## A chain (R273) -/

/-- The captured values launched once more. -/
def State.launchCaptured (s : State) (g : GKey) : State := s.launchArray g (s.core (s.coreOf g)).captured

theorem State.chainSteps_succ (s : State) (g : GKey) (n : Nat) : s.chainSteps g (n + 1) = (s.chainSteps g n).launchCaptured g := by
  induction n generalizing s with
  | zero => rfl
  | succ n ih => exact ih (s.launchCaptured g)

/-- A chain leaves the delays, the mode and the window as they are, and the group on its core. -/
structure KeepsArray (s t : State) (g : GKey) : Prop where
  core : ∃ l, t.core (s.coreOf g) = { s.core (s.coreOf g) with latch := l }
  group : ∃ v, t.group g = { s.group g with tstat := v }
  regions : t.regions = s.regions

theorem KeepsArray.coreOf {s t : State} {g : GKey} (h : KeepsArray s t g) : t.coreOf g = s.coreOf g := by
  obtain ⟨v, hv⟩ := h.group
  unfold State.coreOf
  rw [hv]

theorem KeepsArray.ordered {s t : State} {g : GKey} (h : KeepsArray s t g) : t.ordered g = s.ordered g := by
  unfold State.ordered State.rcb State.region
  rw [h.regions]

theorem KeepsArray.chainSteps (s : State) (g : GKey) (n : Nat) : KeepsArray s (s.chainSteps g n) g := by
  induction n with
  | zero => exact ⟨⟨_, rfl⟩, ⟨_, rfl⟩, rfl⟩
  | succ n ih =>
    obtain ⟨l, hcore⟩ := ih.core
    obtain ⟨v, hgroup⟩ := ih.group
    rw [State.chainSteps_succ]
    refine ⟨?_, ?_, ih.regions⟩
    · rw [← ih.coreOf, State.launchCaptured, State.core_launchArray, ih.coreOf, hcore]
      exact ⟨_, rfl⟩
    · rw [State.launchCaptured, State.group_launchArray, hgroup]
      exact ⟨_, rfl⟩

/-- The rise ticks depend on the delays and the mode alone. -/
theorem riseTick_latch (k : Core) (l : SMap Byte) (x : Nat → Nat) (j : Nat) :
    riseTick { k with latch := l } x j = riseTick k x j := rfl

theorem State.captured_chainSteps_succ (s : State) (g : GKey) (n : Nat) {j : Nat} (hj : j < 64) :
    ((s.chainSteps g (n + 1)).core (s.coreOf g)).captured j = (capture (s.group g).tw
      (riseTick (s.core (s.coreOf g)) ((s.chainSteps g n).core (s.coreOf g)).captured j)).1 := by
  have h := KeepsArray.chainSteps s g n
  obtain ⟨l, hcore⟩ := h.core
  obtain ⟨v, hgroup⟩ := h.group
  have hlaunch := State.captured_launchArray (s.chainSteps g n) g ((s.chainSteps g n).core (s.coreOf g)).captured hj
  rw [State.chainSteps_succ, State.launchCaptured, h.coreOf]
  rw [h.coreOf] at hlaunch
  rw [hlaunch, hgroup, ← riseTick_latch (s.core (s.coreOf g)) l, ← hcore]

/-! ## The end of an operation (R276, R277) -/

theorem exec_campanileOperationComplete (s : State) :
    exec .campanileOperationComplete s = execCampanileOperationComplete s := rfl

theorem State.arrayReady_of_busy {s : State} {c b : Nat} (hb : (s.core c).campBusy = some b) (ht : b ≤ s.cycle) :
    s.arrayReady c = true := by
  simp [State.arrayReady, hb, ht]

/-- The one split of the holder that stands in a tchain. -/
theorem State.chained_of_one {s : State} {c e : Nat} {g : GKey} (hc : (s.core c).camp = some g)
    (he : (s.group g).ents.filter (fun p => decide (p.2.st = .parked .arrayBusy)) = [(e, s.split g e)])
    (hs : (s.split g e).susp = false) : s.chained c = [(g, e)] := by
  have hf : (s.group g).ents.filter (fun p => decide (p.2.st = .parked .arrayBusy) && !p.2.susp) = [(e, s.split g e)] := by
    have hsplit : (s.group g).ents.filter (fun p => decide (p.2.st = .parked .arrayBusy) && !p.2.susp) =
        ((s.group g).ents.filter fun p => decide (p.2.st = .parked .arrayBusy)).filter fun p => !p.2.susp := by
      rw [List.filter_filter]
      exact List.filter_congr fun p _ => Bool.and_comm ..
    rw [hsplit, he]
    simp [hs]
  simp [State.chained, hc, hf]

theorem campanileChain : Says.CampanileChain := by
  refine ⟨fun s g n j hj => s.captured_chainSteps_succ g n hj, fun s c b e g hturn hb ht hc he hs => ?_⟩
  have hone : (s.updCore c fun x => { x with campBusy := none }).chained c = [(g, e)] :=
    State.chained_of_one (by simpa using hc) he hs
  rw [exec_campanileOperationComplete, execCampanileOperationComplete]
  simp [hturn, State.arrayReady_of_busy hb ht, hone]

end Sys2Proof.Machine
end

section
/-! The scalar side of Campanile (R265, R271 to R273, R278): what its instructions answer to a group that none of its lane
instructions holds up. -/

namespace Sys2Proof.Machine
open Sys2Proof.Terms

theorem exec_tacq (s : State) : exec .tacq s = execTacq s := rfl
theorem exec_trel (s : State) : exec .trel s = execTrel s := rfl
theorem exec_twin (a b : BitVec 7) (s : State) : exec (.twin a b) s = execTwin a b s := rfl
theorem exec_tmode (m : BitVec 1) (s : State) : exec (.tmode m) s = execTmode m s := rfl
theorem exec_treset (s : State) : exec .treset s = execTreset s := rfl
theorem exec_tchain (n : BitVec 7) (s : State) : exec (.tchain n) s = execTchain n s := rfl

theorem wellFormed_tchain {n : BitVec 7} (h : n ≠ 0) : WellFormed (.tchain n) = true := bne_iff_ne.mpr h

theorem baseKey_of_home {g : GKey} (h : g.sh = 0) : baseKey g = g := by
  obtain ⟨b, gid, sh⟩ := g
  cases h
  rfl

@[simp] theorem State.coreOf_updCore (s : State) (k : Nat) (f : Core → Core) (g : GKey) :
    (s.updCore k f).coreOf g = s.coreOf g := rfl
theorem State.coreOf_updGroup (s : State) (g : GKey) (f : Group → Group) (hd : (f (s.group g)).die = (s.group g).die)
    (hc : (f (s.group g)).core = (s.group g).core) : (s.updGroup g f).coreOf g = s.coreOf g := by
  simp [State.coreOf, hd, hc]
@[simp] theorem State.core_moved (s : State) (g : GKey) (e k : Nat) (x : DWord) : (moved s g e x).core k = s.core k := rfl

/-! ## The array granted and freed (R265, R266) -/

/-- A free array granted to the first that waits for it: it starts cleared. -/
theorem State.grantArray_of_waiter {s : State} {k e : Nat} {g : GKey} {r : List (GKey × Nat)}
    (hs : (s.core k).campSaved = []) (hq : (s.core k).campQ = (g, e) :: r) :
    s.grantArray k = (s.updCore k fun x =>
      { x with
        camp := some g, campSince := s.cycle, campQ := r, delays := [], maxMode := false, latch := []
        campBusy := none }).updGroup g fun x => { x with tstat := x.tstat ||| 4 } := by
  simp [State.grantArray, hs, hq]

/-- An array for which nobody waits stays free. -/
theorem State.grantArray_of_nobody {s : State} {k : Nat} (hs : (s.core k).campSaved = []) (hq : (s.core k).campQ = []) :
    s.grantArray k = s.updCore k fun x =>
      { x with camp := none, delays := [], maxMode := false, latch := [], campBusy := none } := by
  simp [State.grantArray, hs, hq]

theorem State.holdsArray_eq_true {s : State} {g : GKey} (h : (s.core (s.coreOf g)).camp = some (baseKey g)) :
    s.holdsArray g = true := decide_eq_true h
theorem State.holdsArray_eq_false {s : State} {g : GKey} (h : (s.core (s.coreOf g)).camp ≠ some (baseKey g)) :
    s.holdsArray g = false := decide_eq_false h

/-- The array freed by its holder, for which nobody waits. -/
theorem State.freeArray_of_nobody {s : State} {g : GKey} (hh : (s.core (s.coreOf g)).camp = some g)
    (hq : (s.core (s.coreOf g)).campQ = []) (hs : (s.core (s.coreOf g)).campSaved = []) :
    s.freeArray g = ((s.bump g.b.r.c 10 (s.cycle - (s.core (s.coreOf g)).campSince)).updGroup g
      fun x => { x with tstat := x.tstat &&& 3 }).updCore (s.coreOf g) fun x =>
        { x with camp := none, delays := [], maxMode := false, latch := [], campBusy := none } := by
  unfold State.freeArray
  rw [if_pos hh]
  exact State.grantArray_of_nobody hs hq

/-- The claim of a split put at the end of its core's queue. -/
def State.queueClaim (s : State) (g : GKey) (e : Nat) : State :=
  s.updCore (s.coreOf g) fun x => { x with campQ := x.campQ ++ [(g, e)] }

section
variable (s : State) (g : GKey) (e : Nat)

@[simp] theorem State.coreOf_queueClaim : (s.queueClaim g e).coreOf g = s.coreOf g := rfl
@[simp] theorem State.group_queueClaim : (s.queueClaim g e).group g = s.group g := rfl
@[simp] theorem State.core_queueClaim : (s.queueClaim g e).core (s.coreOf g) =
    { s.core (s.coreOf g) with campQ := (s.core (s.coreOf g)).campQ ++ [(g, e)] } := State.core_updCore_self ..

end

/-- A split's claim is put into the queue once. -/
theorem State.queueClaim_of_new {s : State} {g : GKey} {e : Nat} (h : (s.core (s.coreOf g)).campQ.contains (g, e) = false) :
    (if (s.core (s.coreOf g)).campQ.contains (g, e) then s
      else s.updCore (s.coreOf g) fun x => { x with campQ := x.campQ ++ [(g, e)] }) = s.queueClaim g e := by
  rw [h]
  rfl

/-! ## The checks of the scalar side (R271, R272, R278) -/

/-- A vector group that issues a scalar instruction, with no lane instruction of Campanile to wait for. -/
structure CampReady (s : State) (g : GKey) (e : Nat) : Prop where
  ready : Ready s g e
  vec : (s.group g).vec = true
  quiet : s.laneBusy g e .campanile (s.laneMark g e) = false

section
variable {s t : State} {g : GKey} {e : Nat} {f : State → GKey → Nat → Ends}

theorem CampReady.home (h : CampReady s g e) : baseKey g = g := baseKey_of_home h.ready.issues.home

theorem CampReady.check (h : CampReady s g e) : s.issueCheck g e true { vec := true, stalls := true } = none := by
  simp [State.issueCheck, h.vec]

theorem CampReady.await (h : CampReady s g e) (k : Ends) : s.awaitLanes g e .campanile k = k := by
  simp [State.awaitLanes, h.quiet]

theorem campOp_of_due (h : CampReady s g e) (hd : s.arrayDue g = true) :
    campOp true f s = .next (s.park g e .array) := by
  rw [campOp, scalarOp_ok h.ready.issues h.check, h.await, if_pos hd]
  rfl

section
variable (h : CampReady s g e) (hd : s.arrayDue g = false)
include h hd

theorem campOp_effect : s.awaitLanes g e .campanile (if s.arrayDue g then .park s .array else f s g e) = f s g e := by
  rw [h.await, hd]
  rfl

theorem campOp_park {p : Park} (hf : f s g e = .park t p) : campOp true f s = .next (t.park g e p) := by
  rw [campOp, scalarOp_ok h.ready.issues h.check, campOp_effect h hd, hf]
  rfl

theorem campOp_run (hf : f s g e = .next t) (hs : SameFlow s t g e) :
    campOp true f s = .next (moved t g e (next s g e)) :=
  scalarOp_run h.ready h.check ((campOp_effect h hd).trans hf) hs

theorem campOp_fault {k : FaultInfo} (hf : f s g e = .fault s k) : campOp true f s = .next (s.scalarFault g e k) :=
  scalarOp_fault h.ready.issues h.check ((campOp_effect h hd).trans hf)

theorem campHeld_of_unheld (hh : s.holdsArray g = false) :
    campHeld true f s = .next (s.scalarFault g e { kind := 0x12 }) :=
  campOp_fault h hd (if_neg (by simp [hh]))

theorem campHeld_park {p : Park} (hh : s.holdsArray g = true) (hf : f s g e = .park t p) :
    campHeld true f s = .next (t.park g e p) :=
  campOp_park h hd ((if_pos hh).trans hf)

theorem campHeld_run (hh : s.holdsArray g = true) (hf : f s g e = .next t) (hs : SameFlow s t g e) :
    campHeld true f s = .next (moved t g e (next s g e)) :=
  campOp_run h hd ((if_pos hh).trans hf) hs

end

/-- The instructions that need the array. -/
theorem exec_eq_campHeld {i : Instr} (hi : i = .treset ∨ i = .trel ∨ (∃ m, i = .tmode m) ∨ ∃ n, n ≠ 0 ∧ i = .tchain n) :
    ∃ f, ∀ s, exec i s = campHeld true f s := by
  rcases hi with rfl | rfl | ⟨m, rfl⟩ | ⟨n, hn, rfl⟩
  · exact ⟨_, exec_treset⟩
  · exact ⟨_, exec_trel⟩
  · exact ⟨_, exec_tmode m⟩
  · exact ⟨_, fun s => by rw [exec_tchain, execTchain, wellFormed_tchain hn]⟩

/-- All the instructions of the scalar side. -/
theorem exec_eq_campOp {i : Instr} (hi : i = .tacq ∨ i = .treset ∨ i = .trel ∨ (∃ a b, i = .twin a b) ∨
    (∃ m, i = .tmode m) ∨ ∃ n, n ≠ 0 ∧ i = .tchain n) : ∃ f, ∀ s, exec i s = campOp true f s := by
  rcases hi with rfl | rfl | rfl | ⟨a, b, rfl⟩ | ⟨m, rfl⟩ | ⟨n, hn, rfl⟩
  · exact ⟨_, exec_tacq⟩
  · exact ⟨_, fun s => by rw [exec_treset, execTreset, campHeld]⟩
  · exact ⟨_, fun s => by rw [exec_trel, execTrel, campHeld]⟩
  · exact ⟨_, exec_twin a b⟩
  · exact ⟨_, fun s => by rw [exec_tmode, execTmode, campHeld]⟩
  · exact ⟨_, fun s => by rw [exec_tchain, execTchain, wellFormed_tchain hn, campHeld]⟩

/-! ## Each instruction -/

section
variable (h : CampReady s g e) (hd : s.arrayDue g = false)
include h hd

theorem runs_twin (a b : BitVec 7) : Runs (.twin a b) s (s.updGroup g fun x => { x with
    tw := BitVec.ofNat 16 (256 * min (s.getS g e b.toNat).toNat 255 + min (max (s.getS g e a.toNat).toNat 1) 255) }) g e := by
  rw [Nat.mul_comm 256]
  exact (exec_twin a b s).trans (campOp_run h hd rfl (.of_ents (by simp) (by simp)))

theorem runs_tacq_of_held (hh : s.holdsArray g = true) :
    Runs .tacq s (s.updCore (s.coreOf g) fun x => { x with campQ := x.campQ.filter (· != (g, e)) }) g e :=
  (exec_tacq s).trans (campOp_run h hd (if_pos hh) (.of_group rfl))

theorem runs_tmode (hh : s.holdsArray g = true) (m : BitVec 1) :
    Runs (.tmode m) s (s.updCore (s.coreOf g) fun k => { k with maxMode := m == 1 }) g e :=
  (exec_tmode m s).trans (campHeld_run h hd hh rfl (.of_group rfl))

theorem runs_treset (hh : s.holdsArray g = true) :
    Runs .treset s (s.updCore (s.coreOf g) fun k => { k with latch := [] }) g e :=
  (exec_treset s).trans (campHeld_run h hd hh rfl (.of_group rfl))

theorem runs_trel (hh : s.holdsArray g = true) (ho : s.ordered g = false) (hf : SameFlow s (s.freeArray g) g e) :
    Runs .trel s (s.freeArray g) g e :=
  (exec_trel s).trans (campHeld_run h hd hh (by rw [ho]; rfl) hf)

theorem trel_frees (hh : (s.core (s.coreOf g)).camp = some (baseKey g)) (ho : s.ordered g = false)
    (hq : (s.core (s.coreOf g)).campQ = []) (hs : (s.core (s.coreOf g)).campSaved = []) :
    ∃ t, exec .trel s = .next t ∧ (t.core (s.coreOf g)).camp = none ∧
      (t.group g).tstat = (s.group g).tstat &&& 3 ∧ (t.split g e).pc = next s g e := by
  have hfree := State.freeArray_of_nobody (by rwa [h.home] at hh) hq hs
  have hflow : SameFlow s (s.freeArray g) g e := by
    rw [hfree]
    exact .of_ents (by simp) (by simp)
  refine ⟨_, runs_trel h hd (State.holdsArray_eq_true hh) ho hflow, ?_, ?_, ?_⟩
  · simp [moved, hfree]
  · simp [State.moved_group, hfree]
  · simp [State.moved_split]

theorem exec_tchain_of_held (hh : s.holdsArray g = true) (ho : s.ordered g = false) {n : BitVec 7} (hn : n ≠ 0) :
    exec (.tchain n) s = .next
      (((s.chainSteps g n.toNat).arrayTime g (n.toNat * launchTime (s.group g).tw)).park g e .arrayBusy) := by
  rw [exec_tchain, execTchain, wellFormed_tchain hn]
  refine campHeld_park h hd hh ?_
  simp [(KeepsArray.chainSteps s g n.toNat).ordered, ho]

/-- A free array for which nobody waits goes to the split that asks for it. -/
theorem tacq_takes (hc : (s.core (s.coreOf g)).camp = none) (hq : (s.core (s.coreOf g)).campQ = [])
    (hs : (s.core (s.coreOf g)).campSaved = []) (ho : s.ordered g = false) :
    ∃ t, exec .tacq s = .next t ∧ (t.core (s.coreOf g)).camp = some g ∧ (t.core (s.coreOf g)).delays = [] ∧
      (t.core (s.coreOf g)).latch = [] ∧ (t.core (s.coreOf g)).maxMode = false ∧
      (t.group g).tstat = (s.group g).tstat ||| 4 ∧ (t.split g e).pc = next s g e := by
  have hgrant : (s.queueClaim g e).grantArray (s.coreOf g) = _ :=
    State.grantArray_of_waiter (g := g) (e := e) (r := []) (by simpa using hs) (by simp [hq])
  have hnew : (s.core (s.coreOf g)).campQ.contains (g, e) = false := by simp [hq]
  have hno : s.holdsArray g = false := State.holdsArray_eq_false (by simp [hc])
  have hyes : ((s.queueClaim g e).grantArray (s.coreOf g)).holdsArray g = true := by
    rw [hgrant]
    exact State.holdsArray_eq_true (by rw [State.coreOf_updGroup _ _ _ rfl rfl]; simp [h.home])
  refine ⟨_, (exec_tacq s).trans (campOp_run h hd (t := (s.queueClaim g e).grantArray (s.coreOf g)) ?_ ?_),
    ?_, ?_, ?_, ?_, ?_, ?_⟩
  · simp only [hno, ho, State.queueClaim_of_new hnew]
    simp [hyes, hc]
  · rw [hgrant]
    exact .of_ents (by simp) (by simp)
  case' refine_3 | refine_4 | refine_5 | refine_6 => rw [State.core_moved, hgrant]; simp
  · simp [State.moved_group, hgrant]
  · simp [State.moved_split]

theorem tacq_queues {k : GKey} (hc : (s.core (s.coreOf g)).camp = some k) (hk : k ≠ baseKey g) (ho : s.ordered g = false)
    (hq : (s.core (s.coreOf g)).campQ.contains (g, e) = false) :
    exec .tacq s = .next ((s.queueClaim g e).park g e .array) := by
  have hno : s.holdsArray g = false := State.holdsArray_eq_false (by simp [hc, hk])
  have hstill : (s.queueClaim g e).holdsArray g = false := State.holdsArray_eq_false (by simp [hc, hk])
  refine (exec_tacq s).trans (campOp_park h hd ?_)
  simp only [hno, ho, State.queueClaim_of_new hq]
  simp [hstill, hc]

end
end

theorem campanileScalar : Says.CampanileScalar := by
  intro s g e hr hv hb c
  have h : CampReady s g e := ⟨hr, hv, hb⟩
  refine ⟨fun hd i hi => ?_, fun hd => ⟨runs_twin h hd, fun hc => ?_, tacq_takes h hd, fun k => tacq_queues h hd,
    fun hc i hi => ?_⟩⟩
  · obtain ⟨f, hf⟩ := exec_eq_campOp hi
    exact (hf s).trans (campOp_of_due h hd)
  · have hh := State.holdsArray_eq_true hc
    exact ⟨runs_tacq_of_held h hd hh, runs_tmode h hd hh, runs_treset h hd hh, trel_frees h hd hc,
      fun n hn ho => exec_tchain_of_held h hd hh ho hn⟩
  · obtain ⟨f, hf⟩ := exec_eq_campHeld hi
    exact (hf s).trans (campHeld_of_unheld h hd (State.holdsArray_eq_false hc))

end Sys2Proof.Machine
end

section
/-! How a lane instruction ends that waits or that faults as a whole, and what one leaves whose result comes later (R29,
R147). -/

namespace Sys2Proof.Terms
open Sys2Proof.Machine

/-! ## What the checks of a plain lane instruction find -/

section
variable {s : State} {g : GKey} {e : Nat} {i : Instr} {x : LArgs}

theorem LaneIssues.actor (h : LaneIssues s g e i x) : s.actor = (g, e) := by simp [State.actor, h.turn]

theorem LaneIssues.regs (h : LaneIssues s g e i x) : ∃ r, laneRegs i = some r := by
  have := h.args
  cases i <;> simp_all [laneArgsOf, laneRegs]

theorem LaneIssues.inBudget (h : LaneIssues s g e i x) {r : LRegs} (hr : laneRegs i = some r) :
    (r.vd ++ r.vs ++ r.xs ++ r.half).any (fun n => decide (n ≥ (s.group g).budget)) = false := by
  rw [List.any_eq_false]
  intro n hn
  have := h.budget r hr n hn
  simpa using this

theorem LaneIssues.evenPairs (h : LaneIssues s g e i x) {r : LRegs} (hr : laneRegs i = some r) :
    r.pairs.any (fun n => n % 2 == 1) = false := by
  rw [List.any_eq_false]
  intro n hn
  simp [h.pairs r hr n hn]

theorem LaneIssues.activeOf (h : LaneIssues s g e i x) : s.activeOf g (s.head g e) x.m.toNat = active s g e x := by
  simp [State.activeOf, h.once, active]

end

end Sys2Proof.Terms

namespace Sys2Proof.Machine
open Sys2Proof.Terms

/-! ## Issue without an effect -/

section
variable {s t : State} {g : GKey} {e : Nat} {i : Instr} {x : LArgs} {w : Bool} {f : State → LCtx → LEnds}

/-- What a plain lane instruction answers that waits, and that faults as a whole (R29). -/
theorem laneIssue_unissued (h : LaneReady s g e i x) (hi : ∀ y, i ≠ .lend y) :
    (∀ p, f s (plainCtx s g e x) = .wait t p →
      laneIssue i x w f s = .next (t.updSplit g e fun y => { y with lpark := some p })) ∧
    ∀ k, f s (plainCtx s g e x) = .whole k →
      laneIssue i x w f s = .next (((s.count g e).advanceLane g e false false).takeTrap g
        { recs := [State.frec k 255 e true (s.head g e).pc (s.head g e).lrunPc], e, lanei := true
          src := .lane e (s.head g e) (laneWord i) (active s g e x) }) := by
  obtain ⟨h, hold⟩ := h
  obtain ⟨r, hr⟩ := h.regs
  have hh := hold r hr
  have hnone : ∀ m : Word, m ||| 0 = m := fun m => BitVec.or_zero
  have hall : ∀ m : Word, m &&& ~~~(0 : Word) = m := fun m => BitVec.and_allOnes (x := m)
  have hctx : ({ g, e, blk := s.head g e, act := (active s g e x ||| 0) &&& ~~~0, active := active s g e x ||| 0
                 src := active s g e x &&& ~~~0 } : LCtx) = plainCtx s g e x := by
    simp only [plainCtx, hall, hnone]
  refine ⟨fun p hf => ?_, fun k hf => ?_⟩
  all_goals
    unfold laneIssue
    simp only [h.actor, hr, Option.getD_some, h.formed, h.vec, h.inBudget hr, h.evenPairs hr, h.noFork, hh,
      unknown_zero hh, h.activeOf, hctx, hf]
  · simp
  · simp [h.once, h.fresh, deferredRec]

theorem laneIssue_wait {p : LPark} (h : LaneReady s g e i x) (hi : ∀ y, i ≠ .lend y)
    (hf : f s (plainCtx s g e x) = .wait t p) :
    laneIssue i x w f s = .next (t.updSplit g e fun y => { y with lpark := some p }) := (laneIssue_unissued h hi).1 p hf

theorem laneIssue_whole {k : FaultInfo} (h : LaneReady s g e i x) (hi : ∀ y, i ≠ .lend y)
    (hf : f s (plainCtx s g e x) = .whole k) :
    laneIssue i x w f s = .next (((s.count g e).advanceLane g e false false).takeTrap g
      { recs := [State.frec k 255 e true (s.head g e).pc (s.head g e).lrunPc], e, lanei := true
        src := .lane e (s.head g e) (laneWord i) (active s g e x) }) := (laneIssue_unissued (t := s) h hi).2 k hf

end

/-! ## What a lane instruction that has retired leaves -/

/-- An entry whose lane instruction has retired: its queue stands at the next word. -/
def Split.laneDone (hold : Bool) (p : Split) : Split :=
  { p with
    retired := p.retired + 1
    hold := hold
    lpark := none
    lfront := none
    queue := match p.queue with
      | [] => []
      | b :: r => if b.again.isSome then r else { b with pc := b.pc + 12, dfault := false } :: r }

/-- The group of that entry. -/
def Group.laneDone (e : Nat) (h : Bool) (x : Group) : Group :=
  { x with
    retired := x.retired + 1
    q := { x.q with count := x.q.count + 1 }
    ents := x.ents.put e ((x.ents.get {} e).laneDone (h && x.outst.any fun o => o.e == e)) }

section
variable {s t : State} {g : GKey} {e : Nat} {x : LArgs}

theorem laneMoved_eq (hg : g.sh = 0) (he : ((t.group g).ents.get? e).isSome = true) :
    laneMoved t g e x false = (t.updGroup g (Group.laneDone e x.h)).bump g.b.r.c 0 1 := by
  obtain ⟨p, hp⟩ := Option.isSome_iff_exists.mp he
  have hget : (t.group g).ents.get {} e = p := by simp [Tab.get, hp]
  simp only [laneMoved, State.count, hg, if_true, State.advanceLane, State.updSplit, State.group_bump, State.updGroup_bump,
    State.updGroup_updGroup, State.group_updGroup_self]
  refine congrArg (fun u : State => u.bump g.b.r.c 0 1) (State.updGroup_congr ?_)
  simp only [Group.laneDone, Split.laneDone, Tab.upd, hp, hget, Tab.get_put_self, Tab.put_put]
  cases p.queue <;> simp only [Bool.false_or]

theorem State.group_laneMoved (hg : g.sh = 0) (he : ((t.group g).ents.get? e).isSome = true) :
    (laneMoved t g e x false).group g = (t.group g).laneDone e x.h := by
  rw [laneMoved_eq hg he, State.group_bump, State.group_updGroup_self]

theorem State.split_laneMoved (hg : g.sh = 0) (he : ((t.group g).ents.get? e).isSome = true) (i : Nat) :
    (laneMoved t g e x false).split g i =
      if e = i then (t.split g e).laneDone (x.h && (t.group g).outst.any fun o => o.e == e) else t.split g i := by
  rw [State.split, State.group_laneMoved hg he]
  exact Tab.get_put ..

theorem State.core_laneMoved (t : State) (g : GKey) (e : Nat) (x : LArgs) (k : Nat) :
    (laneMoved t g e x false).core k = t.core k := by
  unfold laneMoved State.count State.advanceLane
  dsimp only
  split <;> rfl

/-- The block at the head of the queue of a split moves on to its next word. -/
theorem queue_laneDone {i : Instr} (h : LaneIssues s g e i x) (hold : Bool) :
    ((s.split g e).laneDone hold).queue = { s.head g e with pc := (s.head g e).pc + 12 } :: (s.split g e).queue.tail := by
  have hq := h.queue
  have hon := h.once
  have hfr := h.fresh
  unfold State.head at hon hfr ⊢
  cases hs : (s.split g e).queue with
  | nil => exact absurd hs hq
  | cons b r =>
    simp only [hs, List.headD_cons] at hon hfr
    simp [Split.laneDone, hs, hon, ← hfr]

/-! ## Results that come later (R147) -/

/-- A group with one more result outstanding. -/
def Group.await (o : Outst) (x : Group) : Group := { x with outst := x.outst ++ [o], nextId := x.nextId + 1 }

theorem State.addOutst_eq (s : State) (g : GKey) (o : Outst) : s.addOutst g o =
    s.updGroup g (Group.await { o with id := (s.group g).nextId, issued := s.cycle, blk := (s.head g o.e).id }) := rfl

/-- A lane instruction whose result comes later leaves everything but the results outstanding, its count and its queue. -/
theorem laneFrame_await {i : Instr} (h : LaneIssues s g e i x) (o : Outst) :
    LaneFrame s (laneMoved (s.updGroup g (Group.await o)) g e x false) g e [] := by
  have he : (((s.updGroup g (Group.await o)).group g).ents.get? e).isSome = true := by
    rw [State.group_updGroup_self]
    exact h.entry
  have hsplit0 : ∀ i, (s.updGroup g (Group.await o)).split g i = s.split g i := fun i => by
    rw [State.split, State.group_updGroup_self]
    rfl
  have hgroup := State.group_laneMoved (x := x) h.home he
  have hsplit := State.split_laneMoved (x := x) h.home he
  simp only [hsplit0, State.group_updGroup_self] at hgroup hsplit
  have hself := (hsplit e).trans (if_pos rfl)
  have heq := laneMoved_eq (x := x) h.home he
  refine ⟨fun n _ => ?_, ?_, fun i n => ?_, ?_, fun i hi => ?_, ?_, fun k hk => ?_, ?_, ?_, ?_, ?_⟩
  · rw [State.getV, hgroup]
    rfl
  · rw [heq]
    exact .of_fields rfl rfl rfl rfl
  · unfold State.getS
    rw [hgroup, hsplit]
    split
    · rfl
    · split
      · split
        · next hi => subst hi; rfl
        · rfl
      · rfl
  · rw [hself]
    exact ⟨rfl, rfl, rfl, rfl⟩
  · rw [hsplit, if_neg (Ne.symm hi)]
  · constructor <;> rw [hgroup] <;> rfl
  · rw [heq, State.group_bump, State.group_updGroup_ne _ _ hk.symm, State.group_updGroup_ne _ _ hk.symm]
  · rw [heq]
    rfl
  · rw [heq]
    rfl
  · rw [hself]
    exact queue_laneDone h _
  · rw [hgroup]
    rfl

theorem outst_laneMoved_await {i : Instr} (h : LaneIssues s g e i x) (o : Outst) :
    ((laneMoved (s.updGroup g (Group.await o)) g e x false).group g).outst = (s.group g).outst ++ [o] := by
  rw [State.group_laneMoved h.home (by rw [State.group_updGroup_self]; exact h.entry), State.group_updGroup_self]
  rfl

end

end Sys2Proof.Machine
end

section
/-! The lanes of a mask, and the elements of a lane (R5, R49). -/

namespace Sys2Proof.Machine

theorem mem_lanesOf {m : Word} {l : Nat} : l ∈ lanesOf m ↔ m.getLsbD l = true := by
  have hlt : m.getLsbD l = true → l < 32 := BitVec.lt_of_getLsbD
  simpa [lanesOf] using hlt

theorem elMap_succ (w n : Nat) (f : Nat → Nat) :
    elMap w (n + 1) f = elMap w n f + f n % 2 ^ w * 2 ^ (w * n) := by
  rw [elMap, List.range_succ, List.foldl_append]
  rfl

theorem elMap_lt (w n : Nat) (f : Nat → Nat) : elMap w n f < 2 ^ (w * n) := by
  induction n with
  | zero => exact Nat.one_pos
  | succ n ih =>
    have hv : f n % 2 ^ w < 2 ^ w := Nat.mod_lt _ (Nat.two_pow_pos w)
    calc elMap w (n + 1) f
      _ = elMap w n f + f n % 2 ^ w * 2 ^ (w * n) := elMap_succ w n f
      _ < 2 ^ (w * n) + f n % 2 ^ w * 2 ^ (w * n) := Nat.add_lt_add_right ih _
      _ = (f n % 2 ^ w + 1) * 2 ^ (w * n) := by rw [Nat.succ_mul, Nat.add_comm]
      _ ≤ 2 ^ w * 2 ^ (w * n) := Nat.mul_le_mul_right _ hv
      _ = 2 ^ (w * (n + 1)) := by rw [← Nat.pow_add, Nat.mul_succ, Nat.add_comm]

/-- Each element of a lane built element by element. -/
theorem elGet_elMap {w n i : Nat} (f : Nat → Nat) (hi : i < n) : elGet w (elMap w n f) i = f i % 2 ^ w := by
  induction n with
  | zero => omega
  | succ n ih =>
    rw [elGet, elMap_succ]
    by_cases h : i = n
    · subst h
      rw [Nat.add_mul_div_right _ _ (Nat.two_pow_pos _), Nat.div_eq_of_lt (elMap_lt w i f), Nat.zero_add, Nat.mod_mod]
    · obtain ⟨d, rfl⟩ : ∃ d, n = i + 1 + d := ⟨n - (i + 1), by omega⟩
      have hp : f (i + 1 + d) % 2 ^ w * 2 ^ (w * (i + 1 + d)) =
          2 ^ (w * i) * (2 ^ w * (f (i + 1 + d) % 2 ^ w * 2 ^ (w * d))) := by
        rw [Nat.mul_add, Nat.mul_succ, Nat.pow_add, Nat.pow_add]
        ac_rfl
      rw [hp, Nat.add_mul_div_left _ _ (Nat.two_pow_pos _), Nat.add_mul_mod_self_left]
      exact ih (by omega)

end Sys2Proof.Machine
end

section
/-! The lane side of Campanile (R274 to R276, R278), and the obligation. -/

namespace Sys2Proof.Machine
open Sys2Proof.Terms

theorem exec_tdly (x : LArgs) (s : State) : exec (.tdly x) s = execTdly x s := rfl
theorem exec_tlaunch (x : LArgs) (s : State) : exec (.tlaunch x) s = execTlaunch x s := rfl
theorem exec_tcap (x : LArgs) (s : State) : exec (.tcap x) s = execTcap x s := rfl
theorem exec_trank (x : LArgs) (s : State) : exec (.trank x) s = execTrank x s := rfl

/-! ## The checks of the lane side (R274, R276, R278) -/

section
variable {s t : State} {g : GKey} {e : Nat} {i : Instr} {x : LArgs}

/-- The Campanile lane instructions. -/
def CampLaneInstr (x : LArgs) (i : Instr) : Prop := i = .tdly x ∨ i = .tlaunch x ∨ i = .tcap x ∨ i = .trank x

theorem exec_eq_campLane (hi : CampLaneInstr x i) : ∃ f, ∀ s, exec i s = campLane i x f s := by
  rcases hi with rfl | rfl | rfl | rfl
  · exact ⟨_, fun s => by rw [exec_tdly, execTdly]⟩
  · exact ⟨_, fun s => by rw [exec_tlaunch, execTlaunch]⟩
  · exact ⟨_, fun s => by rw [exec_tcap, execTcap]⟩
  · exact ⟨_, fun s => by rw [exec_trank, execTrank]⟩

theorem CampLaneInstr.ne_lend (hi : CampLaneInstr x i) (y : LArgs) : i ≠ .lend y := by
  rcases hi with rfl | rfl | rfl | rfl <;> simp

variable {f : State → LCtx → LEnds}

theorem campLane_of_due (h : LaneReady s g e i x) (hi : CampLaneInstr x i) (hd : s.arrayDue g = true) :
    campLane i x f s = .next (s.updSplit g e fun p => { p with lpark := some .array }) :=
  laneIssue_wait h hi.ne_lend (if_pos hd)

theorem campLane_of_unheld (h : LaneReady s g e i x) (hi : CampLaneInstr x i) (hd : s.arrayDue g = false)
    (hh : s.holdsArray g = false) :
    campLane i x f s = .next (((s.count g e).advanceLane g e false false).takeTrap g
      { recs := [State.frec { kind := 0x12 } 255 e true (s.head g e).pc (s.head g e).lrunPc], e, lanei := true
        src := .lane e (s.head g e) (laneWord i) (active s g e x) }) :=
  laneIssue_whole h hi.ne_lend (by simp [plainCtx, hd, hh])

/-- A group that holds its array, with no operation under way. -/
structure HoldsIdle (s : State) (g : GKey) : Prop where
  due : s.arrayDue g = false
  camp : (s.core (s.coreOf g)).camp = some (baseKey g)
  idle : (s.core (s.coreOf g)).campBusy = none

theorem campLane_run (h : LaneReady s g e i x) (hi : CampLaneInstr x i) (hh : HoldsIdle s g)
    (hf : f s (plainCtx s g e x) = .ok t []) (he : (t.group g).ents = (s.group g).ents)
    (hs : (t.group g).stepping = (s.group g).stepping) : campLane i x f s = .next (laneMoved t g e x false) :=
  laneIssue_run h hi.ne_lend (by simpa [plainCtx, hh.due, State.holdsArray_eq_true hh.camp, hh.idle] using hf) he hs

/-- A lane instruction that retires leaves the vector registers and the flags of Campanile as its effect leaves them. -/
theorem regs_laneMoved (h : LaneIssues s g e i x) (he : (t.group g).ents = (s.group g).ents) :
    ((laneMoved t g e x false).group g).vregs = (t.group g).vregs ∧
      ((laneMoved t g e x false).group g).tstat = (t.group g).tstat := by
  rw [State.group_laneMoved h.home (by rw [he]; exact h.entry)]
  exact ⟨rfl, rfl⟩

/-! ## tdly (R274) -/

/-- Byte j of a lane of a register. -/
def State.laneByte (s : State) (g : GKey) (n l j : Nat) : Nat := (s.getVL g n l).toNat / 2 ^ (8 * j) % 256

/-- The delays that a tdly stores: their places, and their values. -/
def delayWrites (row : Nat) (act : Word) (byte : Nat → Nat → Nat) : List (Nat × Byte) :=
  (lanesOf act).flatMap fun l => (List.range 4).map fun j =>
    (64 * (row + l / 16) + 4 * (l % 16) + j, BitVec.ofNat 8 (byte l j))

theorem mem_delayWrites {row : Nat} {act : Word} {byte : Nat → Nat → Nat} {w : Nat × Byte} : w ∈ delayWrites row act byte ↔
    ∃ l j, act.getLsbD l = true ∧ j < 4 ∧ w = (64 * (row + l / 16) + 4 * (l % 16) + j, BitVec.ofNat 8 (byte l j)) := by
  simp only [delayWrites, List.mem_flatMap, List.mem_map, List.mem_range, mem_lanesOf]
  constructor
  · rintro ⟨l, hl, j, hj, rfl⟩
    exact ⟨l, j, hl, hj, rfl⟩
  · rintro ⟨l, j, hl, hj, rfl⟩
    exact ⟨l, hl, j, hj, rfl⟩

/-- The place of a delay names its row, its lane and its byte. -/
theorem delayPlace_eq {row l j r k : Nat} (hl : l < 32) (hj : j < 4) (hk : k < 64)
    (h : 64 * (row + l / 16) + 4 * (l % 16) + j = 64 * r + k) :
    row ≤ r ∧ r ≤ row + 1 ∧ l = k / 4 + 16 * (r - row) ∧ j = k % 4 := by omega

theorem get_delayWrites (t : SMap Byte) (row : Nat) (act : Word) (byte : Nat → Nat → Nat) {r k : Nat} (hk : k < 64) :
    ((delayWrites row act byte).foldl (fun m w => m.put w.1 w.2) t).get 255 (64 * r + k) =
      if row ≤ r ∧ r ≤ row + 1 ∧ act.getLsbD (k / 4 + 16 * (r - row)) = true
      then BitVec.ofNat 8 (byte (k / 4 + 16 * (r - row)) (k % 4)) else t.get 255 (64 * r + k) := by
  split
  · next h =>
    obtain ⟨hlo, hhi, hl⟩ := h
    refine Tab.get_foldl_put _ Prod.fst Prod.snd _ _ (fun w hw hkey => ?_) (.inl ⟨_, mem_delayWrites.mpr
      ⟨k / 4 + 16 * (r - row), k % 4, hl, Nat.mod_lt _ (by decide), rfl⟩, ?_⟩)
    · obtain ⟨l, j, hl, hj, rfl⟩ := mem_delayWrites.mp hw
      obtain ⟨-, -, rfl, rfl⟩ := delayPlace_eq (BitVec.lt_of_getLsbD hl) hj hk hkey
      rfl
    · show 64 * (row + (k / 4 + 16 * (r - row)) / 16) + 4 * ((k / 4 + 16 * (r - row)) % 16) + k % 4 = 64 * r + k
      omega
  · next h =>
    refine Tab.get_foldl_put_ne _ Prod.fst Prod.snd _ _ fun w hw hkey => h ?_
    obtain ⟨l, j, hl, hj, rfl⟩ := mem_delayWrites.mp hw
    obtain ⟨hlo, hhi, rfl, -⟩ := delayPlace_eq (BitVec.lt_of_getLsbD hl) hj hk hkey
    exact ⟨hlo, hhi, hl⟩

/-- The delays of its Active lanes stored. -/
def State.storeDelays (s : State) (g : GKey) (e : Nat) (x : LArgs) : State :=
  s.updCore (s.coreOf g) fun k =>
    { k with
      delays := (delayWrites x.ext.toNat (active s g e x) (s.laneByte g x.va.toNat)).foldl
        (fun m w => m.put w.1 w.2) k.delays }

theorem exec_tdly_of_holds (h : LaneReady s g e (.tdly x) x) (hh : HoldsIdle s g) :
    exec (.tdly x) s = .next (laneMoved ((s.storeDelays g e x).arrayTime g 2) g e x false) := by
  rw [exec_tdly, execTdly]
  refine campLane_run h (.inl rfl) hh rfl ?_ ?_ <;> rw [State.group_arrayTime] <;> rfl

theorem State.delay_storeDelays (s : State) (g : GKey) (e : Nat) (x : LArgs) {r j : Nat} (hj : j < 64) :
    ((s.storeDelays g e x).core (s.coreOf g)).delay r j =
      if x.ext.toNat ≤ r ∧ r ≤ x.ext.toNat + 1 ∧ (active s g e x).getLsbD (j / 4 + 16 * (r - x.ext.toNat)) = true
      then s.laneByte g x.va.toNat (j / 4 + 16 * (r - x.ext.toNat)) (j % 4) else (s.core (s.coreOf g)).delay r j := by
  rw [State.storeDelays, State.core_updCore_self, Core.delay, get_delayWrites _ _ _ _ hj, apply_ite BitVec.toNat]
  simp [State.laneByte, Core.delay]

theorem tdly_stores (h : LaneReady s g e (.tdly x) x) (hh : HoldsIdle s g) :
    ∃ t, exec (.tdly x) s = .next t ∧ (t.group g).vregs = (s.group g).vregs ∧
      ∀ r j, j < 64 → (t.core (s.coreOf g)).delay r j =
        if x.ext.toNat ≤ r ∧ r ≤ x.ext.toNat + 1 ∧ (active s g e x).getLsbD (j / 4 + 16 * (r - x.ext.toNat)) = true
        then s.laneByte g x.va.toNat (j / 4 + 16 * (r - x.ext.toNat)) (j % 4) else (s.core (s.coreOf g)).delay r j := by
  have hgroup : ((s.storeDelays g e x).arrayTime g 2).group g = s.group g := State.group_arrayTime ..
  refine ⟨_, exec_tdly_of_holds h hh, ?_, fun r j hj => ?_⟩
  · rw [(regs_laneMoved h.issues (by rw [hgroup])).1, hgroup]
  · rw [State.core_laneMoved, State.delay_arrayTime]
    exact State.delay_storeDelays s g e x hj

/-! ## tlaunch (R275) -/

/-- The edges that a tlaunch launches: the bytes of its Active lanes. -/
def State.edges (s : State) (g : GKey) (e : Nat) (x : LArgs) (i : Nat) : Nat :=
  if (active s g e x).getLsbD (i / 4) then s.laneByte g x.va.toNat (i / 4) (i % 4) else 255

theorem exec_tlaunch_of_holds (h : LaneReady s g e (.tlaunch x) x) (hh : HoldsIdle s g) :
    exec (.tlaunch x) s = .next (laneMoved ((s.launchArray g (s.edges g e x)).arrayTime g (launchTime (s.group g).tw))
      g e x false) := by
  rw [exec_tlaunch, execTlaunch]
  refine campLane_run h (.inr (.inl rfl)) hh (if_neg ?_) ?_ ?_
  · simp [plainCtx]
  · rw [State.group_arrayTime, State.group_launchArray]
  · rw [State.group_arrayTime, State.group_launchArray]

/-- A tlaunch launches its edges: the latch has the captures, and the flags of the early and the late ones are raised. -/
theorem tlaunch_launches (h : LaneReady s g e (.tlaunch x) x) (hh : HoldsIdle s g) :
    ∃ t, exec (.tlaunch x) s = .next t ∧ (t.group g).vregs = (s.group g).vregs ∧
      (∀ j, j < 64 → (t.core (s.coreOf g)).captured j =
        (capture (s.group g).tw (riseTick (s.core (s.coreOf g)) (s.edges g e x) j)).1) ∧
      (t.group g).tstat.getLsbD 0 = ((s.group g).tstat.getLsbD 0 || (List.range 64).any fun j =>
        (capture (s.group g).tw (riseTick (s.core (s.coreOf g)) (s.edges g e x) j)).2.1) ∧
      (t.group g).tstat.getLsbD 1 = ((s.group g).tstat.getLsbD 1 || (List.range 64).any fun j =>
        (capture (s.group g).tw (riseTick (s.core (s.coreOf g)) (s.edges g e x) j)).2.2) := by
  have hgroup := State.group_arrayTime (s.launchArray g (s.edges g e x)) g g (launchTime (s.group g).tw)
  obtain ⟨hvregs, htstat⟩ := regs_laneMoved (t := (s.launchArray g (s.edges g e x)).arrayTime g (launchTime (s.group g).tw))
    h.issues (by rw [hgroup, State.group_launchArray])
  rw [hgroup] at hvregs htstat
  refine ⟨_, exec_tlaunch_of_holds h hh, ?_, fun j hj => ?_, ?_, ?_⟩
  · rw [hvregs, State.group_launchArray]
  · rw [State.core_laneMoved, State.captured_arrayTime, State.captured_launchArray _ _ _ hj]
  · rw [htstat, State.tstat_early_launchArray]
  · rw [htstat, State.tstat_over_launchArray]

/-! ## tcap and trank (R275) -/

/-- A byte of four ticks. -/
theorem tickLanes_byte (f : Nat → Nat) (l : Nat) {j : Nat} (hj : j < 4) :
    (tickLanes f l).toNat / 2 ^ (8 * j) % 256 = if l < 16 then f (4 * l + j) % 256 else 255 := by
  unfold tickLanes
  split
  · rw [BitVec.toNat_ofNat, Nat.mod_eq_of_lt (elMap_lt 8 4 _)]
    exact elGet_elMap _ hj
  · obtain rfl | rfl | rfl | rfl : j = 0 ∨ j = 1 ∨ j = 2 ∨ j = 3 := by omega
    all_goals decide

/-- Ticks outstanding for a register in the Active lanes. -/
def State.ticksOf (s : State) (g : GKey) (e : Nat) (x : LArgs) (f : Nat → Nat) : Outst :=
  { e, lanes := active s g e x, camp := true
    v := [(x.vd.toNat, (lanesOf (active s g e x)).map fun l => (l, tickLanes f l))]
    id := (s.group g).nextId, issued := s.cycle, blk := (s.head g e).id }

theorem State.laneTicks_plain {f : Nat → Nat} (ha : active s g e x ≠ 0) :
    s.laneTicks (plainCtx s g e x) x.vd.toNat f = s.updGroup g (Group.await (s.ticksOf g e x f)) :=
  (if_neg ha).trans (State.addOutst_eq ..)

theorem find?_map_lane {ls : List Nat} {l : Nat} (f : Nat → Word) (hl : l ∈ ls) :
    (ls.map fun k => (k, f k)).find? (fun p => p.1 == l) = some (l, f l) := by
  induction ls with
  | nil => cases hl
  | cons k ls ih =>
    by_cases h : k = l
    · simp [h]
    · simpa [h] using ih ((List.mem_cons.mp hl).resolve_left (Ne.symm h))

theorem held_ticksOf (f : Nat → Nat) {l : Nat} (hl : (active s g e x).getLsbD l = true) :
    held (s.ticksOf g e x f) x.vd.toNat l = tickLanes f l := by
  simp [held, State.ticksOf, find?_map_lane (tickLanes f) (mem_lanesOf.mpr hl)]

/-- An instruction that leaves ticks outstanding: tcap, and trank. -/
theorem campLane_ticks (h : LaneReady s g e i x) (hi : CampLaneInstr x i) (hh : HoldsIdle s g) (ha : active s g e x ≠ 0)
    {ticks : Nat → Nat} (hf : f s (plainCtx s g e x) = .ok (s.laneTicks (plainCtx s g e x) x.vd.toNat ticks) []) :
    ∃ t, campLane i x f s = .next t ∧ LaneFrame s t g e [] ∧
      (t.group g).outst = (s.group g).outst ++ [s.ticksOf g e x ticks] := by
  rw [State.laneTicks_plain ha] at hf
  exact ⟨_, campLane_run h hi hh hf (by rw [State.group_updGroup_self]; rfl) (by rw [State.group_updGroup_self]; rfl),
    laneFrame_await h.issues _, outst_laneMoved_await h.issues _⟩

theorem exec_tcap_of_holds (h : LaneReady s g e (.tcap x) x) (hh : HoldsIdle s g) (ha : active s g e x ≠ 0) :
    ∃ t, exec (.tcap x) s = .next t ∧ LaneFrame s t g e [] ∧
      (t.group g).outst = (s.group g).outst ++ [s.ticksOf g e x (s.core (s.coreOf g)).captured] := by
  rw [exec_tcap, execTcap]
  exact campLane_ticks h (.inr (.inr (.inl rfl))) hh ha rfl

theorem exec_trank_of_holds (h : LaneReady s g e (.trank x) x) (hh : HoldsIdle s g) (ha : active s g e x ≠ 0) :
    ∃ t, exec (.trank x) s = .next t ∧ LaneFrame s t g e [] ∧ (t.group g).outst = (s.group g).outst ++
      [s.ticksOf g e x fun i => (rankOf (s.core (s.coreOf g)).captured x.ext.toNat).getD i 255] := by
  rw [exec_trank, execTrank]
  exact campLane_ticks h (.inr (.inr (.inr rfl))) hh ha rfl

theorem byte_held_ticksOf (f : Nat → Nat) {l j : Nat} (hl : (active s g e x).getLsbD l = true) (hj : j < 4) :
    (held (s.ticksOf g e x f) x.vd.toNat l).toNat / 2 ^ (8 * j) % 256 = if l < 16 then f (4 * l + j) % 256 else 255 := by
  rw [held_ticksOf f hl, tickLanes_byte f l hj]

end

theorem campanileLanes : Says.CampanileLanes := by
  intro s g e x on byte c
  refine ⟨fun hd hc hb => ?_, fun hd i hi h => ?_, fun hd hc i hi h => ?_⟩
  · have hh : HoldsIdle s g := ⟨hd, hc, hb⟩
    refine ⟨fun h => tdly_stores h hh, fun h => tlaunch_launches h hh, fun h ha => ?_, fun h ha => ?_⟩
    · obtain ⟨t, ht, hframe, hout⟩ := exec_tcap_of_holds h hh ha
      exact ⟨t, _, ht, hframe, hout, rfl, rfl, fun l hl j hj => byte_held_ticksOf _ hl hj⟩
    · obtain ⟨t, ht, hframe, hout⟩ := exec_trank_of_holds h hh ha
      exact ⟨t, _, ht, hframe, hout, rfl, fun l hl j hj => byte_held_ticksOf _ hl hj⟩
  · obtain ⟨f, hf⟩ := exec_eq_campLane hi
    exact (hf s).trans (campLane_of_due h hi hd)
  · obtain ⟨f, hf⟩ := exec_eq_campLane hi
    exact (hf s).trans (campLane_of_unheld h hi hd (State.holdsArray_eq_false hc))

/-- Settles O32: the array by the sums that rise, the ranks by insertion in the order of the outputs; a chain by one launch
more; each instruction by its effect once its checks pass. -/
theorem campanile : Obligations.Campanile := by
  unfold Obligations.Campanile
  exact ⟨campanileLanes, campanileArray, campanileScalar, campanileChain⟩

end Sys2Proof.Machine
end
